-- ==== Sys2Proof/Word.lean ====
section
/-! DEFINITION. The word types, and the names of the two rings and the two directions (00_scope R8). -/

namespace Sys2Proof

/-- One byte of descriptor or buffer memory. -/
abbrev Byte := BitVec 8

/-- A command word, a response word, a descriptor's status or length, a device register. -/
abbrev Word := BitVec 32

/-- A device address, `DA_W` = 64 bits (R6). -/
abbrev DAddr := BitVec 64

/-- A ring selector `r` (R8). -/
inductive Ring where
  | rx
  | tx
deriving DecidableEq, Repr, Inhabited

/-- A direction `dir` (R8): `inbound`, the device writes the buffer; `outbound`, it reads it. -/
inductive Dir where
  | inbound
  | outbound
deriving DecidableEq, Repr, Inhabited

/-- `v[hi:lo]` of R8, the bit slice as an unsigned number. -/
def slice (v : Word) (hi lo : Nat) : Nat := v.toNat / 2 ^ lo % 2 ^ (hi - lo + 1)

end Sys2Proof
end

