-- ==== Sys2Proof/Config.lean ====
section
/-! DEFINITION. What an implementation fixes (00_scope R6), the agents and the moves they can make
(R12, R102), and the free values the spec leaves open (10_state R44, R45). -/

namespace Sys2Proof

/-- The parameters of R6. `DESC_SIZE`, `DA_W`, `HANDLE_W` and `CNT_W` are fixed and stand in the types. -/
structure Config where
  /-- `N_RX`, the number of descriptors of the RX ring. -/
  nRx : Nat
  /-- `N_TX`, the number of descriptors of the TX ring. -/
  nTx : Nat
  /-- `POOL_SIZE`, the number of buffers. -/
  poolSize : Nat
  /-- `BUF_SIZE`, the bytes of one buffer. -/
  bufSize : Nat
  /-- `COHERENT`. The step order is the same for both values (93 Q3), so no rule reads it. -/
  coherent : Bool
  /-- `XLATE`, the translator's table: entry `h` is the device address of buffer `h` (R67). -/
  xlate : List DAddr
  /-- `RX_BASE`, the address of RX descriptor 0. -/
  rxBase : DAddr
  /-- `TX_BASE`, the address of TX descriptor 0. -/
  txBase : DAddr
  /-- `REG_ISR`, `REG_TXCTL`, `REG_RESET`: register offsets. -/
  regIsr : Word
  regTxctl : Word
  regReset : Word
  /-- `ISR_RX_DONE`, `ISR_TX_DONE`, `ISR_LINK`, `ISR_ERR`: the bit numbers of the four causes. -/
  isrRxDone : Nat
  isrTxDone : Nat
  isrLink : Nat
  isrErr : Nat
  /-- `TX_KICK_VALUE`. -/
  txKickValue : Word
  /-- `RESET_BOUND`, a count of reads (R186). -/
  resetBound : Nat
  /-- `K_UP`, the number of concurrent upstream callers. -/
  kUp : Nat
deriving DecidableEq, Repr

/-- The identity string of R2. -/
def Config.identity : String := "DRE/AX900-ring-engine/doc-v7"

/-- `DESC_SIZE`, fixed (R6). -/
def Config.descSize : Nat := 16

/-- DESIGN CHOICE (log entry 1): the example column of R6, which 95_test_vectors uses. -/
def Config.sample : Config where
  nRx := 4
  nTx := 4
  poolSize := 8
  bufSize := 2048
  coherent := false
  xlate := [0x80000000, 0x80000800, 0x80001000, 0x80001800, 0x80002000, 0x80002800, 0x80003000, 0x80003800]
  rxBase := 0x1000
  txBase := 0x2000
  regIsr := 0x00
  regTxctl := 0x04
  regReset := 0x08
  isrRxDone := 0
  isrTxDone := 1
  isrLink := 2
  isrErr := 3
  txKickValue := 1
  resetBound := 3
  kUp := 2

/-- The four host contexts of R12. -/
inductive Ctx where
  | drv
  | up (k : Nat)
  | irq
  | poll
deriving DecidableEq, Repr, Inhabited

/-- The four command ports of R94. -/
inductive Port where
  | drv
  | up
  | irq
  | poll
deriving DecidableEq, Repr

/-- The port a context's commands come in on (R94). -/
def Ctx.port : Ctx → Port
  | .drv => .drv
  | .up _ => .up
  | .irq => .irq
  | .poll => .poll

/-- The spaces whose bytes are unspecified until written (R45). -/
inductive Space where
  | desc
  | buf
deriving DecidableEq, Repr

/-- One move of an agent: what the interleaving of R10 chooses. The moves of `DEV` and `ENV` are
those of 46_device and the directives of 30_encoding R102. A move whose agent has no such step
enabled changes nothing. -/
inductive Move where
  /-- Context `c` takes a micro-step and then up to `more` further ones in a row (log entry 7). -/
  | run (c : Ctx) (more : Nat)
  /-- A command word is offered at the port of context `c` (R97). -/
  | offer (c : Ctx) (w : Word)
  /-- `DEV_RX_COMPLETE` begins on RX slot `i` with its draws: the length, the error bit, the bytes (R196). -/
  | rxComplete (i : Nat) (len : Word) (err : Bool) (bytes : List Byte)
  /-- `DEV_TX_COMPLETE` begins on TX slot `i` (R197). -/
  | txComplete (i : Nat) (err : Bool)
  /-- The `j`-th completion in progress makes its next access and then up to `more` further ones. -/
  | device (j : Nat) (more : Nat)
  /-- `DEV_RAISE` (R198). -/
  | raise (bits : Word)
  /-- `DEV_RESET_ACK` with the value `ISR` takes (R199). -/
  | resetAck (isr : Word)
  /-- Upstream caller `k` writes `bytes` into `BUF[h][off..]` (R201). -/
  | fill (k h off : Nat) (bytes : List Byte)
  /-- The next `map_ok` draws (R102, R114). -/
  | mapOk (bs : List Bool)
  /-- The next `rst_ack` draws, one per read of `RESET` (R44, R102, R186). -/
  | rstAck (bs : List Bool)
  /-- The next values the device leaves in `ISR` at an acknowledge (R199). -/
  | ackIsr (ws : List Word)
  /-- The surrounding driver sets `line_en` (R219, R241). -/
  | line (on : Bool)
deriving DecidableEq, Repr, Inhabited

/-- FREE VALUE (log entry 6): the agent and step chosen where no script says which (R10). -/
opaque Config.freeMove : Nat → Move

/-- FREE VALUE (log entry 8): the draw `map_ok` of R114. -/
opaque Config.freeMapOk : Nat → Bool

/-- FREE VALUE (log entry 8): the draw `rst_ack` of R186. -/
opaque Config.freeRstAck : Nat → Bool

/-- FREE VALUE (log entry 8): the value the device leaves in `ISR` at an acknowledge (R199). -/
opaque Config.freeAckIsr : Nat → Word

/-- FREE VALUE (log entry 4): what a byte that nothing has written reads as (R45, U6, U8). -/
opaque Config.freeByte : Space → Nat → Byte

/-- FREE VALUE (log entry 8): byte `k` of the frame of a device completion whose move lists fewer
bytes than it writes (R196 "Draws"); the first argument tells completions apart. -/
opaque Config.freeFrameByte : Nat → Nat → Byte

/-- FREE VALUE (log entry 11): what a device read that R68 refuses returns. -/
opaque Config.freeReadByte : Nat → Byte

/-- FREE VALUE (log entry 10): the 16-bit result value of a count that does not fit it (R92). -/
opaque Config.freeVal : Nat → Nat

end Sys2Proof
end

