-- ==== Sys2Proof/Syntax.lean ====
section
/-! DEFINITION. The twelve port operations (30_encoding R93), one constructor per row of the opcode table. -/

namespace Sys2Proof

/-- A command as the abstract operation with its operand (R91): a size, a handle and a budget are
counts, `WellFormed` says which of them a command word can carry. -/
inductive Instr where
  | bringup
  | teardown
  | acquire (size : Nat)
  | release (h : Nat)
  | isFull (r : Ring)
  | isEmpty (r : Ring)
  | refill
  | drain (budget : Nat)
  | submit (h : Nat)
  | reclaim
  | irq
  | poll (budget : Nat)
deriving DecidableEq, Repr

end Sys2Proof
end

