-- ==== Sys2Proof/WellFormed.lean ====
section
/-! DEFINITION. Which commands a word can carry (30_encoding R91), and which parameter sets have a
meaning (00_scope R7). -/

namespace Sys2Proof

/-- A size, a handle or a budget fits the 16-bit `arg` field (R91). -/
def Instr.wf : Instr → Bool
  | .bringup => true
  | .teardown => true
  | .acquire size => decide (size < 2 ^ 16)
  | .release h => decide (h < 2 ^ 16)
  | .isFull _ => true
  | .isEmpty _ => true
  | .refill => true
  | .drain b => decide (b < 2 ^ 16)
  | .submit h => decide (h < 2 ^ 16)
  | .reclaim => true
  | .irq => true
  | .poll b => decide (b < 2 ^ 16)

/-- Two address ranges, each a start and a length, share no address. -/
def apart (a m b n : Nat) : Bool := decide (a + m ≤ b) || decide (b + n ≤ a)

/-- `N >= 2` and at most 65536 for each ring. -/
def Config.sizesOk (c : Config) : Bool :=
  decide (2 ≤ c.nRx) && decide (c.nRx ≤ 65536) && decide (2 ≤ c.nTx) && decide (c.nTx ≤ 65536)

/-- `1 <= POOL_SIZE <= 65536`, `1 <= BUF_SIZE <= 65535`, one table entry per buffer. -/
def Config.poolOk (c : Config) : Bool :=
  decide (1 ≤ c.poolSize) && decide (c.poolSize ≤ 65536) && decide (1 ≤ c.bufSize) && decide (c.bufSize ≤ 65535)
    && decide (c.xlate.length = c.poolSize)

/-- The two rings are 16-byte aligned, lie inside the address space (R132) and do not overlap. -/
def Config.ringsOk (c : Config) : Bool :=
  decide (c.rxBase.toNat % 16 = 0) && decide (c.txBase.toNat % 16 = 0)
    && decide (c.rxBase.toNat + 16 * c.nRx ≤ 2 ^ 64) && decide (c.txBase.toNat + 16 * c.nTx ≤ 2 ^ 64)
    && apart c.rxBase.toNat (16 * c.nRx) c.txBase.toNat (16 * c.nTx)

/-- The windows `[XLATE(h), XLATE(h) + BUF_SIZE)` do not wrap, are pairwise disjoint (so `XLATE` is
injective) and overlap no ring. -/
def Config.windowsOk (c : Config) : Bool :=
  c.xlate.all (fun a => decide (a.toNat + c.bufSize ≤ 2 ^ 64)
      && apart a.toNat c.bufSize c.rxBase.toNat (16 * c.nRx)
      && apart a.toNat c.bufSize c.txBase.toNat (16 * c.nTx))
    && decide (c.xlate.Pairwise fun a b => apart a.toNat c.bufSize b.toNat c.bufSize = true)

/-- The four cause bit numbers are distinct and in 0..31. -/
def Config.causesOk (c : Config) : Bool :=
  decide ([c.isrRxDone, c.isrTxDone, c.isrLink, c.isrErr].Nodup)
    && [c.isrRxDone, c.isrTxDone, c.isrLink, c.isrErr].all (fun b => decide (b < 32))

/-- Register offsets are multiples of 4 (R63) and name three registers (DEDUCED, log entry 12);
`RESET_BOUND >= 1` (R186). -/
def Config.regsOk (c : Config) : Bool :=
  decide ([c.regIsr, c.regTxctl, c.regReset].Nodup)
    && [c.regIsr, c.regTxctl, c.regReset].all (fun o => decide (o.toNat % 4 = 0))
    && decide (1 ≤ c.resetBound)

/-- R7: a parameter set that breaks a constraint is refused. -/
def Config.wf (c : Config) : Bool :=
  c.sizesOk && c.poolOk && c.ringsOk && c.windowsOk && c.causesOk && c.regsOk

end Sys2Proof
end

