-- ==== Sys2Proof/Decode.lean ====
section
/-! DEFINITION. The command word (30_encoding R90 to R96): its fields, the decoder, the rows of the
opcode map and the encoder. -/

namespace Sys2Proof

/-- `op`, bits 31:24 (R90). -/
def Decode.op (w : Word) : Nat := slice w 31 24
/-- `sel`, bit 23. -/
def Decode.sel (w : Word) : Nat := slice w 23 23
/-- `rsv`, bits 22:16. -/
def Decode.rsv (w : Word) : Nat := slice w 22 16
/-- `arg`, bits 15:0, unsigned. -/
def Decode.arg (w : Word) : Nat := slice w 15 0

/-- Why a word is illegal (R95, R96). -/
inductive DecodeError where
  /-- An unassigned `op` (R96). -/
  | unassignedOpcode (op : Nat)
  /-- `rsv` is not 0 (R95). -/
  | reservedNotZero
  /-- `sel` is 1 for an opcode other than IS_FULL and IS_EMPTY (R95). -/
  | selNotZero
  /-- `arg` is not 0 for an opcode without an operand (R95). -/
  | argNotZero
deriving DecidableEq, Repr

/-- A ring selector from `sel`: 0 = RX, 1 = TX (R90). -/
def Decode.ring (w : Word) : Ring := if Decode.sel w = 0 then .rx else .tx

/-- An opcode without an operand: `sel` and `arg` must be 0. -/
def Decode.plain (w : Word) (i : Instr) : Except DecodeError Instr :=
  if Decode.sel w ≠ 0 then .error .selNotZero
  else if Decode.arg w ≠ 0 then .error .argNotZero
  else .ok i

/-- An opcode with an operand in `arg`: `sel` must be 0. -/
def Decode.operand (w : Word) (f : Nat → Instr) : Except DecodeError Instr :=
  if Decode.sel w ≠ 0 then .error .selNotZero else .ok (f (Decode.arg w))

/-- An opcode with the ring selector in `sel`: `arg` must be 0. -/
def Decode.select (w : Word) (f : Ring → Instr) : Except DecodeError Instr :=
  if Decode.arg w ≠ 0 then .error .argNotZero else .ok (f (Decode.ring w))

/-- The opcode map of R93, by `op`, once `rsv` is known to be 0. -/
def Decode.byOpcode (w : Word) : Except DecodeError Instr :=
  match Decode.op w with
  | 0x01 => Decode.plain w .bringup
  | 0x02 => Decode.plain w .teardown
  | 0x10 => Decode.operand w .acquire
  | 0x13 => Decode.operand w .release
  | 0x20 => Decode.select w .isFull
  | 0x21 => Decode.select w .isEmpty
  | 0x30 => Decode.plain w .refill
  | 0x31 => Decode.operand w .drain
  | 0x38 => Decode.operand w .submit
  | 0x39 => Decode.plain w .reclaim
  | 0x40 => Decode.plain w .irq
  | 0x41 => Decode.operand w .poll
  | o => .error (.unassignedOpcode o)

/-- The decoder, total on every 32-bit word (R96). -/
def decode (w : Word) : Except DecodeError Instr :=
  if Decode.rsv w ≠ 0 then .error .reservedNotZero else Decode.byOpcode w

/-- One row of R93: a word `cw` selects it when `(cw and mask) == match`. -/
structure OpRow where
  mnemonic : String
  matchBits : Word
  mask : Word
deriving DecidableEq, Repr

/-- The twelve rows of R93, as opcode_table.json has them. -/
def opRows : List OpRow :=
  [⟨"BRINGUP", 0x01000000, 0xFFFFFFFF⟩, ⟨"TEARDOWN", 0x02000000, 0xFFFFFFFF⟩,
   ⟨"ACQUIRE", 0x10000000, 0xFFFF0000⟩, ⟨"RELEASE", 0x13000000, 0xFFFF0000⟩,
   ⟨"IS_FULL", 0x20000000, 0xFF7FFFFF⟩, ⟨"IS_EMPTY", 0x21000000, 0xFF7FFFFF⟩,
   ⟨"REFILL", 0x30000000, 0xFFFFFFFF⟩, ⟨"DRAIN", 0x31000000, 0xFFFF0000⟩,
   ⟨"SUBMIT", 0x38000000, 0xFFFF0000⟩, ⟨"RECLAIM", 0x39000000, 0xFFFFFFFF⟩,
   ⟨"IRQ", 0x40000000, 0xFFFFFFFF⟩, ⟨"POLL", 0x41000000, 0xFFFF0000⟩]

/-- The row a word selects, by its mask and match (R93). -/
def OpRow.selects (row : OpRow) (w : Word) : Bool := w &&& row.mask == row.matchBits

/-- A command's mnemonic (R93). -/
def Instr.mnemonic : Instr → String
  | .bringup => "BRINGUP"
  | .teardown => "TEARDOWN"
  | .acquire _ => "ACQUIRE"
  | .release _ => "RELEASE"
  | .isFull _ => "IS_FULL"
  | .isEmpty _ => "IS_EMPTY"
  | .refill => "REFILL"
  | .drain _ => "DRAIN"
  | .submit _ => "SUBMIT"
  | .reclaim => "RECLAIM"
  | .irq => "IRQ"
  | .poll _ => "POLL"

/-- A command's opcode number (R93). -/
def Instr.opcode : Instr → Nat
  | .bringup => 0x01
  | .teardown => 0x02
  | .acquire _ => 0x10
  | .release _ => 0x13
  | .isFull _ => 0x20
  | .isEmpty _ => 0x21
  | .refill => 0x30
  | .drain _ => 0x31
  | .submit _ => 0x38
  | .reclaim => 0x39
  | .irq => 0x40
  | .poll _ => 0x41

/-- `sel`: 0 = RX, 1 = TX, 0 for every opcode without a ring selector (R90). -/
def Ring.sel : Ring → Nat
  | .rx => 0
  | .tx => 1

/-- The `sel` field of a command's word. -/
def Instr.selField : Instr → Nat
  | .isFull r => r.sel
  | .isEmpty r => r.sel
  | .bringup | .teardown | .acquire _ | .release _ | .refill | .drain _ | .submit _ | .reclaim | .irq | .poll _ => 0

/-- The `arg` field of a command's word. -/
def Instr.argField : Instr → Nat
  | .acquire n => n
  | .release n => n
  | .drain n => n
  | .submit n => n
  | .poll n => n
  | .bringup | .teardown | .isFull _ | .isEmpty _ | .refill | .reclaim | .irq => 0

/-- The encoder: the word `op << 24 | sel << 23 | arg` (R90). -/
def encode (i : Instr) : Word :=
  BitVec.ofNat 32 (i.opcode * 2 ^ 24 + i.selField * 2 ^ 23 + i.argField)

/-- The instruction the decoder reads from a word whose bits are `w`, numbered as the opcode table
numbers them (bit 0 least significant); a command is exactly one 32-bit word (R90), so every bit
above `nbits` is 0 and more than 32 bits are no command. -/
def decodeTableWord (nbits w : Nat) : Option Instr :=
  if nbits ≤ 32 then
    match decode (BitVec.ofNat 32 (w % 2 ^ nbits)) with
    | .ok i => some i
    | .error _ => none
  else none

end Sys2Proof
end

