-- ==== Sys2Proof/Machine/State.lean ====
section
/-! DEFINITION. The machine's state (10_state), the continuations of its contexts (R41), and its reset
values (R45). -/

namespace Sys2Proof.Machine

/-- The kinds of the sticky fault set (R42). Their constructors name what a micro-step records in
`State.fault`; the machine goes on (R11), so no step of this model ends a run with one. -/
inductive Fault where
  /-- A device access outside every mapped window or against the mapped direction (R68). Recorded by
  the device's micro-steps. Safe: the access changes no memory. -/
  | dmaUnmapped
  /-- A consumable slot whose pending entry is empty (R141 G3, R156 Y4). Recorded by DRAIN and RECLAIM. Safe. -/
  | pendEmpty
  /-- Misuse of a buffer inside the block (R112, R114, R115). Recorded by any micro-step that calls the
  pool. Safe: the context that recorded it takes no further micro-step (log entry 9). -/
  | pool
deriving DecidableEq, Repr

/-- Why a step has no meaning. -/
inductive Refusal where
  /-- Raised by `exec` for an instruction without a meaning. Safe. -/
  | notModelled (mnemonic : String)
  /-- Raised by `step` and by every command: the parameter set breaks a constraint, and the spec
  refuses it (R7). Safe. -/
  | invalidConfig
deriving DecidableEq, Repr

/-- The fault set (R42), one flag per kind. -/
structure FaultSet where
  dmaUnmapped : Bool
  pendEmpty : Bool
  pool : Bool
deriving DecidableEq, Repr

/-- `life` (R21). -/
inductive Life where
  | down
  | up
deriving DecidableEq, Repr

/-- `pool[h].own` (R31). -/
inductive Own where
  | free
  | up
  | eng
deriving DecidableEq, Repr

/-- One entry of the pool table (R31). -/
structure PoolEntry where
  own : Own
  len : BitVec 16
  map : Option Dir
deriving DecidableEq, Repr

/-- The host-side state of one ring: the index registers (R22) and the pending table (R29). -/
structure RingRegs where
  head : Nat
  tail : Nat
  pend : List (Option (Nat × DAddr))
deriving DecidableEq, Repr

/-- Result codes of a response (R92). -/
inductive Code where
  | ok
  | busy
  | allocFail
  | mapFail
  | notMine
  | resetTimeout
  | descError
  | badHandle
  | badState
  | illegal
deriving DecidableEq, Repr

/-- What REPORT names (R43). -/
inductive Cause where
  | link
  | err
deriving DecidableEq, Repr

/-- Output events, device-side events and responses (R43). -/
inductive Event where
  | deliver (h : Nat) (bytes : List Byte)
  | wake
  | kick
  | report (c : Cause)
  | resp (c : Ctx) (w : Word)
  | txed (i : Nat) (bytes : List Byte)
deriving DecidableEq, Repr

/-- Where PRODUCE stands (R128); P5 is a label of the engines. -/
inductive ProducePc where
  | p1
  | p2 (i : Nat)
  | p3 (i : Nat)
  | p4 (i : Nat)
deriving DecidableEq, Repr

/-- Where PEEK stands (R129). -/
inductive PeekPc where
  | k1
  | k2 (i : Nat) (s : Word)
deriving DecidableEq, Repr

/-- Where REFILL stands, with its locals (R140). -/
inductive RefillPc where
  | f1 (n : Nat)
  | f2 (n : Nat)
  | f3 (n h : Nat)
  | f4 (n h : Nat) (a : DAddr) (p : ProducePc)
  | f5 (n h : Nat) (a : DAddr) (i : Nat)
  | f6 (n i : Nat)
  | f7 (n : Nat)
  | f9 (n : Nat)
deriving DecidableEq, Repr

/-- Where DRAIN stands, with its locals (R141). -/
inductive DrainPc where
  | g1 (w : Nat)
  | g2 (w : Nat) (p : PeekPc)
  | g3 (w : Nat) (s len : Word)
  | g4 (w : Nat) (s len : Word) (i h : Nat)
  | g5 (w : Nat) (s len : Word) (i h : Nat)
  | g6 (w i : Nat)
  | g7 (w : Nat)
  | g8 (w : Nat)
  | g9 (w : Nat)
deriving DecidableEq, Repr

/-- Where SUBMIT stands, with its locals (R155). -/
inductive SubmitPc where
  | x1
  | x2
  | x3
  | x4
  | x5
  | x6 (a : DAddr) (p : ProducePc)
  | x7 (a : DAddr) (i : Nat)
  | x8 (i : Nat)
  | x9
  | x10
deriving DecidableEq, Repr

/-- Where RECLAIM stands, with its locals (R156). -/
inductive ReclaimPc where
  | y1
  | y2
  | y3 (wasFull : Bool) (n : Nat) (p : PeekPc)
  | y4 (wasFull : Bool) (n : Nat) (s : Word)
  | y5 (wasFull : Bool) (n : Nat) (s : Word) (i h : Nat)
  | y6 (wasFull : Bool) (n i : Nat)
  | y7 (wasFull : Bool) (n : Nat)
  | y8 (wasFull : Bool) (n : Nat)
  | y9 (n : Nat)
deriving DecidableEq, Repr

/-- Where IRQ stands, with the value `v` it read (R170). `i4r` is the nested RECLAIM. -/
inductive IrqPc where
  | i1
  | i2 (v : Word)
  | i3 (v : Word)
  | i4 (v : Word)
  | i4r (v : Word) (p : ReclaimPc)
  | i5 (v : Word)
  | i6 (v : Word)
  | i7 (v : Word)
  | i8
deriving DecidableEq, Repr

/-- Where POLL stands (R173); L0 is part of the acceptance. -/
inductive PollPc where
  | l1 (p : DrainPc)
  | l2 (w : Nat) (p : RefillPc)
  | l3 (w : Nat)
  | l4 (w : Nat)
deriving DecidableEq, Repr

/-- The three writes of B2 to one descriptor; the third clears the pending entry too. -/
inductive ClearPc where
  | addr
  | len
  | status
deriving DecidableEq, Repr

/-- Where BRINGUP stands (R185, R186). -/
inductive BringupPc where
  | h1
  | h3 (k : Nat)
  | b2 (r : Ring) (i : Nat) (p : ClearPc)
  | b3
  | b4 (p : RefillPc)
  | b5 (n : Nat)
deriving DecidableEq, Repr

/-- Where TEARDOWN stands (R187). -/
inductive TeardownPc where
  | t1
  | t2
  | t3
  | t4 (r : Ring) (i k : Nat)
  | t5 (k : Nat)
  | t6 (k : Nat)
deriving DecidableEq, Repr

/-- An operation in progress with the label of its next micro-step and its locals (R41). -/
inductive Task where
  | acquire (size : Nat)
  | release (h : Nat)
  | isFull (r : Ring)
  | isEmpty (r : Ring)
  | refill (p : RefillPc)
  | drain (budget : Nat) (p : DrainPc)
  | submit (h : Nat) (p : SubmitPc)
  | reclaim (p : ReclaimPc)
  | irq (p : IrqPc)
  | poll (budget : Nat) (p : PollPc)
  | bringup (p : BringupPc)
  | teardown (p : TeardownPc)
deriving DecidableEq, Repr

/-- A continuation `cont[c]` (R41). `stopped` is a running operation that recorded `F_POOL` and
stopped: no micro-step of it is enabled (R112, R114, R115; DEDUCED, log entry 9). -/
inductive Cont where
  | idle
  | running (t : Task)
  | stopped
deriving DecidableEq, Repr

/-- A context's own state: its continuation (R226) and the words that wait for it at its port (R97). -/
structure Lane where
  cont : Cont
  queue : List Word
deriving DecidableEq, Repr

/-- The contexts of R12, `up` with one entry per upstream caller. -/
structure Lanes where
  drv : Lane
  irq : Lane
  poll : Lane
  up : List Lane
deriving DecidableEq, Repr

/-- Where the device stands in an RX completion (R196). -/
inductive RxPc where
  | v1len (s : Word)
  | v1addr (s cap : Word)
  | v2 (s cap : Word) (a : DAddr) (k : Nat)
  | v3 (s : Word)
  | v4 (s : Word)
deriving DecidableEq, Repr

/-- Where the device stands in a TX completion (R197); `b` holds the bytes read so far. -/
inductive TxPc where
  | w1len (s : Word)
  | w1addr (s len : Word)
  | w2 (s len : Word) (a : DAddr) (b : List Byte)
  | w3 (s : Word)
deriving DecidableEq, Repr

/-- A completion the device has begun, with its draws; `seed` tells completions apart for the bytes
its move did not list. -/
inductive DevOp where
  | rx (i : Nat) (len : Word) (err : Bool) (bytes : List Byte) (seed : Nat) (p : RxPc)
  | tx (i : Nat) (err : Bool) (p : TxPc)
deriving DecidableEq, Repr

/-- Draws already set by a directive of R102, in the order they will be used. -/
structure Draws where
  mapOk : List Bool
  rstAck : List Bool
  ackIsr : List Word
deriving DecidableEq, Repr

/-- Bytes of one space: (address, byte) pairs, addresses strictly rising, an unwritten byte unlisted. -/
abbrev Memory := List Host.Cell

/-- The machine's state. INVENTORY.md lists the rule that names each field. -/
@[ext]
structure State where
  cfg : Config
  life : Life
  rx : RingRegs
  tx : RingRegs
  pool : List PoolEntry
  isrLatch : Word
  pollSched : Bool
  pollRunning : Bool
  txStopped : Bool
  txLock : Option Ctx
  rxErr : Word
  txErr : Word
  lanes : Lanes
  fault : FaultSet
  hist : List Event
  /-- Descriptor memory, keyed by address (R60). -/
  desc : Memory
  /-- Buffer memory, keyed by `h * 2^16 + offset` (R60). -/
  buf : Memory
  isr : Word
  txctl : Word
  rst : Word
  lineEn : Bool
  /-- The device's completions in progress (R196, R197). -/
  dev : List DevOp
  /-- MODEL'S OWN: the moves the agents make next (log entry 6). -/
  script : List Move
  /-- MODEL'S OWN: draws set by directives (log entry 8). -/
  draws : Draws
  /-- MODEL'S OWN: the counter the free values are applied to (log entry 8). -/
  tick : Nat
  /-- MODEL'S OWN: the scheduled context (log entry 7). -/
  cur : Ctx
  /-- MODEL'S OWN: how many further micro-steps it takes in a row (log entry 7). -/
  slice : Nat
deriving DecidableEq, Repr

/-- A context with nothing in progress and nothing waiting. -/
def Lane.empty : Lane := ⟨.idle, []⟩

/-- The reset state of R45 for the parameters `c`. The values the spec leaves unspecified (`pool[h].len`,
`ISR`, `TXCTL`, `RESET` bits 31:1, `line_en`) are 0: DESIGN CHOICE, log entry 2. -/
def State.resetFor (c : Config) : State where
  cfg := c
  life := .down
  rx := ⟨0, 0, List.replicate c.nRx none⟩
  tx := ⟨0, 0, List.replicate c.nTx none⟩
  pool := List.replicate c.poolSize ⟨.free, 0, none⟩
  isrLatch := 0
  pollSched := false
  pollRunning := false
  txStopped := false
  txLock := none
  rxErr := 0
  txErr := 0
  lanes := ⟨.empty, .empty, .empty, List.replicate c.kUp .empty⟩
  fault := ⟨false, false, false⟩
  hist := []
  desc := []
  buf := []
  isr := 0
  txctl := 0
  rst := 0
  lineEn := false
  dev := []
  script := []
  draws := ⟨[], [], []⟩
  tick := 0
  cur := .drv
  slice := 0

/-- The machine right after reset, with the parameters of log entry 1. -/
def State.reset : State := State.resetFor Config.sample

end Sys2Proof.Machine
end

