-- ==== Sys2Proof/Machine/Flags.lean ====
section
/-! DEFINITION. Flag and status computations: descriptor status words (10_state R26), ring predicates
(R24), slot states (R28), interrupt causes and the interrupt line (R38, 60_exceptions R219). -/

namespace Sys2Proof.Machine

/-! Status flags (R26). -/

def stOwn : Word := 0x80000000
def stSop : Word := 0x40000000
def stEop : Word := 0x20000000
def stIrq : Word := 0x10000000
def stErr : Word := 0x08000000

/-- `OWN`, bit 31: the device side owns the slot. -/
def ownBit (s : Word) : Bool := s.getLsbD 31

/-- `ERR`, bit 27: the device reported a transfer error. -/
def errBit (s : Word) : Bool := s.getLsbD 27

/-- The status REFILL writes (R140 F4). -/
def rxArmedStatus : Word := stOwn ||| stIrq

/-- The status SUBMIT writes (R155 X6). -/
def txArmedStatus : Word := stOwn ||| stSop ||| stEop ||| stIrq

/-- `e ? ST_ERR : 0`. -/
def errFlag (e : Bool) : Word := if e then stErr else 0

/-- The hand-back of an RX completion (R196 V4). -/
def rxDoneStatus (s : Word) (e : Bool) : Word := (s &&& ~~~stOwn) ||| stSop ||| stEop ||| errFlag e

/-- The hand-back of a TX completion (R197 W3). -/
def txDoneStatus (s : Word) (e : Bool) : Word := (s &&& ~~~stOwn) ||| errFlag e

/-! Index arithmetic and ring predicates (R24, R132). -/

/-- `(i + 1) mod N`. -/
def nextIndex (i n : Nat) : Nat := (i + 1) % n

/-- `(x - y) mod N` for indices below `N`. -/
def subIndex (x y n : Nat) : Nat := (x + n - y) % n

/-- `N[r]`. -/
def ringSize (c : Config) : Ring → Nat
  | .rx => c.nRx
  | .tx => c.nTx

/-- The host-side registers of ring `r`. -/
def State.ring (s : State) : Ring → RingRegs
  | .rx => s.rx
  | .tx => s.tx

/-- `full(r)`: `(H[r] + 1) mod N[r] == T[r]`. -/
def State.full (s : State) (r : Ring) : Bool := nextIndex (s.ring r).head (ringSize s.cfg r) == (s.ring r).tail

/-- `empty(r)`: `H[r] == T[r]`. -/
def State.empty (s : State) (r : Ring) : Bool := (s.ring r).head == (s.ring r).tail

/-- `count(r)`, the number of slots in the window. -/
def State.count (s : State) (r : Ring) : Nat := subIndex (s.ring r).head (s.ring r).tail (ringSize s.cfg r)

/-- `free(r)`, the number of further PRODUCEs possible before the ring is full. -/
def State.freeSlots (s : State) (r : Ring) : Nat := ringSize s.cfg r - 1 - s.count r

/-- `in_window(r, i)`. -/
def State.inWindow (s : State) (r : Ring) (i : Nat) : Bool :=
  decide (subIndex i (s.ring r).tail (ringSize s.cfg r) < s.count r)

/-- A truth value as a response carries it (R126, R127). -/
def flagVal (b : Bool) : Nat := if b then 1 else 0

/-- `dir(r)` (R8). -/
def ringDir : Ring → Dir
  | .rx => .inbound
  | .tx => .outbound

/-! Interrupt causes (R38) and the line (R219). -/

/-- `RECOGNIZED`: the mask with exactly the four cause bits set. -/
def recognized (c : Config) : Word :=
  BitVec.twoPow 32 c.isrRxDone ||| BitVec.twoPow 32 c.isrTxDone ||| BitVec.twoPow 32 c.isrLink
    ||| BitVec.twoPow 32 c.isrErr

/-- The line is level-sensitive: asserted while it is enabled and a recognized bit is set (R219). -/
def State.lineAsserted (s : State) : Bool := s.lineEn && s.isr &&& recognized s.cfg != 0

/-- The 32-bit counters wrap (R37). -/
def bump (n : Word) : Word := n + 1

end Sys2Proof.Machine
end

