-- ==== Sys2Proof/Machine/Ops.lean ====
section
/-! DEFINITION. Named operations over memory, registers, contexts, events, faults and the lock, and the
typed results, which are the block's exceptions (60_exceptions R210). -/

namespace Sys2Proof.Machine

/-! ## Memory -/

/-- The byte written at `a`, if any. -/
def Memory.get? : Memory → Nat → Option Byte
  | [], _ => none
  | (x, b) :: m, a => if a = x then some b else Memory.get? m a

/-- Write one byte, keeping the addresses rising. -/
def Memory.set : Memory → Nat → Byte → Memory
  | [], a, b => [(a, b)]
  | (x, y) :: m, a, b =>
    if a < x then (a, b) :: (x, y) :: m
    else if a = x then (a, b) :: m
    else (x, y) :: Memory.set m a b

/-- Write bytes at rising addresses from `a` on. -/
def Memory.write : Memory → Nat → List Byte → Memory
  | m, _, [] => m
  | m, a, b :: bs => Memory.write (Memory.set m a b) (a + 1) bs

/-- The canonical form: addresses strictly rising (an unwritten byte has no entry). -/
def Memory.wf : Memory → Bool
  | [] => true
  | [_] => true
  | (a, _) :: (b, y) :: m => decide (a < b) && Memory.wf ((b, y) :: m)

/-- The four bytes of a word, lowest address first (R62). -/
def leBytes32 (v : Word) : List Byte :=
  [v.extractLsb' 0 8, v.extractLsb' 8 8, v.extractLsb' 16 8, v.extractLsb' 24 8]

/-- The eight bytes of a 64-bit value, lowest address first (R62). -/
def leBytes64 (v : DAddr) : List Byte := leBytes32 (v.extractLsb' 0 32) ++ leBytes32 (v.extractLsb' 32 32)

/-! ## Descriptor memory (R61, R62, R64) -/

/-- A byte of descriptor memory; one that nothing has written is a free value (R45). -/
def State.descByte (s : State) (a : Nat) : Byte := (Memory.get? s.desc a).getD (Config.freeByte .desc a)

/-- `MemRead(a, 4)`. -/
def State.descRead32 (s : State) (a : Nat) : Word :=
  s.descByte (a + 3) ++ s.descByte (a + 2) ++ s.descByte (a + 1) ++ s.descByte a

/-- `MemRead(a, 8)`. -/
def State.descRead64 (s : State) (a : Nat) : DAddr := s.descRead32 (a + 4) ++ s.descRead32 a

/-- `MemWrite(a, 4, v)`. -/
def State.descWrite32 (s : State) (a : Nat) (v : Word) : State :=
  { s with desc := Memory.write s.desc a (leBytes32 v) }

/-- `MemWrite(a, 8, v)`. -/
def State.descWrite64 (s : State) (a : Nat) (v : DAddr) : State :=
  { s with desc := Memory.write s.desc a (leBytes64 v) }

/-- `base(r)`. -/
def ringBase (c : Config) : Ring → Nat
  | .rx => c.rxBase.toNat
  | .tx => c.txBase.toNat

/-- The address of descriptor `i` of ring `r`; `status` stands there (R61). -/
def statusAddr (c : Config) (r : Ring) (i : Nat) : Nat := ringBase c r + Config.descSize * i

/-- The address of its `length`. -/
def lengthAddr (c : Config) (r : Ring) (i : Nat) : Nat := statusAddr c r i + 4

/-- The address of its `buffer_address`. -/
def bufferAddr (c : Config) (r : Ring) (i : Nat) : Nat := statusAddr c r i + 8

/-- `BARRIER()`: under the order of R69 it changes no state (R73). -/
def State.barrier (s : State) : State := s

/-! ## Buffer memory (R33, R60) -/

/-- The key of `BUF[h][k]`: the address is `(handle, offset)`, the offset 16 bits wide. -/
def bufKey (h k : Nat) : Nat := h * 2 ^ 16 + k

/-- `BUF[h][k]`; a byte that nothing has written is a free value (R45, U8). -/
def State.bufByte (s : State) (h k : Nat) : Byte :=
  (Memory.get? s.buf (bufKey h k)).getD (Config.freeByte .buf (bufKey h k))

/-- `BUF[h][0 .. n-1]`. -/
def State.bufBytes (s : State) (h n : Nat) : List Byte := (List.range n).map (s.bufByte h)

/-- Write bytes into `BUF[h][off ..]`. -/
def State.bufWrite (s : State) (h off : Nat) (bs : List Byte) : State :=
  { s with buf := Memory.write s.buf (bufKey h off) bs }

/-! ## The pool and the rings -/

/-- `pool[h]`. -/
def State.buffer (s : State) (h : Nat) : PoolEntry := s.pool.getD h ⟨.free, 0, none⟩

/-- `pool[h] <- e`. -/
def State.setBuffer (s : State) (h : Nat) (e : PoolEntry) : State := { s with pool := s.pool.set h e }

/-- Replace the host-side registers of ring `r`. -/
def State.setRing (s : State) (r : Ring) (x : RingRegs) : State :=
  match r with
  | .rx => { s with rx := x }
  | .tx => { s with tx := x }

/-- `H[r] <- i`. -/
def State.setHead (s : State) (r : Ring) (i : Nat) : State := s.setRing r { s.ring r with head := i }

/-- `T[r] <- i`. -/
def State.setTail (s : State) (r : Ring) (i : Nat) : State := s.setRing r { s.ring r with tail := i }

/-- `pend[r][i]`. -/
def State.pending (s : State) (r : Ring) (i : Nat) : Option (Nat × DAddr) := (s.ring r).pend.getD i none

/-- `pend[r][i] <- e`. -/
def State.setPending (s : State) (r : Ring) (i : Nat) (e : Option (Nat × DAddr)) : State :=
  s.setRing r { s.ring r with pend := (s.ring r).pend.set i e }

/-- `XLATE(h)` (R67). -/
def xlateOf (c : Config) (h : Nat) : DAddr := c.xlate.getD h 0

/-! ## Device registers (R38 to R40, R65, R228) -/

/-- The three registers; the block touches no other offset (R228). -/
inductive DevReg where
  | isr
  | txctl
  | reset
deriving DecidableEq, Repr

/-- A register's offset in `REG` (R66). -/
def regOffset (c : Config) : DevReg → Word
  | .isr => c.regIsr
  | .txctl => c.regTxctl
  | .reset => c.regReset

/-- `RegRead32`: no side effect; the reserved bits of `ISR` read 0 (R38). No rule reads `TXCTL` (R39). -/
def State.regRead32 (s : State) : DevReg → Word
  | .isr => s.isr &&& recognized s.cfg
  | .txctl => s.txctl
  | .reset => s.rst

/-- `RegWrite32`: `ISR` clears the written bits (R38); a write of `TXCTL` changes no state (R200); a
write of 1 to `RESET` requests a reset, and any other value has no effect (R40, U9). -/
def State.regWrite32 (s : State) (reg : DevReg) (v : Word) : State :=
  match reg with
  | .isr => { s with isr := s.isr &&& ~~~v }
  | .txctl => s
  | .reset => if v = 1 then { s with rst := 1 } else s

/-! ## Events, typed results, faults -/

/-- `emit E` (R9, R43). -/
def State.emit (s : State) (e : Event) : State := { s with hist := s.hist ++ [e] }

/-- The code of a result (R92). -/
def Code.num : Code → Nat
  | .ok => 0x0
  | .busy => 0x1
  | .allocFail => 0x2
  | .mapFail => 0x3
  | .notMine => 0x4
  | .resetTimeout => 0x5
  | .descError => 0x6
  | .badHandle => 0xD
  | .badState => 0xE
  | .illegal => 0xF

/-- The 16-bit `val` field; a count above 16 bits is a free value (log entry 10). -/
def respVal (n : Nat) : Nat := if n < 2 ^ 16 then n else Config.freeVal n % 2 ^ 16

/-- The response word: `code` in 31:28, 0 in 27:16, `val` in 15:0 (R92). -/
def respWord (c : Code) (n : Nat) : Word := BitVec.ofNat 32 (c.num * 2 ^ 28 + respVal n)

/-- A typed result (R210): one response word on the context's port, recorded as `RESP` (R43). -/
def State.respond (s : State) (c : Ctx) (code : Code) (n : Nat) : State := s.emit (.resp c (respWord code n))

/-- `raise Fault(kind)`: the set grows and never shrinks (R11, R42). -/
def State.raise (s : State) (f : Fault) : State :=
  match f with
  | .dmaUnmapped => { s with fault := { s.fault with dmaUnmapped := true } }
  | .pendEmpty => { s with fault := { s.fault with pendEmpty := true } }
  | .pool => { s with fault := { s.fault with pool := true } }

/-- The fault set is empty. -/
def FaultSet.none (f : FaultSet) : Bool := !f.dmaUnmapped && !f.pendEmpty && !f.pool

/-! ## Contexts (R41, R97) and the lock (R76) -/

/-- The lane of a context; there is none for an upstream caller number `K_UP` or above. -/
def State.lane? (s : State) : Ctx → Option Lane
  | .drv => some s.lanes.drv
  | .irq => some s.lanes.irq
  | .poll => some s.lanes.poll
  | .up k => s.lanes.up[k]?

/-- Replace a context's lane. -/
def State.setLane (s : State) (c : Ctx) (l : Lane) : State :=
  match c with
  | .drv => { s with lanes := { s.lanes with drv := l } }
  | .irq => { s with lanes := { s.lanes with irq := l } }
  | .poll => { s with lanes := { s.lanes with poll := l } }
  | .up k => { s with lanes := { s.lanes with up := s.lanes.up.set k l } }

/-- `cont[c] <- k`. -/
def State.setCont (s : State) (c : Ctx) (k : Cont) : State :=
  match s.lane? c with
  | some l => s.setLane c { l with cont := k }
  | none => s

/-- The words waiting for a context become `q`. -/
def State.setQueue (s : State) (c : Ctx) (q : List Word) : State :=
  match s.lane? c with
  | some l => s.setLane c { l with queue := q }
  | none => s

/-- A word offered at a port waits behind the words already there; it is not lost and not reordered (R97). -/
def State.offer (s : State) (c : Ctx) (w : Word) : State :=
  match s.lane? c with
  | some l => s.setLane c { l with queue := l.queue ++ [w] }
  | none => s

/-- `tx_lock <- Some(ctx)`, enabled only when the lock is free. -/
def State.lock (s : State) (c : Ctx) : State := { s with txLock := some c }

/-- `tx_lock <- None`. -/
def State.unlock (s : State) : State := { s with txLock := none }

/-! ## Draws (R44) -/

/-- `draw map_ok`: the next value a directive set, else a free value. -/
def State.drawMapOk (s : State) : Bool × State :=
  match s.draws.mapOk with
  | b :: bs => (b, { s with draws := { s.draws with mapOk := bs } })
  | [] => (Config.freeMapOk s.tick, { s with tick := s.tick + 1 })

/-- `draw rst_ack`. -/
def State.drawRstAck (s : State) : Bool × State :=
  match s.draws.rstAck with
  | b :: bs => (b, { s with draws := { s.draws with rstAck := bs } })
  | [] => (Config.freeRstAck s.tick, { s with tick := s.tick + 1 })

/-- The value the device leaves in `ISR` at an acknowledge. -/
def State.drawAckIsr (s : State) : Word × State :=
  match s.draws.ackIsr with
  | w :: ws => (w, { s with draws := { s.draws with ackIsr := ws } })
  | [] => (Config.freeAckIsr s.tick, { s with tick := s.tick + 1 })

/-! ## The outcome of a micro-step -/

/-- What follows a micro-step of an operation: its next label, its return with a result, no micro-step
enabled (a hold, R76), or its stop after `F_POOL`. -/
inductive Next (π ρ : Type) where
  | goto (p : π)
  | ret (r : ρ)
  | hold
  | stop
deriving DecidableEq, Repr

/-- A pool operation inside a micro-step: go on in the state it answers, or record `F_POOL` and stop
(R112, R114, R115). -/
def orPoolFault {π ρ : Type} (s : State) (o : Option State) (k : State → State × Next π ρ) : State × Next π ρ :=
  match o with
  | some s' => k s'
  | none => (s.raise .pool, .stop)

end Sys2Proof.Machine
end

