-- ==== Sys2Proof/Machine/Operands.lean ====
section
/-! DEFINITION. Operand forms (30_encoding R91): handles, sizes, budgets, and on which port a command is
legal (R94). -/

namespace Sys2Proof.Machine

/-- A handle operand names a buffer upstream holds (R91, R113, R155 X4). -/
def State.handleOk (s : State) (h : Nat) : Bool := decide (h < s.cfg.poolSize) && (s.buffer h).own == .up

/-- A size operand fits a buffer (R110). -/
def State.sizeOk (s : State) (size : Nat) : Bool := decide (size ≤ s.cfg.bufSize)

/-- A budget operand is used up (R141 G1). -/
def budgetSpent (w b : Nat) : Bool := decide (b ≤ w)

/-- The port column of R93: where a command is legal. -/
def legalOn : Instr → Port → Bool
  | .bringup, p => p == .drv
  | .teardown, p => p == .drv
  | .acquire _, p => p == .up
  | .release _, p => p == .up
  | .isFull _, _ => true
  | .isEmpty _, _ => true
  | .refill, p => p == .poll
  | .drain _, p => p == .poll
  | .submit _, p => p == .up
  | .reclaim, p => p == .poll
  | .irq, p => p == .irq
  | .poll _, p => p == .poll

/-- A context whose port accepts the command. -/
def homeCtx : Instr → Ctx
  | .bringup => .drv
  | .teardown => .drv
  | .acquire _ => .up 0
  | .release _ => .up 0
  | .isFull _ => .poll
  | .isEmpty _ => .poll
  | .refill => .poll
  | .drain _ => .poll
  | .submit _ => .up 0
  | .reclaim => .poll
  | .irq => .irq
  | .poll _ => .poll

end Sys2Proof.Machine
end

