-- ==== Sys2Proof/Machine/PoolOps.lean ====
section
/-! DEFINITION. The pool and translator operations (40_buffer_pool R110 to R115) and the device access
check (20_memory R68). Each is one atomic micro-step (R117). -/

namespace Sys2Proof.Machine

/-- The lowest-numbered free buffer (R110). -/
def State.lowestFree (s : State) : Option Nat :=
  (List.range s.cfg.poolSize).find? fun h => (s.buffer h).own == .free

/-- `pool_acquire(size, owner)`: `none` is `AllocationFailure` (R110). -/
def State.poolAcquire (s : State) (size : Nat) (owner : Own) : Option (Nat × State) :=
  if s.sizeOk size then
    match s.lowestFree with
    | some h => some (h, s.setBuffer h ⟨owner, BitVec.ofNat 16 size, none⟩)
    | none => none
  else none

/-- `pool_release(h)`: `none` is `F_POOL` (R112). -/
def State.poolRelease (s : State) (h : Nat) : Option State :=
  if h < s.cfg.poolSize ∧ (s.buffer h).own ≠ .free ∧ (s.buffer h).map = none then
    some (s.setBuffer h { s.buffer h with own := .free })
  else none

/-- The outcomes of MAP (R114). -/
inductive MapResult where
  /-- `F_POOL`. -/
  | misuse
  /-- `MappingFailure`; only the draw was used. -/
  | failure (s : State)
  /-- `DeviceAddress(a)`. -/
  | address (a : DAddr) (s : State)

/-- `MAP(h, dir)` (R114). -/
def State.mapBuffer (s : State) (h : Nat) (d : Dir) : MapResult :=
  if h < s.cfg.poolSize ∧ (s.buffer h).own ≠ .free ∧ (s.buffer h).map = none then
    if s.drawMapOk.1 then
      .address (xlateOf s.cfg h) (s.drawMapOk.2.setBuffer h { s.buffer h with map := some d })
    else .failure s.drawMapOk.2
  else .misuse

/-- `UNMAP(h, dir)`: `none` is `F_POOL` (R115). -/
def State.unmapBuffer (s : State) (h : Nat) (d : Dir) : Option State :=
  if h < s.cfg.poolSize ∧ (s.buffer h).map = some d then
    some (s.setBuffer h { s.buffer h with map := none })
  else none

/-- The mapped buffer whose window holds `[da, da + n)` (R67, R68). -/
def State.window? (s : State) (da n : Nat) : Option Nat :=
  (List.range s.cfg.poolSize).find? fun h =>
    (s.buffer h).map.isSome && decide ((xlateOf s.cfg h).toNat ≤ da)
      && decide (da + n ≤ (xlateOf s.cfg h).toNat + s.cfg.bufSize)

/-- `DevMemRead(da, 1)`: `none` is `F_DMA_UNMAPPED` (R68). -/
def State.devMemRead (s : State) (da : Nat) : Option Byte :=
  match s.window? da 1 with
  | some h => if (s.buffer h).map = some .outbound then some (s.bufByte h (da - (xlateOf s.cfg h).toNat)) else none
  | none => none

/-- `DevMemWrite(da, 1, v)`: a refused access records `F_DMA_UNMAPPED` and changes no memory (R68). -/
def State.devMemWrite (s : State) (da : Nat) (v : Byte) : State :=
  match s.window? da 1 with
  | some h =>
    if (s.buffer h).map = some .inbound then s.bufWrite h (da - (xlateOf s.cfg h).toNat) [v]
    else s.raise .dmaUnmapped
  | none => s.raise .dmaUnmapped

/-- What a command answers at its last micro-step: a code and a value (R92). -/
abbrev Resp := Code × Nat

/-- ACQUIRE, S1 (R111). -/
def acquireStep (size : Nat) (s : State) : State × Next Task Resp :=
  match s.poolAcquire size .up with
  | some (h, s') => (s', .ret (.ok, h))
  | none => (s, .ret (.allocFail, 0))

/-- RELEASE, S1 (R113). -/
def releaseStep (h : Nat) (s : State) : State × Next Task Resp :=
  if s.handleOk h then orPoolFault s (s.poolRelease h) fun s' => (s', .ret (.ok, 0))
  else (s, .ret (.badHandle, 0))

end Sys2Proof.Machine
end

