-- ==== Sys2Proof/Machine/RingOps.lean ====
section
/-! DEFINITION. The descriptor ring's micro-steps (41_descriptor_ring R126 to R130). -/

namespace Sys2Proof.Machine

/-- The three slot states of R28. -/
inductive SlotState where
  | empty
  | armed
  | completed
deriving DecidableEq, Repr

/-- The state of slot `i` of ring `r`, a function of the rest of the state (R28). -/
def State.slotState (s : State) (r : Ring) (i : Nat) : SlotState :=
  if s.inWindow r i then
    if ownBit (s.descRead32 (statusAddr s.cfg r i)) then .armed else .completed
  else .empty

/-- PRODUCE, P1 to P4 (R128). R128 leaves the order of P1 and P2 between themselves free; P1 before P2 is the
model's, DESIGN CHOICE, log entry 19. It returns the slot `i`; P5 is `produceCommit`. -/
def produceStep (r : Ring) (st len : Word) (a : DAddr) : ProducePc → State → State × Next ProducePc Nat
  | .p1, s => (s.descWrite64 (bufferAddr s.cfg r (s.ring r).head) a, .goto (.p2 (s.ring r).head))
  | .p2 i, s => (s.descWrite32 (lengthAddr s.cfg r i) len, .goto (.p3 i))
  | .p3 i, s => (s.barrier, .goto (.p4 i))
  | .p4 i, s => (s.descWrite32 (statusAddr s.cfg r i) st, .ret i)

/-- PRODUCE, P5: the head advance (R128). -/
def State.produceCommit (s : State) (r : Ring) (i : Nat) : State := s.setHead r (nextIndex i (ringSize s.cfg r))

/-- PEEK, K1 and K2: the emptiness test, the one read of `status`, then the read of `length` (R129). -/
def peekStep (r : Ring) : PeekPc → State → State × Next PeekPc (Option (Word × Word))
  | .k1, s =>
    if s.empty r then (s, .ret none)
    else if ownBit (s.descRead32 (statusAddr s.cfg r (s.ring r).tail)) then (s, .ret none)
    else (s, .goto (.k2 (s.ring r).tail (s.descRead32 (statusAddr s.cfg r (s.ring r).tail))))
  | .k2 i st, s => (s, .ret (some (st, s.descRead32 (lengthAddr s.cfg r i))))

/-- ADVANCE_TAIL, A1 (R130). -/
def State.advanceTail (s : State) (r : Ring) : State := s.setTail r (nextIndex (s.ring r).tail (ringSize s.cfg r))

/-- IS_FULL, S1 (R126). -/
def isFullStep (r : Ring) (s : State) : State × Next Task Resp := (s, .ret (.ok, flagVal (s.full r)))

/-- IS_EMPTY, S1 (R127). -/
def isEmptyStep (r : Ring) (s : State) : State × Next Task Resp := (s, .ret (.ok, flagVal (s.empty r)))

end Sys2Proof.Machine
end

