-- ==== Sys2Proof/Machine/DeviceOps.lean ====
section
/-! DEFINITION. The device side (46_device_and_environment R195 to R199) and upstream's writes (R201). -/

namespace Sys2Proof.Machine

/-- `DEV_RAISE(bits)` (R198). -/
def State.devRaise (s : State) (bits : Word) : State := { s with isr := s.isr ||| (bits &&& recognized s.cfg) }

/-- `DEV_RESET_ACK`, enabled when `RESET[0] = 1` (R199): the device forgets what it was using. -/
def State.devResetAck (s : State) (isr : Word) : State :=
  if s.rst.getLsbD 0 then { s with rst := s.rst &&& ~~~1#32, isr := isr &&& recognized s.cfg, dev := [] } else s

/-- The slot a completion in progress is about. -/
def DevOp.slot : DevOp → Ring × Nat
  | .rx i _ _ _ _ _ => (.rx, i)
  | .tx i _ _ => (.tx, i)

/-- The device may begin a completion of slot `i`: `life` is `UP` (R195 e), its read of `status` returns
`OWN` = 1 (R196 V1, R197 W1), and no completion of that slot is in progress (R195 a). -/
def State.mayComplete (s : State) (r : Ring) (i : Nat) : Bool :=
  s.life == .up && decide (i < ringSize s.cfg r) && ownBit (s.descRead32 (statusAddr s.cfg r i))
    && !s.dev.any (fun o => o.slot == (r, i))

/-- V1's first access: the device's read of `status` (R196). -/
def State.devRxStart (s : State) (i : Nat) (len : Word) (err : Bool) (bytes : List Byte) : State :=
  if s.mayComplete .rx i then
    { s with
      dev := s.dev ++ [.rx i len err bytes s.tick (.v1len (s.descRead32 (statusAddr s.cfg .rx i)))]
      tick := s.tick + 1 }
  else s

/-- W1's first access (R197). -/
def State.devTxStart (s : State) (i : Nat) (err : Bool) : State :=
  if s.mayComplete .tx i then
    { s with dev := s.dev ++ [.tx i err (.w1len (s.descRead32 (statusAddr s.cfg .tx i)))] }
  else s

/-- Byte `k` of the received frame: as the move lists it, else a free value (R196 "Draws"). -/
def frameByte (bytes : List Byte) (seed k : Nat) : Byte := bytes.getD k (Config.freeFrameByte seed k)

/-- The next access of an RX completion (R196); `none` when V4 has been made. The end of V2's loop, which makes
no access, is a turn of its own: DESIGN CHOICE, log entry 20. -/
def devRxStep (i : Nat) (len : Word) (err : Bool) (bytes : List Byte) (seed : Nat) :
    RxPc → State → State × Option RxPc
  | .v1len st, s => (s, some (.v1addr st (s.descRead32 (lengthAddr s.cfg .rx i))))
  | .v1addr st cap, s => (s, some (.v2 st cap (s.descRead64 (bufferAddr s.cfg .rx i)) 0))
  | .v2 st cap a k, s =>
    if k < min len.toNat cap.toNat then
      (s.devMemWrite (a.toNat + k) (frameByte bytes seed k), some (.v2 st cap a (k + 1)))
    else (s, some (.v3 st))
  | .v3 st, s => (s.descWrite32 (lengthAddr s.cfg .rx i) len, some (.v4 st))
  | .v4 st, s => (s.descWrite32 (statusAddr s.cfg .rx i) (rxDoneStatus st err), none)

/-- The next access of a TX completion (R197). A refused read records `F_DMA_UNMAPPED` and its byte is a
free value (log entry 11). `TXED` is emitted in a turn of its own, after the last byte's read and before W3,
which R197 does not settle: DESIGN CHOICE, log entry 20. -/
def devTxStep (i : Nat) (err : Bool) : TxPc → State → State × Option TxPc
  | .w1len st, s => (s, some (.w1addr st (s.descRead32 (lengthAddr s.cfg .tx i))))
  | .w1addr st len, s => (s, some (.w2 st len (s.descRead64 (bufferAddr s.cfg .tx i)) []))
  | .w2 st len a b, s =>
    if b.length < len.toNat then
      match s.devMemRead (a.toNat + b.length) with
      | some x => (s, some (.w2 st len a (b ++ [x])))
      | none =>
        ({ s.raise .dmaUnmapped with tick := s.tick + 1 }, some (.w2 st len a (b ++ [Config.freeReadByte s.tick])))
    else (s.emit (.txed i b), some (.w3 st))
  | .w3 st, s => (s.descWrite32 (statusAddr s.cfg .tx i) (txDoneStatus st err), none)

/-- A completion's next access, with what is left of it. -/
def devOpStep : DevOp → State → State × Option DevOp
  | .rx i len err bytes seed p, s =>
    ((devRxStep i len err bytes seed p s).1, (devRxStep i len err bytes seed p s).2.map (.rx i len err bytes seed))
  | .tx i err p, s => ((devTxStep i err p s).1, (devTxStep i err p s).2.map (.tx i err))

/-- The `j`-th completion in progress makes its next access; none while `life` is not `UP` (R195 e). -/
def State.devStep (s : State) (j : Nat) : State :=
  if s.life = .up then
    match s.dev[j]? with
    | some o =>
      match devOpStep o s with
      | (s', some o') => { s' with dev := s'.dev.set j o' }
      | (s', none) => { s' with dev := s'.dev.eraseIdx j }
    | none => s
  else s

/-- The `j`-th completion makes up to `n` accesses in a row, and stops when it is done. -/
def devRun (j : Nat) : Nat → State → State
  | 0, s => s
  | n + 1, s => if (s.devStep j).dev.length < s.dev.length then s.devStep j else devRun j n (s.devStep j)

/-- Upstream caller `k` writes into a buffer it holds, within its valid bytes (R33, R201). -/
def State.upstreamFill (s : State) (k h off : Nat) (bytes : List Byte) : State :=
  if k < s.cfg.kUp ∧ s.handleOk h ∧ off + bytes.length ≤ (s.buffer h).len.toNat then s.bufWrite h off bytes else s

end Sys2Proof.Machine
end

