-- ==== Sys2Proof/Machine/ReceiveOps.lean ====
section
/-! DEFINITION. The Receive Engine's micro-steps: REFILL (42_receive_engine R140) and DRAIN (R141). As
commands they hold `poll_running`; called from POLL or BRINGUP that is the caller's. -/

namespace Sys2Proof.Machine

/-- REFILL, F1 to F9 (R140), returning the number of slots armed. -/
def refillStep : RefillPc → State → State × Next RefillPc Nat
  | .f1 n, s => if s.full .rx then (s, .goto (.f9 n)) else (s, .goto (.f2 n))
  | .f2 n, s =>
    match s.poolAcquire s.cfg.bufSize .eng with
    | some (h, s') => (s', .goto (.f3 n h))
    | none => (s, .goto (.f9 n))
  | .f3 n h, s =>
    match s.mapBuffer h .inbound with
    | .misuse => (s.raise .pool, .stop)
    | .failure s' => orPoolFault s' (s'.poolRelease h) fun s'' => (s'', .goto (.f9 n))
    | .address a s' => (s', .goto (.f4 n h a .p1))
  | .f4 n h a p, s =>
    match produceStep .rx rxArmedStatus (BitVec.ofNat 32 s.cfg.bufSize) a p s with
    | (s', .goto p') => (s', .goto (.f4 n h a p'))
    | (s', .ret i) => (s', .goto (.f5 n h a i))
    | (s', .hold) => (s', .hold)
    | (s', .stop) => (s', .stop)
  | .f5 n h a i, s => (s.setPending .rx i (some (h, a)), .goto (.f6 n i))
  | .f6 n i, s => (s.produceCommit .rx i, .goto (.f7 n))
  | .f7 n, s => (s, .goto (.f1 (n + 1)))
  | .f9 n, s => (s, .ret n)

/-- A received length is out of range, compared as the full 32-bit field (R132, R146). -/
def State.tooLong (s : State) (len : Word) : Bool := decide (s.cfg.bufSize < len.toNat)

/-- DRAIN, G1 to G9 (R141), returning the number of descriptors consumed. -/
def drainStep (b : Nat) : DrainPc → State → State × Next DrainPc Nat
  | .g1 w, s => if budgetSpent w b then (s, .goto (.g9 w)) else (s, .goto (.g2 w .k1))
  | .g2 w p, s =>
    match peekStep .rx p s with
    | (s', .goto p') => (s', .goto (.g2 w p'))
    | (s', .ret (some (st, len))) => (s', .goto (.g3 w st len))
    | (s', .ret none) => (s', .goto (.g9 w))
    | (s', .hold) => (s', .hold)
    | (s', .stop) => (s', .stop)
  | .g3 w st len, s =>
    match s.pending .rx s.rx.tail with
    | some (h, _) => (s, .goto (.g4 w st len s.rx.tail h))
    | none => (s.raise .pendEmpty, .goto (.g9 w))
  | .g4 w st len i h, s => orPoolFault s (s.unmapBuffer h .inbound) fun s' => (s', .goto (.g5 w st len i h))
  | .g5 w st len i h, s =>
    if errBit st || s.tooLong len then
      orPoolFault { s with rxErr := bump s.rxErr } (State.poolRelease { s with rxErr := bump s.rxErr } h)
        fun s' => (s', .goto (.g6 w i))
    else
      ((s.setBuffer h { s.buffer h with len := len.setWidth 16, own := .up }).emit
        (.deliver h (s.bufBytes h len.toNat)), .goto (.g6 w i))
  | .g6 w i, s => (s.setPending .rx i none, .goto (.g7 w))
  | .g7 w, s => (s.advanceTail .rx, .goto (.g8 w))
  | .g8 w, s => (s, .goto (.g1 (w + 1)))
  | .g9 w, s => (s, .ret w)

/-- A micro-step of the REFILL command: at its last one `poll_running` is cleared and `OK(n)` answered (R140). -/
def refillTask (p : RefillPc) (s : State) : State × Next Task Resp :=
  match refillStep p s with
  | (s', .goto p') => (s', .goto (.refill p'))
  | (s', .ret n) => ({ s' with pollRunning := false }, .ret (.ok, n))
  | (s', .hold) => (s', .hold)
  | (s', .stop) => (s', .stop)

/-- A micro-step of the DRAIN command (R141). -/
def drainTask (b : Nat) (p : DrainPc) (s : State) : State × Next Task Resp :=
  match drainStep b p s with
  | (s', .goto p') => (s', .goto (.drain b p'))
  | (s', .ret w) => ({ s' with pollRunning := false }, .ret (.ok, w))
  | (s', .hold) => (s', .hold)
  | (s', .stop) => (s', .stop)

end Sys2Proof.Machine
end

