-- ==== Sys2Proof/Machine/TransmitOps.lean ====
section
/-! DEFINITION. The Transmit Engine's micro-steps: SUBMIT (43_transmit_engine R155) and RECLAIM (R156). -/

namespace Sys2Proof.Machine

/-- `kick_transmit()` and its event (R39, R155 X9, R160). -/
def State.kickTransmit (s : State) : State := (s.regWrite32 .txctl s.cfg.txKickValue).emit .kick

/-- A micro-step of SUBMIT for the handle `h`, X1 to X10 (R155). -/
def submitTask (c : Ctx) (h : Nat) (p : SubmitPc) (s : State) : State × Next Task Resp :=
  match p with
  | .x1 => if s.txLock.isNone then (s.lock c, .goto (.submit h .x2)) else (s, .hold)
  | .x2 => if s.life = .up then (s, .goto (.submit h .x3)) else (s.unlock, .ret (.badState, 0))
  | .x3 =>
    if s.full .tx then ({ s with txStopped := true }.unlock, .ret (.busy, 0))
    else (s, .goto (.submit h .x4))
  | .x4 =>
    if s.handleOk h then (s.setBuffer h { s.buffer h with own := .eng }, .goto (.submit h .x5))
    else (s.unlock, .ret (.badHandle, 0))
  | .x5 =>
    match s.mapBuffer h .outbound with
    | .misuse => (s.raise .pool, .stop)
    | .failure s' => orPoolFault s' (s'.poolRelease h) fun s'' => (s''.unlock, .ret (.mapFail, 0))
    | .address a s' => (s', .goto (.submit h (.x6 a .p1)))
  | .x6 a q =>
    match produceStep .tx txArmedStatus ((s.buffer h).len.setWidth 32) a q s with
    | (s', .goto q') => (s', .goto (.submit h (.x6 a q')))
    | (s', .ret i) => (s', .goto (.submit h (.x7 a i)))
    | (s', .hold) => (s', .hold)
    | (s', .stop) => (s', .stop)
  | .x7 a i => (s.setPending .tx i (some (h, a)), .goto (.submit h (.x8 i)))
  | .x8 i => (s.produceCommit .tx i, .goto (.submit h .x9))
  | .x9 => (s.kickTransmit, .goto (.submit h .x10))
  | .x10 => (s.unlock, .ret (.ok, 0))

/-- Y5: unmap, count an error, release (R156). -/
def State.reclaimBuffer (s : State) (st : Word) (h : Nat) (k : State → State × Next ReclaimPc (Option Nat)) :
    State × Next ReclaimPc (Option Nat) :=
  orPoolFault s (s.unmapBuffer h .outbound) fun s1 =>
    let s2 := if errBit st then { s1 with txErr := bump s1.txErr } else s1
    orPoolFault s2 (s2.poolRelease h) k

/-- Y8: WAKE when a slot was freed and the ring was full on entry (R159). -/
def State.wakeIf (s : State) (wasFull : Bool) (n : Nat) : State :=
  if 1 ≤ n ∧ wasFull then { s.emit .wake with txStopped := false } else s

/-- RECLAIM, Y1 to Y9, on context `c` (R156). It returns the number of slots freed, or `none` when
`life` is not `UP`. -/
def reclaimStep (c : Ctx) : ReclaimPc → State → State × Next ReclaimPc (Option Nat)
  | .y1, s => if s.txLock.isNone then (s.lock c, .goto .y2) else (s, .hold)
  | .y2, s => if s.life = .up then (s, .goto (.y3 (s.full .tx) 0 .k1)) else (s.unlock, .ret none)
  | .y3 f n p, s =>
    match peekStep .tx p s with
    | (s', .goto p') => (s', .goto (.y3 f n p'))
    | (s', .ret (some (st, _))) => (s', .goto (.y4 f n st))
    | (s', .ret none) => (s', .goto (.y8 f n))
    | (s', .hold) => (s', .hold)
    | (s', .stop) => (s', .stop)
  | .y4 f n st, s =>
    match s.pending .tx s.tx.tail with
    | some (h, _) => (s, .goto (.y5 f n st s.tx.tail h))
    | none => (s.raise .pendEmpty, .goto (.y8 f n))
  | .y5 f n st i h, s => s.reclaimBuffer st h fun s' => (s', .goto (.y6 f n i))
  | .y6 f n i, s => (s.setPending .tx i none, .goto (.y7 f n))
  | .y7 f n, s => (s.advanceTail .tx, .goto (.y3 f (n + 1) .k1))
  | .y8 f n, s => (s.wakeIf f n, .goto (.y9 n))
  | .y9 n, s => (s.unlock, .ret (some n))

/-- A micro-step of the RECLAIM command: `OK(n)`, or `BAD_STATE` where Y2 found `life` not `UP` (R156). -/
def reclaimTask (c : Ctx) (p : ReclaimPc) (s : State) : State × Next Task Resp :=
  match reclaimStep c p s with
  | (s', .goto p') => (s', .goto (.reclaim p'))
  | (s', .ret (some n)) => (s', .ret (.ok, n))
  | (s', .ret none) => (s', .ret (.badState, 0))
  | (s', .hold) => (s', .hold)
  | (s', .stop) => (s', .stop)

end Sys2Proof.Machine
end

