-- ==== Sys2Proof/Machine/EventOps.lean ====
section
/-! DEFINITION. The Event Dispatcher's micro-steps: IRQ (44_event_dispatcher R170) and POLL (R173). -/

namespace Sys2Proof.Machine

/-- I3: RX-completion schedules one deferred poll (R170, R171). -/
def State.schedulePoll (s : State) (v : Word) : State :=
  if v.getLsbD s.cfg.isrRxDone ∧ s.life = .up ∧ ¬ s.pollSched then { s with pollSched := true } else s

/-- Report a cause to the surrounding driver when its bit is set (R170 I5, I6). -/
def State.reportIf (s : State) (b : Bool) (c : Cause) : State := if b then s.emit (.report c) else s

/-- A micro-step of IRQ, I1 to I8 (R170); RECLAIM is nested on `c` and its result ignored. The reports I5 and I6
come before the acknowledge I7, as R170 and R172 say and R224 does not: DEDUCED, log entry 21. -/
def irqTask (c : Ctx) (p : IrqPc) (s : State) : State × Next Task Resp :=
  match p with
  | .i1 => ({ s with isrLatch := s.regRead32 .isr }, .goto (.irq (.i2 (s.regRead32 .isr))))
  | .i2 v => if v &&& recognized s.cfg = 0 then (s, .ret (.notMine, 0)) else (s, .goto (.irq (.i3 v)))
  | .i3 v => (s.schedulePoll v, .goto (.irq (.i4 v)))
  | .i4 v => if v.getLsbD s.cfg.isrTxDone then (s, .goto (.irq (.i4r v .y1))) else (s, .goto (.irq (.i5 v)))
  | .i4r v q =>
    match reclaimStep c q s with
    | (s', .goto q') => (s', .goto (.irq (.i4r v q')))
    | (s', .ret _) => (s', .goto (.irq (.i5 v)))
    | (s', .hold) => (s', .hold)
    | (s', .stop) => (s', .stop)
  | .i5 v => (s.reportIf (v.getLsbD s.cfg.isrLink) .link, .goto (.irq (.i6 v)))
  | .i6 v => (s.reportIf (v.getLsbD s.cfg.isrErr) .err, .goto (.irq (.i7 v)))
  | .i7 v => (s.regWrite32 .isr v, .goto (.irq .i8))
  | .i8 => (s, .ret (.ok, 0))

/-- A micro-step of POLL with budget `b`, L1 to L4, DRAIN and then REFILL nested (R173). -/
def pollTask (b : Nat) (p : PollPc) (s : State) : State × Next Task Resp :=
  match p with
  | .l1 q =>
    match drainStep b q s with
    | (s', .goto q') => (s', .goto (.poll b (.l1 q')))
    | (s', .ret w) => (s', .goto (.poll b (.l2 w (.f1 0))))
    | (s', .hold) => (s', .hold)
    | (s', .stop) => (s', .stop)
  | .l2 w q =>
    match refillStep q s with
    | (s', .goto q') => (s', .goto (.poll b (.l2 w q')))
    | (s', .ret _) => (s', .goto (.poll b (.l3 w)))
    | (s', .hold) => (s', .hold)
    | (s', .stop) => (s', .stop)
  | .l3 w => ({ s with pollSched := !decide (w < b) }, .goto (.poll b (.l4 w)))
  | .l4 w => ({ s with pollRunning := false }, .ret (.ok, w))

end Sys2Proof.Machine
end

