-- ==== Sys2Proof/Machine/LifecycleOps.lean ====
section
/-! DEFINITION. The lifecycle's micro-steps: BRINGUP (45_lifecycle R185, R186) and TEARDOWN (R187). -/

namespace Sys2Proof.Machine

/-- The device answers a pending reset request at a read of `RESET`, or not: the draw `rst_ack` (R186,
R199). Once it has acknowledged, no draw is made. -/
def State.answerReset (s : State) : State :=
  if s.rst.getLsbD 0 then
    if s.drawRstAck.1 then s.drawRstAck.2.drawAckIsr.2.devResetAck s.drawRstAck.2.drawAckIsr.1 else s.drawRstAck.2
  else s

/-- One write of B2 to descriptor `i` of ring `r`; the third also clears the pending entry (R185). -/
def State.clearSlot (s : State) (r : Ring) (i : Nat) : ClearPc → State
  | .addr => s.descWrite64 (bufferAddr s.cfg r i) 0
  | .len => s.descWrite32 (lengthAddr s.cfg r i) 0
  | .status => (s.descWrite32 (statusAddr s.cfg r i) 0).setPending r i none

/-- B2's order: the writes of a slot, the slots of a ring, RX before TX. -/
def clearNext (c : Config) (r : Ring) (i : Nat) : ClearPc → BringupPc
  | .addr => .b2 r i .len
  | .len => .b2 r i .status
  | .status =>
    if i + 1 < ringSize c r then .b2 r (i + 1) .addr
    else match r with
      | .rx => .b2 .tx 0 .addr
      | .tx => .b3

/-- H[r] and T[r] become 0 on both rings (R185 B3, R187 T5). -/
def State.zeroIndices (s : State) : State :=
  ((((s.setHead .rx 0).setTail .rx 0).setHead .tx 0).setTail .tx 0)

/-- B3 (R185). -/
def State.clearLatches (s : State) : State :=
  { s.zeroIndices with pollSched := false, txStopped := false, isrLatch := 0, rxErr := 0, txErr := 0 }

/-- A micro-step of BRINGUP: H1 to H3, then B2 to B5 (R185, R186). -/
def bringupTask (p : BringupPc) (s : State) : State × Next Task Resp :=
  match p with
  | .h1 => (s.regWrite32 .reset 1, .goto (.bringup (.h3 0)))
  | .h3 k =>
    if (s.answerReset.regRead32 .reset).getLsbD 0 then
      if s.cfg.resetBound ≤ k + 1 then (s.answerReset, .ret (.resetTimeout, 0))
      else (s.answerReset, .goto (.bringup (.h3 (k + 1))))
    else (s.answerReset, .goto (.bringup (.b2 .rx 0 .addr)))
  | .b2 r i q => (s.clearSlot r i q, .goto (.bringup (clearNext s.cfg r i q)))
  | .b3 => (s.clearLatches, .goto (.bringup (.b4 (.f1 0))))
  | .b4 q =>
    match refillStep q s with
    | (s', .goto q') => (s', .goto (.bringup (.b4 q')))
    | (s', .ret n) => (s', .goto (.bringup (.b5 n)))
    | (s', .hold) => (s', .hold)
    | (s', .stop) => (s', .stop)
  | .b5 n => ({ s with life := .up }, .ret (.ok, n))

/-- T4's order: the slots of a ring, RX before TX (R187: the order is free). -/
def drainNext (c : Config) (r : Ring) (i k : Nat) : TeardownPc :=
  if i + 1 < ringSize c r then .t4 r (i + 1) k
  else match r with
    | .rx => .t4 .tx 0 k
    | .tx => .t5 k

/-- T4 on one slot, whatever its `status` says: unmap, release, clear the entry (R187). -/
def teardownSlot (r : Ring) (i k : Nat) (s : State) : State × Next Task Resp :=
  match s.pending r i with
  | some (h, _) =>
    orPoolFault s (s.unmapBuffer h (ringDir r)) fun s1 =>
      orPoolFault s1 (s1.poolRelease h) fun s2 =>
        (s2.setPending r i none, .goto (.teardown (drainNext s.cfg r i (k + 1))))
  | none => (s, .goto (.teardown (drainNext s.cfg r i k)))

/-- A micro-step of TEARDOWN, T1 to T6, on context `c` (R187). -/
def teardownTask (c : Ctx) (p : TeardownPc) (s : State) : State × Next Task Resp :=
  match p with
  | .t1 => if s.life = .down then (s, .ret (.ok, 0)) else (s, .goto (.teardown .t2))
  | .t2 => if s.txLock.isNone then (s.lock c, .goto (.teardown .t3)) else (s, .hold)
  | .t3 =>
    if s.pollRunning then (s, .hold)
    else ({ s with life := .down, pollSched := false }, .goto (.teardown (.t4 .rx 0 0)))
  | .t4 r i k => teardownSlot r i k s
  | .t5 k => ({ s.zeroIndices with txStopped := false }, .goto (.teardown (.t6 k)))
  | .t6 k => (s.unlock, .ret (.ok, k))

end Sys2Proof.Machine
end

