-- ==== Sys2Proof/Machine/Schedule.lean ====
section
/-! DEFINITION. One micro-step of a context (00_scope R10, 10_state R41), a slice of them, and the
acceptance of a command at a port (30_encoding R94, R97). -/

namespace Sys2Proof.Machine

/-- The next micro-step of the operation `t` on context `c`. -/
def taskStep (c : Ctx) (t : Task) (s : State) : State × Next Task Resp :=
  match t with
  | .acquire size => acquireStep size s
  | .release h => releaseStep h s
  | .isFull r => isFullStep r s
  | .isEmpty r => isEmptyStep r s
  | .refill p => refillTask p s
  | .drain b p => drainTask b p s
  | .submit h p => submitTask c h p s
  | .reclaim p => reclaimTask c p s
  | .irq p => irqTask c p s
  | .poll b p => pollTask b p s
  | .bringup p => bringupTask p s
  | .teardown p => teardownTask c p s

/-- One micro-step of context `c` (R10, R41): the last one makes the context `Idle` and answers; a
context with no enabled micro-step changes nothing. -/
def microStep (c : Ctx) (s : State) : State :=
  match s.lane? c with
  | some ⟨.running t, _⟩ =>
    match taskStep c t s with
    | (s', .goto t') => s'.setCont c (.running t')
    | (s', .ret (code, n)) => (s'.setCont c .idle).respond c code n
    | (_, .hold) => s
    | (s', .stop) => s'.setCont c .stopped
  | _ => s

/-- Context `c` has an operation in progress. -/
def State.running (s : State) (c : Ctx) : Bool :=
  match s.lane? c with
  | some ⟨.running _, _⟩ => true
  | _ => false

/-- Context `c` is there and `Idle`. -/
def State.idle (s : State) (c : Ctx) : Bool :=
  match s.lane? c with
  | some ⟨.idle, _⟩ => true
  | _ => false

/-- Up to `n` micro-steps of context `c` in a row, stopping when it has no operation in progress. -/
def runFor (c : Ctx) : Nat → State → State
  | 0, s => s
  | n + 1, s => if s.running c then runFor c n (microStep c s) else s

/-- How a command is accepted: it starts, in the state its acceptance leaves, or it is answered at once. -/
inductive Acceptance where
  | start (t : Task) (s : State)
  | reject (code : Code)

/-- A command presented on the port of the scheduled context `cur`: refused with an invalid parameter set
(R7); waiting while the context is busy (R97); `ILLEGAL` where the port may not issue it (R94, R220);
else accepted, and the context takes `slice` micro-steps. -/
def issue (i : Instr) (s : State) (accept : Acceptance) : Host.Outcome State Fault Refusal :=
  if s.cfg.wf then
    if s.idle s.cur then
      if legalOn i s.cur.port then
        match accept with
        | .start t s' => .next (runFor s.cur s.slice (s'.setCont s.cur (.running t)))
        | .reject code => .next (s.respond s.cur code 0)
      else .next (s.respond s.cur .illegal 0)
    else .next (s.offer s.cur (encode i))
  else .refused .invalidConfig

/-- The acceptance test of REFILL, DRAIN and POLL: `life = UP` and `poll_running = 0`, which is set in the
same atomic step (R140, R141, R173, R175). -/
def acceptPoll (s : State) (t : Task) : Acceptance :=
  if s.life = .up ∧ ¬ s.pollRunning then .start t { s with pollRunning := true } else .reject .badState

end Sys2Proof.Machine
end

