-- ==== Sys2Proof/Machine/Events.lean ====
section
/-! DEFINITION. The meanings of IRQ and POLL (44_event_dispatcher R170, R173). IRQ is the interrupt's
entry and its response the return (60_exceptions R221, R222). -/

namespace Sys2Proof.Machine

/-- IRQ (R170): accepted only when `life = UP`, else `BAD_STATE` with no register access. -/
def execIrq (s : State) : Host.Outcome State Fault Refusal :=
  issue .irq s (if s.life = .up then .start (.irq .i1) s else .reject .badState)

/-- POLL (R173): L0 is part of the acceptance. -/
def execPoll (b : Nat) (s : State) : Host.Outcome State Fault Refusal :=
  issue (.poll b) s (acceptPoll s (.poll b (.l1 (.g1 0))))

end Sys2Proof.Machine
end

