-- ==== Sys2Proof/Machine/Lifecycle.lean ====
section
/-! DEFINITION. The meanings of BRINGUP and TEARDOWN (45_lifecycle R185, R187). -/

namespace Sys2Proof.Machine

/-- BRINGUP (R185): accepted only when `life = DOWN`. -/
def execBringup (s : State) : Host.Outcome State Fault Refusal :=
  issue .bringup s (if s.life = .down then .start (.bringup .h1) s else .reject .badState)

/-- TEARDOWN (R187): accepted whatever `life` is. -/
def execTeardown (s : State) : Host.Outcome State Fault Refusal :=
  issue .teardown s (.start (.teardown .t1) s)

end Sys2Proof.Machine
end

