-- ==== Sys2Proof/Machine/Pool.lean ====
section
/-! DEFINITION. The meanings of ACQUIRE and RELEASE (40_buffer_pool R111, R113). -/

namespace Sys2Proof.Machine

/-- ACQUIRE (R111): accepted whatever `life` is. -/
def execAcquire (size : Nat) (s : State) : Host.Outcome State Fault Refusal :=
  issue (.acquire size) s (.start (.acquire size) s)

/-- RELEASE (R113): accepted whatever `life` is. -/
def execRelease (h : Nat) (s : State) : Host.Outcome State Fault Refusal :=
  issue (.release h) s (.start (.release h) s)

end Sys2Proof.Machine
end

