-- ==== Sys2Proof/Machine/Receive.lean ====
section
/-! DEFINITION. The meanings of REFILL and DRAIN (42_receive_engine R140, R141). -/

namespace Sys2Proof.Machine

/-- REFILL (R140): F0 is part of the acceptance. -/
def execRefill (s : State) : Host.Outcome State Fault Refusal :=
  issue .refill s (acceptPoll s (.refill (.f1 0)))

/-- DRAIN (R141): G0 is part of the acceptance. -/
def execDrain (b : Nat) (s : State) : Host.Outcome State Fault Refusal :=
  issue (.drain b) s (acceptPoll s (.drain b (.g1 0)))

end Sys2Proof.Machine
end

