-- ==== Sys2Proof/Machine/RingQueries.lean ====
section
/-! DEFINITION. The meanings of IS_FULL and IS_EMPTY (41_descriptor_ring R126, R127). -/

namespace Sys2Proof.Machine

/-- IS_FULL (R126): accepted on every port, whatever `life` is. -/
def execIsFull (r : Ring) (s : State) : Host.Outcome State Fault Refusal :=
  issue (.isFull r) s (.start (.isFull r) s)

/-- IS_EMPTY (R127): accepted on every port, whatever `life` is. -/
def execIsEmpty (r : Ring) (s : State) : Host.Outcome State Fault Refusal :=
  issue (.isEmpty r) s (.start (.isEmpty r) s)

end Sys2Proof.Machine
end

