-- ==== Sys2Proof/Machine/Transmit.lean ====
section
/-! DEFINITION. The meanings of SUBMIT and RECLAIM (43_transmit_engine R155, R156). Both test `life` under
the lock, at X2 and Y2 (45_lifecycle R190). -/

namespace Sys2Proof.Machine

/-- SUBMIT (R155). -/
def execSubmit (h : Nat) (s : State) : Host.Outcome State Fault Refusal :=
  issue (.submit h) s (.start (.submit h .x1) s)

/-- RECLAIM (R156). -/
def execReclaim (s : State) : Host.Outcome State Fault Refusal :=
  issue .reclaim s (.start (.reclaim .y1) s)

end Sys2Proof.Machine
end

