-- ==== Sys2Proof/Machine/Dispatch.lean ====
section
/-! DEFINITION. One arm per command, each a direct call of its meaning. -/

namespace Sys2Proof.Machine

def exec (i : Instr) (s : State) : Host.Outcome State Fault Refusal :=
  match i with
  | .bringup => Sys2Proof.Machine.execBringup s
  | .teardown => Sys2Proof.Machine.execTeardown s
  | .acquire size => Sys2Proof.Machine.execAcquire size s
  | .release h => Sys2Proof.Machine.execRelease h s
  | .isFull r => Sys2Proof.Machine.execIsFull r s
  | .isEmpty r => Sys2Proof.Machine.execIsEmpty r s
  | .refill => Sys2Proof.Machine.execRefill s
  | .drain b => Sys2Proof.Machine.execDrain b s
  | .submit h => Sys2Proof.Machine.execSubmit h s
  | .reclaim => Sys2Proof.Machine.execReclaim s
  | .irq => Sys2Proof.Machine.execIrq s
  | .poll b => Sys2Proof.Machine.execPoll b s

end Sys2Proof.Machine
end

