-- ==== Sys2Proof/Machine/Turn.lean ====
section
/-! DEFINITION. One move of an agent: which moves next (log entry 6), and what it does; and a command word
placed where the next step fetches it. -/

namespace Sys2Proof.Machine

/-- What a turn comes to: a command to run, or a state. -/
inductive Turn where
  | command (i : Instr) (s : State)
  | done (s : State)

/-- The next move: the script's first, else a free value. -/
def State.nextMove (s : State) : Move × State :=
  match s.script with
  | m :: ms => (m, { s with script := ms })
  | [] => (Config.freeMove s.tick, { s with tick := s.tick + 1 })

/-- Set draws override those set before, position by position (R102: "the next draws are ..."). -/
def setNext {α : Type} (new old : List α) : List α := new ++ old.drop new.length

/-- A turn of the scheduled context `c`: `Idle`, it takes the word that waits longest at its port, and a
word that decodes to no command is answered `ILLEGAL` (R96, R97); else it goes on with its operation. -/
def contextTurn (c : Ctx) (more : Nat) (s : State) : Turn :=
  match s.lane? c with
  | some ⟨.idle, w :: ws⟩ =>
    match decode w with
    | .ok i => .command i (s.setQueue c ws)
    | .error _ => .done ((s.setQueue c ws).respond c .illegal 0)
  | some ⟨.running _, _⟩ => .done (runFor c (more + 1) s)
  | _ => .done s

/-- What a move does. -/
def moveTurn (m : Move) (s : State) : Turn :=
  match m with
  | .run c more => contextTurn c more { s with cur := c, slice := more }
  | .offer c w => .done (s.offer c w)
  | .rxComplete i len err bytes => .done (s.devRxStart i len err bytes)
  | .txComplete i err => .done (s.devTxStart i err)
  | .device j more => .done (devRun j (more + 1) s)
  | .raise bits => .done (s.devRaise bits)
  | .resetAck isr => .done (s.devResetAck isr)
  | .fill k h off bytes => .done (s.upstreamFill k h off bytes)
  | .mapOk bs => .done { s with draws := { s.draws with mapOk := setNext bs s.draws.mapOk } }
  | .rstAck bs => .done { s with draws := { s.draws with rstAck := setNext bs s.draws.rstAck } }
  | .ackIsr ws => .done { s with draws := { s.draws with ackIsr := setNext ws s.draws.ackIsr } }
  | .line on => .done { s with lineEn := on }

/-- The turn of the next move. -/
def turn (s : State) : Turn := moveTurn s.nextMove.1 s.nextMove.2

/-- The context whose port a word is placed at: one that accepts its command; for an illegal word, any. -/
def placeCtx (w : Word) : Ctx :=
  match decode w with
  | .ok i => homeCtx i
  | .error _ => .drv

/-- More micro-steps than a command takes in the sample configuration. -/
def fetchSlice : Nat := 4095

/-- The word waits first at the port of an `Idle` context, which is scheduled next (log entry 6). -/
def placeWord (w : Word) (s : State) : State :=
  let c := placeCtx w
  let q := match s.lane? c with
    | some l => l.queue
    | none => []
  { s.setLane c ⟨.idle, w :: q⟩ with script := .run c fetchSlice :: s.script }

end Sys2Proof.Machine
end

