-- ==== Sys2Proof/Machine/Step.lean ====
section
/-! DEFINITION. One step: the next move of an agent (00_scope R10, R12). -/

namespace Sys2Proof.Machine

/-- One step of the machine; a parameter set that breaks a constraint of R7 is refused. -/
def step (s : State) : Host.Outcome State Fault Refusal :=
  if s.cfg.wf then
    match turn s with
    | .command i s' => exec i s'
    | .done s' => .next s'
  else .refused .invalidConfig

/-- `s` with the command word `w` placed so that the very next step takes and runs it. -/
def State.withFetchWord (s : State) (nbits w : Nat) : State := placeWord (BitVec.ofNat 32 (w % 2 ^ nbits)) s

end Sys2Proof.Machine
end

