-- ==== Sys2Proof/Safety.lean ====
section
/-! DEFINITION. What counts as a good state of the block: the end of a run (70_reset R260), the invariants
that hold throughout (R261), and the fairness assumption the spec leaves open (46_device R205). -/

namespace Sys2Proof.Machine

/-! ## Runs and their end -/

/-- The context's continuation; a context that is not there counts as `Idle`. -/
def State.cont (s : State) (c : Ctx) : Cont :=
  match s.lane? c with
  | some l => l.cont
  | none => .idle

/-- Every lane of the block. -/
def Lanes.all (l : Lanes) : List Lane := l.drv :: l.irq :: l.poll :: l.up

/-- Quiescent: every context is `Idle` and no port holds a word (R260). -/
def State.quiescent (s : State) : Bool := s.lanes.all.all fun l => l.cont == .idle && l.queue.isEmpty

/-- What a run that has ended well leaves in the state (R260): quiescent, `DOWN`, no fault, every pending
table empty, and no buffer held by an engine or mapped. `EndedWell` says of a run that it has ended well. -/
def State.atRest (s : State) : Bool :=
  s.quiescent && s.life == .down && s.fault.none && s.rx.pend.all Option.isNone && s.tx.pend.all Option.isNone
    && s.pool.all fun e => e.own != .eng && e.map.isNone

/-! ## What a command needs to be accepted -/

/-- The command can be accepted now: the parameter set has a meaning, the scheduled context is `Idle`, and
its port may issue the command (R94, R97). -/
structure State.Ready (s : State) (i : Instr) : Prop where
  wf : s.cfg.wf = true
  idle : s.idle s.cur = true
  legal : legalOn i s.cur.port = true

/-! ## The state's shape -/

/-- The tables have the sizes of R29 and R31, the indices lie in `0..N-1` (R22, R23), there is one lane per
upstream caller, memory is in its canonical form, and the reserved bits of `ISR` and `RESET` are 0. -/
structure State.Shaped (s : State) : Prop where
  pool : s.pool.length = s.cfg.poolSize
  rxPend : s.rx.pend.length = s.cfg.nRx
  txPend : s.tx.pend.length = s.cfg.nTx
  up : s.lanes.up.length = s.cfg.kUp
  rxHead : s.rx.head < s.cfg.nRx
  rxTail : s.rx.tail < s.cfg.nRx
  txHead : s.tx.head < s.cfg.nTx
  txTail : s.tx.tail < s.cfg.nTx
  desc : Memory.wf s.desc = true
  buf : Memory.wf s.buf = true
  isr : s.isr &&& ~~~recognized s.cfg = 0
  rst : s.rst = 0 ∨ s.rst = 1

/-! ## Exclusive regions (20_memory R75, R76; 60_exceptions R225) -/

/-- The contexts of the machine. -/
def State.ctxs (s : State) : List Ctx := .drv :: .irq :: .poll :: (List.range s.cfg.kUp).map .up

/-- The operation in progress on a context. -/
def State.task? (s : State) (c : Ctx) : Option Task :=
  match s.cont c with
  | .running t => some t
  | _ => none

/-- A context runs only what its port may issue (R225). -/
def Task.fits : Task → Ctx → Bool
  | .acquire _, .up _ => true
  | .release _, .up _ => true
  | .submit _ _, .up _ => true
  | .isFull _, _ => true
  | .isEmpty _, _ => true
  | .refill _, .poll => true
  | .drain _ _, .poll => true
  | .reclaim _, .poll => true
  | .poll _ _, .poll => true
  | .irq _, .irq => true
  | .bringup _, .drv => true
  | .teardown _, .drv => true
  | _, _ => false

/-- RECLAIM holds the lock from Y2 to Y9. -/
def ReclaimPc.locked : ReclaimPc → Bool
  | .y1 => false
  | _ => true

/-- RECLAIM has seen `life = UP`. -/
def ReclaimPc.live : ReclaimPc → Bool
  | .y1 => false
  | .y2 => false
  | _ => true

/-- The operation holds `tx_lock`. -/
def Task.locked : Task → Bool
  | .submit _ p => p != .x1
  | .reclaim p => p.locked
  | .irq (.i4r _ p) => p.locked
  | .teardown p => p != .t1 && p != .t2
  | _ => false

/-- The operation is a POLL, DRAIN or REFILL command (R34 `poll_running`). -/
def Task.polls : Task → Bool
  | .refill _ => true
  | .drain _ _ => true
  | .poll _ _ => true
  | _ => false

/-- The operation runs only while `life = UP`. -/
def Task.needsUp : Task → Bool
  | .submit _ p => p != .x1 && p != .x2
  | .reclaim p => p.live
  | .irq (.i4r _ p) => p.live
  | .teardown p => p == .t2 || p == .t3
  | t => t.polls

/-- The operation runs only while `life = DOWN`. -/
def Task.needsDown : Task → Bool
  | .bringup _ => true
  | .teardown (.t4 ..) => true
  | .teardown (.t5 _) => true
  | .teardown (.t6 _) => true
  | _ => false

/-- Who may run what: each context runs its own commands, `tx_lock` names exactly the context inside the
TX ring's exclusive region, `poll_running` is set exactly while a poll-context command runs, and `life`
is what the operations in progress need (R21, R34, R36, R75, R76, R190). A context that has stopped
(log entry 9) keeps what it held. -/
structure State.Exclusive (s : State) : Prop where
  fits : ∀ c t, s.task? c = some t → t.fits c = true
  lockHolder : ∀ c, s.txLock = some c → s.cont c = .stopped ∨ ∃ t, s.task? c = some t ∧ t.locked = true
  lockHeld : ∀ c t, s.task? c = some t → t.locked = true → s.txLock = some c
  pollHeld : s.pollRunning = true → s.cont .poll = .stopped ∨ ∃ t, s.task? .poll = some t ∧ t.polls = true
  pollRuns : ∀ t, s.task? .poll = some t → t.polls = true → s.pollRunning = true
  up : ∀ c t, s.task? c = some t → t.needsUp = true → s.life = .up
  down : ∀ c t, s.task? c = some t → t.needsDown = true → s.life = .down

/-! ## Buffers and pending entries (10_state R30, R32; 70_reset R261) -/

/-- A buffer an engine holds outside a live pending entry, with its mapping: between the micro-steps of
an operation (R32 b). -/
abbrev Claim := Nat × Option Dir

/-- REFILL holds its buffer from F3 until F5 records it. -/
def RefillPc.claims : RefillPc → List Claim
  | .f3 _ h => [(h, none)]
  | .f4 _ h _ _ => [(h, some .inbound)]
  | .f5 _ h _ _ => [(h, some .inbound)]
  | _ => []

/-- DRAIN holds its buffer, unmapped, at G5. -/
def DrainPc.claims : DrainPc → List Claim
  | .g5 _ _ _ _ h => [(h, none)]
  | _ => []

/-- SUBMIT holds its buffer from X5 until X7 records it. -/
def SubmitPc.claims (h : Nat) : SubmitPc → List Claim
  | .x5 => [(h, none)]
  | .x6 _ _ => [(h, some .outbound)]
  | .x7 _ _ => [(h, some .outbound)]
  | _ => []

/-- The buffers an operation holds outside a live pending entry. -/
def Task.claims : Task → List Claim
  | .refill p => p.claims
  | .drain _ p => p.claims
  | .submit h p => p.claims h
  | .poll _ (.l1 p) => p.claims
  | .poll _ (.l2 _ p) => p.claims
  | .bringup (.b4 p) => p.claims
  | _ => []

/-- The slot whose pending entry DRAIN no longer stands behind: unmapped or passed on, not yet cleared. -/
def DrainPc.stale : DrainPc → List (Ring × Nat)
  | .g5 _ _ _ i _ => [(.rx, i)]
  | .g6 _ i => [(.rx, i)]
  | _ => []

/-- The same for RECLAIM. -/
def ReclaimPc.stale : ReclaimPc → List (Ring × Nat)
  | .y6 _ _ i => [(.tx, i)]
  | _ => []

/-- The slots whose pending entries are stale inside an operation. -/
def Task.stale : Task → List (Ring × Nat)
  | .drain _ p => p.stale
  | .poll _ (.l1 p) => p.stale
  | .reclaim p => p.stale
  | .irq (.i4r _ p) => p.stale
  | _ => []

/-- The operations in progress. -/
def State.tasks (s : State) : List Task := s.ctxs.filterMap s.task?

/-- The stale slots of all operations in progress. -/
def State.stale (s : State) : List (Ring × Nat) := s.tasks.flatMap Task.stale

/-- The live pending entries of ring `r`, as claims. -/
def State.pendClaims (s : State) (r : Ring) : List Claim :=
  (List.range (ringSize s.cfg r)).filterMap fun i =>
    if s.stale.contains (r, i) then none else (s.pending r i).map fun e => (e.1, some (ringDir r))

/-- Every buffer an engine holds, once each. -/
def State.claims (s : State) : List Claim :=
  s.tasks.flatMap Task.claims ++ (s.pendClaims .rx ++ s.pendClaims .tx)

/-- Every buffer is in exactly one of: free, held by upstream, or in exactly one claim of an engine, with
the mapping that claim says; a buffer no engine holds is not mapped (R32, R261: no leak, no double
free). -/
structure State.PoolSound (s : State) : Prop where
  once : (s.claims.map Prod.fst).Nodup
  held : ∀ h m, (h, m) ∈ s.claims → h < s.cfg.poolSize ∧ (s.buffer h).own = .eng ∧ (s.buffer h).map = m
  claimed : ∀ h, (s.buffer h).own = .eng → h ∈ s.claims.map Prod.fst
  unmapped : ∀ h, (s.buffer h).own ≠ .eng → (s.buffer h).map = none
  lengths : ∀ h, (s.buffer h).own ≠ .free → (s.buffer h).len.toNat ≤ s.cfg.bufSize
  addresses : ∀ r i h a, s.pending r i = some (h, a) → a = xlateOf s.cfg h

/-- REFILL has recorded slot `H[RX]` and not yet advanced the head. -/
def RefillPc.late : RefillPc → Bool
  | .f6 _ _ => true
  | _ => false

/-- An operation has recorded slot `H[r]` and not yet advanced the head (R28, the transient of PRODUCE). -/
def Task.late : Task → Ring → Bool
  | .refill p, .rx => p.late
  | .poll _ (.l2 _ p), .rx => p.late
  | .bringup (.b4 p), .rx => p.late
  | .submit _ (.x8 _), .tx => true
  | _, _ => false

/-- RECLAIM has cleared slot `T[TX]` and not yet advanced the tail. -/
def ReclaimPc.early : ReclaimPc → Bool
  | .y7 _ _ => true
  | _ => false

/-- DRAIN has cleared slot `T[RX]` and not yet advanced the tail. -/
def DrainPc.early : DrainPc → Bool
  | .g7 _ => true
  | _ => false

/-- An operation has cleared slot `T[r]` and not yet advanced the tail. -/
def Task.early : Task → Ring → Bool
  | .drain _ p, .rx => p.early
  | .poll _ (.l1 p), .rx => p.early
  | .reclaim p, .tx => p.early
  | .irq (.i4r _ p), .tx => p.early
  | _, _ => false

/-- TEARDOWN has already cleared slot `i` of ring `r` (RX before TX). -/
def TeardownPc.swept : TeardownPc → Ring → Nat → Bool
  | .t4 .rx j _, .rx, i => decide (i < j)
  | .t4 .rx _ _, .tx, _ => false
  | .t4 .tx _ _, .rx, _ => true
  | .t4 .tx j _, .tx, i => decide (i < j)
  | .t5 _, _, _ => true
  | _, _, _ => false

/-- The same of an operation in progress. -/
def Task.swept : Task → Ring → Nat → Bool
  | .teardown p, r, i => p.swept r i
  | _, _, _ => false

/-- Slot `i` of ring `r` has a pending entry: it is in the window, but for the micro-steps between which an
operation moves the entry and the index (R30). -/
def State.expects (s : State) (r : Ring) (i : Nat) : Bool :=
  ((s.inWindow r i && !(s.tasks.any (·.early r) && i == (s.ring r).tail))
      || (s.tasks.any (·.late r) && i == (s.ring r).head))
    && !s.tasks.any (·.swept r i)

/-- PRODUCE writes the slot at the head. -/
def ProducePc.at : ProducePc → Nat → Bool
  | .p1, _ => true
  | .p2 i, h => i == h
  | .p3 i, h => i == h
  | .p4 i, h => i == h

/-- REFILL's locals agree with the RX ring. -/
def RefillPc.ok (s : State) : RefillPc → Prop
  | .f1 _ => True
  | .f2 _ => s.full .rx = false
  | .f3 _ _ => s.full .rx = false
  | .f4 _ h a p => s.full .rx = false ∧ a = xlateOf s.cfg h ∧ p.at s.rx.head = true
  | .f5 _ h a i => s.full .rx = false ∧ a = xlateOf s.cfg h ∧ i = s.rx.head
  | .f6 _ i => s.full .rx = false ∧ i = s.rx.head
  | .f7 _ => True
  | .f9 _ => True

/-- PEEK's locals agree with ring `r`. -/
def PeekPc.ok (s : State) (r : Ring) : PeekPc → Prop
  | .k1 => True
  | .k2 i _ => s.empty r = false ∧ i = (s.ring r).tail

/-- The slot at the tail is in the window and its entry names the buffer `h`. -/
def State.atTail (s : State) (r : Ring) (i h : Nat) : Prop :=
  s.empty r = false ∧ i = (s.ring r).tail ∧ ∃ a, s.pending r i = some (h, a)

/-- DRAIN's locals agree with the RX ring. -/
def DrainPc.ok (s : State) : DrainPc → Prop
  | .g1 _ => True
  | .g2 _ p => p.ok s .rx
  | .g3 _ _ _ => s.empty .rx = false
  | .g4 _ _ _ i h => s.atTail .rx i h
  | .g5 _ _ _ i h => s.atTail .rx i h
  | .g6 _ i => s.empty .rx = false ∧ i = s.rx.tail
  | .g7 _ => s.empty .rx = false
  | .g8 _ => True
  | .g9 _ => True

/-- SUBMIT's locals agree with the TX ring. -/
def SubmitPc.ok (s : State) (h : Nat) : SubmitPc → Prop
  | .x1 => True
  | .x2 => True
  | .x3 => True
  | .x4 => s.full .tx = false
  | .x5 => s.full .tx = false
  | .x6 a p => s.full .tx = false ∧ a = xlateOf s.cfg h ∧ p.at s.tx.head = true
  | .x7 a i => s.full .tx = false ∧ a = xlateOf s.cfg h ∧ i = s.tx.head
  | .x8 i => s.full .tx = false ∧ i = s.tx.head
  | .x9 => True
  | .x10 => True

/-- What `was_full` and the count say while RECLAIM runs: no slot freed yet, the ring is as it was on entry;
a stopped queue was full on entry (R159). -/
def State.wakeOwed (s : State) (wasFull : Bool) (n : Nat) : Prop :=
  (n = 0 → wasFull = s.full .tx) ∧ (s.txStopped = true → wasFull = true)

/-- RECLAIM's locals agree with the TX ring. -/
def ReclaimPc.ok (s : State) : ReclaimPc → Prop
  | .y1 => True
  | .y2 => True
  | .y3 f n p => p.ok s .tx ∧ s.wakeOwed f n
  | .y4 f n _ => s.empty .tx = false ∧ s.wakeOwed f n
  | .y5 f n _ i h => s.atTail .tx i h ∧ s.wakeOwed f n
  | .y6 f n i => s.empty .tx = false ∧ i = s.tx.tail ∧ s.wakeOwed f n
  | .y7 f n => s.empty .tx = false ∧ s.wakeOwed f n
  | .y8 f n => s.wakeOwed f n
  | .y9 _ => s.txStopped = true → s.full .tx = true

/-- An operation's locals agree with the rings. -/
def Task.ok (s : State) : Task → Prop
  | .refill p => p.ok s
  | .drain _ p => p.ok s
  | .submit h p => p.ok s h
  | .reclaim p => p.ok s
  | .irq (.i4r _ p) => p.ok s
  | .poll _ (.l1 p) => p.ok s
  | .poll _ (.l2 _ p) => p.ok s
  | .bringup (.b4 p) => p.ok s
  | _ => True

/-- RECLAIM has freed a slot of a ring it found full and has not yet sent the wake (R159). -/
def ReclaimPc.owesWake : ReclaimPc → Bool
  | .y3 f n _ => f && decide (1 ≤ n)
  | .y4 f n _ => f && decide (1 ≤ n)
  | .y5 f n _ _ _ => f && decide (1 ≤ n)
  | .y6 f n _ => f && decide (1 ≤ n)
  | .y7 f n => f && decide (1 ≤ n)
  | .y8 f n => f && decide (1 ≤ n)
  | _ => false

/-- The same of an operation in progress. -/
def Task.owesWake : Task → Bool
  | .reclaim p => p.owesWake
  | .irq (.i4r _ p) => p.owesWake
  | _ => false

/-- BRINGUP is filling or has filled the RX ring. -/
def Task.prefills : Task → Bool
  | .bringup (.b4 _) => true
  | .bringup (.b5 _) => true
  | _ => false

/-- TEARDOWN is releasing the rings' buffers. -/
def Task.sweeps : Task → Bool
  | .teardown (.t4 ..) => true
  | .teardown (.t5 _) => true
  | _ => false

/-- The rings and their pending tables agree (R30), the operations' locals agree with them, a stopped queue
is full unless a wake is on its way (R159), the rings are empty while `DOWN` but for BRINGUP's filling and
TEARDOWN's emptying (R190), and no context has stopped or recorded `F_POOL` or `F_PEND_EMPTY`. -/
structure State.RingSound (s : State) : Prop where
  pending : ∀ r i, i < ringSize s.cfg r → ((s.pending r i).isSome = s.expects r i)
  locals : ∀ t, t ∈ s.tasks → t.ok s
  stopped : s.txStopped = true → s.full .tx = true ∨ s.tasks.any Task.owesWake = true
  downTx : s.life = .down → s.tasks.any Task.sweeps = false → s.tx.head = 0 ∧ s.tx.tail = 0
  downRx : s.life = .down → s.tasks.any Task.sweeps = false → s.tasks.any Task.prefills = false →
    s.rx.head = 0 ∧ s.rx.tail = 0
  going : ∀ c, s.cont c ≠ .stopped
  noPool : s.fault.pool = false
  noPendEmpty : s.fault.pendEmpty = false

/-- R261: the invariants of the host side. -/
structure State.Sound (s : State) : Prop where
  wf : s.cfg.wf = true
  shaped : s.Shaped
  exclusive : s.Exclusive
  pool : s.PoolSound
  ring : s.RingSound

/-! ## The device side (46_device R195 to R197, 20_memory R68) -/

/-- An operation has handed slot `i` of ring `r` over with buffer `h` and not yet recorded it (F5, X7). -/
def RefillPc.handed : RefillPc → Option (Nat × Nat)
  | .f5 _ h _ i => some (i, h)
  | _ => none

/-- The same of an operation in progress. -/
def Task.handed : Task → Ring → Option (Nat × Nat)
  | .refill p, .rx => p.handed
  | .poll _ (.l2 _ p), .rx => p.handed
  | .bringup (.b4 p), .rx => p.handed
  | .submit h (.x7 _ i), .tx => some (i, h)
  | _, _ => none

/-- Buffer `h` is the one the descriptor of slot `i` of ring `r` refers to. -/
def State.backs (s : State) (r : Ring) (i h : Nat) : Prop :=
  (∃ a, s.pending r i = some (h, a)) ∨ (∃ t, t ∈ s.tasks ∧ t.handed r = some (i, h))

/-- The device has written the received length of RX slot `i` and not yet its `status`. -/
def DevOp.lengthWritten : DevOp → Ring → Nat → Bool
  | .rx j _ _ _ _ (.v4 _), .rx, i => i == j
  | _, _, _ => false

/-- A descriptor the device owns refers to a mapped buffer, and its length lies in the buffer. -/
def State.armedOk (s : State) (r : Ring) (i : Nat) : Prop :=
  ownBit (s.descRead32 (statusAddr s.cfg r i)) = true →
    ∃ h, s.backs r i h ∧ (s.buffer h).map = some (ringDir r) ∧ h < s.cfg.poolSize
      ∧ s.descRead64 (bufferAddr s.cfg r i) = xlateOf s.cfg h
      ∧ ((s.descRead32 (lengthAddr s.cfg r i)).toNat ≤ s.cfg.bufSize ∨ s.dev.any (·.lengthWritten r i) = true)

/-- A completion in progress holds what it read of the descriptor it owns. -/
def DevOp.ok (s : State) : DevOp → Prop
  | .rx i _ _ _ _ p =>
    i < s.cfg.nRx ∧ ownBit (s.descRead32 (statusAddr s.cfg .rx i)) = true ∧
      match p with
      | .v1len st => st = s.descRead32 (statusAddr s.cfg .rx i)
      | .v1addr st cap => st = s.descRead32 (statusAddr s.cfg .rx i) ∧ cap.toNat ≤ s.cfg.bufSize
      | .v2 st cap a _ => st = s.descRead32 (statusAddr s.cfg .rx i) ∧ cap.toNat ≤ s.cfg.bufSize
          ∧ a = s.descRead64 (bufferAddr s.cfg .rx i)
      | .v3 st => st = s.descRead32 (statusAddr s.cfg .rx i)
      | .v4 st => st = s.descRead32 (statusAddr s.cfg .rx i)
  | .tx i _ p =>
    i < s.cfg.nTx ∧ ownBit (s.descRead32 (statusAddr s.cfg .tx i)) = true ∧
      match p with
      | .w1len st => st = s.descRead32 (statusAddr s.cfg .tx i)
      | .w1addr st len => st = s.descRead32 (statusAddr s.cfg .tx i) ∧ len.toNat ≤ s.cfg.bufSize
      | .w2 st len a b => st = s.descRead32 (statusAddr s.cfg .tx i) ∧ len.toNat ≤ s.cfg.bufSize
          ∧ a = s.descRead64 (bufferAddr s.cfg .tx i) ∧ b.length ≤ len.toNat
      | .w3 st => st = s.descRead32 (statusAddr s.cfg .tx i)

/-- PEEK has read a `status` with `OWN` = 0. -/
def PeekPc.consumes : PeekPc → Bool
  | .k1 => false
  | .k2 _ _ => true

/-- DRAIN is consuming the slot at the tail. -/
def DrainPc.consumes : DrainPc → Bool
  | .g2 _ p => p.consumes
  | .g3 _ _ _ => true
  | .g4 _ _ _ _ _ => true
  | .g5 _ _ _ _ _ => true
  | .g6 _ _ => true
  | .g7 _ => true
  | _ => false

/-- RECLAIM is consuming the slot at the tail. -/
def ReclaimPc.consumes : ReclaimPc → Bool
  | .y3 _ _ p => p.consumes
  | .y4 _ _ _ => true
  | .y5 _ _ _ _ _ => true
  | .y6 _ _ _ => true
  | .y7 _ _ => true
  | _ => false

/-- An operation is consuming the slot at the tail of ring `r`. -/
def Task.consumes : Task → Ring → Bool
  | .drain _ p, .rx => p.consumes
  | .poll _ (.l1 p), .rx => p.consumes
  | .reclaim p, .tx => p.consumes
  | .irq (.i4r _ p), .tx => p.consumes
  | _, _ => false

/-- What PRODUCE has already written of the descriptor at the head (P1, P2). -/
def ProducePc.written (s : State) (r : Ring) (a : DAddr) : ProducePc → Prop
  | .p1 => True
  | .p2 i => s.descRead64 (bufferAddr s.cfg r i) = a
  | .p3 i => s.descRead64 (bufferAddr s.cfg r i) = a ∧ (s.descRead32 (lengthAddr s.cfg r i)).toNat ≤ s.cfg.bufSize
  | .p4 i => s.descRead64 (bufferAddr s.cfg r i) = a ∧ (s.descRead32 (lengthAddr s.cfg r i)).toNat ≤ s.cfg.bufSize

/-- The same of REFILL, and at F5 of the slot it has handed over. -/
def RefillPc.written (s : State) : RefillPc → Prop
  | .f4 _ _ a p => p.written s .rx a
  | .f5 _ _ a i => s.descRead64 (bufferAddr s.cfg .rx i) = a
  | _ => True

/-- The same of an operation in progress. -/
def Task.written (s : State) : Task → Prop
  | .refill p => p.written s
  | .poll _ (.l2 _ p) => p.written s
  | .bringup (.b4 p) => p.written s
  | .submit _ (.x6 a p) => p.written s .tx a
  | .submit _ (.x7 a i) => s.descRead64 (bufferAddr s.cfg .tx i) = a
  | _ => True

/-- BRINGUP has requested a reset and not yet seen its acknowledge. -/
def Task.asks : Task → Bool
  | .bringup (.h3 _) => true
  | _ => false

/-- BRINGUP has had its acknowledge. -/
def Task.acked : Task → Bool
  | .bringup .h1 => false
  | .bringup (.h3 _) => false
  | .bringup _ => true
  | _ => false

/-- B2 has cleared the `status` of slot `i` of ring `r`. -/
def BringupPc.cleared : BringupPc → Ring → Nat → Bool
  | .b2 .rx j _, .rx, i => decide (i < j)
  | .b2 .rx _ _, .tx, _ => false
  | .b2 .tx _ _, .rx, _ => true
  | .b2 .tx j _, .tx, i => decide (i < j)
  | .b3, _, _ => true
  | _, _, _ => false

/-- The same of an operation in progress. -/
def Task.cleared : Task → Ring → Nat → Bool
  | .bringup p, r, i => p.cleared r i
  | _, _, _ => false

/-- The device side is sound: while the rings are in use every descriptor the device owns refers to a mapped
buffer and every completion in progress agrees with its descriptor; the descriptor of every pending entry, also
of a Completed slot, holds the entry's address (R30); a reset has made the device forget; no device access has
gone outside a mapping (R68, R195, R199). -/
structure State.DevSound (s : State) : Prop where
  armed : s.life = .up ∨ s.tasks.any Task.prefills = true → ∀ r i, i < ringSize s.cfg r → s.armedOk r i
  ops : s.life = .up → ∀ o, o ∈ s.dev → o.ok s
  slots : (s.dev.map DevOp.slot).Nodup
  addressed : ∀ r i h a, s.pending r i = some (h, a) → s.descRead64 (bufferAddr s.cfg r i) = a
  asked : s.tasks.any Task.asks = true → s.rst.getLsbD 0 = true ∨ s.dev = []
  forgotten : s.tasks.any Task.acked = true → s.dev = []
  answered : s.life = .up ∨ s.tasks.any Task.acked = true → s.rst.getLsbD 0 = false
  cleared : ∀ r i, i < ringSize s.cfg r → s.tasks.any (·.cleared r i) = true →
    ownBit (s.descRead32 (statusAddr s.cfg r i)) = false
  consumed : ∀ r, s.tasks.any (·.consumes r) = true →
    ownBit (s.descRead32 (statusAddr s.cfg r (s.ring r).tail)) = false
  written : ∀ t, t ∈ s.tasks → t.written s
  noDma : s.fault.dmaUnmapped = false

/-! ## Whole operations

What an operation that runs from its first micro-step to its last with no other agent between comes to,
written in one piece from its rule. The statements compare the micro-steps with these. -/

/-- `drain` and `reclaim` need it: every pending entry names a buffer an engine holds, mapped in the ring's
direction, and no buffer is named twice (R30). -/
def State.entriesOk (s : State) : Bool :=
  (List.range s.cfg.nRx).all (fun i => (s.pending .rx i).all fun e =>
      decide (e.1 < s.cfg.poolSize) && (s.buffer e.1).own == .eng && (s.buffer e.1).map == some .inbound)
    && (List.range s.cfg.nTx).all (fun i => (s.pending .tx i).all fun e =>
      decide (e.1 < s.cfg.poolSize) && (s.buffer e.1).own == .eng && (s.buffer e.1).map == some .outbound)
    && decide (((List.range s.cfg.nRx).filterMap (s.pending .rx) ++ (List.range s.cfg.nTx).filterMap (s.pending .tx)).map
      Prod.fst).Nodup

/-- Every slot in ring `r`'s window has a pending entry (R30). -/
def State.windowOk (s : State) (r : Ring) : Bool :=
  (List.range (ringSize s.cfg r)).all fun i => !s.inWindow r i || (s.pending r i).isSome

/-- The tables have their sizes and the indices lie in `0..N-1` (R22, R29, R31). -/
def State.sizesOk (s : State) : Bool :=
  decide (s.pool.length = s.cfg.poolSize) && decide (s.rx.pend.length = s.cfg.nRx)
    && decide (s.tx.pend.length = s.cfg.nTx) && decide (s.rx.head < s.cfg.nRx) && decide (s.rx.tail < s.cfg.nRx)
    && decide (s.tx.head < s.cfg.nTx) && decide (s.tx.tail < s.cfg.nTx)

/-- The descriptor of slot `i` of ring `r`: `status`, `length`, `buffer_address` (R25, R61). -/
def State.descriptor (s : State) (r : Ring) (i : Nat) : Word × Word × DAddr :=
  (s.descRead32 (ringBase s.cfg r + 16 * i), s.descRead32 (ringBase s.cfg r + 16 * i + 4),
    s.descRead64 (ringBase s.cfg r + 16 * i + 8))

/-- All three fields of a descriptor are written, `status` last (R128, R185 B2). -/
def State.setDescriptor (s : State) (r : Ring) (i : Nat) (st len : Word) (a : DAddr) : State :=
  ((s.descWrite64 (ringBase s.cfg r + 16 * i + 8) a).descWrite32 (ringBase s.cfg r + 16 * i + 4) len).descWrite32
    (ringBase s.cfg r + 16 * i) st

/-- Address `a` is a byte of the descriptor of slot `i` of ring `r` (R61). -/
def inDescriptor (c : Config) (r : Ring) (i a : Nat) : Prop :=
  ringBase c r + 16 * i ≤ a ∧ a < ringBase c r + 16 * i + 16

/-- `t` has the continuations and waiting words of `s` on every context but the scheduled one. -/
def State.keepsOthers (s t : State) : Prop := ∀ c, c ≠ s.cur → t.lane? c = s.lane? c

/-- Every byte of descriptor memory reads as before. -/
def State.keepsDesc (s t : State) : Prop := ∀ a, t.descByte a = s.descByte a

/-- Every byte of buffer memory reads as before. -/
def State.keepsBuf (s t : State) : Prop := ∀ h k, t.bufByte h k = s.bufByte h k

/-- Slot `H[r]` is armed with buffer `h` and the index advances (R128, R140 F4 to F6, R155 X6 to X8). -/
def State.arm (s : State) (r : Ring) (h : Nat) (st len : Word) : State :=
  ((s.setDescriptor r (s.ring r).head st len (xlateOf s.cfg h)).setPending r (s.ring r).head
    (some (h, xlateOf s.cfg h))).setHead r (((s.ring r).head + 1) % ringSize s.cfg r)

/-- REFILL arms slot `H[RX]` with the free buffer `h` (R140 F2 to F6). -/
def State.armRx (s : State) (h : Nat) : State :=
  (s.setBuffer h ⟨.eng, BitVec.ofNat 16 s.cfg.bufSize, some .inbound⟩).arm .rx h 0x90000000
    (BitVec.ofNat 32 s.cfg.bufSize)

/-- REFILL from F1 on, at most `k` slots, with the number armed (R140). -/
def State.refillAll : Nat → State → State × Nat
  | 0, s => (s, 0)
  | k + 1, s =>
    if (s.rx.head + 1) % s.cfg.nRx = s.rx.tail then (s, 0)
    else match s.lowestFree with
      | none => (s, 0)
      | some h =>
        if s.drawMapOk.1 then
          let r := State.refillAll k (s.drawMapOk.2.armRx h)
          (r.1, r.2 + 1)
        else (s.drawMapOk.2.setBuffer h ⟨.free, BitVec.ofNat 16 s.cfg.bufSize, none⟩, 0)

/-- A received packet is dropped: an error bit, or a length beyond the buffer (R146). -/
def State.dropped (s : State) (i : Nat) : Bool :=
  (s.descriptor .rx i).1.getLsbD 27 || decide (s.cfg.bufSize < (s.descriptor .rx i).2.1.toNat)

/-- What consuming RX slot `i` delivers, if its packet is not dropped (R141 G5). -/
def State.delivery (s : State) (i : Nat) : Option Event :=
  match s.pending .rx i with
  | some (h, _) => if s.dropped i then none else some (.deliver h (s.bufBytes h (s.descriptor .rx i).2.1.toNat))
  | none => none

/-- DRAIN consumes the descriptor at `T[RX]` (R141 G3 to G7). -/
def State.takeRx (s : State) : State :=
  match s.pending .rx s.rx.tail with
  | none => s
  | some (h, _) =>
    let len := (s.descriptor .rx s.rx.tail).2.1
    let s1 :=
      if s.dropped s.rx.tail then
        { s.setBuffer h { s.buffer h with own := .free, map := none } with rxErr := s.rxErr + 1 }
      else (s.setBuffer h ⟨.up, len.setWidth 16, none⟩).emit (.deliver h (s.bufBytes h len.toNat))
    (s1.setPending .rx s.rx.tail none).setTail .rx ((s.rx.tail + 1) % s.cfg.nRx)

/-- DRAIN with budget `b` from G1 on, with the number of descriptors consumed (R141). -/
def State.drainAll : Nat → State → State × Nat
  | 0, s => (s, 0)
  | b + 1, s =>
    if s.rx.head = s.rx.tail ∨ (s.descriptor .rx s.rx.tail).1.getLsbD 31 = true then (s, 0)
    else
      let r := State.drainAll b s.takeRx
      (r.1, r.2 + 1)

/-- RECLAIM frees the slot at `T[TX]` (R156 Y4 to Y7). -/
def State.takeTx (s : State) : State :=
  match s.pending .tx s.tx.tail with
  | none => s
  | some (h, _) =>
    let s1 := s.setBuffer h { s.buffer h with own := .free, map := none }
    let s2 := if (s.descriptor .tx s.tx.tail).1.getLsbD 27 then { s1 with txErr := s.txErr + 1 } else s1
    (s2.setPending .tx s.tx.tail none).setTail .tx ((s.tx.tail + 1) % s.cfg.nTx)

/-- RECLAIM's loop Y3 to Y7, at most `k` slots, with the number freed (R156). -/
def State.takeAllTx : Nat → State → State × Nat
  | 0, s => (s, 0)
  | k + 1, s =>
    if s.tx.head = s.tx.tail ∨ (s.descriptor .tx s.tx.tail).1.getLsbD 31 = true then (s, 0)
    else
      let r := State.takeAllTx k s.takeTx
      (r.1, r.2 + 1)

/-- RECLAIM between its lock and its unlock, with the number of slots freed (R156, R159). -/
def State.reclaimAll (s : State) : State × Nat :=
  let r := s.takeAllTx s.cfg.nTx
  (if 1 ≤ r.2 ∧ (s.tx.head + 1) % s.cfg.nTx = s.tx.tail then { r.1.emit .wake with txStopped := false } else r.1, r.2)

/-- The recognized bits IRQ observes (R170 I1). -/
def State.observed (s : State) : Word := s.isr &&& recognized s.cfg

/-- IRQ on an observed recognized cause, I1 to I7 (R170). -/
def State.handleIrq (s : State) : State :=
  let v := s.observed
  let s1 := { s with isrLatch := v, pollSched := s.pollSched || v.getLsbD s.cfg.isrRxDone }
  let s2 := if v.getLsbD s.cfg.isrTxDone then s1.reclaimAll.1 else s1
  let s3 := if v.getLsbD s.cfg.isrLink then s2.emit (.report .link) else s2
  let s4 := if v.getLsbD s.cfg.isrErr then s3.emit (.report .err) else s3
  { s4 with isr := s4.isr &&& ~~~v }

/-- POLL with budget `b`, L1 to L3, with the `work_done` it answers (R173). -/
def State.pollAll (b : Nat) (s : State) : State × Nat :=
  let r := s.drainAll b
  ({ (State.refillAll s.cfg.nRx r.1).1 with pollSched := decide (r.2 = b) }, r.2)

/-- The reset handshake's reads, at most `k` of them, and whether the device acknowledged (R186 H3). -/
def State.handshake : Nat → State → State × Bool
  | 0, s => (s, false)
  | k + 1, s => if s.answerReset.rst.getLsbD 0 then State.handshake k s.answerReset else (s.answerReset, true)

/-- B2 on slot `i` of ring `r`: the descriptor zeroed, the pending entry cleared (R185). -/
def State.zeroSlot (r : Ring) (s : State) (i : Nat) : State := (s.setDescriptor r i 0 0 0).setPending r i none

/-- B2 and B3 (R185). -/
def State.zeroRings (s : State) : State :=
  let s1 := (List.range s.cfg.nTx).foldl (State.zeroSlot .tx) ((List.range s.cfg.nRx).foldl (State.zeroSlot .rx) s)
  { s1 with
    rx := { s1.rx with head := 0, tail := 0 }
    tx := { s1.tx with head := 0, tail := 0 }
    pollSched := false, txStopped := false, isrLatch := 0, rxErr := 0, txErr := 0 }

/-- BRINGUP from H1 to B5, with its result (R185, R186). -/
def State.bringupAll (s : State) : State × Code × Nat :=
  let r := State.handshake s.cfg.resetBound { s with rst := 1 }
  if r.2 then
    let f := State.refillAll s.cfg.nRx r.1.zeroRings
    ({ f.1 with life := .up }, .ok, f.2)
  else (r.1, .resetTimeout, 0)

/-- T4 on slot `i` of ring `r`, counting the buffers released (R187). -/
def State.sweepSlot (r : Ring) (x : State × Nat) (i : Nat) : State × Nat :=
  match x.1.pending r i with
  | none => x
  | some (h, _) =>
    ((x.1.setBuffer h { x.1.buffer h with own := .free, map := none }).setPending r i none, x.2 + 1)

/-- TEARDOWN of a block that is `UP`, T3 to T5, with the number of buffers released (R187). -/
def State.teardownAll (s : State) : State × Nat :=
  let x := (List.range s.cfg.nTx).foldl (State.sweepSlot .tx) ((List.range s.cfg.nRx).foldl (State.sweepSlot .rx) (s, 0))
  ({ x.1 with
      life := .down, pollSched := false, txStopped := false
      rx := { x.1.rx with head := 0, tail := 0 }
      tx := { x.1.tx with head := 0, tail := 0 } }, x.2)

/-! ## KICK events and SUBMIT answers (R160, R261) -/

/-- The KICK events so far. -/
def State.kicks (s : State) : Nat := s.hist.countP (· == .kick)

/-- The operation is a SUBMIT. -/
def Task.submits : Task → Bool
  | .submit _ _ => true
  | _ => false

/-- A SUBMIT that has kicked (X9) and not yet answered (X10). -/
def Task.kicked : Task → Bool
  | .submit _ .x10 => true
  | _ => false

/-- The SUBMITs in progress that have kicked and not yet answered. -/
def State.kicked (s : State) : Nat := s.tasks.countP Task.kicked

/-- The `OK` answers of SUBMIT in a slice of `n` micro-steps of context `c`. -/
def sliceOks (c : Ctx) : Nat → State → Nat
  | 0, _ => 0
  | n + 1, s =>
    match s.task? c with
    | none => 0
    | some t =>
      (if t.submits && decide ((microStep c s).hist = s.hist ++ [.resp c 0]) then 1 else 0) + sliceOks c n (microStep c s)

/-- The `OK` answers of SUBMIT in the next step: of a SUBMIT it accepts, or of the slice it runs. -/
def State.submitOks (s : State) : Nat :=
  match turn s, s.nextMove.1 with
  | .command (.submit h) t, _ =>
    if legalOn (.submit h) t.cur.port then sliceOks t.cur t.slice (t.setCont t.cur (.running (.submit h .x1))) else 0
  | .done _, .run c more => sliceOks c (more + 1) { s.nextMove.2 with cur := c, slice := more }
  | _, _ => 0

/-! ## Runs: how one ends (R260), and fairness (R205), which the spec leaves open and no statement assumes -/

/-- A run: each state is the step of the one before. -/
def IsRun (run : Nat → State) : Prop := ∀ n, step (run n) = .next (run (n + 1))

/-- The move taken at time `n` of a run. -/
def moveAt (run : Nat → State) (n : Nat) : Move := (run n).nextMove.1

/-- TEARDOWN is in progress, or the next step accepts it. -/
def State.tearsDown (s : State) : Bool :=
  (match s.task? .drv with
    | some (.teardown _) => true
    | _ => false)
    || match turn s with
      | .command .teardown t => t.cur == .drv
      | _ => false

/-- A run has ended well at time `n` (R260): `atRest`, after a TEARDOWN (which has answered, since every
context is `Idle`). -/
def EndedWell (run : Nat → State) (n : Nat) : Prop := (run n).atRest = true ∧ ∃ m, m < n ∧ (run m).tearsDown = true

/-- Context `c` has an enabled step: its operation has a micro-step that is no hold, or it is `Idle` and a
word waits for it. -/
def State.enabled (s : State) (c : Ctx) : Bool :=
  match s.lane? c with
  | some ⟨.idle, q⟩ => !q.isEmpty
  | some ⟨.running t, _⟩ =>
    match (taskStep c t s).2 with
    | .hold => false
    | _ => true
  | some ⟨.stopped, _⟩ => false
  | none => false

/-- The bit number of the cause that matches a completion on ring `r`. -/
def doneBit (c : Config) : Ring → Nat
  | .rx => c.isrRxDone
  | .tx => c.isrTxDone

/-- At time `n` the device makes the last access of a completion of slot `i` of ring `r`. -/
def CompletesAt (run : Nat → State) (n : Nat) (r : Ring) (i : Nat) : Prop :=
  i < ringSize (run n).cfg r ∧ ∃ j more o, moveAt run n = .device j more ∧ (run n).dev[j]? = some o ∧ o.slot = (r, i)
    ∧ (run (n + 1)).dev.length < (run n).dev.length

/-- R205's `FAIRNESS` of a run. -/
structure Fairness (run : Nat → State) : Prop where
  isRun : IsRun run
  /-- Every context with an enabled step is eventually scheduled, or its step stops being enabled. -/
  contexts : ∀ c n, (run n).enabled c = true →
    ∃ m, n ≤ m ∧ ((run m).enabled c = false ∨ ∃ k, moveAt run m = .run c k)
  /-- The platform eventually issues IRQ while the line is asserted. -/
  platform : ∀ n, (run n).lineAsserted = true →
    ∃ m, n ≤ m ∧ ((run m).lineAsserted = false ∨ moveAt run m = .offer .irq (encode .irq))
  /-- The scheduler eventually issues POLL while `poll_sched = 1`, with a budget of at least 1 (R204). -/
  scheduler : ∀ n, (run n).pollSched = true →
    ∃ m, n ≤ m ∧ ((run m).pollSched = false ∨ ∃ b, 1 ≤ b ∧ b < 2 ^ 16 ∧ moveAt run m = .offer .poll (encode (.poll b)))
  /-- The device eventually raises the matching cause after a completion. -/
  causes : ∀ n r i, CompletesAt run n r i →
    ∃ m bits, n < m ∧ moveAt run m = .raise bits ∧ bits.getLsbD (doneBit (run m).cfg r) = true
  /-- The device eventually completes every TX descriptor that is Armed when a KICK is emitted, unless a
  TEARDOWN abandons it (R187). -/
  completes : ∀ n i, i < (run n).cfg.nTx → (run n).kicks < (run (n + 1)).kicks → (run (n + 1)).slotState .tx i = .armed →
    ∃ m, n < m ∧ ((run m).slotState .tx i ≠ .armed ∨ (run m).life = .down)

end Sys2Proof.Machine
end

