-- ==== Sys2Proof/Certificates/Slice0/Obligations.lean ====
section
/-! DEFINITION. What is claimed of the machine, one proposition per numbered rule or group of rules of the
spec. OBLIGATIONS.json names the rules. The free values of Config (log entries 4, 6, 8, 10, 11) stand in
these statements unconstrained. -/

open Sys2Proof Sys2Proof.Machine

/-! ## Encoding -/

/-- R90, R93: command words written out from the encoding, each with the command it stands for. -/
def Obligations.SpecWordsDecode : Prop :=
  decode 0x01000000 = .ok .bringup ∧ decode 0x02000000 = .ok .teardown
    ∧ decode 0x1000003C = .ok (.acquire 60) ∧ decode 0x13000001 = .ok (.release 1)
    ∧ decode 0x20000000 = .ok (.isFull .rx) ∧ decode 0x20800000 = .ok (.isFull .tx)
    ∧ decode 0x21000000 = .ok (.isEmpty .rx) ∧ decode 0x21800000 = .ok (.isEmpty .tx)
    ∧ decode 0x30000000 = .ok .refill ∧ decode 0x3100000A = .ok (.drain 10)
    ∧ decode 0x38000003 = .ok (.submit 3) ∧ decode 0x39000000 = .ok .reclaim
    ∧ decode 0x40000000 = .ok .irq ∧ decode 0x41000002 = .ok (.poll 2)

/-- R90, R91, R93: decoding the word of a well-formed command gives the command back, at every value of
its operand. -/
def Obligations.DecodeOfEncode : Prop :=
  ∀ i : Instr, i.wf = true → decode (encode i) = .ok i

/-- R93, R95, R96: a word that decodes is the word of the command it decodes to: no command has a second
word, and every decoded operand fits its field. -/
def Obligations.EncodeOfDecode : Prop :=
  ∀ (w : Word) (i : Instr), decode w = .ok i → i.wf = true ∧ encode i = w

/-- R93: the decoder accepts exactly the words that select a row of the table by mask and match, the row
is the command's own, and no word selects two rows. -/
def Obligations.RowsAgreeWithDecoder : Prop :=
  (∀ w : Word, (∃ i, decode w = .ok i) ↔ ∃ row ∈ opRows, row.selects w = true)
    ∧ (∀ (w : Word) (i : Instr), decode w = .ok i → ∃ row ∈ opRows, row.mnemonic = i.mnemonic ∧ row.selects w = true)
    ∧ (∀ (w : Word) (row row' : OpRow), row ∈ opRows → row' ∈ opRows → row.selects w = true →
        row'.selects w = true → row = row')

/-- R95: a word whose `rsv` is not 0, whose `sel` is 1 for an opcode other than IS_FULL and IS_EMPTY, or
whose `arg` is not 0 for an opcode without an operand matches no row of R93. -/
def Obligations.ReservedFieldsMatchNoRow : Prop :=
  ∀ w : Word,
    (slice w 22 16 ≠ 0
      ∨ (slice w 23 23 = 1 ∧ slice w 31 24 ≠ 0x20 ∧ slice w 31 24 ≠ 0x21)
      ∨ (slice w 15 0 ≠ 0 ∧ slice w 31 24 ∈ [0x01, 0x02, 0x20, 0x21, 0x30, 0x39, 0x40])) →
    ∀ row ∈ opRows, row.selects w = false

/-- R92: the fields of a response word: the code in bits 31:28, 0 in 27:16, the value in 15:0; and the
codes' numbers. -/
def Obligations.ResponseFields : Prop :=
  (∀ (c : Code) (n : Nat), n < 2 ^ 16 →
      slice (respWord c n) 31 28 = c.num ∧ slice (respWord c n) 27 16 = 0 ∧ slice (respWord c n) 15 0 = n)
    ∧ [Code.ok, .busy, .allocFail, .mapFail, .notMine, .resetTimeout, .descError, .badHandle, .badState, .illegal].map
        Code.num = [0x0, 0x1, 0x2, 0x3, 0x4, 0x5, 0x6, 0xD, 0xE, 0xF]

/-! ## Steps, ports and acceptance -/

/-- R10, R41, R97: when the move scheduled next is context `c`, which is `Idle` and has a word waiting that
decodes to `i`, the step is `exec i` of the state with that word taken, `c` the scheduled context and its
slice noted; when `c` has an operation in progress, the step is a slice of its micro-steps. -/
def Obligations.StepRunsDecodedCommand : Prop :=
  ∀ (s : State) (c : Ctx) (more : Nat) (rest : List Move), s.cfg.wf = true → s.script = .run c more :: rest →
    (∀ (w : Word) (ws : List Word) (i : Instr), s.lane? c = some ⟨.idle, w :: ws⟩ → decode w = .ok i →
      step s = exec i ({ s with script := rest, cur := c, slice := more }.setLane c ⟨.idle, ws⟩))
    ∧ (∀ (t : Task) (ws : List Word), s.lane? c = some ⟨.running t, ws⟩ →
      step s = .next (runFor c (more + 1) { s with script := rest, cur := c, slice := more }))

/-- R96: an illegal word is answered `0xF000_0000` and is gone; nothing else changes and its context stays
`Idle`. -/
def Obligations.IllegalWordAnswered : Prop :=
  ∀ (s : State) (c : Ctx) (more : Nat) (rest : List Move) (w : Word) (ws : List Word) (e : DecodeError),
    s.cfg.wf = true → s.script = .run c more :: rest → s.lane? c = some ⟨.idle, w :: ws⟩ → decode w = .error e →
    step s = .next
      ({ s with script := rest, cur := c, slice := more, hist := s.hist ++ [Event.resp c 0xF0000000] }.setLane c ⟨.idle, ws⟩)

/-- Log entry 6: a command's word placed by `withFetchWord` right after reset is the first one executed. -/
def Obligations.PlacedWordRunsFirst : Prop :=
  ∀ i : Instr, i.wf = true →
    step (State.reset.withFetchWord 32 (encode i).toNat)
      = exec i { State.reset with cur := homeCtx i, slice := fetchSlice }

/-- R94, R225: a well-formed command word on a port where it is not legal is answered `ILLEGAL` with no state
change. The ports are those of R93's table. -/
def Obligations.WrongPortIsIllegal : Prop :=
  ∀ s : State, s.cfg.wf = true → s.idle s.cur = true →
    (∀ i ∈ [Instr.bringup, .teardown], s.cur ≠ .drv → exec i s = .next (s.respond s.cur .illegal 0))
    ∧ (∀ n, ∀ i ∈ [Instr.acquire n, .release n, .submit n], (∀ k, s.cur ≠ .up k) →
        exec i s = .next (s.respond s.cur .illegal 0))
    ∧ (∀ n, ∀ i ∈ [Instr.refill, .drain n, .reclaim, .poll n], s.cur ≠ .poll →
        exec i s = .next (s.respond s.cur .illegal 0))
    ∧ (s.cur ≠ .irq → exec .irq s = .next (s.respond s.cur .illegal 0))

/-- R97: a word for a busy context waits at the port behind the words already there, whether the context
itself meets it (`exec`) or the environment offers it (a move). -/
def Obligations.BusyPortKeepsWord : Prop :=
  (∀ (i : Instr) (s : State) (k : Cont) (q : List Word), s.cfg.wf = true → s.lane? s.cur = some ⟨k, q⟩ → k ≠ .idle →
      exec i s = .next (s.setLane s.cur ⟨k, q ++ [encode i]⟩))
    ∧ (∀ (s : State) (c : Ctx) (w : Word) (rest : List Move) (k : Cont) (q : List Word), s.cfg.wf = true →
        s.script = .offer c w :: rest → s.lane? c = some ⟨k, q⟩ →
        step s = .next ({ s with script := rest }.setLane c ⟨k, q ++ [w]⟩))

/-- R41, R97, R175: accepting a command sets its context from `Idle` to the first micro-step of its
operation; REFILL, DRAIN and POLL set `poll_running` in the same step. (A slice of 0 micro-steps.) -/
def Obligations.AcceptanceStartsOperation : Prop :=
  ∀ (i : Instr) (s : State), s.Ready i → s.slice = 0 →
    match i with
    | .bringup => s.life = .down → exec i s = .next (s.setCont s.cur (.running (.bringup .h1)))
    | .teardown => exec i s = .next (s.setCont s.cur (.running (.teardown .t1)))
    | .acquire n => exec i s = .next (s.setCont s.cur (.running (.acquire n)))
    | .release h => exec i s = .next (s.setCont s.cur (.running (.release h)))
    | .isFull r => exec i s = .next (s.setCont s.cur (.running (.isFull r)))
    | .isEmpty r => exec i s = .next (s.setCont s.cur (.running (.isEmpty r)))
    | .refill => s.life = .up → s.pollRunning = false →
        exec i s = .next ({ s with pollRunning := true }.setCont s.cur (.running (.refill (.f1 0))))
    | .drain b => s.life = .up → s.pollRunning = false →
        exec i s = .next ({ s with pollRunning := true }.setCont s.cur (.running (.drain b (.g1 0))))
    | .submit h => exec i s = .next (s.setCont s.cur (.running (.submit h .x1)))
    | .reclaim => exec i s = .next (s.setCont s.cur (.running (.reclaim .y1)))
    | .irq => s.life = .up → exec i s = .next (s.setCont s.cur (.running (.irq .i1)))
    | .poll b => s.life = .up → s.pollRunning = false →
        exec i s = .next ({ s with pollRunning := true }.setCont s.cur (.running (.poll b (.l1 (.g1 0)))))

/-- R11, R96, R210, R7: with a parameter set that has a meaning every command and every step has a next
state: no typed result and no recorded fault stops the block; any other parameter set is refused. Which sets
have a meaning is the model's reading, `Config.wf` (log entry 12, DEDUCED): the constraints R7 lists and those
it leaves to other rules (distinct register offsets, `RESET_BOUND >= 1`, the rings inside the address space). -/
def Obligations.OnlyBadParametersStop : Prop :=
  (∀ (i : Instr) (s : State), s.cfg.wf = true → ∃ t, exec i s = .next t)
    ∧ (∀ s : State, s.cfg.wf = true → ∃ t, step s = .next t)
    ∧ (∀ (i : Instr) (s : State), s.cfg.wf = false → exec i s = .refused .invalidConfig)
    ∧ (∀ s : State, s.cfg.wf = false → step s = .refused .invalidConfig)

/-- R10 with log entry 7 (the model's choice): a slice is its micro-steps one after the other, while the
operation lasts; cutting it in two changes nothing. -/
def Obligations.SlicesCompose : Prop :=
  (∀ (c : Ctx) (m n : Nat) (s : State), runFor c (m + n) s = runFor c n (runFor c m s))
    ∧ (∀ (c : Ctx) (s : State), s.running c = true → runFor c 1 s = microStep c s)
    ∧ ∀ (c : Ctx) (n : Nat) (s : State), s.running c = false → runFor c n s = s

/-- R45, R240: the reset values the spec gives, for every parameter set. -/
def Obligations.ResetValues : Prop :=
  (∀ c : Config,
    let s := State.resetFor c
    s.cfg = c ∧ s.life = .down ∧ s.rx.head = 0 ∧ s.rx.tail = 0 ∧ s.tx.head = 0 ∧ s.tx.tail = 0
      ∧ (∀ r i, s.pending r i = none)
      ∧ (∀ h, (s.buffer h).own = .free ∧ (s.buffer h).map = none)
      ∧ s.pollSched = false ∧ s.pollRunning = false ∧ s.txStopped = false ∧ s.txLock = none
      ∧ s.isrLatch = 0 ∧ s.rxErr = 0 ∧ s.txErr = 0
      ∧ (∀ k l, s.lane? k = some l → l.cont = .idle)
      ∧ s.fault.none = true ∧ s.hist = [] ∧ s.rst.getLsbD 0 = false)
    ∧ State.reset = State.resetFor Config.sample

/-! ## What holds throughout -/

/-- R23, R29, R31, R38, R40: the tables' sizes, the index bounds, the canonical form of memory and the
reserved bits are kept by every step. -/
def Obligations.ShapeKept : Prop :=
  ∀ s t : State, s.Shaped → step s = .next t → t.Shaped

/-- R34, R36, R75, R76, R175, R190, R225: who may run what, who holds `tx_lock`, and when `poll_running` is
set, kept by every step. -/
def Obligations.ExclusionKept : Prop :=
  ∀ s t : State, s.Shaped → s.Exclusive → step s = .next t → t.Exclusive

/-- R30, R32, R133, R159, R190, R261: the invariants of the host side are kept by every step. -/
def Obligations.SoundKept : Prop :=
  ∀ s t : State, s.Sound → step s = .next t → t.Sound

/-- R27, R30, R68, R70, R78, R195, R199: the invariants of the device side are kept by every step, so no device
access leaves a mapping, and every pending entry's address stands in its descriptor, Armed or Completed. -/
def Obligations.DeviceSoundKept : Prop :=
  ∀ s t : State, s.Sound → s.DevSound → step s = .next t → t.DevSound

/-- R45, R261: the invariants hold after reset, for every parameter set that has a meaning. -/
def Obligations.SoundAtReset : Prop :=
  (∀ c : Config, c.wf = true → (State.resetFor c).Sound ∧ (State.resetFor c).DevSound)
    ∧ State.reset.Sound ∧ State.reset.DevSound

/-- R11, R42, R43, R160, R261: no step shrinks the fault set, and the history is only appended to. Counting
from reset, the KICK events are the `OK` answers of SUBMIT (`n` before the step, `submitOks` in it) and the
SUBMITs that have kicked and not yet answered; so they are equal in number once no SUBMIT is in progress. -/
def Obligations.FaultsHistoryAndKicks : Prop :=
  (∀ s t : State, step s = .next t →
    (s.fault.dmaUnmapped = true → t.fault.dmaUnmapped = true)
      ∧ (s.fault.pendEmpty = true → t.fault.pendEmpty = true)
      ∧ (s.fault.pool = true → t.fault.pool = true)
      ∧ ∃ l, t.hist = s.hist ++ l)
    ∧ (∀ c : Config, (State.resetFor c).kicks = 0 + (State.resetFor c).kicked)
    ∧ (∀ (s t : State) (n : Nat), s.Shaped → s.kicks = n + s.kicked → step s = .next t →
        t.kicks = n + s.submitOks + t.kicked)
    ∧ ∀ s : State, (∀ c h p, s.task? c ≠ some (.submit h p)) → s.kicked = 0

/-- R21, R22, R23, R131: which operation moves which index register, and how: `+1 mod N`, or to 0 by BRINGUP
and TEARDOWN; and only those two write `life`. (Premise: the operation's locals agree with the rings, which
`SoundKept` keeps.) -/
def Obligations.IndexWriters : Prop :=
  ∀ (s : State) (c : Ctx), (∀ k, s.task? c = some k → k.ok s) →
    let t := microStep c s
    let brings := (∃ p, s.task? c = some (.bringup p)) ∨ ∃ p, s.task? c = some (.teardown p)
    (t.rx.head ≠ s.rx.head →
        (t.rx.head = (s.rx.head + 1) % s.cfg.nRx
          ∧ ((∃ p, s.task? c = some (.refill p)) ∨ (∃ b w p, s.task? c = some (.poll b (.l2 w p)))
            ∨ ∃ p, s.task? c = some (.bringup (.b4 p))))
        ∨ (t.rx.head = 0 ∧ brings))
      ∧ (t.rx.tail ≠ s.rx.tail →
        (t.rx.tail = (s.rx.tail + 1) % s.cfg.nRx
          ∧ ((∃ b p, s.task? c = some (.drain b p)) ∨ ∃ b p, s.task? c = some (.poll b (.l1 p))))
        ∨ (t.rx.tail = 0 ∧ brings))
      ∧ (t.tx.head ≠ s.tx.head →
        (t.tx.head = (s.tx.head + 1) % s.cfg.nTx ∧ ∃ h p, s.task? c = some (.submit h p))
        ∨ (t.tx.head = 0 ∧ brings))
      ∧ (t.tx.tail ≠ s.tx.tail →
        (t.tx.tail = (s.tx.tail + 1) % s.cfg.nTx
          ∧ ((∃ p, s.task? c = some (.reclaim p)) ∨ ∃ v p, s.task? c = some (.irq (.i4r v p))))
        ∨ (t.tx.tail = 0 ∧ brings))
      ∧ (t.life ≠ s.life → brings)

/-- R28, R142, R157: while `life` is `UP`, in a sound state, a slot moves only so. A context's micro-step moves
it from Empty to Armed or Completed, at the head, by the ring's filling operation (Completed where the device
was quicker than the head advance, R196), or from Completed to Empty, at the tail, by its consuming operation.
A device access moves it from Armed to Completed, at the slot its completion is about. No other move of any
agent and no acceptance of a command moves a slot. -/
def Obligations.SlotCycle : Prop :=
  ∀ s : State, s.Sound → s.DevSound → s.life = .up →
    (∀ (c : Ctx) (r : Ring) (i : Nat), i < ringSize s.cfg r →
      let t := microStep c s
      t.slotState r i = s.slotState r i
        ∨ (s.slotState r i = .empty ∧ t.slotState r i ≠ .empty ∧ i = (s.ring r).head
            ∧ ∃ k, s.task? c = some k ∧ k.late r = true)
        ∨ (s.slotState r i = .completed ∧ t.slotState r i = .empty ∧ i = (s.ring r).tail
            ∧ ∃ k, s.task? c = some k ∧ k.consumes r = true))
    ∧ (∀ (j : Nat) (r : Ring) (i : Nat), i < ringSize s.cfg r →
      let t := s.devStep j
      t.slotState r i = s.slotState r i
        ∨ (s.slotState r i = .armed ∧ t.slotState r i = .completed ∧ ∃ o, s.dev[j]? = some o ∧ o.slot = (r, i)))
    ∧ (∀ (m : Move) (t : State), (∀ c k, m ≠ .run c k) → (∀ j k, m ≠ .device j k) → moveTurn m s = .done t →
      ∀ r i, t.slotState r i = s.slotState r i)
    ∧ ∀ (i : Instr) (t : State), s.slice = 0 → exec i s = .next t → ∀ r k, t.slotState r k = s.slotState r k

/-- R5, R195 c, R198, R201: no move of the device or of the environment touches the block's private state; an
offer appends its word to one port's waiting words and leaves every continuation and every other lane. What
the environment's inputs set: `line_en` (R219, R241) and the next draws (R102; position by position, log entry 8). -/
def Obligations.OthersLeavePrivateState : Prop :=
  ∀ (m : Move) (s t : State), (∀ c k, m ≠ .run c k) → moveTurn m s = .done t →
    t = { s with
      lanes := t.lanes, fault := t.fault, hist := t.hist, desc := t.desc, buf := t.buf, isr := t.isr, rst := t.rst,
      lineEn := t.lineEn, dev := t.dev, draws := t.draws, tick := t.tick }
      ∧ (∀ k, t.cont k = s.cont k)
      ∧ ((∀ c w, m ≠ .offer c w) → t.lanes = s.lanes)
      ∧ (∀ c w, m = .offer c w → t = { s with lanes := t.lanes } ∧ (∀ k, k ≠ c → t.lane? k = s.lane? k)
          ∧ t.lane? c = (s.lane? c).map fun l => { l with queue := l.queue ++ [w] })
      ∧ (∀ on, m = .line on → t = { s with lineEn := on })
      ∧ (∀ bs, m = .mapOk bs → t = { s with draws := { s.draws with mapOk := t.draws.mapOk } }
          ∧ ∀ i, t.draws.mapOk[i]? = if i < bs.length then bs[i]? else s.draws.mapOk[i]?)
      ∧ (∀ bs, m = .rstAck bs → t = { s with draws := { s.draws with rstAck := t.draws.rstAck } }
          ∧ ∀ i, t.draws.rstAck[i]? = if i < bs.length then bs[i]? else s.draws.rstAck[i]?)
      ∧ (∀ ws, m = .ackIsr ws → t = { s with draws := { s.draws with ackIsr := t.draws.ackIsr } }
          ∧ ∀ i, t.draws.ackIsr[i]? = if i < ws.length then ws[i]? else s.draws.ackIsr[i]?)

/-! ## Buffer pool -/

/-- R111 with R110: ACQUIRE, encoded `0x1000_0000 | size`, takes the lowest-numbered free buffer for its
caller, or fails and changes nothing, whatever `life` is. -/
def Obligations.AcquireAnswers : Prop :=
  ∀ (s : State) (size : Nat), s.Ready (.acquire size) → 1 ≤ s.slice →
    (∀ h, size ≤ s.cfg.bufSize → h < s.cfg.poolSize → (s.buffer h).own = .free →
      (∀ j, j < h → (s.buffer j).own ≠ .free) →
      exec (.acquire size) s
        = .next ((s.setBuffer h ⟨.up, BitVec.ofNat 16 size, none⟩).emit (.resp s.cur (respWord .ok h))))
    ∧ ((s.cfg.bufSize < size ∨ ∀ h, h < s.cfg.poolSize → (s.buffer h).own ≠ .free) →
      exec (.acquire size) s = .next (s.emit (.resp s.cur 0x20000000)))
    ∧ (size < 2 ^ 16 → encode (.acquire size) = 0x10000000 ||| BitVec.ofNat 32 size)

/-- R113: RELEASE, encoded `0x1300_0000 | h`, of a buffer upstream holds frees it; any other handle is
`BAD_HANDLE` and changes nothing, whatever `life` is. -/
def Obligations.ReleaseAnswers : Prop :=
  ∀ (s : State) (h : Nat), s.Ready (.release h) → 1 ≤ s.slice →
    (h < s.cfg.poolSize → (s.buffer h).own = .up → (s.buffer h).map = none →
      exec (.release h) s = .next ((s.setBuffer h { s.buffer h with own := .free }).emit (.resp s.cur 0)))
    ∧ (s.cfg.poolSize ≤ h ∨ (s.buffer h).own ≠ .up →
      exec (.release h) s = .next (s.emit (.resp s.cur 0xD0000000)))
    ∧ (h < 2 ^ 16 → encode (.release h) = 0x13000000 ||| BitVec.ofNat 32 h)

/-- R112 with log entry 9 (the model's reading of "stop"): a release of a mapped buffer records `F_POOL` and
its context takes no further step. No run from reset reaches it (R32 c). -/
def Obligations.ReleaseOfMappedStops : Prop :=
  ∀ (s : State) (h : Nat), s.Ready (.release h) → 1 ≤ s.slice → h < s.cfg.poolSize → (s.buffer h).own = .up →
    (s.buffer h).map ≠ none →
    exec (.release h) s = .next ((s.raise .pool).setCont s.cur .stopped)

/-! ## Descriptor ring -/

/-- R126, R127: IS_FULL and IS_EMPTY, their words, and their answers on any port, whatever `life` is, from one
micro-step that reads both indices; the state is unchanged. A ring is never both full and empty. -/
def Obligations.RingQueriesAnswer : Prop :=
  ∀ (s : State) (r : Ring), s.cfg.wf = true → s.idle s.cur = true → 1 ≤ s.slice →
    exec (.isFull r) s = .next (s.emit (.resp s.cur
      (if ((s.ring r).head + 1) % ringSize s.cfg r = (s.ring r).tail then 1 else 0)))
    ∧ exec (.isEmpty r) s = .next (s.emit (.resp s.cur (if (s.ring r).head = (s.ring r).tail then 1 else 0)))
    ∧ encode (.isFull r) = (match r with | .rx => 0x20000000 | .tx => 0x20800000)
    ∧ encode (.isEmpty r) = (match r with | .rx => 0x21000000 | .tx => 0x21800000)
    ∧ ¬ (s.full r = true ∧ s.empty r = true)

/-- R24: the ring predicates on indices in `0..N-1`, as integers modulo `N`. -/
def Obligations.RingPredicates : Prop :=
  ∀ (s : State) (r : Ring), 2 ≤ ringSize s.cfg r → (s.ring r).head < ringSize s.cfg r →
    (s.ring r).tail < ringSize s.cfg r →
    (s.full r = true ↔ ((s.ring r).head + 1) % ringSize s.cfg r = (s.ring r).tail)
      ∧ (s.empty r = true ↔ (s.ring r).head = (s.ring r).tail)
      ∧ (s.count r : Int) = ((s.ring r).head - (s.ring r).tail : Int) % ringSize s.cfg r
      ∧ (s.freeSlots r : Int) = ringSize s.cfg r - 1 - s.count r
      ∧ (∀ i, i < ringSize s.cfg r →
          (s.inWindow r i = true ↔ ((i : Int) - (s.ring r).tail) % ringSize s.cfg r < s.count r))
      ∧ (s.full r = true ↔ s.count r = ringSize s.cfg r - 1)
      ∧ (s.empty r = true ↔ s.count r = 0)

/-- R70, R71, R128, R129, R243, R244: the micro-steps of PRODUCE and PEEK. PRODUCE writes `buffer_address`,
then `length` (their order is the model's choice, log entry 19), then nothing (the barrier), then `status`: the
status word is the old one until P4, and at P4 the other two fields are the new ones; no byte outside the
descriptor changes; P5 moves the head by one. PEEK tests emptiness first, reads `status` once, at K1, gives
`None` where `OWN` is 1, and reads `length` only at K2, whatever has happened since; it changes nothing. -/
def Obligations.ProduceAndPeekOrder : Prop :=
  (∀ (s : State) (r : Ring) (st len : Word) (a : DAddr),
    let i := (s.ring r).head
    ∃ s1 s2 s3 s4 : State,
      produceStep r st len a .p1 s = (s1, .goto (.p2 i)) ∧ produceStep r st len a (.p2 i) s1 = (s2, .goto (.p3 i))
        ∧ produceStep r st len a (.p3 i) s2 = (s3, .goto (.p4 i)) ∧ produceStep r st len a (.p4 i) s3 = (s4, .ret i)
        ∧ s1.descriptor r i = ((s.descriptor r i).1, (s.descriptor r i).2.1, a)
        ∧ s2.descriptor r i = ((s.descriptor r i).1, len, a) ∧ s3 = s2
        ∧ s4.descriptor r i = (st, len, a)
        ∧ (∀ x, ¬ inDescriptor s.cfg r i x → s4.descByte x = s.descByte x)
        ∧ s4 = { s with desc := s4.desc }
        ∧ s4.produceCommit r i = s4.setHead r ((i + 1) % ringSize s.cfg r))
    ∧ ∀ (s : State) (r : Ring),
      let i := (s.ring r).tail
      ((s.ring r).head = i → peekStep r .k1 s = (s, .ret none))
        ∧ ((s.ring r).head ≠ i → (s.descriptor r i).1.getLsbD 31 = true → peekStep r .k1 s = (s, .ret none))
        ∧ ((s.ring r).head ≠ i → (s.descriptor r i).1.getLsbD 31 = false →
            peekStep r .k1 s = (s, .goto (.k2 i (s.descriptor r i).1))
              ∧ ∀ t : State, peekStep r (.k2 i (s.descriptor r i).1) t
                = (t, .ret (some ((s.descriptor r i).1, (t.descriptor r i).2.1))))

/-! ## Receive engine -/

/-- R140: the REFILL command, run from F1 to F9, is its loop; at most `N_RX - 1` slots are armed. -/
def Obligations.RefillRuns : Prop :=
  ∀ s : State, s.Ready .refill → s.life = .up → s.pollRunning = false → s.sizesOk = true →
    10 * s.cfg.nRx ≤ s.slice →
    exec .refill s = .next ((s.refillAll s.cfg.nRx).1.respond s.cur .ok (s.refillAll s.cfg.nRx).2)

/-- R140, R144: what REFILL does, in the spec's terms: it arms `n` slots from `H[RX]` on, each with the next
free buffer, its descriptor and pending entry as F2 to F5 say, and `H[RX]` moves by `n`; when every mapping
succeeds it stops only at a full ring or an exhausted pool. -/
def Obligations.RefillArmsSlots : Prop :=
  ∀ s : State, s.Ready .refill → s.life = .up → s.pollRunning = false → s.sizesOk = true →
    10 * s.cfg.nRx ≤ s.slice →
    let free := (List.range s.cfg.poolSize).filter fun h => (s.buffer h).own == .free
    ∃ (n : Nat) (t : State), exec .refill s = .next t
      ∧ t.hist = s.hist ++ [.resp s.cur (respWord .ok n)] ∧ n ≤ s.freeSlots .rx ∧ n ≤ free.length
      ∧ t.rx.tail = s.rx.tail ∧ t.rx.head = (s.rx.head + n) % s.cfg.nRx
      ∧ (∀ k h, k < n → free[k]? = some h →
          t.buffer h = ⟨.eng, BitVec.ofNat 16 s.cfg.bufSize, some .inbound⟩
            ∧ t.pending .rx ((s.rx.head + k) % s.cfg.nRx) = some (h, xlateOf s.cfg h)
            ∧ t.descriptor .rx ((s.rx.head + k) % s.cfg.nRx)
              = (0x90000000, BitVec.ofNat 32 s.cfg.bufSize, xlateOf s.cfg h))
      ∧ (∀ k rest, s.draws.mapOk = List.replicate k true ++ rest → s.cfg.nRx ≤ k →
          n = min (s.freeSlots .rx) free.length)

/-- R116, R140 F3, R144: when the mapping of the buffer REFILL has just acquired fails, the buffer is free
again and mapped nowhere, no index, descriptor or pending entry has changed, and REFILL answers `OK(0)`. -/
def Obligations.RefillReleasesUnmapped : Prop :=
  ∀ (s : State) (h : Nat) (rest : List Bool), s.Ready .refill → s.life = .up → s.pollRunning = false →
    s.pool.length = s.cfg.poolSize → 4 ≤ s.slice → s.full .rx = false → h < s.cfg.poolSize →
    (s.buffer h).own = .free → (∀ j, j < h → (s.buffer j).own ≠ .free) → s.draws.mapOk = false :: rest →
    exec .refill s = .next
      (({ s with draws := { s.draws with mapOk := rest } }.setBuffer h ⟨.free, BitVec.ofNat 16 s.cfg.bufSize, none⟩).emit
        (.resp s.cur 0))

/-- R141, R145, R146, R147: what DRAIN does, in the spec's terms: it consumes the completed descriptors from
`T[RX]` on, in slot order, each once, until the budget is spent or the next slot is not Completed; `T[RX]`
moves by the number consumed, which it answers; a good descriptor delivers exactly the received bytes and
passes its buffer to upstream; a bad one is dropped, counted, and its buffer freed. -/
def Obligations.DrainDeliversInOrder : Prop :=
  ∀ (s : State) (b : Nat), s.Ready (.drain b) → s.life = .up → s.pollRunning = false → s.sizesOk = true →
    s.entriesOk = true → s.windowOk .rx = true → 9 * s.cfg.nRx ≤ s.slice →
    let slot := fun k => (s.rx.tail + k) % s.cfg.nRx
    ∃ (w : Nat) (t : State), exec (.drain b) s = .next t ∧ w ≤ b ∧ w ≤ s.count .rx
      ∧ t.rx.head = s.rx.head ∧ t.rx.tail = slot w
      ∧ (∀ k, k < w → s.slotState .rx (slot k) = .completed)
      ∧ (w = b ∨ s.slotState .rx (slot w) ≠ .completed)
      ∧ t.hist = s.hist ++ (List.range w).filterMap (fun k => s.delivery (slot k)) ++ [.resp s.cur (respWord .ok w)]
      ∧ t.rxErr = s.rxErr + BitVec.ofNat 32 ((List.range w).countP fun k => s.dropped (slot k))
      ∧ (∀ k h a, k < w → s.pending .rx (slot k) = some (h, a) →
          t.pending .rx (slot k) = none
            ∧ t.buffer h = if s.dropped (slot k) then ⟨.free, (s.buffer h).len, none⟩
              else ⟨.up, (s.descriptor .rx (slot k)).2.1.setWidth 16, none⟩)

/-- R143: DRAIN with no budget or with no completed slot at the tail, and REFILL with no free slot, answer
`OK(0)` and change nothing. -/
def Obligations.NothingToDo : Prop :=
  ∀ s : State, s.life = .up → s.pollRunning = false → 3 ≤ s.slice →
    (∀ b, s.Ready (.drain b) → (b = 0 ∨ s.empty .rx = true ∨ (s.descriptor .rx s.rx.tail).1.getLsbD 31 = true) →
      exec (.drain b) s = .next (s.emit (.resp s.cur 0)))
    ∧ (s.Ready .refill → s.full .rx = true → exec .refill s = .next (s.emit (.resp s.cur 0)))

/-! ## Transmit engine -/

/-- R155, R160, R245: SUBMIT of a packet upstream holds, on a ring that is not full, with a mapping that
succeeds: the buffer is the engine's and mapped, slot `H[TX]` is armed with the packet's length and address,
the pending entry is recorded, the head advances, one KICK follows, and the lock is free again. -/
def Obligations.SubmitQueuesPacket : Prop :=
  ∀ (s : State) (h : Nat), s.Ready (.submit h) → s.life = .up → s.txLock = none → s.full .tx = false →
    h < s.cfg.poolSize → s.pool.length = s.cfg.poolSize → (s.buffer h).own = .up → (s.buffer h).map = none →
    s.drawMapOk.1 = true → 13 ≤ s.slice →
    exec (.submit h) s = .next
      ((((s.drawMapOk.2.setBuffer h ⟨.eng, (s.buffer h).len, some .outbound⟩).arm .tx h 0xF0000000
        ((s.buffer h).len.setWidth 32)).emit .kick).emit (.resp s.cur 0))

/-- R155 X3, X4, R158, R220: SUBMIT on a full ring answers `BUSY` and stops the queue, whatever the handle; on
a ring that is not full a handle upstream does not hold answers `BAD_HANDLE`; nothing else changes. -/
def Obligations.SubmitBusyOrBadHandle : Prop :=
  ∀ (s : State) (h : Nat), s.Ready (.submit h) → s.life = .up → s.txLock = none → 4 ≤ s.slice →
    (s.full .tx = true → exec (.submit h) s = .next ({ s with txStopped := true }.emit (.resp s.cur 0x10000000)))
    ∧ (s.full .tx = false → (s.cfg.poolSize ≤ h ∨ (s.buffer h).own ≠ .up) →
        exec (.submit h) s = .next (s.emit (.resp s.cur 0xD0000000)))

/-- R116, R155 X5, R212: when the mapping fails SUBMIT answers `MAP_FAIL`, the buffer is free, and nothing
else changes. -/
def Obligations.SubmitMapFailure : Prop :=
  ∀ (s : State) (h : Nat), s.Ready (.submit h) → s.life = .up → s.txLock = none → s.full .tx = false →
    h < s.cfg.poolSize → s.pool.length = s.cfg.poolSize → (s.buffer h).own = .up → (s.buffer h).map = none →
    s.drawMapOk.1 = false → 5 ≤ s.slice →
    exec (.submit h) s = .next
      ((s.drawMapOk.2.setBuffer h ⟨.free, (s.buffer h).len, none⟩).emit (.resp s.cur 0x30000000))

/-- R76: while another context holds `tx_lock`, SUBMIT, RECLAIM and TEARDOWN wait at their `lock(TX)`; a
context that waits changes nothing however long it is scheduled. -/
def Obligations.LockHolds : Prop :=
  ∀ (s : State) (d : Ctx), s.txLock = some d →
    (∀ h, s.Ready (.submit h) → exec (.submit h) s = .next (s.setCont s.cur (.running (.submit h .x1))))
    ∧ (s.Ready .reclaim → exec .reclaim s = .next (s.setCont s.cur (.running (.reclaim .y1))))
    ∧ (s.Ready .teardown → s.life = .up → 1 ≤ s.slice →
        exec .teardown s = .next (s.setCont s.cur (.running (.teardown .t2))))
    ∧ (∀ c n, ((∃ h, s.task? c = some (.submit h .x1)) ∨ s.task? c = some (.reclaim .y1)
        ∨ (∃ v, s.task? c = some (.irq (.i4r v .y1))) ∨ s.task? c = some (.teardown .t2)) → runFor c n s = s)

/-- R156, R159, R161, R214: what RECLAIM does, in the spec's terms: it frees the completed slots from `T[TX]`
on, in slot order, until one is not Completed; each buffer is unmapped and free, errors are counted; it
emits WAKE, and the queue runs again, exactly when it freed a slot of a ring it found full. -/
def Obligations.ReclaimFreesAndWakes : Prop :=
  ∀ s : State, s.Ready .reclaim → s.life = .up → s.txLock = none → s.sizesOk = true → s.entriesOk = true →
    s.windowOk .tx = true → 6 * s.cfg.nTx ≤ s.slice →
    let slot := fun k => (s.tx.tail + k) % s.cfg.nTx
    ∃ (n : Nat) (t : State), exec .reclaim s = .next t ∧ n ≤ s.count .tx
      ∧ t.tx.head = s.tx.head ∧ t.tx.tail = slot n
      ∧ (∀ k, k < n → s.slotState .tx (slot k) = .completed) ∧ s.slotState .tx (slot n) ≠ .completed
      ∧ t.hist = s.hist ++ (if 1 ≤ n ∧ s.full .tx = true then [.wake] else []) ++ [.resp s.cur (respWord .ok n)]
      ∧ t.txStopped = (s.txStopped && !(decide (1 ≤ n) && s.full .tx))
      ∧ t.txErr = s.txErr + BitVec.ofNat 32 ((List.range n).countP fun k => (s.descriptor .tx (slot k)).1.getLsbD 27)
      ∧ (∀ k h a, k < n → s.pending .tx (slot k) = some (h, a) →
          t.pending .tx (slot k) = none ∧ t.buffer h = ⟨.free, (s.buffer h).len, none⟩)
      ∧ t.txLock = none

/-! ## Event dispatcher -/

/-- R170, R171, R172: IRQ on a recognized cause: the one value it read is latched, RX_DONE schedules one
poll, TX_DONE runs RECLAIM, LINK and ERR are reported in this order, and exactly the observed bits are
cleared. -/
def Obligations.IrqHandlesCauses : Prop :=
  ∀ s : State, s.Ready .irq → s.life = .up → s.observed ≠ 0 → 6 * s.cfg.nTx + 8 ≤ s.slice →
    (s.observed.getLsbD s.cfg.isrTxDone = true →
      s.txLock = none ∧ s.sizesOk = true ∧ s.entriesOk = true ∧ s.windowOk .tx = true) →
    exec .irq s = .next (s.handleIrq.emit (.resp s.cur 0))

/-- R170 I2, R176: with no recognized cause IRQ answers `NOT_MINE`, acknowledges nothing, and only latches
the 0 it read. -/
def Obligations.IrqNotMine : Prop :=
  ∀ s : State, s.Ready .irq → s.life = .up → s.observed = 0 → 2 ≤ s.slice →
    exec .irq s = .next ({ s with isrLatch := 0 }.emit (.resp s.cur 0x40000000))

/-- R38, R172, R247: the acknowledge I7 clears the bits IRQ observed and leaves every other bit as it then
is, so a cause that arrived after the read is kept; nothing else changes. -/
def Obligations.AcknowledgeKeepsNewCauses : Prop :=
  ∀ (s : State) (c : Ctx) (v : Word), s.task? c = some (.irq (.i7 v)) →
    microStep c s = { s with isr := s.isr &&& ~~~v }.setCont c (.running (.irq .i8))
      ∧ ∀ k, k < 32 → (microStep c s).isr.getLsbD k = (s.isr.getLsbD k && !v.getLsbD k)

/-- R219, R222: the line is level-sensitive. After an IRQ that handled its causes it is deasserted, and a
cause raised afterwards asserts it again exactly when it is recognized and the line is enabled. -/
def Obligations.LineFollowsCauses : Prop :=
  ∀ s : State, s.Ready .irq → s.life = .up → s.observed ≠ 0 → 6 * s.cfg.nTx + 8 ≤ s.slice →
    (s.observed.getLsbD s.cfg.isrTxDone = true →
      s.txLock = none ∧ s.sizesOk = true ∧ s.entriesOk = true ∧ s.windowOk .tx = true) →
    (s.lineEn = true → s.lineAsserted = true)
      ∧ ∃ t : State, exec .irq s = .next t ∧ t.lineEn = s.lineEn ∧ t.lineAsserted = false
        ∧ ∀ v : Word, (t.devRaise v).lineAsserted = (s.lineEn && v &&& recognized s.cfg != 0)

/-- R173, R174, R249: the POLL command is DRAIN, then REFILL, then the re-arm decision; it answers DRAIN's
count. -/
def Obligations.PollRuns : Prop :=
  ∀ (s : State) (b : Nat), s.Ready (.poll b) → s.life = .up → s.pollRunning = false → s.sizesOk = true →
    s.entriesOk = true → s.windowOk .rx = true → 19 * s.cfg.nRx ≤ s.slice →
    exec (.poll b) s = .next ((s.pollAll b).1.respond s.cur .ok (s.pollAll b).2)

/-! ## Lifecycle -/

/-- R190, R173, R175, R185, R187, R216: the commands `life` or `poll_running` turns away answer `BAD_STATE`
and change nothing; SUBMIT and RECLAIM find it after taking the lock, which is free again; TEARDOWN of a
block that is `DOWN` answers `OK(0)` and does nothing. -/
def Obligations.TurnedAway : Prop :=
  ∀ s : State,
    (∀ i b, (i = .refill ∨ i = .drain b ∨ i = .poll b) → s.Ready i → (s.life = .down ∨ s.pollRunning = true) →
      exec i s = .next (s.emit (.resp s.cur 0xE0000000)))
    ∧ (s.Ready .irq → s.life = .down → exec .irq s = .next (s.emit (.resp s.cur 0xE0000000)))
    ∧ (s.Ready .bringup → s.life = .up → exec .bringup s = .next (s.emit (.resp s.cur 0xE0000000)))
    ∧ (∀ i h, (i = .submit h ∨ i = .reclaim) → s.Ready i → s.life = .down → s.txLock = none → 2 ≤ s.slice →
      exec i s = .next (s.emit (.resp s.cur 0xE0000000)))
    ∧ (s.Ready .teardown → s.life = .down → 1 ≤ s.slice → exec .teardown s = .next (s.emit (.resp s.cur 0)))

/-- R185, R186, R215: when no read of `RESET` within the bound finds the request acknowledged, BRINGUP answers
`RESET_TIMEOUT`; `life` stays `DOWN` and nothing but the request and the draws has changed. -/
def Obligations.BringupTimesOut : Prop :=
  ∀ (s : State) (rest : List Bool), s.Ready .bringup → s.life = .down →
    s.draws.rstAck = List.replicate s.cfg.resetBound false ++ rest → 1 + s.cfg.resetBound ≤ s.slice →
    exec .bringup s = .next
      ({ s with rst := 1, draws := { s.draws with rstAck := rest } }.emit (.resp s.cur 0x50000000))

/-- R185, R186: the BRINGUP command, run from H1 to its response, is the handshake, the zeroing of both
rings, the latches' clearing and the pre-population. -/
def Obligations.BringupRuns : Prop :=
  ∀ s : State, s.Ready .bringup → s.life = .down → s.sizesOk = true →
    s.cfg.resetBound + 13 * s.cfg.nRx + 3 * s.cfg.nTx ≤ s.slice →
    exec .bringup s = .next (s.bringupAll.1.respond s.cur s.bringupAll.2.1 s.bringupAll.2.2)

/-- R185, R186, R199, R241: what a BRINGUP whose request is acknowledged on its `j+1`-th read leaves, when
every mapping succeeds: `UP`, the device has forgotten everything, the TX ring empty and zero, and the RX
ring armed from slot 0 on with the free buffers in order, as many as it can hold. -/
def Obligations.BringupArmsRx : Prop :=
  ∀ (s : State) (j k : Nat) (rest rest' : List Bool), s.Ready .bringup → s.life = .down → s.sizesOk = true →
    s.draws.rstAck = List.replicate j false ++ true :: rest → j < s.cfg.resetBound →
    s.draws.mapOk = List.replicate k true ++ rest' → s.cfg.nRx ≤ k →
    s.cfg.resetBound + 13 * s.cfg.nRx + 3 * s.cfg.nTx ≤ s.slice →
    let free := (List.range s.cfg.poolSize).filter fun h => (s.buffer h).own == .free
    let n := min (s.cfg.nRx - 1) free.length
    ∃ t : State, exec .bringup s = .next t ∧ t.life = .up ∧ t.hist = s.hist ++ [.resp s.cur (respWord .ok n)]
      ∧ t.dev = [] ∧ t.rst = 0
      ∧ t.rx.head = n ∧ t.rx.tail = 0 ∧ t.tx.head = 0 ∧ t.tx.tail = 0
      ∧ t.pollSched = false ∧ t.txStopped = false ∧ t.isrLatch = 0 ∧ t.rxErr = 0 ∧ t.txErr = 0
      ∧ (∀ i, i < s.cfg.nTx → t.descriptor .tx i = (0, 0, 0) ∧ t.pending .tx i = none)
      ∧ (∀ i, n ≤ i → i < s.cfg.nRx → t.descriptor .rx i = (0, 0, 0) ∧ t.pending .rx i = none)
      ∧ (∀ i h, i < n → free[i]? = some h →
          t.descriptor .rx i = (0x90000000, BitVec.ofNat 32 s.cfg.bufSize, xlateOf s.cfg h)
            ∧ t.pending .rx i = some (h, xlateOf s.cfg h)
            ∧ t.buffer h = ⟨.eng, BitVec.ofNat 16 s.cfg.bufSize, some .inbound⟩)

/-- R187, R188, R242: what TEARDOWN leaves: `DOWN`, every pending table empty, every index 0, no poll
scheduled, every buffer that was in a pending table unmapped and free and every other buffer as it was;
its answer is the number released; descriptor memory is untouched, whatever `OWN` says. -/
def Obligations.TeardownReleasesAll : Prop :=
  ∀ s : State, s.Ready .teardown → s.life = .up → s.txLock = none → s.pollRunning = false → s.sizesOk = true →
    s.entriesOk = true → s.cfg.nRx + s.cfg.nTx + 5 ≤ s.slice →
    ∃ t : State, exec .teardown s = .next t ∧ t.life = .down ∧ t.pollSched = false ∧ t.txStopped = false
      ∧ t.txLock = none ∧ t.rx.head = 0 ∧ t.rx.tail = 0 ∧ t.tx.head = 0 ∧ t.tx.tail = 0
      ∧ (∀ r i, i < ringSize s.cfg r → t.pending r i = none)
      ∧ (∀ r i h a, i < ringSize s.cfg r → s.pending r i = some (h, a) → t.buffer h = ⟨.free, (s.buffer h).len, none⟩)
      ∧ (∀ h, (∀ r i a, i < ringSize s.cfg r → s.pending r i ≠ some (h, a)) → t.buffer h = s.buffer h)
      ∧ t.hist = s.hist ++ [.resp s.cur (respWord .ok
          (((List.range s.cfg.nRx).countP fun i => (s.pending .rx i).isSome)
            + (List.range s.cfg.nTx).countP fun i => (s.pending .tx i).isSome))]
      ∧ (∀ x, t.descByte x = s.descByte x)

/-! ## Device and environment -/

/-- R71, R196: an RX completion that the device has begun, whose descriptor refers to a mapped buffer, access by
access: the descriptor stays as it was while the frame's `n` bytes are written (two reads, the `n` bytes, and
the end of V2, a turn of its own by log entry 20), then its length changes, and with the last access its status,
`OWN` cleared; it records no fault and is done. -/
def Obligations.DeviceCompletesRx : Prop :=
  ∀ (s : State) (rest : List Move) (j more i h seed : Nat) (len st : Word) (err : Bool) (bytes : List Byte),
    s.cfg.wf = true → s.life = .up → s.script = .device j more :: rest →
    s.dev[j]? = some (.rx i len err bytes seed (.v1len st)) → i < s.cfg.nRx → h < s.cfg.poolSize →
    (s.buffer h).map = some .inbound → (s.descriptor .rx i).2.2 = xlateOf s.cfg h →
    (s.descriptor .rx i).2.1.toNat ≤ s.cfg.bufSize →
    min len.toNat (s.descriptor .rx i).2.1.toNat + 5 ≤ more + 1 →
    let n := min len.toNat (s.descriptor .rx i).2.1.toNat
    let after := fun k => devRun j k { s with script := rest }
    (∀ k, k ≤ n + 3 → (after k).desc = s.desc)
      ∧ (∀ k, n + 2 ≤ k → k ≤ n + 4 →
          (after k).buf = (s.bufWrite h 0 ((List.range n).map (frameByte bytes seed))).buf)
      ∧ (after (n + 4)).desc = (s.descWrite32 (s.cfg.rxBase.toNat + 16 * i + 4) len).desc
      ∧ step s = .next
      { (((s.bufWrite h 0 ((List.range n).map (frameByte bytes seed))).descWrite32 (s.cfg.rxBase.toNat + 16 * i + 4)
          len).descWrite32 (s.cfg.rxBase.toNat + 16 * i)
          ((st &&& ~~~0x80000000) ||| 0x60000000 ||| if err then 0x08000000 else 0)) with
        script := rest, dev := s.dev.eraseIdx j }

/-- R197: a TX completion that the device has begun, whose descriptor refers to a mapped buffer, made in one
go (how many turns that takes is log entry 20): TXED carries the buffer's bytes, the status loses `OWN`, length
and address stay. -/
def Obligations.DeviceCompletesTx : Prop :=
  ∀ (s : State) (rest : List Move) (j more i h : Nat) (st : Word) (err : Bool),
    s.cfg.wf = true → s.life = .up → s.script = .device j more :: rest →
    s.dev[j]? = some (.tx i err (.w1len st)) → i < s.cfg.nTx → h < s.cfg.poolSize →
    (s.buffer h).map = some .outbound → (s.descriptor .tx i).2.2 = xlateOf s.cfg h →
    (s.descriptor .tx i).2.1.toNat ≤ s.cfg.bufSize → (s.descriptor .tx i).2.1.toNat + 4 ≤ more + 1 →
    step s = .next
      { (s.emit (.txed i (s.bufBytes h (s.descriptor .tx i).2.1.toNat))).descWrite32 (s.cfg.txBase.toNat + 16 * i)
          ((st &&& ~~~0x80000000) ||| if err then 0x08000000 else 0) with
        script := rest, dev := s.dev.eraseIdx j }

/-- R195, R196, R197: a completion begins only while `life` is `UP`, on a slot of the ring whose status the
device reads with `OWN` = 1 and of which it has no completion in progress (log entry 5, the model's choice);
beginning it changes nothing but the device's own record. Else nothing changes. -/
def Obligations.DeviceBeginsCompletion : Prop :=
  ∀ (s : State) (rest : List Move) (i : Nat) (err : Bool), s.cfg.wf = true →
    (∀ len bytes, s.script = .rxComplete i len err bytes :: rest →
      (s.life = .up → i < s.cfg.nRx → (s.descriptor .rx i).1.getLsbD 31 = true → (∀ o ∈ s.dev, o.slot ≠ (.rx, i)) →
        step s = .next { s with
          script := rest, tick := s.tick + 1
          dev := s.dev ++ [.rx i len err bytes s.tick (.v1len (s.descriptor .rx i).1)] })
      ∧ (s.life = .down ∨ s.cfg.nRx ≤ i ∨ (s.descriptor .rx i).1.getLsbD 31 = false ∨ (∃ o ∈ s.dev, o.slot = (.rx, i)) →
        step s = .next { s with script := rest }))
    ∧ (s.script = .txComplete i err :: rest →
      (s.life = .up → i < s.cfg.nTx → (s.descriptor .tx i).1.getLsbD 31 = true → (∀ o ∈ s.dev, o.slot ≠ (.tx, i)) →
        step s = .next { s with script := rest, dev := s.dev ++ [.tx i err (.w1len (s.descriptor .tx i).1)] })
      ∧ (s.life = .down ∨ s.cfg.nTx ≤ i ∨ (s.descriptor .tx i).1.getLsbD 31 = false ∨ (∃ o ∈ s.dev, o.slot = (.tx, i)) →
        step s = .next { s with script := rest }))

/-- R198, R199: `DEV_RAISE` is enabled always and sets the recognized bits of its draw in `ISR`.
`DEV_RESET_ACK` is enabled when `RESET[0] = 1`: the bit is cleared, the device forgets what it was using,
`ISR` takes any value within the recognized bits. -/
def Obligations.DeviceRaisesAndAcknowledges : Prop :=
  ∀ (s : State) (rest : List Move) (v : Word), s.cfg.wf = true →
    (s.script = .raise v :: rest →
      step s = .next { s with script := rest, isr := s.isr ||| (v &&& recognized s.cfg) })
    ∧ (s.script = .resetAck v :: rest → s.rst.getLsbD 0 = true →
      step s = .next { s with
        script := rest, rst := s.rst &&& 0xFFFFFFFE, dev := [], isr := v &&& recognized s.cfg })
    ∧ (s.script = .resetAck v :: rest → s.rst.getLsbD 0 = false → step s = .next { s with script := rest })

/-- R33, R201: upstream writes the bytes of a buffer it holds, within its valid length; a write to any other
buffer is not among its steps. Every other byte of buffer memory stays. -/
def Obligations.UpstreamFills : Prop :=
  ∀ (s : State) (rest : List Move) (k h off : Nat) (bytes : List Byte), s.cfg.wf = true →
    s.script = .fill k h off bytes :: rest →
    (k < s.cfg.kUp → h < s.cfg.poolSize → (s.buffer h).own = .up → off + bytes.length ≤ (s.buffer h).len.toNat →
      ∃ t : State, step s = .next t ∧ t = { s with script := rest, buf := t.buf }
        ∧ (∀ x b, bytes[x]? = some b → t.bufByte h (off + x) = b)
        ∧ (∀ g x, x < 2 ^ 16 → (g ≠ h ∨ x < off ∨ off + bytes.length ≤ x) → t.bufByte g x = s.bufByte g x))
    ∧ ((s.cfg.kUp ≤ k ∨ s.cfg.poolSize ≤ h ∨ (s.buffer h).own ≠ .up ∨ (s.buffer h).len.toNat < off + bytes.length) →
      step s = .next { s with script := rest })

/-- R67, R68: a one-byte device access inside the window of a buffer mapped in the access's direction is to
that buffer's byte; inside no such window it records `F_DMA_UNMAPPED` and memory stays as it was, a read
(W2 of a TX completion, R197) getting some byte and going on (log entry 11, the model's choice). -/
def Obligations.DeviceAccessCheck : Prop :=
  ∀ (s : State) (da : Nat) (v : Byte), s.cfg.wf = true →
    (∀ h, h < s.cfg.poolSize → (xlateOf s.cfg h).toNat ≤ da → da < (xlateOf s.cfg h).toNat + s.cfg.bufSize →
      ((s.buffer h).map = some .inbound → s.devMemWrite da v = s.bufWrite h (da - (xlateOf s.cfg h).toNat) [v])
      ∧ ((s.buffer h).map = some .outbound → s.devMemRead da = some (s.bufByte h (da - (xlateOf s.cfg h).toNat))))
    ∧ ((∀ h, h < s.cfg.poolSize → (xlateOf s.cfg h).toNat ≤ da → da < (xlateOf s.cfg h).toNat + s.cfg.bufSize →
        (s.buffer h).map ≠ some .inbound) → s.devMemWrite da v = s.raise .dmaUnmapped)
    ∧ ((∀ h, h < s.cfg.poolSize → (xlateOf s.cfg h).toNat ≤ da → da < (xlateOf s.cfg h).toNat + s.cfg.bufSize →
        (s.buffer h).map ≠ some .outbound) →
        s.devMemRead da = none
          ∧ ∀ (i : Nat) (err : Bool) (st len : Word) (a : DAddr) (b : List Byte), a.toNat + b.length = da →
              b.length < len.toNat →
              ∃ x, devTxStep i err (.w2 st len a b) s
                = ({ s.raise .dmaUnmapped with tick := s.tick + 1 }, some (.w2 st len a (b ++ [x]))))

/-! ## Frames: what a command leaves as it was, however it ends and however long its slice -/

/-- IS_FULL, IS_EMPTY, ACQUIRE and RELEASE: what they leave as it was. -/
def Obligations.QueryAndPoolFrame : Prop :=
  ∀ s t : State,
    (∀ r i, (i = .isFull r ∨ i = .isEmpty r) → exec i s = .next t →
      t = { s with hist := t.hist, lanes := t.lanes } ∧ s.keepsOthers t ∧ s.keepsDesc t ∧ s.keepsBuf t)
    ∧ (∀ size, exec (.acquire size) s = .next t →
      t = { s with pool := t.pool, hist := t.hist, lanes := t.lanes } ∧ s.keepsOthers t ∧ s.keepsDesc t ∧ s.keepsBuf t
        ∧ ∀ j, (s.buffer j).own ≠ .free → t.buffer j = s.buffer j)
    ∧ (∀ h, exec (.release h) s = .next t →
      t = { s with pool := t.pool, fault := t.fault, hist := t.hist, lanes := t.lanes }
        ∧ s.keepsOthers t ∧ s.keepsDesc t ∧ s.keepsBuf t ∧ ∀ j, j ≠ h → t.buffer j = s.buffer j)

/-- REFILL, DRAIN and POLL: what they leave as it was. REFILL stores only to descriptors of RX slots outside
the window; POLL also to those of slots it has drained, so never to an Armed one; DRAIN stores to none. -/
def Obligations.ReceiveFrame : Prop :=
  ∀ s t : State,
    (exec .refill s = .next t →
      t = { s with
          rx := t.rx, pool := t.pool, pollRunning := t.pollRunning, fault := t.fault, hist := t.hist, desc := t.desc,
          lanes := t.lanes, draws := t.draws, tick := t.tick }
        ∧ t.rx.tail = s.rx.tail ∧ s.keepsOthers t ∧ s.keepsBuf t
        ∧ (∀ j, (s.buffer j).own ≠ .free → t.buffer j = s.buffer j)
        ∧ (s.rx.head < s.cfg.nRx → s.rx.tail < s.cfg.nRx →
            (∀ i, s.inWindow .rx i = true → t.pending .rx i = s.pending .rx i)
            ∧ ∀ a, (∀ i, i < s.cfg.nRx → inDescriptor s.cfg .rx i a → s.inWindow .rx i = true) →
                t.descByte a = s.descByte a))
    ∧ (∀ b, exec (.drain b) s = .next t →
      t = { s with
          rx := t.rx, pool := t.pool, pollRunning := t.pollRunning, rxErr := t.rxErr, fault := t.fault, hist := t.hist,
          lanes := t.lanes }
        ∧ t.rx.head = s.rx.head ∧ s.keepsOthers t ∧ s.keepsDesc t ∧ s.keepsBuf t
        ∧ (∀ i, t.pending .rx i = s.pending .rx i ∨ t.pending .rx i = none)
        ∧ (∀ j, (∀ i a, s.pending .rx i ≠ some (j, a)) → t.buffer j = s.buffer j))
    ∧ (∀ b, exec (.poll b) s = .next t →
      t = { s with
          rx := t.rx, pool := t.pool, pollSched := t.pollSched, pollRunning := t.pollRunning, rxErr := t.rxErr,
          fault := t.fault, hist := t.hist, desc := t.desc, lanes := t.lanes, draws := t.draws, tick := t.tick }
        ∧ s.keepsOthers t ∧ s.keepsBuf t
        ∧ (∀ j, (s.buffer j).own ≠ .free → (∀ i a, s.pending .rx i ≠ some (j, a)) → t.buffer j = s.buffer j)
        ∧ (s.rx.head < s.cfg.nRx → s.rx.tail < s.cfg.nRx →
            ∀ a, (∀ i, i < s.cfg.nRx → inDescriptor s.cfg .rx i a → s.slotState .rx i = .armed) →
              t.descByte a = s.descByte a))

/-- SUBMIT, RECLAIM and IRQ: what they leave as it was. SUBMIT stores only to the descriptor of slot `H[TX]`;
RECLAIM and IRQ store to none. -/
def Obligations.TransmitFrame : Prop :=
  ∀ s t : State,
    (∀ h, exec (.submit h) s = .next t →
      t = { s with
          tx := t.tx, pool := t.pool, txStopped := t.txStopped, txLock := t.txLock, fault := t.fault, hist := t.hist,
          desc := t.desc, lanes := t.lanes, draws := t.draws, tick := t.tick }
        ∧ t.tx.tail = s.tx.tail ∧ s.keepsOthers t ∧ s.keepsBuf t
        ∧ (∀ i, i ≠ s.tx.head → t.pending .tx i = s.pending .tx i)
        ∧ (∀ j, j ≠ h → t.buffer j = s.buffer j)
        ∧ (∀ a, ¬ inDescriptor s.cfg .tx s.tx.head a → t.descByte a = s.descByte a))
    ∧ (exec .reclaim s = .next t →
      t = { s with
          tx := t.tx, pool := t.pool, txStopped := t.txStopped, txLock := t.txLock, txErr := t.txErr, fault := t.fault,
          hist := t.hist, lanes := t.lanes }
        ∧ t.tx.head = s.tx.head ∧ s.keepsOthers t ∧ s.keepsDesc t ∧ s.keepsBuf t
        ∧ (∀ i, t.pending .tx i = s.pending .tx i ∨ t.pending .tx i = none)
        ∧ (∀ j, (∀ i a, s.pending .tx i ≠ some (j, a)) → t.buffer j = s.buffer j))
    ∧ (exec .irq s = .next t →
      t = { s with
          isrLatch := t.isrLatch, pollSched := t.pollSched, isr := t.isr, tx := t.tx, pool := t.pool,
          txStopped := t.txStopped, txLock := t.txLock, txErr := t.txErr, fault := t.fault, hist := t.hist,
          lanes := t.lanes }
        ∧ t.tx.head = s.tx.head ∧ s.keepsOthers t ∧ s.keepsDesc t ∧ s.keepsBuf t
        ∧ (∀ i, t.pending .tx i = s.pending .tx i ∨ t.pending .tx i = none)
        ∧ (∀ j, (∀ i a, s.pending .tx i ≠ some (j, a)) → t.buffer j = s.buffer j))

/-- BRINGUP and TEARDOWN: what they leave as it was. BRINGUP stores only to the two rings; TEARDOWN stores
to no memory and touches no device register. -/
def Obligations.LifecycleFrame : Prop :=
  ∀ s t : State,
    (exec .bringup s = .next t →
      t = { s with
          life := t.life, rx := t.rx, tx := t.tx, pool := t.pool, isrLatch := t.isrLatch, pollSched := t.pollSched,
          txStopped := t.txStopped, rxErr := t.rxErr, txErr := t.txErr, fault := t.fault, hist := t.hist,
          desc := t.desc, isr := t.isr, rst := t.rst, dev := t.dev, lanes := t.lanes, draws := t.draws, tick := t.tick }
        ∧ s.keepsOthers t ∧ s.keepsBuf t
        ∧ (∀ j, (s.buffer j).own ≠ .free → t.buffer j = s.buffer j)
        ∧ (∀ a, (∀ r i, i < ringSize s.cfg r → ¬ inDescriptor s.cfg r i a) → t.descByte a = s.descByte a))
    ∧ (exec .teardown s = .next t →
      t = { s with
          life := t.life, rx := t.rx, tx := t.tx, pool := t.pool, pollSched := t.pollSched, txStopped := t.txStopped,
          txLock := t.txLock, fault := t.fault, hist := t.hist, lanes := t.lanes }
        ∧ s.keepsOthers t ∧ s.keepsDesc t ∧ s.keepsBuf t
        ∧ (∀ r i, t.pending r i = s.pending r i ∨ t.pending r i = none)
        ∧ (∀ j, (∀ r i a, s.pending r i ≠ some (j, a)) → t.buffer j = s.buffer j))
end

