-- ==== Sys2Proof/Laws/State.lean ====
section
/-! SUPPORT. What each named update of the state leaves as it was: one lemma per field and per reader, so
that no later proof unfolds a record update. -/

namespace Sys2Proof.Machine

/-! ### emit -/

@[simp] theorem State.emit_cfg (s : State) (e : Event) : (s.emit e).cfg = s.cfg := (rfl)
@[simp] theorem State.emit_life (s : State) (e : Event) : (s.emit e).life = s.life := (rfl)
@[simp] theorem State.emit_rx (s : State) (e : Event) : (s.emit e).rx = s.rx := (rfl)
@[simp] theorem State.emit_tx (s : State) (e : Event) : (s.emit e).tx = s.tx := (rfl)
@[simp] theorem State.emit_pool (s : State) (e : Event) : (s.emit e).pool = s.pool := (rfl)
@[simp] theorem State.emit_isrLatch (s : State) (e : Event) : (s.emit e).isrLatch = s.isrLatch := (rfl)
@[simp] theorem State.emit_pollSched (s : State) (e : Event) : (s.emit e).pollSched = s.pollSched := (rfl)
@[simp] theorem State.emit_pollRunning (s : State) (e : Event) : (s.emit e).pollRunning = s.pollRunning := (rfl)
@[simp] theorem State.emit_txStopped (s : State) (e : Event) : (s.emit e).txStopped = s.txStopped := (rfl)
@[simp] theorem State.emit_txLock (s : State) (e : Event) : (s.emit e).txLock = s.txLock := (rfl)
@[simp] theorem State.emit_rxErr (s : State) (e : Event) : (s.emit e).rxErr = s.rxErr := (rfl)
@[simp] theorem State.emit_txErr (s : State) (e : Event) : (s.emit e).txErr = s.txErr := (rfl)
@[simp] theorem State.emit_lanes (s : State) (e : Event) : (s.emit e).lanes = s.lanes := (rfl)
@[simp] theorem State.emit_fault (s : State) (e : Event) : (s.emit e).fault = s.fault := (rfl)
@[simp] theorem State.emit_desc (s : State) (e : Event) : (s.emit e).desc = s.desc := (rfl)
@[simp] theorem State.emit_buf (s : State) (e : Event) : (s.emit e).buf = s.buf := (rfl)
@[simp] theorem State.emit_isr (s : State) (e : Event) : (s.emit e).isr = s.isr := (rfl)
@[simp] theorem State.emit_txctl (s : State) (e : Event) : (s.emit e).txctl = s.txctl := (rfl)
@[simp] theorem State.emit_rst (s : State) (e : Event) : (s.emit e).rst = s.rst := (rfl)
@[simp] theorem State.emit_lineEn (s : State) (e : Event) : (s.emit e).lineEn = s.lineEn := (rfl)
@[simp] theorem State.emit_dev (s : State) (e : Event) : (s.emit e).dev = s.dev := (rfl)
@[simp] theorem State.emit_script (s : State) (e : Event) : (s.emit e).script = s.script := (rfl)
@[simp] theorem State.emit_draws (s : State) (e : Event) : (s.emit e).draws = s.draws := (rfl)
@[simp] theorem State.emit_tick (s : State) (e : Event) : (s.emit e).tick = s.tick := (rfl)
@[simp] theorem State.emit_cur (s : State) (e : Event) : (s.emit e).cur = s.cur := (rfl)
@[simp] theorem State.emit_slice (s : State) (e : Event) : (s.emit e).slice = s.slice := (rfl)
@[simp] theorem State.emit_ring (s : State) (e : Event) (r : Ring) : (s.emit e).ring r = s.ring r := (rfl)
@[simp] theorem State.emit_full (s : State) (e : Event) (r : Ring) : (s.emit e).full r = s.full r := (rfl)
@[simp] theorem State.emit_empty (s : State) (e : Event) (r : Ring) : (s.emit e).empty r = s.empty r := (rfl)
@[simp] theorem State.emit_count (s : State) (e : Event) (r : Ring) : (s.emit e).count r = s.count r := (rfl)
@[simp] theorem State.emit_freeSlots (s : State) (e : Event) (r : Ring) : (s.emit e).freeSlots r = s.freeSlots r := (rfl)
@[simp] theorem State.emit_inWindow (s : State) (e : Event) (r : Ring) (j : Nat) : (s.emit e).inWindow r j = s.inWindow r j := (rfl)
@[simp] theorem State.emit_pending (s : State) (e : Event) (r : Ring) (j : Nat) : (s.emit e).pending r j = s.pending r j := (rfl)
@[simp] theorem State.emit_buffer (s : State) (e : Event) (j : Nat) : (s.emit e).buffer j = s.buffer j := (rfl)
@[simp] theorem State.emit_handleOk (s : State) (e : Event) (j : Nat) : (s.emit e).handleOk j = s.handleOk j := (rfl)
@[simp] theorem State.emit_sizeOk (s : State) (e : Event) (z : Nat) : (s.emit e).sizeOk z = s.sizeOk z := (rfl)
@[simp] theorem State.emit_tooLong (s : State) (e : Event) (z : Word) : (s.emit e).tooLong z = s.tooLong z := (rfl)
@[simp] theorem State.emit_lowestFree (s : State) (e : Event) : (s.emit e).lowestFree = s.lowestFree := (rfl)
@[simp] theorem State.emit_descByte (s : State) (e : Event) (j : Nat) : (s.emit e).descByte j = s.descByte j := (rfl)
@[simp] theorem State.emit_descRead32 (s : State) (e : Event) (j : Nat) : (s.emit e).descRead32 j = s.descRead32 j := (rfl)
@[simp] theorem State.emit_descRead64 (s : State) (e : Event) (j : Nat) : (s.emit e).descRead64 j = s.descRead64 j := (rfl)
@[simp] theorem State.emit_bufByte (s : State) (e : Event) (j z : Nat) : (s.emit e).bufByte j z = s.bufByte j z := (rfl)
@[simp] theorem State.emit_bufBytes (s : State) (e : Event) (j z : Nat) : (s.emit e).bufBytes j z = s.bufBytes j z := (rfl)
@[simp] theorem State.emit_lane (s : State) (e : Event) (d : Ctx) : (s.emit e).lane? d = s.lane? d := (rfl)
@[simp] theorem State.emit_idle (s : State) (e : Event) (d : Ctx) : (s.emit e).idle d = s.idle d := (rfl)
@[simp] theorem State.emit_running (s : State) (e : Event) (d : Ctx) : (s.emit e).running d = s.running d := (rfl)

/-! ### respond -/

@[simp] theorem State.respond_cfg (s : State) (c : Ctx) (k : Code) (n : Nat) : (s.respond c k n).cfg = s.cfg := (rfl)
@[simp] theorem State.respond_life (s : State) (c : Ctx) (k : Code) (n : Nat) : (s.respond c k n).life = s.life := (rfl)
@[simp] theorem State.respond_rx (s : State) (c : Ctx) (k : Code) (n : Nat) : (s.respond c k n).rx = s.rx := (rfl)
@[simp] theorem State.respond_tx (s : State) (c : Ctx) (k : Code) (n : Nat) : (s.respond c k n).tx = s.tx := (rfl)
@[simp] theorem State.respond_pool (s : State) (c : Ctx) (k : Code) (n : Nat) : (s.respond c k n).pool = s.pool := (rfl)
@[simp] theorem State.respond_isrLatch (s : State) (c : Ctx) (k : Code) (n : Nat) : (s.respond c k n).isrLatch = s.isrLatch := (rfl)
@[simp] theorem State.respond_pollSched (s : State) (c : Ctx) (k : Code) (n : Nat) : (s.respond c k n).pollSched = s.pollSched := (rfl)
@[simp] theorem State.respond_pollRunning (s : State) (c : Ctx) (k : Code) (n : Nat) : (s.respond c k n).pollRunning = s.pollRunning := (rfl)
@[simp] theorem State.respond_txStopped (s : State) (c : Ctx) (k : Code) (n : Nat) : (s.respond c k n).txStopped = s.txStopped := (rfl)
@[simp] theorem State.respond_txLock (s : State) (c : Ctx) (k : Code) (n : Nat) : (s.respond c k n).txLock = s.txLock := (rfl)
@[simp] theorem State.respond_rxErr (s : State) (c : Ctx) (k : Code) (n : Nat) : (s.respond c k n).rxErr = s.rxErr := (rfl)
@[simp] theorem State.respond_txErr (s : State) (c : Ctx) (k : Code) (n : Nat) : (s.respond c k n).txErr = s.txErr := (rfl)
@[simp] theorem State.respond_lanes (s : State) (c : Ctx) (k : Code) (n : Nat) : (s.respond c k n).lanes = s.lanes := (rfl)
@[simp] theorem State.respond_fault (s : State) (c : Ctx) (k : Code) (n : Nat) : (s.respond c k n).fault = s.fault := (rfl)
@[simp] theorem State.respond_desc (s : State) (c : Ctx) (k : Code) (n : Nat) : (s.respond c k n).desc = s.desc := (rfl)
@[simp] theorem State.respond_buf (s : State) (c : Ctx) (k : Code) (n : Nat) : (s.respond c k n).buf = s.buf := (rfl)
@[simp] theorem State.respond_isr (s : State) (c : Ctx) (k : Code) (n : Nat) : (s.respond c k n).isr = s.isr := (rfl)
@[simp] theorem State.respond_txctl (s : State) (c : Ctx) (k : Code) (n : Nat) : (s.respond c k n).txctl = s.txctl := (rfl)
@[simp] theorem State.respond_rst (s : State) (c : Ctx) (k : Code) (n : Nat) : (s.respond c k n).rst = s.rst := (rfl)
@[simp] theorem State.respond_lineEn (s : State) (c : Ctx) (k : Code) (n : Nat) : (s.respond c k n).lineEn = s.lineEn := (rfl)
@[simp] theorem State.respond_dev (s : State) (c : Ctx) (k : Code) (n : Nat) : (s.respond c k n).dev = s.dev := (rfl)
@[simp] theorem State.respond_script (s : State) (c : Ctx) (k : Code) (n : Nat) : (s.respond c k n).script = s.script := (rfl)
@[simp] theorem State.respond_draws (s : State) (c : Ctx) (k : Code) (n : Nat) : (s.respond c k n).draws = s.draws := (rfl)
@[simp] theorem State.respond_tick (s : State) (c : Ctx) (k : Code) (n : Nat) : (s.respond c k n).tick = s.tick := (rfl)
@[simp] theorem State.respond_cur (s : State) (c : Ctx) (k : Code) (n : Nat) : (s.respond c k n).cur = s.cur := (rfl)
@[simp] theorem State.respond_slice (s : State) (c : Ctx) (k : Code) (n : Nat) : (s.respond c k n).slice = s.slice := (rfl)
@[simp] theorem State.respond_ring (s : State) (c : Ctx) (k : Code) (n : Nat) (r : Ring) : (s.respond c k n).ring r = s.ring r := (rfl)
@[simp] theorem State.respond_full (s : State) (c : Ctx) (k : Code) (n : Nat) (r : Ring) : (s.respond c k n).full r = s.full r := (rfl)
@[simp] theorem State.respond_empty (s : State) (c : Ctx) (k : Code) (n : Nat) (r : Ring) : (s.respond c k n).empty r = s.empty r := (rfl)
@[simp] theorem State.respond_count (s : State) (c : Ctx) (k : Code) (n : Nat) (r : Ring) : (s.respond c k n).count r = s.count r := (rfl)
@[simp] theorem State.respond_freeSlots (s : State) (c : Ctx) (k : Code) (n : Nat) (r : Ring) : (s.respond c k n).freeSlots r = s.freeSlots r := (rfl)
@[simp] theorem State.respond_inWindow (s : State) (c : Ctx) (k : Code) (n : Nat) (r : Ring) (j : Nat) : (s.respond c k n).inWindow r j = s.inWindow r j := (rfl)
@[simp] theorem State.respond_pending (s : State) (c : Ctx) (k : Code) (n : Nat) (r : Ring) (j : Nat) : (s.respond c k n).pending r j = s.pending r j := (rfl)
@[simp] theorem State.respond_buffer (s : State) (c : Ctx) (k : Code) (n : Nat) (j : Nat) : (s.respond c k n).buffer j = s.buffer j := (rfl)
@[simp] theorem State.respond_handleOk (s : State) (c : Ctx) (k : Code) (n : Nat) (j : Nat) : (s.respond c k n).handleOk j = s.handleOk j := (rfl)
@[simp] theorem State.respond_sizeOk (s : State) (c : Ctx) (k : Code) (n : Nat) (z : Nat) : (s.respond c k n).sizeOk z = s.sizeOk z := (rfl)
@[simp] theorem State.respond_tooLong (s : State) (c : Ctx) (k : Code) (n : Nat) (z : Word) : (s.respond c k n).tooLong z = s.tooLong z := (rfl)
@[simp] theorem State.respond_lowestFree (s : State) (c : Ctx) (k : Code) (n : Nat) : (s.respond c k n).lowestFree = s.lowestFree := (rfl)
@[simp] theorem State.respond_descByte (s : State) (c : Ctx) (k : Code) (n : Nat) (j : Nat) : (s.respond c k n).descByte j = s.descByte j := (rfl)
@[simp] theorem State.respond_descRead32 (s : State) (c : Ctx) (k : Code) (n : Nat) (j : Nat) : (s.respond c k n).descRead32 j = s.descRead32 j := (rfl)
@[simp] theorem State.respond_descRead64 (s : State) (c : Ctx) (k : Code) (n : Nat) (j : Nat) : (s.respond c k n).descRead64 j = s.descRead64 j := (rfl)
@[simp] theorem State.respond_bufByte (s : State) (c : Ctx) (k : Code) (n : Nat) (j z : Nat) : (s.respond c k n).bufByte j z = s.bufByte j z := (rfl)
@[simp] theorem State.respond_bufBytes (s : State) (c : Ctx) (k : Code) (n : Nat) (j z : Nat) : (s.respond c k n).bufBytes j z = s.bufBytes j z := (rfl)
@[simp] theorem State.respond_lane (s : State) (c : Ctx) (k : Code) (n : Nat) (d : Ctx) : (s.respond c k n).lane? d = s.lane? d := (rfl)
@[simp] theorem State.respond_idle (s : State) (c : Ctx) (k : Code) (n : Nat) (d : Ctx) : (s.respond c k n).idle d = s.idle d := (rfl)
@[simp] theorem State.respond_running (s : State) (c : Ctx) (k : Code) (n : Nat) (d : Ctx) : (s.respond c k n).running d = s.running d := (rfl)

/-! ### raise -/

@[simp] theorem State.raise_cfg (s : State) (f : Fault) : (s.raise f).cfg = s.cfg := by cases f <;> rfl
@[simp] theorem State.raise_life (s : State) (f : Fault) : (s.raise f).life = s.life := by cases f <;> rfl
@[simp] theorem State.raise_rx (s : State) (f : Fault) : (s.raise f).rx = s.rx := by cases f <;> rfl
@[simp] theorem State.raise_tx (s : State) (f : Fault) : (s.raise f).tx = s.tx := by cases f <;> rfl
@[simp] theorem State.raise_pool (s : State) (f : Fault) : (s.raise f).pool = s.pool := by cases f <;> rfl
@[simp] theorem State.raise_isrLatch (s : State) (f : Fault) : (s.raise f).isrLatch = s.isrLatch := by cases f <;> rfl
@[simp] theorem State.raise_pollSched (s : State) (f : Fault) : (s.raise f).pollSched = s.pollSched := by cases f <;> rfl
@[simp] theorem State.raise_pollRunning (s : State) (f : Fault) : (s.raise f).pollRunning = s.pollRunning := by cases f <;> rfl
@[simp] theorem State.raise_txStopped (s : State) (f : Fault) : (s.raise f).txStopped = s.txStopped := by cases f <;> rfl
@[simp] theorem State.raise_txLock (s : State) (f : Fault) : (s.raise f).txLock = s.txLock := by cases f <;> rfl
@[simp] theorem State.raise_rxErr (s : State) (f : Fault) : (s.raise f).rxErr = s.rxErr := by cases f <;> rfl
@[simp] theorem State.raise_txErr (s : State) (f : Fault) : (s.raise f).txErr = s.txErr := by cases f <;> rfl
@[simp] theorem State.raise_lanes (s : State) (f : Fault) : (s.raise f).lanes = s.lanes := by cases f <;> rfl
@[simp] theorem State.raise_hist (s : State) (f : Fault) : (s.raise f).hist = s.hist := by cases f <;> rfl
@[simp] theorem State.raise_desc (s : State) (f : Fault) : (s.raise f).desc = s.desc := by cases f <;> rfl
@[simp] theorem State.raise_buf (s : State) (f : Fault) : (s.raise f).buf = s.buf := by cases f <;> rfl
@[simp] theorem State.raise_isr (s : State) (f : Fault) : (s.raise f).isr = s.isr := by cases f <;> rfl
@[simp] theorem State.raise_txctl (s : State) (f : Fault) : (s.raise f).txctl = s.txctl := by cases f <;> rfl
@[simp] theorem State.raise_rst (s : State) (f : Fault) : (s.raise f).rst = s.rst := by cases f <;> rfl
@[simp] theorem State.raise_lineEn (s : State) (f : Fault) : (s.raise f).lineEn = s.lineEn := by cases f <;> rfl
@[simp] theorem State.raise_dev (s : State) (f : Fault) : (s.raise f).dev = s.dev := by cases f <;> rfl
@[simp] theorem State.raise_script (s : State) (f : Fault) : (s.raise f).script = s.script := by cases f <;> rfl
@[simp] theorem State.raise_draws (s : State) (f : Fault) : (s.raise f).draws = s.draws := by cases f <;> rfl
@[simp] theorem State.raise_tick (s : State) (f : Fault) : (s.raise f).tick = s.tick := by cases f <;> rfl
@[simp] theorem State.raise_cur (s : State) (f : Fault) : (s.raise f).cur = s.cur := by cases f <;> rfl
@[simp] theorem State.raise_slice (s : State) (f : Fault) : (s.raise f).slice = s.slice := by cases f <;> rfl
@[simp] theorem State.raise_ring (s : State) (f : Fault) (r : Ring) : (s.raise f).ring r = s.ring r := by cases r <;> simp [State.ring]
@[simp] theorem State.raise_full (s : State) (f : Fault) (r : Ring) : (s.raise f).full r = s.full r := by simp [State.full]
@[simp] theorem State.raise_empty (s : State) (f : Fault) (r : Ring) : (s.raise f).empty r = s.empty r := by simp [State.empty]
@[simp] theorem State.raise_count (s : State) (f : Fault) (r : Ring) : (s.raise f).count r = s.count r := by simp [State.count]
@[simp] theorem State.raise_freeSlots (s : State) (f : Fault) (r : Ring) : (s.raise f).freeSlots r = s.freeSlots r := by simp [State.freeSlots]
@[simp] theorem State.raise_inWindow (s : State) (f : Fault) (r : Ring) (j : Nat) : (s.raise f).inWindow r j = s.inWindow r j := by simp [State.inWindow]
@[simp] theorem State.raise_pending (s : State) (f : Fault) (r : Ring) (j : Nat) : (s.raise f).pending r j = s.pending r j := by simp [State.pending]
@[simp] theorem State.raise_buffer (s : State) (f : Fault) (j : Nat) : (s.raise f).buffer j = s.buffer j := by simp [State.buffer]
@[simp] theorem State.raise_handleOk (s : State) (f : Fault) (j : Nat) : (s.raise f).handleOk j = s.handleOk j := by simp [State.handleOk]
@[simp] theorem State.raise_sizeOk (s : State) (f : Fault) (z : Nat) : (s.raise f).sizeOk z = s.sizeOk z := by simp [State.sizeOk]
@[simp] theorem State.raise_tooLong (s : State) (f : Fault) (z : Word) : (s.raise f).tooLong z = s.tooLong z := by simp [State.tooLong]
@[simp] theorem State.raise_lowestFree (s : State) (f : Fault) : (s.raise f).lowestFree = s.lowestFree := by simp [State.lowestFree]
@[simp] theorem State.raise_descByte (s : State) (f : Fault) (j : Nat) : (s.raise f).descByte j = s.descByte j := by simp [State.descByte]
@[simp] theorem State.raise_descRead32 (s : State) (f : Fault) (j : Nat) : (s.raise f).descRead32 j = s.descRead32 j := by simp [State.descRead32]
@[simp] theorem State.raise_descRead64 (s : State) (f : Fault) (j : Nat) : (s.raise f).descRead64 j = s.descRead64 j := by simp [State.descRead64]
@[simp] theorem State.raise_bufByte (s : State) (f : Fault) (j z : Nat) : (s.raise f).bufByte j z = s.bufByte j z := by simp [State.bufByte]
@[simp] theorem State.raise_bufBytes (s : State) (f : Fault) (j z : Nat) : (s.raise f).bufBytes j z = s.bufBytes j z := by simp [State.bufBytes]
@[simp] theorem State.raise_lane (s : State) (f : Fault) (d : Ctx) : (s.raise f).lane? d = s.lane? d := by cases d <;> simp [State.lane?]
@[simp] theorem State.raise_idle (s : State) (f : Fault) (d : Ctx) : (s.raise f).idle d = s.idle d := by simp [State.idle]
@[simp] theorem State.raise_running (s : State) (f : Fault) (d : Ctx) : (s.raise f).running d = s.running d := by simp [State.running]

/-! ### setLane -/

@[simp] theorem State.setLane_cfg (s : State) (c : Ctx) (l : Lane) : (s.setLane c l).cfg = s.cfg := by cases c <;> rfl
@[simp] theorem State.setLane_life (s : State) (c : Ctx) (l : Lane) : (s.setLane c l).life = s.life := by cases c <;> rfl
@[simp] theorem State.setLane_rx (s : State) (c : Ctx) (l : Lane) : (s.setLane c l).rx = s.rx := by cases c <;> rfl
@[simp] theorem State.setLane_tx (s : State) (c : Ctx) (l : Lane) : (s.setLane c l).tx = s.tx := by cases c <;> rfl
@[simp] theorem State.setLane_pool (s : State) (c : Ctx) (l : Lane) : (s.setLane c l).pool = s.pool := by cases c <;> rfl
@[simp] theorem State.setLane_isrLatch (s : State) (c : Ctx) (l : Lane) : (s.setLane c l).isrLatch = s.isrLatch := by cases c <;> rfl
@[simp] theorem State.setLane_pollSched (s : State) (c : Ctx) (l : Lane) : (s.setLane c l).pollSched = s.pollSched := by cases c <;> rfl
@[simp] theorem State.setLane_pollRunning (s : State) (c : Ctx) (l : Lane) : (s.setLane c l).pollRunning = s.pollRunning := by cases c <;> rfl
@[simp] theorem State.setLane_txStopped (s : State) (c : Ctx) (l : Lane) : (s.setLane c l).txStopped = s.txStopped := by cases c <;> rfl
@[simp] theorem State.setLane_txLock (s : State) (c : Ctx) (l : Lane) : (s.setLane c l).txLock = s.txLock := by cases c <;> rfl
@[simp] theorem State.setLane_rxErr (s : State) (c : Ctx) (l : Lane) : (s.setLane c l).rxErr = s.rxErr := by cases c <;> rfl
@[simp] theorem State.setLane_txErr (s : State) (c : Ctx) (l : Lane) : (s.setLane c l).txErr = s.txErr := by cases c <;> rfl
@[simp] theorem State.setLane_fault (s : State) (c : Ctx) (l : Lane) : (s.setLane c l).fault = s.fault := by cases c <;> rfl
@[simp] theorem State.setLane_hist (s : State) (c : Ctx) (l : Lane) : (s.setLane c l).hist = s.hist := by cases c <;> rfl
@[simp] theorem State.setLane_desc (s : State) (c : Ctx) (l : Lane) : (s.setLane c l).desc = s.desc := by cases c <;> rfl
@[simp] theorem State.setLane_buf (s : State) (c : Ctx) (l : Lane) : (s.setLane c l).buf = s.buf := by cases c <;> rfl
@[simp] theorem State.setLane_isr (s : State) (c : Ctx) (l : Lane) : (s.setLane c l).isr = s.isr := by cases c <;> rfl
@[simp] theorem State.setLane_txctl (s : State) (c : Ctx) (l : Lane) : (s.setLane c l).txctl = s.txctl := by cases c <;> rfl
@[simp] theorem State.setLane_rst (s : State) (c : Ctx) (l : Lane) : (s.setLane c l).rst = s.rst := by cases c <;> rfl
@[simp] theorem State.setLane_lineEn (s : State) (c : Ctx) (l : Lane) : (s.setLane c l).lineEn = s.lineEn := by cases c <;> rfl
@[simp] theorem State.setLane_dev (s : State) (c : Ctx) (l : Lane) : (s.setLane c l).dev = s.dev := by cases c <;> rfl
@[simp] theorem State.setLane_script (s : State) (c : Ctx) (l : Lane) : (s.setLane c l).script = s.script := by cases c <;> rfl
@[simp] theorem State.setLane_draws (s : State) (c : Ctx) (l : Lane) : (s.setLane c l).draws = s.draws := by cases c <;> rfl
@[simp] theorem State.setLane_tick (s : State) (c : Ctx) (l : Lane) : (s.setLane c l).tick = s.tick := by cases c <;> rfl
@[simp] theorem State.setLane_cur (s : State) (c : Ctx) (l : Lane) : (s.setLane c l).cur = s.cur := by cases c <;> rfl
@[simp] theorem State.setLane_slice (s : State) (c : Ctx) (l : Lane) : (s.setLane c l).slice = s.slice := by cases c <;> rfl
@[simp] theorem State.setLane_ring (s : State) (c : Ctx) (l : Lane) (r : Ring) : (s.setLane c l).ring r = s.ring r := by cases r <;> simp [State.ring]
@[simp] theorem State.setLane_full (s : State) (c : Ctx) (l : Lane) (r : Ring) : (s.setLane c l).full r = s.full r := by simp [State.full]
@[simp] theorem State.setLane_empty (s : State) (c : Ctx) (l : Lane) (r : Ring) : (s.setLane c l).empty r = s.empty r := by simp [State.empty]
@[simp] theorem State.setLane_count (s : State) (c : Ctx) (l : Lane) (r : Ring) : (s.setLane c l).count r = s.count r := by simp [State.count]
@[simp] theorem State.setLane_freeSlots (s : State) (c : Ctx) (l : Lane) (r : Ring) : (s.setLane c l).freeSlots r = s.freeSlots r := by simp [State.freeSlots]
@[simp] theorem State.setLane_inWindow (s : State) (c : Ctx) (l : Lane) (r : Ring) (j : Nat) : (s.setLane c l).inWindow r j = s.inWindow r j := by simp [State.inWindow]
@[simp] theorem State.setLane_pending (s : State) (c : Ctx) (l : Lane) (r : Ring) (j : Nat) : (s.setLane c l).pending r j = s.pending r j := by simp [State.pending]
@[simp] theorem State.setLane_buffer (s : State) (c : Ctx) (l : Lane) (j : Nat) : (s.setLane c l).buffer j = s.buffer j := by simp [State.buffer]
@[simp] theorem State.setLane_handleOk (s : State) (c : Ctx) (l : Lane) (j : Nat) : (s.setLane c l).handleOk j = s.handleOk j := by simp [State.handleOk]
@[simp] theorem State.setLane_sizeOk (s : State) (c : Ctx) (l : Lane) (z : Nat) : (s.setLane c l).sizeOk z = s.sizeOk z := by simp [State.sizeOk]
@[simp] theorem State.setLane_tooLong (s : State) (c : Ctx) (l : Lane) (z : Word) : (s.setLane c l).tooLong z = s.tooLong z := by simp [State.tooLong]
@[simp] theorem State.setLane_lowestFree (s : State) (c : Ctx) (l : Lane) : (s.setLane c l).lowestFree = s.lowestFree := by simp [State.lowestFree]
@[simp] theorem State.setLane_descByte (s : State) (c : Ctx) (l : Lane) (j : Nat) : (s.setLane c l).descByte j = s.descByte j := by simp [State.descByte]
@[simp] theorem State.setLane_descRead32 (s : State) (c : Ctx) (l : Lane) (j : Nat) : (s.setLane c l).descRead32 j = s.descRead32 j := by simp [State.descRead32]
@[simp] theorem State.setLane_descRead64 (s : State) (c : Ctx) (l : Lane) (j : Nat) : (s.setLane c l).descRead64 j = s.descRead64 j := by simp [State.descRead64]
@[simp] theorem State.setLane_bufByte (s : State) (c : Ctx) (l : Lane) (j z : Nat) : (s.setLane c l).bufByte j z = s.bufByte j z := by simp [State.bufByte]
@[simp] theorem State.setLane_bufBytes (s : State) (c : Ctx) (l : Lane) (j z : Nat) : (s.setLane c l).bufBytes j z = s.bufBytes j z := by simp [State.bufBytes]

/-! ### setCont -/

@[simp] theorem State.setCont_cfg (s : State) (c : Ctx) (k : Cont) : (s.setCont c k).cfg = s.cfg := by unfold State.setCont; split <;> simp
@[simp] theorem State.setCont_life (s : State) (c : Ctx) (k : Cont) : (s.setCont c k).life = s.life := by unfold State.setCont; split <;> simp
@[simp] theorem State.setCont_rx (s : State) (c : Ctx) (k : Cont) : (s.setCont c k).rx = s.rx := by unfold State.setCont; split <;> simp
@[simp] theorem State.setCont_tx (s : State) (c : Ctx) (k : Cont) : (s.setCont c k).tx = s.tx := by unfold State.setCont; split <;> simp
@[simp] theorem State.setCont_pool (s : State) (c : Ctx) (k : Cont) : (s.setCont c k).pool = s.pool := by unfold State.setCont; split <;> simp
@[simp] theorem State.setCont_isrLatch (s : State) (c : Ctx) (k : Cont) : (s.setCont c k).isrLatch = s.isrLatch := by unfold State.setCont; split <;> simp
@[simp] theorem State.setCont_pollSched (s : State) (c : Ctx) (k : Cont) : (s.setCont c k).pollSched = s.pollSched := by unfold State.setCont; split <;> simp
@[simp] theorem State.setCont_pollRunning (s : State) (c : Ctx) (k : Cont) : (s.setCont c k).pollRunning = s.pollRunning := by unfold State.setCont; split <;> simp
@[simp] theorem State.setCont_txStopped (s : State) (c : Ctx) (k : Cont) : (s.setCont c k).txStopped = s.txStopped := by unfold State.setCont; split <;> simp
@[simp] theorem State.setCont_txLock (s : State) (c : Ctx) (k : Cont) : (s.setCont c k).txLock = s.txLock := by unfold State.setCont; split <;> simp
@[simp] theorem State.setCont_rxErr (s : State) (c : Ctx) (k : Cont) : (s.setCont c k).rxErr = s.rxErr := by unfold State.setCont; split <;> simp
@[simp] theorem State.setCont_txErr (s : State) (c : Ctx) (k : Cont) : (s.setCont c k).txErr = s.txErr := by unfold State.setCont; split <;> simp
@[simp] theorem State.setCont_fault (s : State) (c : Ctx) (k : Cont) : (s.setCont c k).fault = s.fault := by unfold State.setCont; split <;> simp
@[simp] theorem State.setCont_hist (s : State) (c : Ctx) (k : Cont) : (s.setCont c k).hist = s.hist := by unfold State.setCont; split <;> simp
@[simp] theorem State.setCont_desc (s : State) (c : Ctx) (k : Cont) : (s.setCont c k).desc = s.desc := by unfold State.setCont; split <;> simp
@[simp] theorem State.setCont_buf (s : State) (c : Ctx) (k : Cont) : (s.setCont c k).buf = s.buf := by unfold State.setCont; split <;> simp
@[simp] theorem State.setCont_isr (s : State) (c : Ctx) (k : Cont) : (s.setCont c k).isr = s.isr := by unfold State.setCont; split <;> simp
@[simp] theorem State.setCont_txctl (s : State) (c : Ctx) (k : Cont) : (s.setCont c k).txctl = s.txctl := by unfold State.setCont; split <;> simp
@[simp] theorem State.setCont_rst (s : State) (c : Ctx) (k : Cont) : (s.setCont c k).rst = s.rst := by unfold State.setCont; split <;> simp
@[simp] theorem State.setCont_lineEn (s : State) (c : Ctx) (k : Cont) : (s.setCont c k).lineEn = s.lineEn := by unfold State.setCont; split <;> simp
@[simp] theorem State.setCont_dev (s : State) (c : Ctx) (k : Cont) : (s.setCont c k).dev = s.dev := by unfold State.setCont; split <;> simp
@[simp] theorem State.setCont_script (s : State) (c : Ctx) (k : Cont) : (s.setCont c k).script = s.script := by unfold State.setCont; split <;> simp
@[simp] theorem State.setCont_draws (s : State) (c : Ctx) (k : Cont) : (s.setCont c k).draws = s.draws := by unfold State.setCont; split <;> simp
@[simp] theorem State.setCont_tick (s : State) (c : Ctx) (k : Cont) : (s.setCont c k).tick = s.tick := by unfold State.setCont; split <;> simp
@[simp] theorem State.setCont_cur (s : State) (c : Ctx) (k : Cont) : (s.setCont c k).cur = s.cur := by unfold State.setCont; split <;> simp
@[simp] theorem State.setCont_slice (s : State) (c : Ctx) (k : Cont) : (s.setCont c k).slice = s.slice := by unfold State.setCont; split <;> simp
@[simp] theorem State.setCont_ring (s : State) (c : Ctx) (k : Cont) (r : Ring) : (s.setCont c k).ring r = s.ring r := by cases r <;> simp [State.ring]
@[simp] theorem State.setCont_full (s : State) (c : Ctx) (k : Cont) (r : Ring) : (s.setCont c k).full r = s.full r := by simp [State.full]
@[simp] theorem State.setCont_empty (s : State) (c : Ctx) (k : Cont) (r : Ring) : (s.setCont c k).empty r = s.empty r := by simp [State.empty]
@[simp] theorem State.setCont_count (s : State) (c : Ctx) (k : Cont) (r : Ring) : (s.setCont c k).count r = s.count r := by simp [State.count]
@[simp] theorem State.setCont_freeSlots (s : State) (c : Ctx) (k : Cont) (r : Ring) : (s.setCont c k).freeSlots r = s.freeSlots r := by simp [State.freeSlots]
@[simp] theorem State.setCont_inWindow (s : State) (c : Ctx) (k : Cont) (r : Ring) (j : Nat) : (s.setCont c k).inWindow r j = s.inWindow r j := by simp [State.inWindow]
@[simp] theorem State.setCont_pending (s : State) (c : Ctx) (k : Cont) (r : Ring) (j : Nat) : (s.setCont c k).pending r j = s.pending r j := by simp [State.pending]
@[simp] theorem State.setCont_buffer (s : State) (c : Ctx) (k : Cont) (j : Nat) : (s.setCont c k).buffer j = s.buffer j := by simp [State.buffer]
@[simp] theorem State.setCont_handleOk (s : State) (c : Ctx) (k : Cont) (j : Nat) : (s.setCont c k).handleOk j = s.handleOk j := by simp [State.handleOk]
@[simp] theorem State.setCont_sizeOk (s : State) (c : Ctx) (k : Cont) (z : Nat) : (s.setCont c k).sizeOk z = s.sizeOk z := by simp [State.sizeOk]
@[simp] theorem State.setCont_tooLong (s : State) (c : Ctx) (k : Cont) (z : Word) : (s.setCont c k).tooLong z = s.tooLong z := by simp [State.tooLong]
@[simp] theorem State.setCont_lowestFree (s : State) (c : Ctx) (k : Cont) : (s.setCont c k).lowestFree = s.lowestFree := by simp [State.lowestFree]
@[simp] theorem State.setCont_descByte (s : State) (c : Ctx) (k : Cont) (j : Nat) : (s.setCont c k).descByte j = s.descByte j := by simp [State.descByte]
@[simp] theorem State.setCont_descRead32 (s : State) (c : Ctx) (k : Cont) (j : Nat) : (s.setCont c k).descRead32 j = s.descRead32 j := by simp [State.descRead32]
@[simp] theorem State.setCont_descRead64 (s : State) (c : Ctx) (k : Cont) (j : Nat) : (s.setCont c k).descRead64 j = s.descRead64 j := by simp [State.descRead64]
@[simp] theorem State.setCont_bufByte (s : State) (c : Ctx) (k : Cont) (j z : Nat) : (s.setCont c k).bufByte j z = s.bufByte j z := by simp [State.bufByte]
@[simp] theorem State.setCont_bufBytes (s : State) (c : Ctx) (k : Cont) (j z : Nat) : (s.setCont c k).bufBytes j z = s.bufBytes j z := by simp [State.bufBytes]

/-! ### setQueue -/

@[simp] theorem State.setQueue_cfg (s : State) (c : Ctx) (q : List Word) : (s.setQueue c q).cfg = s.cfg := by unfold State.setQueue; split <;> simp
@[simp] theorem State.setQueue_life (s : State) (c : Ctx) (q : List Word) : (s.setQueue c q).life = s.life := by unfold State.setQueue; split <;> simp
@[simp] theorem State.setQueue_rx (s : State) (c : Ctx) (q : List Word) : (s.setQueue c q).rx = s.rx := by unfold State.setQueue; split <;> simp
@[simp] theorem State.setQueue_tx (s : State) (c : Ctx) (q : List Word) : (s.setQueue c q).tx = s.tx := by unfold State.setQueue; split <;> simp
@[simp] theorem State.setQueue_pool (s : State) (c : Ctx) (q : List Word) : (s.setQueue c q).pool = s.pool := by unfold State.setQueue; split <;> simp
@[simp] theorem State.setQueue_isrLatch (s : State) (c : Ctx) (q : List Word) : (s.setQueue c q).isrLatch = s.isrLatch := by unfold State.setQueue; split <;> simp
@[simp] theorem State.setQueue_pollSched (s : State) (c : Ctx) (q : List Word) : (s.setQueue c q).pollSched = s.pollSched := by unfold State.setQueue; split <;> simp
@[simp] theorem State.setQueue_pollRunning (s : State) (c : Ctx) (q : List Word) : (s.setQueue c q).pollRunning = s.pollRunning := by unfold State.setQueue; split <;> simp
@[simp] theorem State.setQueue_txStopped (s : State) (c : Ctx) (q : List Word) : (s.setQueue c q).txStopped = s.txStopped := by unfold State.setQueue; split <;> simp
@[simp] theorem State.setQueue_txLock (s : State) (c : Ctx) (q : List Word) : (s.setQueue c q).txLock = s.txLock := by unfold State.setQueue; split <;> simp
@[simp] theorem State.setQueue_rxErr (s : State) (c : Ctx) (q : List Word) : (s.setQueue c q).rxErr = s.rxErr := by unfold State.setQueue; split <;> simp
@[simp] theorem State.setQueue_txErr (s : State) (c : Ctx) (q : List Word) : (s.setQueue c q).txErr = s.txErr := by unfold State.setQueue; split <;> simp
@[simp] theorem State.setQueue_fault (s : State) (c : Ctx) (q : List Word) : (s.setQueue c q).fault = s.fault := by unfold State.setQueue; split <;> simp
@[simp] theorem State.setQueue_hist (s : State) (c : Ctx) (q : List Word) : (s.setQueue c q).hist = s.hist := by unfold State.setQueue; split <;> simp
@[simp] theorem State.setQueue_desc (s : State) (c : Ctx) (q : List Word) : (s.setQueue c q).desc = s.desc := by unfold State.setQueue; split <;> simp
@[simp] theorem State.setQueue_buf (s : State) (c : Ctx) (q : List Word) : (s.setQueue c q).buf = s.buf := by unfold State.setQueue; split <;> simp
@[simp] theorem State.setQueue_isr (s : State) (c : Ctx) (q : List Word) : (s.setQueue c q).isr = s.isr := by unfold State.setQueue; split <;> simp
@[simp] theorem State.setQueue_txctl (s : State) (c : Ctx) (q : List Word) : (s.setQueue c q).txctl = s.txctl := by unfold State.setQueue; split <;> simp
@[simp] theorem State.setQueue_rst (s : State) (c : Ctx) (q : List Word) : (s.setQueue c q).rst = s.rst := by unfold State.setQueue; split <;> simp
@[simp] theorem State.setQueue_lineEn (s : State) (c : Ctx) (q : List Word) : (s.setQueue c q).lineEn = s.lineEn := by unfold State.setQueue; split <;> simp
@[simp] theorem State.setQueue_dev (s : State) (c : Ctx) (q : List Word) : (s.setQueue c q).dev = s.dev := by unfold State.setQueue; split <;> simp
@[simp] theorem State.setQueue_script (s : State) (c : Ctx) (q : List Word) : (s.setQueue c q).script = s.script := by unfold State.setQueue; split <;> simp
@[simp] theorem State.setQueue_draws (s : State) (c : Ctx) (q : List Word) : (s.setQueue c q).draws = s.draws := by unfold State.setQueue; split <;> simp
@[simp] theorem State.setQueue_tick (s : State) (c : Ctx) (q : List Word) : (s.setQueue c q).tick = s.tick := by unfold State.setQueue; split <;> simp
@[simp] theorem State.setQueue_cur (s : State) (c : Ctx) (q : List Word) : (s.setQueue c q).cur = s.cur := by unfold State.setQueue; split <;> simp
@[simp] theorem State.setQueue_slice (s : State) (c : Ctx) (q : List Word) : (s.setQueue c q).slice = s.slice := by unfold State.setQueue; split <;> simp
@[simp] theorem State.setQueue_ring (s : State) (c : Ctx) (q : List Word) (r : Ring) : (s.setQueue c q).ring r = s.ring r := by cases r <;> simp [State.ring]
@[simp] theorem State.setQueue_full (s : State) (c : Ctx) (q : List Word) (r : Ring) : (s.setQueue c q).full r = s.full r := by simp [State.full]
@[simp] theorem State.setQueue_empty (s : State) (c : Ctx) (q : List Word) (r : Ring) : (s.setQueue c q).empty r = s.empty r := by simp [State.empty]
@[simp] theorem State.setQueue_count (s : State) (c : Ctx) (q : List Word) (r : Ring) : (s.setQueue c q).count r = s.count r := by simp [State.count]
@[simp] theorem State.setQueue_freeSlots (s : State) (c : Ctx) (q : List Word) (r : Ring) : (s.setQueue c q).freeSlots r = s.freeSlots r := by simp [State.freeSlots]
@[simp] theorem State.setQueue_inWindow (s : State) (c : Ctx) (q : List Word) (r : Ring) (j : Nat) : (s.setQueue c q).inWindow r j = s.inWindow r j := by simp [State.inWindow]
@[simp] theorem State.setQueue_pending (s : State) (c : Ctx) (q : List Word) (r : Ring) (j : Nat) : (s.setQueue c q).pending r j = s.pending r j := by simp [State.pending]
@[simp] theorem State.setQueue_buffer (s : State) (c : Ctx) (q : List Word) (j : Nat) : (s.setQueue c q).buffer j = s.buffer j := by simp [State.buffer]
@[simp] theorem State.setQueue_handleOk (s : State) (c : Ctx) (q : List Word) (j : Nat) : (s.setQueue c q).handleOk j = s.handleOk j := by simp [State.handleOk]
@[simp] theorem State.setQueue_sizeOk (s : State) (c : Ctx) (q : List Word) (z : Nat) : (s.setQueue c q).sizeOk z = s.sizeOk z := by simp [State.sizeOk]
@[simp] theorem State.setQueue_tooLong (s : State) (c : Ctx) (q : List Word) (z : Word) : (s.setQueue c q).tooLong z = s.tooLong z := by simp [State.tooLong]
@[simp] theorem State.setQueue_lowestFree (s : State) (c : Ctx) (q : List Word) : (s.setQueue c q).lowestFree = s.lowestFree := by simp [State.lowestFree]
@[simp] theorem State.setQueue_descByte (s : State) (c : Ctx) (q : List Word) (j : Nat) : (s.setQueue c q).descByte j = s.descByte j := by simp [State.descByte]
@[simp] theorem State.setQueue_descRead32 (s : State) (c : Ctx) (q : List Word) (j : Nat) : (s.setQueue c q).descRead32 j = s.descRead32 j := by simp [State.descRead32]
@[simp] theorem State.setQueue_descRead64 (s : State) (c : Ctx) (q : List Word) (j : Nat) : (s.setQueue c q).descRead64 j = s.descRead64 j := by simp [State.descRead64]
@[simp] theorem State.setQueue_bufByte (s : State) (c : Ctx) (q : List Word) (j z : Nat) : (s.setQueue c q).bufByte j z = s.bufByte j z := by simp [State.bufByte]
@[simp] theorem State.setQueue_bufBytes (s : State) (c : Ctx) (q : List Word) (j z : Nat) : (s.setQueue c q).bufBytes j z = s.bufBytes j z := by simp [State.bufBytes]

/-! ### offer -/

@[simp] theorem State.offer_cfg (s : State) (c : Ctx) (w : Word) : (s.offer c w).cfg = s.cfg := by unfold State.offer; split <;> simp
@[simp] theorem State.offer_life (s : State) (c : Ctx) (w : Word) : (s.offer c w).life = s.life := by unfold State.offer; split <;> simp
@[simp] theorem State.offer_rx (s : State) (c : Ctx) (w : Word) : (s.offer c w).rx = s.rx := by unfold State.offer; split <;> simp
@[simp] theorem State.offer_tx (s : State) (c : Ctx) (w : Word) : (s.offer c w).tx = s.tx := by unfold State.offer; split <;> simp
@[simp] theorem State.offer_pool (s : State) (c : Ctx) (w : Word) : (s.offer c w).pool = s.pool := by unfold State.offer; split <;> simp
@[simp] theorem State.offer_isrLatch (s : State) (c : Ctx) (w : Word) : (s.offer c w).isrLatch = s.isrLatch := by unfold State.offer; split <;> simp
@[simp] theorem State.offer_pollSched (s : State) (c : Ctx) (w : Word) : (s.offer c w).pollSched = s.pollSched := by unfold State.offer; split <;> simp
@[simp] theorem State.offer_pollRunning (s : State) (c : Ctx) (w : Word) : (s.offer c w).pollRunning = s.pollRunning := by unfold State.offer; split <;> simp
@[simp] theorem State.offer_txStopped (s : State) (c : Ctx) (w : Word) : (s.offer c w).txStopped = s.txStopped := by unfold State.offer; split <;> simp
@[simp] theorem State.offer_txLock (s : State) (c : Ctx) (w : Word) : (s.offer c w).txLock = s.txLock := by unfold State.offer; split <;> simp
@[simp] theorem State.offer_rxErr (s : State) (c : Ctx) (w : Word) : (s.offer c w).rxErr = s.rxErr := by unfold State.offer; split <;> simp
@[simp] theorem State.offer_txErr (s : State) (c : Ctx) (w : Word) : (s.offer c w).txErr = s.txErr := by unfold State.offer; split <;> simp
@[simp] theorem State.offer_fault (s : State) (c : Ctx) (w : Word) : (s.offer c w).fault = s.fault := by unfold State.offer; split <;> simp
@[simp] theorem State.offer_hist (s : State) (c : Ctx) (w : Word) : (s.offer c w).hist = s.hist := by unfold State.offer; split <;> simp
@[simp] theorem State.offer_desc (s : State) (c : Ctx) (w : Word) : (s.offer c w).desc = s.desc := by unfold State.offer; split <;> simp
@[simp] theorem State.offer_buf (s : State) (c : Ctx) (w : Word) : (s.offer c w).buf = s.buf := by unfold State.offer; split <;> simp
@[simp] theorem State.offer_isr (s : State) (c : Ctx) (w : Word) : (s.offer c w).isr = s.isr := by unfold State.offer; split <;> simp
@[simp] theorem State.offer_txctl (s : State) (c : Ctx) (w : Word) : (s.offer c w).txctl = s.txctl := by unfold State.offer; split <;> simp
@[simp] theorem State.offer_rst (s : State) (c : Ctx) (w : Word) : (s.offer c w).rst = s.rst := by unfold State.offer; split <;> simp
@[simp] theorem State.offer_lineEn (s : State) (c : Ctx) (w : Word) : (s.offer c w).lineEn = s.lineEn := by unfold State.offer; split <;> simp
@[simp] theorem State.offer_dev (s : State) (c : Ctx) (w : Word) : (s.offer c w).dev = s.dev := by unfold State.offer; split <;> simp
@[simp] theorem State.offer_script (s : State) (c : Ctx) (w : Word) : (s.offer c w).script = s.script := by unfold State.offer; split <;> simp
@[simp] theorem State.offer_draws (s : State) (c : Ctx) (w : Word) : (s.offer c w).draws = s.draws := by unfold State.offer; split <;> simp
@[simp] theorem State.offer_tick (s : State) (c : Ctx) (w : Word) : (s.offer c w).tick = s.tick := by unfold State.offer; split <;> simp
@[simp] theorem State.offer_cur (s : State) (c : Ctx) (w : Word) : (s.offer c w).cur = s.cur := by unfold State.offer; split <;> simp
@[simp] theorem State.offer_slice (s : State) (c : Ctx) (w : Word) : (s.offer c w).slice = s.slice := by unfold State.offer; split <;> simp
@[simp] theorem State.offer_ring (s : State) (c : Ctx) (w : Word) (r : Ring) : (s.offer c w).ring r = s.ring r := by cases r <;> simp [State.ring]
@[simp] theorem State.offer_full (s : State) (c : Ctx) (w : Word) (r : Ring) : (s.offer c w).full r = s.full r := by simp [State.full]
@[simp] theorem State.offer_empty (s : State) (c : Ctx) (w : Word) (r : Ring) : (s.offer c w).empty r = s.empty r := by simp [State.empty]
@[simp] theorem State.offer_count (s : State) (c : Ctx) (w : Word) (r : Ring) : (s.offer c w).count r = s.count r := by simp [State.count]
@[simp] theorem State.offer_freeSlots (s : State) (c : Ctx) (w : Word) (r : Ring) : (s.offer c w).freeSlots r = s.freeSlots r := by simp [State.freeSlots]
@[simp] theorem State.offer_inWindow (s : State) (c : Ctx) (w : Word) (r : Ring) (j : Nat) : (s.offer c w).inWindow r j = s.inWindow r j := by simp [State.inWindow]
@[simp] theorem State.offer_pending (s : State) (c : Ctx) (w : Word) (r : Ring) (j : Nat) : (s.offer c w).pending r j = s.pending r j := by simp [State.pending]
@[simp] theorem State.offer_buffer (s : State) (c : Ctx) (w : Word) (j : Nat) : (s.offer c w).buffer j = s.buffer j := by simp [State.buffer]
@[simp] theorem State.offer_handleOk (s : State) (c : Ctx) (w : Word) (j : Nat) : (s.offer c w).handleOk j = s.handleOk j := by simp [State.handleOk]
@[simp] theorem State.offer_sizeOk (s : State) (c : Ctx) (w : Word) (z : Nat) : (s.offer c w).sizeOk z = s.sizeOk z := by simp [State.sizeOk]
@[simp] theorem State.offer_tooLong (s : State) (c : Ctx) (w : Word) (z : Word) : (s.offer c w).tooLong z = s.tooLong z := by simp [State.tooLong]
@[simp] theorem State.offer_lowestFree (s : State) (c : Ctx) (w : Word) : (s.offer c w).lowestFree = s.lowestFree := by simp [State.lowestFree]
@[simp] theorem State.offer_descByte (s : State) (c : Ctx) (w : Word) (j : Nat) : (s.offer c w).descByte j = s.descByte j := by simp [State.descByte]
@[simp] theorem State.offer_descRead32 (s : State) (c : Ctx) (w : Word) (j : Nat) : (s.offer c w).descRead32 j = s.descRead32 j := by simp [State.descRead32]
@[simp] theorem State.offer_descRead64 (s : State) (c : Ctx) (w : Word) (j : Nat) : (s.offer c w).descRead64 j = s.descRead64 j := by simp [State.descRead64]
@[simp] theorem State.offer_bufByte (s : State) (c : Ctx) (w : Word) (j z : Nat) : (s.offer c w).bufByte j z = s.bufByte j z := by simp [State.bufByte]
@[simp] theorem State.offer_bufBytes (s : State) (c : Ctx) (w : Word) (j z : Nat) : (s.offer c w).bufBytes j z = s.bufBytes j z := by simp [State.bufBytes]

/-! ### lock -/

@[simp] theorem State.lock_cfg (s : State) (c : Ctx) : (s.lock c).cfg = s.cfg := (rfl)
@[simp] theorem State.lock_life (s : State) (c : Ctx) : (s.lock c).life = s.life := (rfl)
@[simp] theorem State.lock_rx (s : State) (c : Ctx) : (s.lock c).rx = s.rx := (rfl)
@[simp] theorem State.lock_tx (s : State) (c : Ctx) : (s.lock c).tx = s.tx := (rfl)
@[simp] theorem State.lock_pool (s : State) (c : Ctx) : (s.lock c).pool = s.pool := (rfl)
@[simp] theorem State.lock_isrLatch (s : State) (c : Ctx) : (s.lock c).isrLatch = s.isrLatch := (rfl)
@[simp] theorem State.lock_pollSched (s : State) (c : Ctx) : (s.lock c).pollSched = s.pollSched := (rfl)
@[simp] theorem State.lock_pollRunning (s : State) (c : Ctx) : (s.lock c).pollRunning = s.pollRunning := (rfl)
@[simp] theorem State.lock_txStopped (s : State) (c : Ctx) : (s.lock c).txStopped = s.txStopped := (rfl)
@[simp] theorem State.lock_rxErr (s : State) (c : Ctx) : (s.lock c).rxErr = s.rxErr := (rfl)
@[simp] theorem State.lock_txErr (s : State) (c : Ctx) : (s.lock c).txErr = s.txErr := (rfl)
@[simp] theorem State.lock_lanes (s : State) (c : Ctx) : (s.lock c).lanes = s.lanes := (rfl)
@[simp] theorem State.lock_fault (s : State) (c : Ctx) : (s.lock c).fault = s.fault := (rfl)
@[simp] theorem State.lock_hist (s : State) (c : Ctx) : (s.lock c).hist = s.hist := (rfl)
@[simp] theorem State.lock_desc (s : State) (c : Ctx) : (s.lock c).desc = s.desc := (rfl)
@[simp] theorem State.lock_buf (s : State) (c : Ctx) : (s.lock c).buf = s.buf := (rfl)
@[simp] theorem State.lock_isr (s : State) (c : Ctx) : (s.lock c).isr = s.isr := (rfl)
@[simp] theorem State.lock_txctl (s : State) (c : Ctx) : (s.lock c).txctl = s.txctl := (rfl)
@[simp] theorem State.lock_rst (s : State) (c : Ctx) : (s.lock c).rst = s.rst := (rfl)
@[simp] theorem State.lock_lineEn (s : State) (c : Ctx) : (s.lock c).lineEn = s.lineEn := (rfl)
@[simp] theorem State.lock_dev (s : State) (c : Ctx) : (s.lock c).dev = s.dev := (rfl)
@[simp] theorem State.lock_script (s : State) (c : Ctx) : (s.lock c).script = s.script := (rfl)
@[simp] theorem State.lock_draws (s : State) (c : Ctx) : (s.lock c).draws = s.draws := (rfl)
@[simp] theorem State.lock_tick (s : State) (c : Ctx) : (s.lock c).tick = s.tick := (rfl)
@[simp] theorem State.lock_cur (s : State) (c : Ctx) : (s.lock c).cur = s.cur := (rfl)
@[simp] theorem State.lock_slice (s : State) (c : Ctx) : (s.lock c).slice = s.slice := (rfl)
@[simp] theorem State.lock_ring (s : State) (c : Ctx) (r : Ring) : (s.lock c).ring r = s.ring r := (rfl)
@[simp] theorem State.lock_full (s : State) (c : Ctx) (r : Ring) : (s.lock c).full r = s.full r := (rfl)
@[simp] theorem State.lock_empty (s : State) (c : Ctx) (r : Ring) : (s.lock c).empty r = s.empty r := (rfl)
@[simp] theorem State.lock_count (s : State) (c : Ctx) (r : Ring) : (s.lock c).count r = s.count r := (rfl)
@[simp] theorem State.lock_freeSlots (s : State) (c : Ctx) (r : Ring) : (s.lock c).freeSlots r = s.freeSlots r := (rfl)
@[simp] theorem State.lock_inWindow (s : State) (c : Ctx) (r : Ring) (j : Nat) : (s.lock c).inWindow r j = s.inWindow r j := (rfl)
@[simp] theorem State.lock_pending (s : State) (c : Ctx) (r : Ring) (j : Nat) : (s.lock c).pending r j = s.pending r j := (rfl)
@[simp] theorem State.lock_buffer (s : State) (c : Ctx) (j : Nat) : (s.lock c).buffer j = s.buffer j := (rfl)
@[simp] theorem State.lock_handleOk (s : State) (c : Ctx) (j : Nat) : (s.lock c).handleOk j = s.handleOk j := (rfl)
@[simp] theorem State.lock_sizeOk (s : State) (c : Ctx) (z : Nat) : (s.lock c).sizeOk z = s.sizeOk z := (rfl)
@[simp] theorem State.lock_tooLong (s : State) (c : Ctx) (z : Word) : (s.lock c).tooLong z = s.tooLong z := (rfl)
@[simp] theorem State.lock_lowestFree (s : State) (c : Ctx) : (s.lock c).lowestFree = s.lowestFree := (rfl)
@[simp] theorem State.lock_descByte (s : State) (c : Ctx) (j : Nat) : (s.lock c).descByte j = s.descByte j := (rfl)
@[simp] theorem State.lock_descRead32 (s : State) (c : Ctx) (j : Nat) : (s.lock c).descRead32 j = s.descRead32 j := (rfl)
@[simp] theorem State.lock_descRead64 (s : State) (c : Ctx) (j : Nat) : (s.lock c).descRead64 j = s.descRead64 j := (rfl)
@[simp] theorem State.lock_bufByte (s : State) (c : Ctx) (j z : Nat) : (s.lock c).bufByte j z = s.bufByte j z := (rfl)
@[simp] theorem State.lock_bufBytes (s : State) (c : Ctx) (j z : Nat) : (s.lock c).bufBytes j z = s.bufBytes j z := (rfl)
@[simp] theorem State.lock_lane (s : State) (c : Ctx) (d : Ctx) : (s.lock c).lane? d = s.lane? d := (rfl)
@[simp] theorem State.lock_idle (s : State) (c : Ctx) (d : Ctx) : (s.lock c).idle d = s.idle d := (rfl)
@[simp] theorem State.lock_running (s : State) (c : Ctx) (d : Ctx) : (s.lock c).running d = s.running d := (rfl)

/-! ### unlock -/

@[simp] theorem State.unlock_cfg (s : State) : (s.unlock).cfg = s.cfg := (rfl)
@[simp] theorem State.unlock_life (s : State) : (s.unlock).life = s.life := (rfl)
@[simp] theorem State.unlock_rx (s : State) : (s.unlock).rx = s.rx := (rfl)
@[simp] theorem State.unlock_tx (s : State) : (s.unlock).tx = s.tx := (rfl)
@[simp] theorem State.unlock_pool (s : State) : (s.unlock).pool = s.pool := (rfl)
@[simp] theorem State.unlock_isrLatch (s : State) : (s.unlock).isrLatch = s.isrLatch := (rfl)
@[simp] theorem State.unlock_pollSched (s : State) : (s.unlock).pollSched = s.pollSched := (rfl)
@[simp] theorem State.unlock_pollRunning (s : State) : (s.unlock).pollRunning = s.pollRunning := (rfl)
@[simp] theorem State.unlock_txStopped (s : State) : (s.unlock).txStopped = s.txStopped := (rfl)
@[simp] theorem State.unlock_rxErr (s : State) : (s.unlock).rxErr = s.rxErr := (rfl)
@[simp] theorem State.unlock_txErr (s : State) : (s.unlock).txErr = s.txErr := (rfl)
@[simp] theorem State.unlock_lanes (s : State) : (s.unlock).lanes = s.lanes := (rfl)
@[simp] theorem State.unlock_fault (s : State) : (s.unlock).fault = s.fault := (rfl)
@[simp] theorem State.unlock_hist (s : State) : (s.unlock).hist = s.hist := (rfl)
@[simp] theorem State.unlock_desc (s : State) : (s.unlock).desc = s.desc := (rfl)
@[simp] theorem State.unlock_buf (s : State) : (s.unlock).buf = s.buf := (rfl)
@[simp] theorem State.unlock_isr (s : State) : (s.unlock).isr = s.isr := (rfl)
@[simp] theorem State.unlock_txctl (s : State) : (s.unlock).txctl = s.txctl := (rfl)
@[simp] theorem State.unlock_rst (s : State) : (s.unlock).rst = s.rst := (rfl)
@[simp] theorem State.unlock_lineEn (s : State) : (s.unlock).lineEn = s.lineEn := (rfl)
@[simp] theorem State.unlock_dev (s : State) : (s.unlock).dev = s.dev := (rfl)
@[simp] theorem State.unlock_script (s : State) : (s.unlock).script = s.script := (rfl)
@[simp] theorem State.unlock_draws (s : State) : (s.unlock).draws = s.draws := (rfl)
@[simp] theorem State.unlock_tick (s : State) : (s.unlock).tick = s.tick := (rfl)
@[simp] theorem State.unlock_cur (s : State) : (s.unlock).cur = s.cur := (rfl)
@[simp] theorem State.unlock_slice (s : State) : (s.unlock).slice = s.slice := (rfl)
@[simp] theorem State.unlock_ring (s : State) (r : Ring) : (s.unlock).ring r = s.ring r := (rfl)
@[simp] theorem State.unlock_full (s : State) (r : Ring) : (s.unlock).full r = s.full r := (rfl)
@[simp] theorem State.unlock_empty (s : State) (r : Ring) : (s.unlock).empty r = s.empty r := (rfl)
@[simp] theorem State.unlock_count (s : State) (r : Ring) : (s.unlock).count r = s.count r := (rfl)
@[simp] theorem State.unlock_freeSlots (s : State) (r : Ring) : (s.unlock).freeSlots r = s.freeSlots r := (rfl)
@[simp] theorem State.unlock_inWindow (s : State) (r : Ring) (j : Nat) : (s.unlock).inWindow r j = s.inWindow r j := (rfl)
@[simp] theorem State.unlock_pending (s : State) (r : Ring) (j : Nat) : (s.unlock).pending r j = s.pending r j := (rfl)
@[simp] theorem State.unlock_buffer (s : State) (j : Nat) : (s.unlock).buffer j = s.buffer j := (rfl)
@[simp] theorem State.unlock_handleOk (s : State) (j : Nat) : (s.unlock).handleOk j = s.handleOk j := (rfl)
@[simp] theorem State.unlock_sizeOk (s : State) (z : Nat) : (s.unlock).sizeOk z = s.sizeOk z := (rfl)
@[simp] theorem State.unlock_tooLong (s : State) (z : Word) : (s.unlock).tooLong z = s.tooLong z := (rfl)
@[simp] theorem State.unlock_lowestFree (s : State)  : (s.unlock).lowestFree = s.lowestFree := (rfl)
@[simp] theorem State.unlock_descByte (s : State) (j : Nat) : (s.unlock).descByte j = s.descByte j := (rfl)
@[simp] theorem State.unlock_descRead32 (s : State) (j : Nat) : (s.unlock).descRead32 j = s.descRead32 j := (rfl)
@[simp] theorem State.unlock_descRead64 (s : State) (j : Nat) : (s.unlock).descRead64 j = s.descRead64 j := (rfl)
@[simp] theorem State.unlock_bufByte (s : State) (j z : Nat) : (s.unlock).bufByte j z = s.bufByte j z := (rfl)
@[simp] theorem State.unlock_bufBytes (s : State) (j z : Nat) : (s.unlock).bufBytes j z = s.bufBytes j z := (rfl)
@[simp] theorem State.unlock_lane (s : State) (d : Ctx) : (s.unlock).lane? d = s.lane? d := (rfl)
@[simp] theorem State.unlock_idle (s : State) (d : Ctx) : (s.unlock).idle d = s.idle d := (rfl)
@[simp] theorem State.unlock_running (s : State) (d : Ctx) : (s.unlock).running d = s.running d := (rfl)

/-! ### setBuffer -/

@[simp] theorem State.setBuffer_cfg (s : State) (h : Nat) (e : PoolEntry) : (s.setBuffer h e).cfg = s.cfg := (rfl)
@[simp] theorem State.setBuffer_life (s : State) (h : Nat) (e : PoolEntry) : (s.setBuffer h e).life = s.life := (rfl)
@[simp] theorem State.setBuffer_rx (s : State) (h : Nat) (e : PoolEntry) : (s.setBuffer h e).rx = s.rx := (rfl)
@[simp] theorem State.setBuffer_tx (s : State) (h : Nat) (e : PoolEntry) : (s.setBuffer h e).tx = s.tx := (rfl)
@[simp] theorem State.setBuffer_isrLatch (s : State) (h : Nat) (e : PoolEntry) : (s.setBuffer h e).isrLatch = s.isrLatch := (rfl)
@[simp] theorem State.setBuffer_pollSched (s : State) (h : Nat) (e : PoolEntry) : (s.setBuffer h e).pollSched = s.pollSched := (rfl)
@[simp] theorem State.setBuffer_pollRunning (s : State) (h : Nat) (e : PoolEntry) : (s.setBuffer h e).pollRunning = s.pollRunning := (rfl)
@[simp] theorem State.setBuffer_txStopped (s : State) (h : Nat) (e : PoolEntry) : (s.setBuffer h e).txStopped = s.txStopped := (rfl)
@[simp] theorem State.setBuffer_txLock (s : State) (h : Nat) (e : PoolEntry) : (s.setBuffer h e).txLock = s.txLock := (rfl)
@[simp] theorem State.setBuffer_rxErr (s : State) (h : Nat) (e : PoolEntry) : (s.setBuffer h e).rxErr = s.rxErr := (rfl)
@[simp] theorem State.setBuffer_txErr (s : State) (h : Nat) (e : PoolEntry) : (s.setBuffer h e).txErr = s.txErr := (rfl)
@[simp] theorem State.setBuffer_lanes (s : State) (h : Nat) (e : PoolEntry) : (s.setBuffer h e).lanes = s.lanes := (rfl)
@[simp] theorem State.setBuffer_fault (s : State) (h : Nat) (e : PoolEntry) : (s.setBuffer h e).fault = s.fault := (rfl)
@[simp] theorem State.setBuffer_hist (s : State) (h : Nat) (e : PoolEntry) : (s.setBuffer h e).hist = s.hist := (rfl)
@[simp] theorem State.setBuffer_desc (s : State) (h : Nat) (e : PoolEntry) : (s.setBuffer h e).desc = s.desc := (rfl)
@[simp] theorem State.setBuffer_buf (s : State) (h : Nat) (e : PoolEntry) : (s.setBuffer h e).buf = s.buf := (rfl)
@[simp] theorem State.setBuffer_isr (s : State) (h : Nat) (e : PoolEntry) : (s.setBuffer h e).isr = s.isr := (rfl)
@[simp] theorem State.setBuffer_txctl (s : State) (h : Nat) (e : PoolEntry) : (s.setBuffer h e).txctl = s.txctl := (rfl)
@[simp] theorem State.setBuffer_rst (s : State) (h : Nat) (e : PoolEntry) : (s.setBuffer h e).rst = s.rst := (rfl)
@[simp] theorem State.setBuffer_lineEn (s : State) (h : Nat) (e : PoolEntry) : (s.setBuffer h e).lineEn = s.lineEn := (rfl)
@[simp] theorem State.setBuffer_dev (s : State) (h : Nat) (e : PoolEntry) : (s.setBuffer h e).dev = s.dev := (rfl)
@[simp] theorem State.setBuffer_script (s : State) (h : Nat) (e : PoolEntry) : (s.setBuffer h e).script = s.script := (rfl)
@[simp] theorem State.setBuffer_draws (s : State) (h : Nat) (e : PoolEntry) : (s.setBuffer h e).draws = s.draws := (rfl)
@[simp] theorem State.setBuffer_tick (s : State) (h : Nat) (e : PoolEntry) : (s.setBuffer h e).tick = s.tick := (rfl)
@[simp] theorem State.setBuffer_cur (s : State) (h : Nat) (e : PoolEntry) : (s.setBuffer h e).cur = s.cur := (rfl)
@[simp] theorem State.setBuffer_slice (s : State) (h : Nat) (e : PoolEntry) : (s.setBuffer h e).slice = s.slice := (rfl)
@[simp] theorem State.setBuffer_ring (s : State) (h : Nat) (e : PoolEntry) (r : Ring) : (s.setBuffer h e).ring r = s.ring r := (rfl)
@[simp] theorem State.setBuffer_full (s : State) (h : Nat) (e : PoolEntry) (r : Ring) : (s.setBuffer h e).full r = s.full r := (rfl)
@[simp] theorem State.setBuffer_empty (s : State) (h : Nat) (e : PoolEntry) (r : Ring) : (s.setBuffer h e).empty r = s.empty r := (rfl)
@[simp] theorem State.setBuffer_count (s : State) (h : Nat) (e : PoolEntry) (r : Ring) : (s.setBuffer h e).count r = s.count r := (rfl)
@[simp] theorem State.setBuffer_freeSlots (s : State) (h : Nat) (e : PoolEntry) (r : Ring) : (s.setBuffer h e).freeSlots r = s.freeSlots r := (rfl)
@[simp] theorem State.setBuffer_inWindow (s : State) (h : Nat) (e : PoolEntry) (r : Ring) (j : Nat) : (s.setBuffer h e).inWindow r j = s.inWindow r j := (rfl)
@[simp] theorem State.setBuffer_pending (s : State) (h : Nat) (e : PoolEntry) (r : Ring) (j : Nat) : (s.setBuffer h e).pending r j = s.pending r j := (rfl)
@[simp] theorem State.setBuffer_sizeOk (s : State) (h : Nat) (e : PoolEntry) (z : Nat) : (s.setBuffer h e).sizeOk z = s.sizeOk z := (rfl)
@[simp] theorem State.setBuffer_tooLong (s : State) (h : Nat) (e : PoolEntry) (z : Word) : (s.setBuffer h e).tooLong z = s.tooLong z := (rfl)
@[simp] theorem State.setBuffer_descByte (s : State) (h : Nat) (e : PoolEntry) (j : Nat) : (s.setBuffer h e).descByte j = s.descByte j := (rfl)
@[simp] theorem State.setBuffer_descRead32 (s : State) (h : Nat) (e : PoolEntry) (j : Nat) : (s.setBuffer h e).descRead32 j = s.descRead32 j := (rfl)
@[simp] theorem State.setBuffer_descRead64 (s : State) (h : Nat) (e : PoolEntry) (j : Nat) : (s.setBuffer h e).descRead64 j = s.descRead64 j := (rfl)
@[simp] theorem State.setBuffer_bufByte (s : State) (h : Nat) (e : PoolEntry) (j z : Nat) : (s.setBuffer h e).bufByte j z = s.bufByte j z := (rfl)
@[simp] theorem State.setBuffer_bufBytes (s : State) (h : Nat) (e : PoolEntry) (j z : Nat) : (s.setBuffer h e).bufBytes j z = s.bufBytes j z := (rfl)
@[simp] theorem State.setBuffer_lane (s : State) (h : Nat) (e : PoolEntry) (d : Ctx) : (s.setBuffer h e).lane? d = s.lane? d := (rfl)
@[simp] theorem State.setBuffer_idle (s : State) (h : Nat) (e : PoolEntry) (d : Ctx) : (s.setBuffer h e).idle d = s.idle d := (rfl)
@[simp] theorem State.setBuffer_running (s : State) (h : Nat) (e : PoolEntry) (d : Ctx) : (s.setBuffer h e).running d = s.running d := (rfl)

/-! ### setRing -/

@[simp] theorem State.setRing_cfg (s : State) (q : Ring) (x : RingRegs) : (s.setRing q x).cfg = s.cfg := by cases q <;> rfl
@[simp] theorem State.setRing_life (s : State) (q : Ring) (x : RingRegs) : (s.setRing q x).life = s.life := by cases q <;> rfl
@[simp] theorem State.setRing_pool (s : State) (q : Ring) (x : RingRegs) : (s.setRing q x).pool = s.pool := by cases q <;> rfl
@[simp] theorem State.setRing_isrLatch (s : State) (q : Ring) (x : RingRegs) : (s.setRing q x).isrLatch = s.isrLatch := by cases q <;> rfl
@[simp] theorem State.setRing_pollSched (s : State) (q : Ring) (x : RingRegs) : (s.setRing q x).pollSched = s.pollSched := by cases q <;> rfl
@[simp] theorem State.setRing_pollRunning (s : State) (q : Ring) (x : RingRegs) : (s.setRing q x).pollRunning = s.pollRunning := by cases q <;> rfl
@[simp] theorem State.setRing_txStopped (s : State) (q : Ring) (x : RingRegs) : (s.setRing q x).txStopped = s.txStopped := by cases q <;> rfl
@[simp] theorem State.setRing_txLock (s : State) (q : Ring) (x : RingRegs) : (s.setRing q x).txLock = s.txLock := by cases q <;> rfl
@[simp] theorem State.setRing_rxErr (s : State) (q : Ring) (x : RingRegs) : (s.setRing q x).rxErr = s.rxErr := by cases q <;> rfl
@[simp] theorem State.setRing_txErr (s : State) (q : Ring) (x : RingRegs) : (s.setRing q x).txErr = s.txErr := by cases q <;> rfl
@[simp] theorem State.setRing_lanes (s : State) (q : Ring) (x : RingRegs) : (s.setRing q x).lanes = s.lanes := by cases q <;> rfl
@[simp] theorem State.setRing_fault (s : State) (q : Ring) (x : RingRegs) : (s.setRing q x).fault = s.fault := by cases q <;> rfl
@[simp] theorem State.setRing_hist (s : State) (q : Ring) (x : RingRegs) : (s.setRing q x).hist = s.hist := by cases q <;> rfl
@[simp] theorem State.setRing_desc (s : State) (q : Ring) (x : RingRegs) : (s.setRing q x).desc = s.desc := by cases q <;> rfl
@[simp] theorem State.setRing_buf (s : State) (q : Ring) (x : RingRegs) : (s.setRing q x).buf = s.buf := by cases q <;> rfl
@[simp] theorem State.setRing_isr (s : State) (q : Ring) (x : RingRegs) : (s.setRing q x).isr = s.isr := by cases q <;> rfl
@[simp] theorem State.setRing_txctl (s : State) (q : Ring) (x : RingRegs) : (s.setRing q x).txctl = s.txctl := by cases q <;> rfl
@[simp] theorem State.setRing_rst (s : State) (q : Ring) (x : RingRegs) : (s.setRing q x).rst = s.rst := by cases q <;> rfl
@[simp] theorem State.setRing_lineEn (s : State) (q : Ring) (x : RingRegs) : (s.setRing q x).lineEn = s.lineEn := by cases q <;> rfl
@[simp] theorem State.setRing_dev (s : State) (q : Ring) (x : RingRegs) : (s.setRing q x).dev = s.dev := by cases q <;> rfl
@[simp] theorem State.setRing_script (s : State) (q : Ring) (x : RingRegs) : (s.setRing q x).script = s.script := by cases q <;> rfl
@[simp] theorem State.setRing_draws (s : State) (q : Ring) (x : RingRegs) : (s.setRing q x).draws = s.draws := by cases q <;> rfl
@[simp] theorem State.setRing_tick (s : State) (q : Ring) (x : RingRegs) : (s.setRing q x).tick = s.tick := by cases q <;> rfl
@[simp] theorem State.setRing_cur (s : State) (q : Ring) (x : RingRegs) : (s.setRing q x).cur = s.cur := by cases q <;> rfl
@[simp] theorem State.setRing_slice (s : State) (q : Ring) (x : RingRegs) : (s.setRing q x).slice = s.slice := by cases q <;> rfl
@[simp] theorem State.setRing_buffer (s : State) (q : Ring) (x : RingRegs) (j : Nat) : (s.setRing q x).buffer j = s.buffer j := by simp [State.buffer]
@[simp] theorem State.setRing_handleOk (s : State) (q : Ring) (x : RingRegs) (j : Nat) : (s.setRing q x).handleOk j = s.handleOk j := by simp [State.handleOk]
@[simp] theorem State.setRing_sizeOk (s : State) (q : Ring) (x : RingRegs) (z : Nat) : (s.setRing q x).sizeOk z = s.sizeOk z := by simp [State.sizeOk]
@[simp] theorem State.setRing_tooLong (s : State) (q : Ring) (x : RingRegs) (z : Word) : (s.setRing q x).tooLong z = s.tooLong z := by simp [State.tooLong]
@[simp] theorem State.setRing_lowestFree (s : State) (q : Ring) (x : RingRegs) : (s.setRing q x).lowestFree = s.lowestFree := by simp [State.lowestFree]
@[simp] theorem State.setRing_descByte (s : State) (q : Ring) (x : RingRegs) (j : Nat) : (s.setRing q x).descByte j = s.descByte j := by simp [State.descByte]
@[simp] theorem State.setRing_descRead32 (s : State) (q : Ring) (x : RingRegs) (j : Nat) : (s.setRing q x).descRead32 j = s.descRead32 j := by simp [State.descRead32]
@[simp] theorem State.setRing_descRead64 (s : State) (q : Ring) (x : RingRegs) (j : Nat) : (s.setRing q x).descRead64 j = s.descRead64 j := by simp [State.descRead64]
@[simp] theorem State.setRing_bufByte (s : State) (q : Ring) (x : RingRegs) (j z : Nat) : (s.setRing q x).bufByte j z = s.bufByte j z := by simp [State.bufByte]
@[simp] theorem State.setRing_bufBytes (s : State) (q : Ring) (x : RingRegs) (j z : Nat) : (s.setRing q x).bufBytes j z = s.bufBytes j z := by simp [State.bufBytes]
@[simp] theorem State.setRing_lane (s : State) (q : Ring) (x : RingRegs) (d : Ctx) : (s.setRing q x).lane? d = s.lane? d := by cases d <;> simp [State.lane?]
@[simp] theorem State.setRing_idle (s : State) (q : Ring) (x : RingRegs) (d : Ctx) : (s.setRing q x).idle d = s.idle d := by simp [State.idle]
@[simp] theorem State.setRing_running (s : State) (q : Ring) (x : RingRegs) (d : Ctx) : (s.setRing q x).running d = s.running d := by simp [State.running]

/-! ### setHead -/

@[simp] theorem State.setHead_cfg (s : State) (q : Ring) (i : Nat) : (s.setHead q i).cfg = s.cfg := by cases q <;> rfl
@[simp] theorem State.setHead_life (s : State) (q : Ring) (i : Nat) : (s.setHead q i).life = s.life := by cases q <;> rfl
@[simp] theorem State.setHead_pool (s : State) (q : Ring) (i : Nat) : (s.setHead q i).pool = s.pool := by cases q <;> rfl
@[simp] theorem State.setHead_isrLatch (s : State) (q : Ring) (i : Nat) : (s.setHead q i).isrLatch = s.isrLatch := by cases q <;> rfl
@[simp] theorem State.setHead_pollSched (s : State) (q : Ring) (i : Nat) : (s.setHead q i).pollSched = s.pollSched := by cases q <;> rfl
@[simp] theorem State.setHead_pollRunning (s : State) (q : Ring) (i : Nat) : (s.setHead q i).pollRunning = s.pollRunning := by cases q <;> rfl
@[simp] theorem State.setHead_txStopped (s : State) (q : Ring) (i : Nat) : (s.setHead q i).txStopped = s.txStopped := by cases q <;> rfl
@[simp] theorem State.setHead_txLock (s : State) (q : Ring) (i : Nat) : (s.setHead q i).txLock = s.txLock := by cases q <;> rfl
@[simp] theorem State.setHead_rxErr (s : State) (q : Ring) (i : Nat) : (s.setHead q i).rxErr = s.rxErr := by cases q <;> rfl
@[simp] theorem State.setHead_txErr (s : State) (q : Ring) (i : Nat) : (s.setHead q i).txErr = s.txErr := by cases q <;> rfl
@[simp] theorem State.setHead_lanes (s : State) (q : Ring) (i : Nat) : (s.setHead q i).lanes = s.lanes := by cases q <;> rfl
@[simp] theorem State.setHead_fault (s : State) (q : Ring) (i : Nat) : (s.setHead q i).fault = s.fault := by cases q <;> rfl
@[simp] theorem State.setHead_hist (s : State) (q : Ring) (i : Nat) : (s.setHead q i).hist = s.hist := by cases q <;> rfl
@[simp] theorem State.setHead_desc (s : State) (q : Ring) (i : Nat) : (s.setHead q i).desc = s.desc := by cases q <;> rfl
@[simp] theorem State.setHead_buf (s : State) (q : Ring) (i : Nat) : (s.setHead q i).buf = s.buf := by cases q <;> rfl
@[simp] theorem State.setHead_isr (s : State) (q : Ring) (i : Nat) : (s.setHead q i).isr = s.isr := by cases q <;> rfl
@[simp] theorem State.setHead_txctl (s : State) (q : Ring) (i : Nat) : (s.setHead q i).txctl = s.txctl := by cases q <;> rfl
@[simp] theorem State.setHead_rst (s : State) (q : Ring) (i : Nat) : (s.setHead q i).rst = s.rst := by cases q <;> rfl
@[simp] theorem State.setHead_lineEn (s : State) (q : Ring) (i : Nat) : (s.setHead q i).lineEn = s.lineEn := by cases q <;> rfl
@[simp] theorem State.setHead_dev (s : State) (q : Ring) (i : Nat) : (s.setHead q i).dev = s.dev := by cases q <;> rfl
@[simp] theorem State.setHead_script (s : State) (q : Ring) (i : Nat) : (s.setHead q i).script = s.script := by cases q <;> rfl
@[simp] theorem State.setHead_draws (s : State) (q : Ring) (i : Nat) : (s.setHead q i).draws = s.draws := by cases q <;> rfl
@[simp] theorem State.setHead_tick (s : State) (q : Ring) (i : Nat) : (s.setHead q i).tick = s.tick := by cases q <;> rfl
@[simp] theorem State.setHead_cur (s : State) (q : Ring) (i : Nat) : (s.setHead q i).cur = s.cur := by cases q <;> rfl
@[simp] theorem State.setHead_slice (s : State) (q : Ring) (i : Nat) : (s.setHead q i).slice = s.slice := by cases q <;> rfl
@[simp] theorem State.setHead_buffer (s : State) (q : Ring) (i : Nat) (j : Nat) : (s.setHead q i).buffer j = s.buffer j := by simp [State.buffer]
@[simp] theorem State.setHead_handleOk (s : State) (q : Ring) (i : Nat) (j : Nat) : (s.setHead q i).handleOk j = s.handleOk j := by simp [State.handleOk]
@[simp] theorem State.setHead_sizeOk (s : State) (q : Ring) (i : Nat) (z : Nat) : (s.setHead q i).sizeOk z = s.sizeOk z := by simp [State.sizeOk]
@[simp] theorem State.setHead_tooLong (s : State) (q : Ring) (i : Nat) (z : Word) : (s.setHead q i).tooLong z = s.tooLong z := by simp [State.tooLong]
@[simp] theorem State.setHead_lowestFree (s : State) (q : Ring) (i : Nat) : (s.setHead q i).lowestFree = s.lowestFree := by simp [State.lowestFree]
@[simp] theorem State.setHead_descByte (s : State) (q : Ring) (i : Nat) (j : Nat) : (s.setHead q i).descByte j = s.descByte j := by simp [State.descByte]
@[simp] theorem State.setHead_descRead32 (s : State) (q : Ring) (i : Nat) (j : Nat) : (s.setHead q i).descRead32 j = s.descRead32 j := by simp [State.descRead32]
@[simp] theorem State.setHead_descRead64 (s : State) (q : Ring) (i : Nat) (j : Nat) : (s.setHead q i).descRead64 j = s.descRead64 j := by simp [State.descRead64]
@[simp] theorem State.setHead_bufByte (s : State) (q : Ring) (i : Nat) (j z : Nat) : (s.setHead q i).bufByte j z = s.bufByte j z := by simp [State.bufByte]
@[simp] theorem State.setHead_bufBytes (s : State) (q : Ring) (i : Nat) (j z : Nat) : (s.setHead q i).bufBytes j z = s.bufBytes j z := by simp [State.bufBytes]
@[simp] theorem State.setHead_lane (s : State) (q : Ring) (i : Nat) (d : Ctx) : (s.setHead q i).lane? d = s.lane? d := by cases d <;> simp [State.lane?]
@[simp] theorem State.setHead_idle (s : State) (q : Ring) (i : Nat) (d : Ctx) : (s.setHead q i).idle d = s.idle d := by simp [State.idle]
@[simp] theorem State.setHead_running (s : State) (q : Ring) (i : Nat) (d : Ctx) : (s.setHead q i).running d = s.running d := by simp [State.running]

/-! ### setTail -/

@[simp] theorem State.setTail_cfg (s : State) (q : Ring) (i : Nat) : (s.setTail q i).cfg = s.cfg := by cases q <;> rfl
@[simp] theorem State.setTail_life (s : State) (q : Ring) (i : Nat) : (s.setTail q i).life = s.life := by cases q <;> rfl
@[simp] theorem State.setTail_pool (s : State) (q : Ring) (i : Nat) : (s.setTail q i).pool = s.pool := by cases q <;> rfl
@[simp] theorem State.setTail_isrLatch (s : State) (q : Ring) (i : Nat) : (s.setTail q i).isrLatch = s.isrLatch := by cases q <;> rfl
@[simp] theorem State.setTail_pollSched (s : State) (q : Ring) (i : Nat) : (s.setTail q i).pollSched = s.pollSched := by cases q <;> rfl
@[simp] theorem State.setTail_pollRunning (s : State) (q : Ring) (i : Nat) : (s.setTail q i).pollRunning = s.pollRunning := by cases q <;> rfl
@[simp] theorem State.setTail_txStopped (s : State) (q : Ring) (i : Nat) : (s.setTail q i).txStopped = s.txStopped := by cases q <;> rfl
@[simp] theorem State.setTail_txLock (s : State) (q : Ring) (i : Nat) : (s.setTail q i).txLock = s.txLock := by cases q <;> rfl
@[simp] theorem State.setTail_rxErr (s : State) (q : Ring) (i : Nat) : (s.setTail q i).rxErr = s.rxErr := by cases q <;> rfl
@[simp] theorem State.setTail_txErr (s : State) (q : Ring) (i : Nat) : (s.setTail q i).txErr = s.txErr := by cases q <;> rfl
@[simp] theorem State.setTail_lanes (s : State) (q : Ring) (i : Nat) : (s.setTail q i).lanes = s.lanes := by cases q <;> rfl
@[simp] theorem State.setTail_fault (s : State) (q : Ring) (i : Nat) : (s.setTail q i).fault = s.fault := by cases q <;> rfl
@[simp] theorem State.setTail_hist (s : State) (q : Ring) (i : Nat) : (s.setTail q i).hist = s.hist := by cases q <;> rfl
@[simp] theorem State.setTail_desc (s : State) (q : Ring) (i : Nat) : (s.setTail q i).desc = s.desc := by cases q <;> rfl
@[simp] theorem State.setTail_buf (s : State) (q : Ring) (i : Nat) : (s.setTail q i).buf = s.buf := by cases q <;> rfl
@[simp] theorem State.setTail_isr (s : State) (q : Ring) (i : Nat) : (s.setTail q i).isr = s.isr := by cases q <;> rfl
@[simp] theorem State.setTail_txctl (s : State) (q : Ring) (i : Nat) : (s.setTail q i).txctl = s.txctl := by cases q <;> rfl
@[simp] theorem State.setTail_rst (s : State) (q : Ring) (i : Nat) : (s.setTail q i).rst = s.rst := by cases q <;> rfl
@[simp] theorem State.setTail_lineEn (s : State) (q : Ring) (i : Nat) : (s.setTail q i).lineEn = s.lineEn := by cases q <;> rfl
@[simp] theorem State.setTail_dev (s : State) (q : Ring) (i : Nat) : (s.setTail q i).dev = s.dev := by cases q <;> rfl
@[simp] theorem State.setTail_script (s : State) (q : Ring) (i : Nat) : (s.setTail q i).script = s.script := by cases q <;> rfl
@[simp] theorem State.setTail_draws (s : State) (q : Ring) (i : Nat) : (s.setTail q i).draws = s.draws := by cases q <;> rfl
@[simp] theorem State.setTail_tick (s : State) (q : Ring) (i : Nat) : (s.setTail q i).tick = s.tick := by cases q <;> rfl
@[simp] theorem State.setTail_cur (s : State) (q : Ring) (i : Nat) : (s.setTail q i).cur = s.cur := by cases q <;> rfl
@[simp] theorem State.setTail_slice (s : State) (q : Ring) (i : Nat) : (s.setTail q i).slice = s.slice := by cases q <;> rfl
@[simp] theorem State.setTail_buffer (s : State) (q : Ring) (i : Nat) (j : Nat) : (s.setTail q i).buffer j = s.buffer j := by simp [State.buffer]
@[simp] theorem State.setTail_handleOk (s : State) (q : Ring) (i : Nat) (j : Nat) : (s.setTail q i).handleOk j = s.handleOk j := by simp [State.handleOk]
@[simp] theorem State.setTail_sizeOk (s : State) (q : Ring) (i : Nat) (z : Nat) : (s.setTail q i).sizeOk z = s.sizeOk z := by simp [State.sizeOk]
@[simp] theorem State.setTail_tooLong (s : State) (q : Ring) (i : Nat) (z : Word) : (s.setTail q i).tooLong z = s.tooLong z := by simp [State.tooLong]
@[simp] theorem State.setTail_lowestFree (s : State) (q : Ring) (i : Nat) : (s.setTail q i).lowestFree = s.lowestFree := by simp [State.lowestFree]
@[simp] theorem State.setTail_descByte (s : State) (q : Ring) (i : Nat) (j : Nat) : (s.setTail q i).descByte j = s.descByte j := by simp [State.descByte]
@[simp] theorem State.setTail_descRead32 (s : State) (q : Ring) (i : Nat) (j : Nat) : (s.setTail q i).descRead32 j = s.descRead32 j := by simp [State.descRead32]
@[simp] theorem State.setTail_descRead64 (s : State) (q : Ring) (i : Nat) (j : Nat) : (s.setTail q i).descRead64 j = s.descRead64 j := by simp [State.descRead64]
@[simp] theorem State.setTail_bufByte (s : State) (q : Ring) (i : Nat) (j z : Nat) : (s.setTail q i).bufByte j z = s.bufByte j z := by simp [State.bufByte]
@[simp] theorem State.setTail_bufBytes (s : State) (q : Ring) (i : Nat) (j z : Nat) : (s.setTail q i).bufBytes j z = s.bufBytes j z := by simp [State.bufBytes]
@[simp] theorem State.setTail_lane (s : State) (q : Ring) (i : Nat) (d : Ctx) : (s.setTail q i).lane? d = s.lane? d := by cases d <;> simp [State.lane?]
@[simp] theorem State.setTail_idle (s : State) (q : Ring) (i : Nat) (d : Ctx) : (s.setTail q i).idle d = s.idle d := by simp [State.idle]
@[simp] theorem State.setTail_running (s : State) (q : Ring) (i : Nat) (d : Ctx) : (s.setTail q i).running d = s.running d := by simp [State.running]

/-! ### setPending -/

@[simp] theorem State.setPending_cfg (s : State) (q : Ring) (i : Nat) (e : Option (Nat × DAddr)) : (s.setPending q i e).cfg = s.cfg := by cases q <;> rfl
@[simp] theorem State.setPending_life (s : State) (q : Ring) (i : Nat) (e : Option (Nat × DAddr)) : (s.setPending q i e).life = s.life := by cases q <;> rfl
@[simp] theorem State.setPending_pool (s : State) (q : Ring) (i : Nat) (e : Option (Nat × DAddr)) : (s.setPending q i e).pool = s.pool := by cases q <;> rfl
@[simp] theorem State.setPending_isrLatch (s : State) (q : Ring) (i : Nat) (e : Option (Nat × DAddr)) : (s.setPending q i e).isrLatch = s.isrLatch := by cases q <;> rfl
@[simp] theorem State.setPending_pollSched (s : State) (q : Ring) (i : Nat) (e : Option (Nat × DAddr)) : (s.setPending q i e).pollSched = s.pollSched := by cases q <;> rfl
@[simp] theorem State.setPending_pollRunning (s : State) (q : Ring) (i : Nat) (e : Option (Nat × DAddr)) : (s.setPending q i e).pollRunning = s.pollRunning := by cases q <;> rfl
@[simp] theorem State.setPending_txStopped (s : State) (q : Ring) (i : Nat) (e : Option (Nat × DAddr)) : (s.setPending q i e).txStopped = s.txStopped := by cases q <;> rfl
@[simp] theorem State.setPending_txLock (s : State) (q : Ring) (i : Nat) (e : Option (Nat × DAddr)) : (s.setPending q i e).txLock = s.txLock := by cases q <;> rfl
@[simp] theorem State.setPending_rxErr (s : State) (q : Ring) (i : Nat) (e : Option (Nat × DAddr)) : (s.setPending q i e).rxErr = s.rxErr := by cases q <;> rfl
@[simp] theorem State.setPending_txErr (s : State) (q : Ring) (i : Nat) (e : Option (Nat × DAddr)) : (s.setPending q i e).txErr = s.txErr := by cases q <;> rfl
@[simp] theorem State.setPending_lanes (s : State) (q : Ring) (i : Nat) (e : Option (Nat × DAddr)) : (s.setPending q i e).lanes = s.lanes := by cases q <;> rfl
@[simp] theorem State.setPending_fault (s : State) (q : Ring) (i : Nat) (e : Option (Nat × DAddr)) : (s.setPending q i e).fault = s.fault := by cases q <;> rfl
@[simp] theorem State.setPending_hist (s : State) (q : Ring) (i : Nat) (e : Option (Nat × DAddr)) : (s.setPending q i e).hist = s.hist := by cases q <;> rfl
@[simp] theorem State.setPending_desc (s : State) (q : Ring) (i : Nat) (e : Option (Nat × DAddr)) : (s.setPending q i e).desc = s.desc := by cases q <;> rfl
@[simp] theorem State.setPending_buf (s : State) (q : Ring) (i : Nat) (e : Option (Nat × DAddr)) : (s.setPending q i e).buf = s.buf := by cases q <;> rfl
@[simp] theorem State.setPending_isr (s : State) (q : Ring) (i : Nat) (e : Option (Nat × DAddr)) : (s.setPending q i e).isr = s.isr := by cases q <;> rfl
@[simp] theorem State.setPending_txctl (s : State) (q : Ring) (i : Nat) (e : Option (Nat × DAddr)) : (s.setPending q i e).txctl = s.txctl := by cases q <;> rfl
@[simp] theorem State.setPending_rst (s : State) (q : Ring) (i : Nat) (e : Option (Nat × DAddr)) : (s.setPending q i e).rst = s.rst := by cases q <;> rfl
@[simp] theorem State.setPending_lineEn (s : State) (q : Ring) (i : Nat) (e : Option (Nat × DAddr)) : (s.setPending q i e).lineEn = s.lineEn := by cases q <;> rfl
@[simp] theorem State.setPending_dev (s : State) (q : Ring) (i : Nat) (e : Option (Nat × DAddr)) : (s.setPending q i e).dev = s.dev := by cases q <;> rfl
@[simp] theorem State.setPending_script (s : State) (q : Ring) (i : Nat) (e : Option (Nat × DAddr)) : (s.setPending q i e).script = s.script := by cases q <;> rfl
@[simp] theorem State.setPending_draws (s : State) (q : Ring) (i : Nat) (e : Option (Nat × DAddr)) : (s.setPending q i e).draws = s.draws := by cases q <;> rfl
@[simp] theorem State.setPending_tick (s : State) (q : Ring) (i : Nat) (e : Option (Nat × DAddr)) : (s.setPending q i e).tick = s.tick := by cases q <;> rfl
@[simp] theorem State.setPending_cur (s : State) (q : Ring) (i : Nat) (e : Option (Nat × DAddr)) : (s.setPending q i e).cur = s.cur := by cases q <;> rfl
@[simp] theorem State.setPending_slice (s : State) (q : Ring) (i : Nat) (e : Option (Nat × DAddr)) : (s.setPending q i e).slice = s.slice := by cases q <;> rfl
@[simp] theorem State.setPending_buffer (s : State) (q : Ring) (i : Nat) (e : Option (Nat × DAddr)) (j : Nat) : (s.setPending q i e).buffer j = s.buffer j := by simp [State.buffer]
@[simp] theorem State.setPending_handleOk (s : State) (q : Ring) (i : Nat) (e : Option (Nat × DAddr)) (j : Nat) : (s.setPending q i e).handleOk j = s.handleOk j := by simp [State.handleOk]
@[simp] theorem State.setPending_sizeOk (s : State) (q : Ring) (i : Nat) (e : Option (Nat × DAddr)) (z : Nat) : (s.setPending q i e).sizeOk z = s.sizeOk z := by simp [State.sizeOk]
@[simp] theorem State.setPending_tooLong (s : State) (q : Ring) (i : Nat) (e : Option (Nat × DAddr)) (z : Word) : (s.setPending q i e).tooLong z = s.tooLong z := by simp [State.tooLong]
@[simp] theorem State.setPending_lowestFree (s : State) (q : Ring) (i : Nat) (e : Option (Nat × DAddr)) : (s.setPending q i e).lowestFree = s.lowestFree := by simp [State.lowestFree]
@[simp] theorem State.setPending_descByte (s : State) (q : Ring) (i : Nat) (e : Option (Nat × DAddr)) (j : Nat) : (s.setPending q i e).descByte j = s.descByte j := by simp [State.descByte]
@[simp] theorem State.setPending_descRead32 (s : State) (q : Ring) (i : Nat) (e : Option (Nat × DAddr)) (j : Nat) : (s.setPending q i e).descRead32 j = s.descRead32 j := by simp [State.descRead32]
@[simp] theorem State.setPending_descRead64 (s : State) (q : Ring) (i : Nat) (e : Option (Nat × DAddr)) (j : Nat) : (s.setPending q i e).descRead64 j = s.descRead64 j := by simp [State.descRead64]
@[simp] theorem State.setPending_bufByte (s : State) (q : Ring) (i : Nat) (e : Option (Nat × DAddr)) (j z : Nat) : (s.setPending q i e).bufByte j z = s.bufByte j z := by simp [State.bufByte]
@[simp] theorem State.setPending_bufBytes (s : State) (q : Ring) (i : Nat) (e : Option (Nat × DAddr)) (j z : Nat) : (s.setPending q i e).bufBytes j z = s.bufBytes j z := by simp [State.bufBytes]
@[simp] theorem State.setPending_lane (s : State) (q : Ring) (i : Nat) (e : Option (Nat × DAddr)) (d : Ctx) : (s.setPending q i e).lane? d = s.lane? d := by cases d <;> simp [State.lane?]
@[simp] theorem State.setPending_idle (s : State) (q : Ring) (i : Nat) (e : Option (Nat × DAddr)) (d : Ctx) : (s.setPending q i e).idle d = s.idle d := by simp [State.idle]
@[simp] theorem State.setPending_running (s : State) (q : Ring) (i : Nat) (e : Option (Nat × DAddr)) (d : Ctx) : (s.setPending q i e).running d = s.running d := by simp [State.running]

/-! ### descWrite32 -/

@[simp] theorem State.descWrite32_cfg (s : State) (a : Nat) (v : Word) : (s.descWrite32 a v).cfg = s.cfg := (rfl)
@[simp] theorem State.descWrite32_life (s : State) (a : Nat) (v : Word) : (s.descWrite32 a v).life = s.life := (rfl)
@[simp] theorem State.descWrite32_rx (s : State) (a : Nat) (v : Word) : (s.descWrite32 a v).rx = s.rx := (rfl)
@[simp] theorem State.descWrite32_tx (s : State) (a : Nat) (v : Word) : (s.descWrite32 a v).tx = s.tx := (rfl)
@[simp] theorem State.descWrite32_pool (s : State) (a : Nat) (v : Word) : (s.descWrite32 a v).pool = s.pool := (rfl)
@[simp] theorem State.descWrite32_isrLatch (s : State) (a : Nat) (v : Word) : (s.descWrite32 a v).isrLatch = s.isrLatch := (rfl)
@[simp] theorem State.descWrite32_pollSched (s : State) (a : Nat) (v : Word) : (s.descWrite32 a v).pollSched = s.pollSched := (rfl)
@[simp] theorem State.descWrite32_pollRunning (s : State) (a : Nat) (v : Word) : (s.descWrite32 a v).pollRunning = s.pollRunning := (rfl)
@[simp] theorem State.descWrite32_txStopped (s : State) (a : Nat) (v : Word) : (s.descWrite32 a v).txStopped = s.txStopped := (rfl)
@[simp] theorem State.descWrite32_txLock (s : State) (a : Nat) (v : Word) : (s.descWrite32 a v).txLock = s.txLock := (rfl)
@[simp] theorem State.descWrite32_rxErr (s : State) (a : Nat) (v : Word) : (s.descWrite32 a v).rxErr = s.rxErr := (rfl)
@[simp] theorem State.descWrite32_txErr (s : State) (a : Nat) (v : Word) : (s.descWrite32 a v).txErr = s.txErr := (rfl)
@[simp] theorem State.descWrite32_lanes (s : State) (a : Nat) (v : Word) : (s.descWrite32 a v).lanes = s.lanes := (rfl)
@[simp] theorem State.descWrite32_fault (s : State) (a : Nat) (v : Word) : (s.descWrite32 a v).fault = s.fault := (rfl)
@[simp] theorem State.descWrite32_hist (s : State) (a : Nat) (v : Word) : (s.descWrite32 a v).hist = s.hist := (rfl)
@[simp] theorem State.descWrite32_buf (s : State) (a : Nat) (v : Word) : (s.descWrite32 a v).buf = s.buf := (rfl)
@[simp] theorem State.descWrite32_isr (s : State) (a : Nat) (v : Word) : (s.descWrite32 a v).isr = s.isr := (rfl)
@[simp] theorem State.descWrite32_txctl (s : State) (a : Nat) (v : Word) : (s.descWrite32 a v).txctl = s.txctl := (rfl)
@[simp] theorem State.descWrite32_rst (s : State) (a : Nat) (v : Word) : (s.descWrite32 a v).rst = s.rst := (rfl)
@[simp] theorem State.descWrite32_lineEn (s : State) (a : Nat) (v : Word) : (s.descWrite32 a v).lineEn = s.lineEn := (rfl)
@[simp] theorem State.descWrite32_dev (s : State) (a : Nat) (v : Word) : (s.descWrite32 a v).dev = s.dev := (rfl)
@[simp] theorem State.descWrite32_script (s : State) (a : Nat) (v : Word) : (s.descWrite32 a v).script = s.script := (rfl)
@[simp] theorem State.descWrite32_draws (s : State) (a : Nat) (v : Word) : (s.descWrite32 a v).draws = s.draws := (rfl)
@[simp] theorem State.descWrite32_tick (s : State) (a : Nat) (v : Word) : (s.descWrite32 a v).tick = s.tick := (rfl)
@[simp] theorem State.descWrite32_cur (s : State) (a : Nat) (v : Word) : (s.descWrite32 a v).cur = s.cur := (rfl)
@[simp] theorem State.descWrite32_slice (s : State) (a : Nat) (v : Word) : (s.descWrite32 a v).slice = s.slice := (rfl)
@[simp] theorem State.descWrite32_ring (s : State) (a : Nat) (v : Word) (r : Ring) : (s.descWrite32 a v).ring r = s.ring r := (rfl)
@[simp] theorem State.descWrite32_full (s : State) (a : Nat) (v : Word) (r : Ring) : (s.descWrite32 a v).full r = s.full r := (rfl)
@[simp] theorem State.descWrite32_empty (s : State) (a : Nat) (v : Word) (r : Ring) : (s.descWrite32 a v).empty r = s.empty r := (rfl)
@[simp] theorem State.descWrite32_count (s : State) (a : Nat) (v : Word) (r : Ring) : (s.descWrite32 a v).count r = s.count r := (rfl)
@[simp] theorem State.descWrite32_freeSlots (s : State) (a : Nat) (v : Word) (r : Ring) : (s.descWrite32 a v).freeSlots r = s.freeSlots r := (rfl)
@[simp] theorem State.descWrite32_inWindow (s : State) (a : Nat) (v : Word) (r : Ring) (j : Nat) : (s.descWrite32 a v).inWindow r j = s.inWindow r j := (rfl)
@[simp] theorem State.descWrite32_pending (s : State) (a : Nat) (v : Word) (r : Ring) (j : Nat) : (s.descWrite32 a v).pending r j = s.pending r j := (rfl)
@[simp] theorem State.descWrite32_buffer (s : State) (a : Nat) (v : Word) (j : Nat) : (s.descWrite32 a v).buffer j = s.buffer j := (rfl)
@[simp] theorem State.descWrite32_handleOk (s : State) (a : Nat) (v : Word) (j : Nat) : (s.descWrite32 a v).handleOk j = s.handleOk j := (rfl)
@[simp] theorem State.descWrite32_sizeOk (s : State) (a : Nat) (v : Word) (z : Nat) : (s.descWrite32 a v).sizeOk z = s.sizeOk z := (rfl)
@[simp] theorem State.descWrite32_tooLong (s : State) (a : Nat) (v : Word) (z : Word) : (s.descWrite32 a v).tooLong z = s.tooLong z := (rfl)
@[simp] theorem State.descWrite32_lowestFree (s : State) (a : Nat) (v : Word) : (s.descWrite32 a v).lowestFree = s.lowestFree := (rfl)
@[simp] theorem State.descWrite32_bufByte (s : State) (a : Nat) (v : Word) (j z : Nat) : (s.descWrite32 a v).bufByte j z = s.bufByte j z := (rfl)
@[simp] theorem State.descWrite32_bufBytes (s : State) (a : Nat) (v : Word) (j z : Nat) : (s.descWrite32 a v).bufBytes j z = s.bufBytes j z := (rfl)
@[simp] theorem State.descWrite32_lane (s : State) (a : Nat) (v : Word) (d : Ctx) : (s.descWrite32 a v).lane? d = s.lane? d := (rfl)
@[simp] theorem State.descWrite32_idle (s : State) (a : Nat) (v : Word) (d : Ctx) : (s.descWrite32 a v).idle d = s.idle d := (rfl)
@[simp] theorem State.descWrite32_running (s : State) (a : Nat) (v : Word) (d : Ctx) : (s.descWrite32 a v).running d = s.running d := (rfl)

/-! ### descWrite64 -/

@[simp] theorem State.descWrite64_cfg (s : State) (a : Nat) (v : DAddr) : (s.descWrite64 a v).cfg = s.cfg := (rfl)
@[simp] theorem State.descWrite64_life (s : State) (a : Nat) (v : DAddr) : (s.descWrite64 a v).life = s.life := (rfl)
@[simp] theorem State.descWrite64_rx (s : State) (a : Nat) (v : DAddr) : (s.descWrite64 a v).rx = s.rx := (rfl)
@[simp] theorem State.descWrite64_tx (s : State) (a : Nat) (v : DAddr) : (s.descWrite64 a v).tx = s.tx := (rfl)
@[simp] theorem State.descWrite64_pool (s : State) (a : Nat) (v : DAddr) : (s.descWrite64 a v).pool = s.pool := (rfl)
@[simp] theorem State.descWrite64_isrLatch (s : State) (a : Nat) (v : DAddr) : (s.descWrite64 a v).isrLatch = s.isrLatch := (rfl)
@[simp] theorem State.descWrite64_pollSched (s : State) (a : Nat) (v : DAddr) : (s.descWrite64 a v).pollSched = s.pollSched := (rfl)
@[simp] theorem State.descWrite64_pollRunning (s : State) (a : Nat) (v : DAddr) : (s.descWrite64 a v).pollRunning = s.pollRunning := (rfl)
@[simp] theorem State.descWrite64_txStopped (s : State) (a : Nat) (v : DAddr) : (s.descWrite64 a v).txStopped = s.txStopped := (rfl)
@[simp] theorem State.descWrite64_txLock (s : State) (a : Nat) (v : DAddr) : (s.descWrite64 a v).txLock = s.txLock := (rfl)
@[simp] theorem State.descWrite64_rxErr (s : State) (a : Nat) (v : DAddr) : (s.descWrite64 a v).rxErr = s.rxErr := (rfl)
@[simp] theorem State.descWrite64_txErr (s : State) (a : Nat) (v : DAddr) : (s.descWrite64 a v).txErr = s.txErr := (rfl)
@[simp] theorem State.descWrite64_lanes (s : State) (a : Nat) (v : DAddr) : (s.descWrite64 a v).lanes = s.lanes := (rfl)
@[simp] theorem State.descWrite64_fault (s : State) (a : Nat) (v : DAddr) : (s.descWrite64 a v).fault = s.fault := (rfl)
@[simp] theorem State.descWrite64_hist (s : State) (a : Nat) (v : DAddr) : (s.descWrite64 a v).hist = s.hist := (rfl)
@[simp] theorem State.descWrite64_buf (s : State) (a : Nat) (v : DAddr) : (s.descWrite64 a v).buf = s.buf := (rfl)
@[simp] theorem State.descWrite64_isr (s : State) (a : Nat) (v : DAddr) : (s.descWrite64 a v).isr = s.isr := (rfl)
@[simp] theorem State.descWrite64_txctl (s : State) (a : Nat) (v : DAddr) : (s.descWrite64 a v).txctl = s.txctl := (rfl)
@[simp] theorem State.descWrite64_rst (s : State) (a : Nat) (v : DAddr) : (s.descWrite64 a v).rst = s.rst := (rfl)
@[simp] theorem State.descWrite64_lineEn (s : State) (a : Nat) (v : DAddr) : (s.descWrite64 a v).lineEn = s.lineEn := (rfl)
@[simp] theorem State.descWrite64_dev (s : State) (a : Nat) (v : DAddr) : (s.descWrite64 a v).dev = s.dev := (rfl)
@[simp] theorem State.descWrite64_script (s : State) (a : Nat) (v : DAddr) : (s.descWrite64 a v).script = s.script := (rfl)
@[simp] theorem State.descWrite64_draws (s : State) (a : Nat) (v : DAddr) : (s.descWrite64 a v).draws = s.draws := (rfl)
@[simp] theorem State.descWrite64_tick (s : State) (a : Nat) (v : DAddr) : (s.descWrite64 a v).tick = s.tick := (rfl)
@[simp] theorem State.descWrite64_cur (s : State) (a : Nat) (v : DAddr) : (s.descWrite64 a v).cur = s.cur := (rfl)
@[simp] theorem State.descWrite64_slice (s : State) (a : Nat) (v : DAddr) : (s.descWrite64 a v).slice = s.slice := (rfl)
@[simp] theorem State.descWrite64_ring (s : State) (a : Nat) (v : DAddr) (r : Ring) : (s.descWrite64 a v).ring r = s.ring r := (rfl)
@[simp] theorem State.descWrite64_full (s : State) (a : Nat) (v : DAddr) (r : Ring) : (s.descWrite64 a v).full r = s.full r := (rfl)
@[simp] theorem State.descWrite64_empty (s : State) (a : Nat) (v : DAddr) (r : Ring) : (s.descWrite64 a v).empty r = s.empty r := (rfl)
@[simp] theorem State.descWrite64_count (s : State) (a : Nat) (v : DAddr) (r : Ring) : (s.descWrite64 a v).count r = s.count r := (rfl)
@[simp] theorem State.descWrite64_freeSlots (s : State) (a : Nat) (v : DAddr) (r : Ring) : (s.descWrite64 a v).freeSlots r = s.freeSlots r := (rfl)
@[simp] theorem State.descWrite64_inWindow (s : State) (a : Nat) (v : DAddr) (r : Ring) (j : Nat) : (s.descWrite64 a v).inWindow r j = s.inWindow r j := (rfl)
@[simp] theorem State.descWrite64_pending (s : State) (a : Nat) (v : DAddr) (r : Ring) (j : Nat) : (s.descWrite64 a v).pending r j = s.pending r j := (rfl)
@[simp] theorem State.descWrite64_buffer (s : State) (a : Nat) (v : DAddr) (j : Nat) : (s.descWrite64 a v).buffer j = s.buffer j := (rfl)
@[simp] theorem State.descWrite64_handleOk (s : State) (a : Nat) (v : DAddr) (j : Nat) : (s.descWrite64 a v).handleOk j = s.handleOk j := (rfl)
@[simp] theorem State.descWrite64_sizeOk (s : State) (a : Nat) (v : DAddr) (z : Nat) : (s.descWrite64 a v).sizeOk z = s.sizeOk z := (rfl)
@[simp] theorem State.descWrite64_tooLong (s : State) (a : Nat) (v : DAddr) (z : Word) : (s.descWrite64 a v).tooLong z = s.tooLong z := (rfl)
@[simp] theorem State.descWrite64_lowestFree (s : State) (a : Nat) (v : DAddr) : (s.descWrite64 a v).lowestFree = s.lowestFree := (rfl)
@[simp] theorem State.descWrite64_bufByte (s : State) (a : Nat) (v : DAddr) (j z : Nat) : (s.descWrite64 a v).bufByte j z = s.bufByte j z := (rfl)
@[simp] theorem State.descWrite64_bufBytes (s : State) (a : Nat) (v : DAddr) (j z : Nat) : (s.descWrite64 a v).bufBytes j z = s.bufBytes j z := (rfl)
@[simp] theorem State.descWrite64_lane (s : State) (a : Nat) (v : DAddr) (d : Ctx) : (s.descWrite64 a v).lane? d = s.lane? d := (rfl)
@[simp] theorem State.descWrite64_idle (s : State) (a : Nat) (v : DAddr) (d : Ctx) : (s.descWrite64 a v).idle d = s.idle d := (rfl)
@[simp] theorem State.descWrite64_running (s : State) (a : Nat) (v : DAddr) (d : Ctx) : (s.descWrite64 a v).running d = s.running d := (rfl)

/-! ### bufWrite -/

@[simp] theorem State.bufWrite_cfg (s : State) (h o : Nat) (bs : List Byte) : (s.bufWrite h o bs).cfg = s.cfg := (rfl)
@[simp] theorem State.bufWrite_life (s : State) (h o : Nat) (bs : List Byte) : (s.bufWrite h o bs).life = s.life := (rfl)
@[simp] theorem State.bufWrite_rx (s : State) (h o : Nat) (bs : List Byte) : (s.bufWrite h o bs).rx = s.rx := (rfl)
@[simp] theorem State.bufWrite_tx (s : State) (h o : Nat) (bs : List Byte) : (s.bufWrite h o bs).tx = s.tx := (rfl)
@[simp] theorem State.bufWrite_pool (s : State) (h o : Nat) (bs : List Byte) : (s.bufWrite h o bs).pool = s.pool := (rfl)
@[simp] theorem State.bufWrite_isrLatch (s : State) (h o : Nat) (bs : List Byte) : (s.bufWrite h o bs).isrLatch = s.isrLatch := (rfl)
@[simp] theorem State.bufWrite_pollSched (s : State) (h o : Nat) (bs : List Byte) : (s.bufWrite h o bs).pollSched = s.pollSched := (rfl)
@[simp] theorem State.bufWrite_pollRunning (s : State) (h o : Nat) (bs : List Byte) : (s.bufWrite h o bs).pollRunning = s.pollRunning := (rfl)
@[simp] theorem State.bufWrite_txStopped (s : State) (h o : Nat) (bs : List Byte) : (s.bufWrite h o bs).txStopped = s.txStopped := (rfl)
@[simp] theorem State.bufWrite_txLock (s : State) (h o : Nat) (bs : List Byte) : (s.bufWrite h o bs).txLock = s.txLock := (rfl)
@[simp] theorem State.bufWrite_rxErr (s : State) (h o : Nat) (bs : List Byte) : (s.bufWrite h o bs).rxErr = s.rxErr := (rfl)
@[simp] theorem State.bufWrite_txErr (s : State) (h o : Nat) (bs : List Byte) : (s.bufWrite h o bs).txErr = s.txErr := (rfl)
@[simp] theorem State.bufWrite_lanes (s : State) (h o : Nat) (bs : List Byte) : (s.bufWrite h o bs).lanes = s.lanes := (rfl)
@[simp] theorem State.bufWrite_fault (s : State) (h o : Nat) (bs : List Byte) : (s.bufWrite h o bs).fault = s.fault := (rfl)
@[simp] theorem State.bufWrite_hist (s : State) (h o : Nat) (bs : List Byte) : (s.bufWrite h o bs).hist = s.hist := (rfl)
@[simp] theorem State.bufWrite_desc (s : State) (h o : Nat) (bs : List Byte) : (s.bufWrite h o bs).desc = s.desc := (rfl)
@[simp] theorem State.bufWrite_isr (s : State) (h o : Nat) (bs : List Byte) : (s.bufWrite h o bs).isr = s.isr := (rfl)
@[simp] theorem State.bufWrite_txctl (s : State) (h o : Nat) (bs : List Byte) : (s.bufWrite h o bs).txctl = s.txctl := (rfl)
@[simp] theorem State.bufWrite_rst (s : State) (h o : Nat) (bs : List Byte) : (s.bufWrite h o bs).rst = s.rst := (rfl)
@[simp] theorem State.bufWrite_lineEn (s : State) (h o : Nat) (bs : List Byte) : (s.bufWrite h o bs).lineEn = s.lineEn := (rfl)
@[simp] theorem State.bufWrite_dev (s : State) (h o : Nat) (bs : List Byte) : (s.bufWrite h o bs).dev = s.dev := (rfl)
@[simp] theorem State.bufWrite_script (s : State) (h o : Nat) (bs : List Byte) : (s.bufWrite h o bs).script = s.script := (rfl)
@[simp] theorem State.bufWrite_draws (s : State) (h o : Nat) (bs : List Byte) : (s.bufWrite h o bs).draws = s.draws := (rfl)
@[simp] theorem State.bufWrite_tick (s : State) (h o : Nat) (bs : List Byte) : (s.bufWrite h o bs).tick = s.tick := (rfl)
@[simp] theorem State.bufWrite_cur (s : State) (h o : Nat) (bs : List Byte) : (s.bufWrite h o bs).cur = s.cur := (rfl)
@[simp] theorem State.bufWrite_slice (s : State) (h o : Nat) (bs : List Byte) : (s.bufWrite h o bs).slice = s.slice := (rfl)
@[simp] theorem State.bufWrite_ring (s : State) (h o : Nat) (bs : List Byte) (r : Ring) : (s.bufWrite h o bs).ring r = s.ring r := (rfl)
@[simp] theorem State.bufWrite_full (s : State) (h o : Nat) (bs : List Byte) (r : Ring) : (s.bufWrite h o bs).full r = s.full r := (rfl)
@[simp] theorem State.bufWrite_empty (s : State) (h o : Nat) (bs : List Byte) (r : Ring) : (s.bufWrite h o bs).empty r = s.empty r := (rfl)
@[simp] theorem State.bufWrite_count (s : State) (h o : Nat) (bs : List Byte) (r : Ring) : (s.bufWrite h o bs).count r = s.count r := (rfl)
@[simp] theorem State.bufWrite_freeSlots (s : State) (h o : Nat) (bs : List Byte) (r : Ring) : (s.bufWrite h o bs).freeSlots r = s.freeSlots r := (rfl)
@[simp] theorem State.bufWrite_inWindow (s : State) (h o : Nat) (bs : List Byte) (r : Ring) (j : Nat) : (s.bufWrite h o bs).inWindow r j = s.inWindow r j := (rfl)
@[simp] theorem State.bufWrite_pending (s : State) (h o : Nat) (bs : List Byte) (r : Ring) (j : Nat) : (s.bufWrite h o bs).pending r j = s.pending r j := (rfl)
@[simp] theorem State.bufWrite_buffer (s : State) (h o : Nat) (bs : List Byte) (j : Nat) : (s.bufWrite h o bs).buffer j = s.buffer j := (rfl)
@[simp] theorem State.bufWrite_handleOk (s : State) (h o : Nat) (bs : List Byte) (j : Nat) : (s.bufWrite h o bs).handleOk j = s.handleOk j := (rfl)
@[simp] theorem State.bufWrite_sizeOk (s : State) (h o : Nat) (bs : List Byte) (z : Nat) : (s.bufWrite h o bs).sizeOk z = s.sizeOk z := (rfl)
@[simp] theorem State.bufWrite_tooLong (s : State) (h o : Nat) (bs : List Byte) (z : Word) : (s.bufWrite h o bs).tooLong z = s.tooLong z := (rfl)
@[simp] theorem State.bufWrite_lowestFree (s : State) (h o : Nat) (bs : List Byte) : (s.bufWrite h o bs).lowestFree = s.lowestFree := (rfl)
@[simp] theorem State.bufWrite_descByte (s : State) (h o : Nat) (bs : List Byte) (j : Nat) : (s.bufWrite h o bs).descByte j = s.descByte j := (rfl)
@[simp] theorem State.bufWrite_descRead32 (s : State) (h o : Nat) (bs : List Byte) (j : Nat) : (s.bufWrite h o bs).descRead32 j = s.descRead32 j := (rfl)
@[simp] theorem State.bufWrite_descRead64 (s : State) (h o : Nat) (bs : List Byte) (j : Nat) : (s.bufWrite h o bs).descRead64 j = s.descRead64 j := (rfl)
@[simp] theorem State.bufWrite_lane (s : State) (h o : Nat) (bs : List Byte) (d : Ctx) : (s.bufWrite h o bs).lane? d = s.lane? d := (rfl)
@[simp] theorem State.bufWrite_idle (s : State) (h o : Nat) (bs : List Byte) (d : Ctx) : (s.bufWrite h o bs).idle d = s.idle d := (rfl)
@[simp] theorem State.bufWrite_running (s : State) (h o : Nat) (bs : List Byte) (d : Ctx) : (s.bufWrite h o bs).running d = s.running d := (rfl)

/-! ### regWrite32 -/

@[simp] theorem State.regWrite32_cfg (s : State) (g : DevReg) (v : Word) : (s.regWrite32 g v).cfg = s.cfg := by cases g <;> first | rfl | (simp only [State.regWrite32]; split <;> rfl)
@[simp] theorem State.regWrite32_life (s : State) (g : DevReg) (v : Word) : (s.regWrite32 g v).life = s.life := by cases g <;> first | rfl | (simp only [State.regWrite32]; split <;> rfl)
@[simp] theorem State.regWrite32_rx (s : State) (g : DevReg) (v : Word) : (s.regWrite32 g v).rx = s.rx := by cases g <;> first | rfl | (simp only [State.regWrite32]; split <;> rfl)
@[simp] theorem State.regWrite32_tx (s : State) (g : DevReg) (v : Word) : (s.regWrite32 g v).tx = s.tx := by cases g <;> first | rfl | (simp only [State.regWrite32]; split <;> rfl)
@[simp] theorem State.regWrite32_pool (s : State) (g : DevReg) (v : Word) : (s.regWrite32 g v).pool = s.pool := by cases g <;> first | rfl | (simp only [State.regWrite32]; split <;> rfl)
@[simp] theorem State.regWrite32_isrLatch (s : State) (g : DevReg) (v : Word) : (s.regWrite32 g v).isrLatch = s.isrLatch := by cases g <;> first | rfl | (simp only [State.regWrite32]; split <;> rfl)
@[simp] theorem State.regWrite32_pollSched (s : State) (g : DevReg) (v : Word) : (s.regWrite32 g v).pollSched = s.pollSched := by cases g <;> first | rfl | (simp only [State.regWrite32]; split <;> rfl)
@[simp] theorem State.regWrite32_pollRunning (s : State) (g : DevReg) (v : Word) : (s.regWrite32 g v).pollRunning = s.pollRunning := by cases g <;> first | rfl | (simp only [State.regWrite32]; split <;> rfl)
@[simp] theorem State.regWrite32_txStopped (s : State) (g : DevReg) (v : Word) : (s.regWrite32 g v).txStopped = s.txStopped := by cases g <;> first | rfl | (simp only [State.regWrite32]; split <;> rfl)
@[simp] theorem State.regWrite32_txLock (s : State) (g : DevReg) (v : Word) : (s.regWrite32 g v).txLock = s.txLock := by cases g <;> first | rfl | (simp only [State.regWrite32]; split <;> rfl)
@[simp] theorem State.regWrite32_rxErr (s : State) (g : DevReg) (v : Word) : (s.regWrite32 g v).rxErr = s.rxErr := by cases g <;> first | rfl | (simp only [State.regWrite32]; split <;> rfl)
@[simp] theorem State.regWrite32_txErr (s : State) (g : DevReg) (v : Word) : (s.regWrite32 g v).txErr = s.txErr := by cases g <;> first | rfl | (simp only [State.regWrite32]; split <;> rfl)
@[simp] theorem State.regWrite32_lanes (s : State) (g : DevReg) (v : Word) : (s.regWrite32 g v).lanes = s.lanes := by cases g <;> first | rfl | (simp only [State.regWrite32]; split <;> rfl)
@[simp] theorem State.regWrite32_fault (s : State) (g : DevReg) (v : Word) : (s.regWrite32 g v).fault = s.fault := by cases g <;> first | rfl | (simp only [State.regWrite32]; split <;> rfl)
@[simp] theorem State.regWrite32_hist (s : State) (g : DevReg) (v : Word) : (s.regWrite32 g v).hist = s.hist := by cases g <;> first | rfl | (simp only [State.regWrite32]; split <;> rfl)
@[simp] theorem State.regWrite32_desc (s : State) (g : DevReg) (v : Word) : (s.regWrite32 g v).desc = s.desc := by cases g <;> first | rfl | (simp only [State.regWrite32]; split <;> rfl)
@[simp] theorem State.regWrite32_buf (s : State) (g : DevReg) (v : Word) : (s.regWrite32 g v).buf = s.buf := by cases g <;> first | rfl | (simp only [State.regWrite32]; split <;> rfl)
@[simp] theorem State.regWrite32_txctl (s : State) (g : DevReg) (v : Word) : (s.regWrite32 g v).txctl = s.txctl := by cases g <;> first | rfl | (simp only [State.regWrite32]; split <;> rfl)
@[simp] theorem State.regWrite32_lineEn (s : State) (g : DevReg) (v : Word) : (s.regWrite32 g v).lineEn = s.lineEn := by cases g <;> first | rfl | (simp only [State.regWrite32]; split <;> rfl)
@[simp] theorem State.regWrite32_dev (s : State) (g : DevReg) (v : Word) : (s.regWrite32 g v).dev = s.dev := by cases g <;> first | rfl | (simp only [State.regWrite32]; split <;> rfl)
@[simp] theorem State.regWrite32_script (s : State) (g : DevReg) (v : Word) : (s.regWrite32 g v).script = s.script := by cases g <;> first | rfl | (simp only [State.regWrite32]; split <;> rfl)
@[simp] theorem State.regWrite32_draws (s : State) (g : DevReg) (v : Word) : (s.regWrite32 g v).draws = s.draws := by cases g <;> first | rfl | (simp only [State.regWrite32]; split <;> rfl)
@[simp] theorem State.regWrite32_tick (s : State) (g : DevReg) (v : Word) : (s.regWrite32 g v).tick = s.tick := by cases g <;> first | rfl | (simp only [State.regWrite32]; split <;> rfl)
@[simp] theorem State.regWrite32_cur (s : State) (g : DevReg) (v : Word) : (s.regWrite32 g v).cur = s.cur := by cases g <;> first | rfl | (simp only [State.regWrite32]; split <;> rfl)
@[simp] theorem State.regWrite32_slice (s : State) (g : DevReg) (v : Word) : (s.regWrite32 g v).slice = s.slice := by cases g <;> first | rfl | (simp only [State.regWrite32]; split <;> rfl)
@[simp] theorem State.regWrite32_ring (s : State) (g : DevReg) (v : Word) (r : Ring) : (s.regWrite32 g v).ring r = s.ring r := by cases r <;> simp [State.ring]
@[simp] theorem State.regWrite32_full (s : State) (g : DevReg) (v : Word) (r : Ring) : (s.regWrite32 g v).full r = s.full r := by simp [State.full]
@[simp] theorem State.regWrite32_empty (s : State) (g : DevReg) (v : Word) (r : Ring) : (s.regWrite32 g v).empty r = s.empty r := by simp [State.empty]
@[simp] theorem State.regWrite32_count (s : State) (g : DevReg) (v : Word) (r : Ring) : (s.regWrite32 g v).count r = s.count r := by simp [State.count]
@[simp] theorem State.regWrite32_freeSlots (s : State) (g : DevReg) (v : Word) (r : Ring) : (s.regWrite32 g v).freeSlots r = s.freeSlots r := by simp [State.freeSlots]
@[simp] theorem State.regWrite32_inWindow (s : State) (g : DevReg) (v : Word) (r : Ring) (j : Nat) : (s.regWrite32 g v).inWindow r j = s.inWindow r j := by simp [State.inWindow]
@[simp] theorem State.regWrite32_pending (s : State) (g : DevReg) (v : Word) (r : Ring) (j : Nat) : (s.regWrite32 g v).pending r j = s.pending r j := by simp [State.pending]
@[simp] theorem State.regWrite32_buffer (s : State) (g : DevReg) (v : Word) (j : Nat) : (s.regWrite32 g v).buffer j = s.buffer j := by simp [State.buffer]
@[simp] theorem State.regWrite32_handleOk (s : State) (g : DevReg) (v : Word) (j : Nat) : (s.regWrite32 g v).handleOk j = s.handleOk j := by simp [State.handleOk]
@[simp] theorem State.regWrite32_sizeOk (s : State) (g : DevReg) (v : Word) (z : Nat) : (s.regWrite32 g v).sizeOk z = s.sizeOk z := by simp [State.sizeOk]
@[simp] theorem State.regWrite32_tooLong (s : State) (g : DevReg) (v : Word) (z : Word) : (s.regWrite32 g v).tooLong z = s.tooLong z := by simp [State.tooLong]
@[simp] theorem State.regWrite32_lowestFree (s : State) (g : DevReg) (v : Word) : (s.regWrite32 g v).lowestFree = s.lowestFree := by simp [State.lowestFree]
@[simp] theorem State.regWrite32_descByte (s : State) (g : DevReg) (v : Word) (j : Nat) : (s.regWrite32 g v).descByte j = s.descByte j := by simp [State.descByte]
@[simp] theorem State.regWrite32_descRead32 (s : State) (g : DevReg) (v : Word) (j : Nat) : (s.regWrite32 g v).descRead32 j = s.descRead32 j := by simp [State.descRead32]
@[simp] theorem State.regWrite32_descRead64 (s : State) (g : DevReg) (v : Word) (j : Nat) : (s.regWrite32 g v).descRead64 j = s.descRead64 j := by simp [State.descRead64]
@[simp] theorem State.regWrite32_bufByte (s : State) (g : DevReg) (v : Word) (j z : Nat) : (s.regWrite32 g v).bufByte j z = s.bufByte j z := by simp [State.bufByte]
@[simp] theorem State.regWrite32_bufBytes (s : State) (g : DevReg) (v : Word) (j z : Nat) : (s.regWrite32 g v).bufBytes j z = s.bufBytes j z := by simp [State.bufBytes]
@[simp] theorem State.regWrite32_lane (s : State) (g : DevReg) (v : Word) (d : Ctx) : (s.regWrite32 g v).lane? d = s.lane? d := by cases d <;> simp [State.lane?]
@[simp] theorem State.regWrite32_idle (s : State) (g : DevReg) (v : Word) (d : Ctx) : (s.regWrite32 g v).idle d = s.idle d := by simp [State.idle]
@[simp] theorem State.regWrite32_running (s : State) (g : DevReg) (v : Word) (d : Ctx) : (s.regWrite32 g v).running d = s.running d := by simp [State.running]

end Sys2Proof.Machine
end

