-- ==== Sys2Proof/Laws/Memory.lean ====
section
/-! SUPPORT. The laws of memory: a read after a write, the canonical form, and the little-endian accesses of
descriptor memory (20_memory R61, R62, R64). -/

namespace Sys2Proof.Machine

/-! ## Bytes -/

theorem Memory.get?_set (m : Memory) (a c : Nat) (b : Byte) :
    Memory.get? (Memory.set m a b) c = if c = a then some b else Memory.get? m c := by
  induction m with
  | nil => simp [Memory.set, Memory.get?]
  | cons e m ih =>
    obtain ⟨x, y⟩ := e
    simp only [Memory.set]
    split
    · simp [Memory.get?]
    · split
      · subst_vars
        simp only [Memory.get?]
        split <;> rfl
      · simp only [Memory.get?, ih]
        by_cases hcx : c = x
        · have : c ≠ a := by omega
          simp [hcx]
          omega
        · simp [hcx]

@[simp] theorem Memory.get?_set_same (m : Memory) (a : Nat) (b : Byte) :
    Memory.get? (Memory.set m a b) a = some b := by simp [Memory.get?_set]

theorem Memory.get?_set_ne (m : Memory) {a c : Nat} (b : Byte) (h : c ≠ a) :
    Memory.get? (Memory.set m a b) c = Memory.get? m c := by simp [Memory.get?_set, h]

/-- A byte after a run of writes: the one written there, else the one that stood there. -/
theorem Memory.get?_write (bs : List Byte) : ∀ (m : Memory) (a c : Nat),
    Memory.get? (Memory.write m a bs) c = if a ≤ c ∧ c < a + bs.length then bs[c - a]? else Memory.get? m c := by
  induction bs with
  | nil => intro m a c; simp only [Memory.write, List.length_nil]; rw [if_neg (by omega)]
  | cons b bs ih =>
    intro m a c
    simp only [Memory.write, ih, Memory.get?_set, List.length_cons]
    by_cases hca : c = a
    · subst hca; simp
    · by_cases hlt : a + 1 ≤ c ∧ c < a + 1 + bs.length
      · rw [if_pos hlt, if_pos (by omega)]
        have : c - a = (c - (a + 1)) + 1 := by omega
        rw [this, List.getElem?_cons_succ]
      · rw [if_neg hlt, if_neg hca, if_neg (by omega)]

theorem Memory.get?_write_outside (m : Memory) (a c : Nat) (bs : List Byte) (h : c < a ∨ a + bs.length ≤ c) :
    Memory.get? (Memory.write m a bs) c = Memory.get? m c := by
  rw [Memory.get?_write, if_neg (by omega)]

/-! ## The canonical form -/

/-- Every address of a canonical memory lies above a bound below its first address. -/
theorem Memory.wf_cons (a : Nat) (b : Byte) (m : Memory) :
    Memory.wf ((a, b) :: m) = true ↔ Memory.wf m = true ∧ ∀ x y, (x, y) ∈ m → a < x := by
  induction m generalizing a b with
  | nil => simp [Memory.wf]
  | cons e m ih =>
    obtain ⟨c, d⟩ := e
    rw [show Memory.wf ((a, b) :: (c, d) :: m) = (decide (a < c) && Memory.wf ((c, d) :: m)) from rfl,
      Bool.and_eq_true, decide_eq_true_iff]
    constructor
    · rintro ⟨hac, hw⟩
      refine ⟨hw, fun x y hxy => ?_⟩
      rcases List.mem_cons.mp hxy with he | hm
      · cases he; exact hac
      · exact Nat.lt_trans hac (((ih c d).mp hw).2 x y hm)
    · rintro ⟨hw, hall⟩
      exact ⟨hall c d (by simp), hw⟩

theorem Memory.mem_set {m : Memory} {a x : Nat} {b y : Byte} (h : (x, y) ∈ Memory.set m a b) :
    x = a ∨ ∃ z, (x, z) ∈ m := by
  induction m with
  | nil => simp [Memory.set] at h; exact .inl h.1
  | cons e m ih =>
    obtain ⟨c, d⟩ := e
    simp only [Memory.set] at h
    split at h
    · rcases List.mem_cons.mp h with he | hm
      · cases he; exact .inl rfl
      · exact .inr ⟨y, hm⟩
    · split at h
      · rcases List.mem_cons.mp h with he | hm
        · cases he; exact .inl rfl
        · exact .inr ⟨y, List.mem_cons_of_mem _ hm⟩
      · rcases List.mem_cons.mp h with he | hm
        · cases he; exact .inr ⟨y, by simp⟩
        · rcases ih hm with rfl | ⟨z, hz⟩
          · exact .inl rfl
          · exact .inr ⟨z, List.mem_cons_of_mem _ hz⟩

/-- Writing a byte keeps the canonical form. -/
theorem Memory.wf_set {m : Memory} (a : Nat) (b : Byte) (h : Memory.wf m = true) :
    Memory.wf (Memory.set m a b) = true := by
  induction m with
  | nil => rfl
  | cons e m ih =>
    obtain ⟨c, d⟩ := e
    obtain ⟨hm, hall⟩ := (Memory.wf_cons c d m).mp h
    simp only [Memory.set]
    split
    · rename_i hac
      refine (Memory.wf_cons a b _).mpr ⟨h, fun x y hxy => ?_⟩
      rcases List.mem_cons.mp hxy with he | hxm
      · cases he; exact hac
      · exact Nat.lt_trans hac (hall x y hxm)
    · split
      · subst_vars; exact (Memory.wf_cons _ b m).mpr ⟨hm, hall⟩
      · refine (Memory.wf_cons c d _).mpr ⟨ih hm, fun x y hxy => ?_⟩
        rcases Memory.mem_set hxy with rfl | ⟨z, hz⟩
        · omega
        · exact hall x z hz

/-- Writing bytes keeps the canonical form. -/
theorem Memory.wf_write (bs : List Byte) : ∀ (m : Memory) (a : Nat), Memory.wf m = true →
    Memory.wf (Memory.write m a bs) = true := by
  induction bs with
  | nil => intro m a h; exact h
  | cons b bs ih => intro m a h; exact ih _ _ (Memory.wf_set a b h)

theorem State.descWrite32_wf {s : State} (a : Nat) (v : Word) (h : Memory.wf s.desc = true) :
    Memory.wf (s.descWrite32 a v).desc = true := Memory.wf_write _ _ _ h

theorem State.descWrite64_wf {s : State} (a : Nat) (v : DAddr) (h : Memory.wf s.desc = true) :
    Memory.wf (s.descWrite64 a v).desc = true := Memory.wf_write _ _ _ h

theorem State.bufWrite_wf {s : State} (h o : Nat) (bs : List Byte) (hw : Memory.wf s.buf = true) :
    Memory.wf (s.bufWrite h o bs).buf = true := Memory.wf_write _ _ _ hw

/-! ## Little-endian accesses of descriptor memory -/

@[simp] theorem leBytes32_length (v : Word) : (leBytes32 v).length = 4 := (rfl)

@[simp] theorem leBytes64_length (v : DAddr) : (leBytes64 v).length = 8 := (rfl)

/-- A word is the concatenation of its bytes. -/
theorem leBytes32_join (v : Word) :
    v.extractLsb' 24 8 ++ v.extractLsb' 16 8 ++ v.extractLsb' 8 8 ++ v.extractLsb' 0 8 = v := by
  apply BitVec.eq_of_toNat_eq
  simp only [BitVec.toNat_append, BitVec.extractLsb'_toNat, Nat.shiftRight_eq_div_pow]
  have h (x y : Nat) (hy : y < 2 ^ 8) : x <<< 8 ||| y = x * 2 ^ 8 + y := by
    rw [← Nat.shiftLeft_add_eq_or_of_lt hy, Nat.shiftLeft_eq]
  have hv := v.isLt
  rw [h _ _ (Nat.mod_lt _ (by decide)), h _ _ (Nat.mod_lt _ (by decide)), h _ _ (Nat.mod_lt _ (by decide))]
  omega

/-- A 64-bit value is the concatenation of its words. -/
theorem leWords_join (v : DAddr) : v.extractLsb' 32 32 ++ v.extractLsb' 0 32 = v := by
  apply BitVec.eq_of_toNat_eq
  simp only [BitVec.toNat_append, BitVec.extractLsb'_toNat, Nat.shiftRight_eq_div_pow]
  have h (x y : Nat) (hy : y < 2 ^ 32) : x <<< 32 ||| y = x * 2 ^ 32 + y := by
    rw [← Nat.shiftLeft_add_eq_or_of_lt hy, Nat.shiftLeft_eq]
  have hv := v.isLt
  rw [h _ _ (Nat.mod_lt _ (by decide))]
  omega

/-- A byte after a 4-byte write. -/
theorem State.descByte_descWrite32 (s : State) (a c : Nat) (v : Word) :
    (s.descWrite32 a v).descByte c
      = if a ≤ c ∧ c < a + 4 then (leBytes32 v)[c - a]?.getD 0 else s.descByte c := by
  simp only [State.descByte, State.descWrite32, Memory.get?_write, leBytes32_length]
  by_cases h : a ≤ c ∧ c < a + 4
  · have hl : c - a < (leBytes32 v).length := by simp; omega
    rw [if_pos h, if_pos h, List.getElem?_eq_getElem hl]
    rfl
  · rw [if_neg h, if_neg h]

/-- A byte after an 8-byte write. -/
theorem State.descByte_descWrite64 (s : State) (a c : Nat) (v : DAddr) :
    (s.descWrite64 a v).descByte c
      = if a ≤ c ∧ c < a + 8 then (leBytes64 v)[c - a]?.getD 0 else s.descByte c := by
  simp only [State.descByte, State.descWrite64, Memory.get?_write, leBytes64_length]
  by_cases h : a ≤ c ∧ c < a + 8
  · have hl : c - a < (leBytes64 v).length := by simp; omega
    rw [if_pos h, if_pos h, List.getElem?_eq_getElem hl]
    rfl
  · rw [if_neg h, if_neg h]

/-- A byte outside a 4-byte write is as before. -/
theorem State.descByte_descWrite32_outside (s : State) {a c : Nat} (v : Word) (h : c < a ∨ a + 4 ≤ c) :
    (s.descWrite32 a v).descByte c = s.descByte c := by
  rw [State.descByte_descWrite32, if_neg (by omega)]

/-- A byte outside an 8-byte write is as before. -/
theorem State.descByte_descWrite64_outside (s : State) {a c : Nat} (v : DAddr) (h : c < a ∨ a + 8 ≤ c) :
    (s.descWrite64 a v).descByte c = s.descByte c := by
  rw [State.descByte_descWrite64, if_neg (by omega)]

@[simp] theorem State.descRead32_descWrite32_same (s : State) (a : Nat) (v : Word) :
    (s.descWrite32 a v).descRead32 a = v := by
  conv_rhs => rw [← leBytes32_join v]
  simp only [State.descRead32, State.descByte_descWrite32]
  simp [leBytes32]

theorem State.descRead32_descWrite32_apart (s : State) {a c : Nat} (v : Word) (h : c + 4 ≤ a ∨ a + 4 ≤ c) :
    (s.descWrite32 a v).descRead32 c = s.descRead32 c := by
  simp only [State.descRead32]
  rw [s.descByte_descWrite32_outside v (by omega), s.descByte_descWrite32_outside v (by omega),
    s.descByte_descWrite32_outside v (by omega), s.descByte_descWrite32_outside v (by omega)]

theorem State.descRead32_descWrite64_apart (s : State) {a c : Nat} (v : DAddr) (h : c + 4 ≤ a ∨ a + 8 ≤ c) :
    (s.descWrite64 a v).descRead32 c = s.descRead32 c := by
  simp only [State.descRead32]
  rw [s.descByte_descWrite64_outside v (by omega), s.descByte_descWrite64_outside v (by omega),
    s.descByte_descWrite64_outside v (by omega), s.descByte_descWrite64_outside v (by omega)]

@[simp] theorem State.descRead64_descWrite64_same (s : State) (a : Nat) (v : DAddr) :
    (s.descWrite64 a v).descRead64 a = v := by
  have lo : (s.descWrite64 a v).descRead32 a = v.extractLsb' 0 32 := by
    conv_rhs => rw [← leBytes32_join (v.extractLsb' 0 32)]
    simp only [State.descRead32, State.descByte_descWrite64]
    simp [leBytes64, leBytes32]
  have hi : (s.descWrite64 a v).descRead32 (a + 4) = v.extractLsb' 32 32 := by
    conv_rhs => rw [← leBytes32_join (v.extractLsb' 32 32)]
    simp only [State.descRead32, State.descByte_descWrite64]
    simp [leBytes64, leBytes32, Nat.add_assoc]
  rw [State.descRead64, lo, hi]
  exact leWords_join v

theorem State.descRead64_descWrite32_apart (s : State) {a c : Nat} (v : Word) (h : c + 8 ≤ a ∨ a + 4 ≤ c) :
    (s.descWrite32 a v).descRead64 c = s.descRead64 c := by
  simp only [State.descRead64]
  rw [s.descRead32_descWrite32_apart v (by omega), s.descRead32_descWrite32_apart v (by omega)]

theorem State.descRead64_descWrite64_apart (s : State) {a c : Nat} (v : DAddr) (h : c + 8 ≤ a ∨ a + 8 ≤ c) :
    (s.descWrite64 a v).descRead64 c = s.descRead64 c := by
  simp only [State.descRead64]
  rw [s.descRead32_descWrite64_apart v (by omega), s.descRead32_descWrite64_apart v (by omega)]

/-! ## Buffer memory -/

/-- A buffer byte after a write into a buffer. -/
theorem State.bufByte_bufWrite (s : State) (h o j k : Nat) (bs : List Byte) :
    (s.bufWrite h o bs).bufByte j k
      = if bufKey h o ≤ bufKey j k ∧ bufKey j k < bufKey h o + bs.length
        then bs[bufKey j k - bufKey h o]?.getD 0 else s.bufByte j k := by
  simp only [State.bufByte, State.bufWrite, Memory.get?_write]
  by_cases hr : bufKey h o ≤ bufKey j k ∧ bufKey j k < bufKey h o + bs.length
  · have hl : bufKey j k - bufKey h o < bs.length := by omega
    rw [if_pos hr, if_pos hr, List.getElem?_eq_getElem hl]
    rfl
  · rw [if_neg hr, if_neg hr]

/-- A write inside one buffer leaves every other buffer's bytes alone. -/
theorem State.bufByte_bufWrite_other (s : State) {h o j k : Nat} (bs : List Byte) (hj : j ≠ h) (hk : k < 2 ^ 16)
    (ho : o + bs.length ≤ 2 ^ 16) : (s.bufWrite h o bs).bufByte j k = s.bufByte j k := by
  rw [State.bufByte_bufWrite, if_neg]
  simp only [bufKey]
  rcases Nat.lt_or_gt_of_ne hj with hlt | hgt
  · have : (j + 1) * 2 ^ 16 ≤ h * 2 ^ 16 := Nat.mul_le_mul_right _ hlt
    omega
  · have : (h + 1) * 2 ^ 16 ≤ j * 2 ^ 16 := Nat.mul_le_mul_right _ hgt
    omega

end Sys2Proof.Machine
end

