-- ==== Sys2Proof/Laws/Ops.lean ====
section
/-! SUPPORT. What the named updates do: one lemma per shared operation, which later proofs cite. -/

namespace Sys2Proof.Machine

/-! ## Rings -/

theorem State.ring_setRing (s : State) (q r : Ring) (x : RingRegs) :
    (s.setRing q x).ring r = if r = q then x else s.ring r := by cases q <;> cases r <;> rfl

@[simp] theorem State.ring_setHead_same (s : State) (r : Ring) (i : Nat) :
    (s.setHead r i).ring r = { s.ring r with head := i } := by cases r <;> rfl

@[simp] theorem State.ring_setTail_same (s : State) (r : Ring) (i : Nat) :
    (s.setTail r i).ring r = { s.ring r with tail := i } := by cases r <;> rfl

@[simp] theorem State.ring_setPending_same (s : State) (r : Ring) (i : Nat) (e : Option (Nat × DAddr)) :
    (s.setPending r i e).ring r = { s.ring r with pend := (s.ring r).pend.set i e } := by cases r <;> rfl

theorem State.ring_setHead_other (s : State) {q r : Ring} (i : Nat) (h : r ≠ q) :
    (s.setHead q i).ring r = s.ring r := by simp [State.setHead, State.ring_setRing, h]

theorem State.ring_setTail_other (s : State) {q r : Ring} (i : Nat) (h : r ≠ q) :
    (s.setTail q i).ring r = s.ring r := by simp [State.setTail, State.ring_setRing, h]

theorem State.ring_setPending_other (s : State) {q r : Ring} (i : Nat) (e : Option (Nat × DAddr)) (h : r ≠ q) :
    (s.setPending q i e).ring r = s.ring r := by simp [State.setPending, State.ring_setRing, h]

/-- A pending entry after one was set. -/
theorem State.pending_setPending (s : State) (q r : Ring) (i j : Nat) (e : Option (Nat × DAddr)) :
    (s.setPending q i e).pending r j
      = if r = q ∧ j = i ∧ i < (s.ring q).pend.length then e else s.pending r j := by
  by_cases hr : r = q
  · subst hr
    simp only [State.pending, State.ring_setPending_same, List.getD_eq_getElem?_getD, List.getElem?_set,
      true_and]
    by_cases hj : i = j
    · subst hj
      by_cases hl : i < (s.ring r).pend.length
      · simp [hl]
      · simp [hl]
    · simp [hj, Ne.symm hj]
  · simp [State.pending, State.ring_setPending_other s i e hr, hr]

/-! ## The pool -/

@[simp] theorem State.pool_length_setBuffer (s : State) (h : Nat) (e : PoolEntry) :
    (s.setBuffer h e).pool.length = s.pool.length := by simp [State.setBuffer]

/-- A pool entry after one was set. -/
theorem State.buffer_setBuffer (s : State) (h j : Nat) (e : PoolEntry) :
    (s.setBuffer h e).buffer j = if j = h ∧ h < s.pool.length then e else s.buffer j := by
  simp only [State.buffer, State.setBuffer, List.getD_eq_getElem?_getD, List.getElem?_set]
  by_cases hj : h = j
  · subst hj
    by_cases hl : h < s.pool.length
    · simp [hl]
    · simp [hl]
  · simp [hj, Ne.symm hj]

theorem State.buffer_setBuffer_same (s : State) {h : Nat} (e : PoolEntry) (hl : h < s.pool.length) :
    (s.setBuffer h e).buffer h = e := by simp [State.buffer_setBuffer, hl]

theorem State.buffer_setBuffer_other (s : State) {h j : Nat} (e : PoolEntry) (hj : j ≠ h) :
    (s.setBuffer h e).buffer j = s.buffer j := by simp [State.buffer_setBuffer, hj]

@[simp] theorem State.setBuffer_setBuffer (s : State) (h : Nat) (e f : PoolEntry) :
    (s.setBuffer h e).setBuffer h f = s.setBuffer h f := by simp [State.setBuffer]

/-- `lowestFree` answers the least free handle (R110). -/
theorem State.lowestFree_eq_some {s : State} {h : Nat} :
    s.lowestFree = some h ↔
      h < s.cfg.poolSize ∧ (s.buffer h).own = .free ∧ ∀ j, j < h → (s.buffer j).own ≠ .free := by
  simp only [State.lowestFree, List.find?_range_eq_some, beq_iff_eq, Bool.not_eq_true', List.mem_range]
  constructor
  · rintro ⟨h1, h2, h3⟩
    exact ⟨h2, h1, fun j hj => by simpa using h3 j hj⟩
  · rintro ⟨h1, h2, h3⟩
    exact ⟨h2, h1, fun j hj => by simpa using h3 j hj⟩

/-- `lowestFree` fails exactly when no buffer is free (R110). -/
theorem State.lowestFree_eq_none {s : State} :
    s.lowestFree = none ↔ ∀ h, h < s.cfg.poolSize → (s.buffer h).own ≠ .free := by
  simp [State.lowestFree]

/-- What `pool_acquire` can do (R110). -/
theorem State.poolAcquire_eq_some {s s' : State} {size h : Nat} {o : Own}
    (hs : s.poolAcquire size o = some (h, s')) :
    size ≤ s.cfg.bufSize ∧ s.lowestFree = some h ∧ s' = s.setBuffer h ⟨o, BitVec.ofNat 16 size, none⟩ := by
  simp only [State.poolAcquire, State.sizeOk, decide_eq_true_eq] at hs
  split at hs
  · rename_i hle
    split at hs
    · rename_i j hj
      cases hs
      exact ⟨hle, hj, rfl⟩
    · cases hs
  · cases hs

/-- What `pool_release` can do (R112). -/
theorem State.poolRelease_eq_some {s s' : State} {h : Nat} (hs : s.poolRelease h = some s') :
    h < s.cfg.poolSize ∧ (s.buffer h).own ≠ .free ∧ (s.buffer h).map = none
      ∧ s' = s.setBuffer h { s.buffer h with own := .free } := by
  simp only [State.poolRelease] at hs
  split at hs
  · rename_i hc
    cases hs
    exact ⟨hc.1, hc.2.1, hc.2.2, rfl⟩
  · cases hs

/-- What UNMAP can do (R115). -/
theorem State.unmapBuffer_eq_some {s s' : State} {h : Nat} {d : Dir} (hs : s.unmapBuffer h d = some s') :
    h < s.cfg.poolSize ∧ (s.buffer h).map = some d ∧ s' = s.setBuffer h { s.buffer h with map := none } := by
  simp only [State.unmapBuffer] at hs
  split at hs
  · rename_i hc
    cases hs
    exact ⟨hc.1, hc.2, rfl⟩
  · cases hs

/-! ## Contexts -/

theorem State.lane?_setLane_same (s : State) {c : Ctx} {l : Lane} (m : Lane) (h : s.lane? c = some l) :
    (s.setLane c m).lane? c = some m := by
  cases c with
  | up k =>
    simp only [State.lane?] at h
    have hk : k < s.lanes.up.length := by
      by_contra hn
      rw [List.getElem?_eq_none (by omega)] at h
      cases h
    simp [State.lane?, State.setLane, hk]
  | _ => rfl

theorem State.lane?_setLane_other (s : State) {c d : Ctx} (m : Lane) (h : d ≠ c) :
    (s.setLane c m).lane? d = s.lane? d := by
  cases c <;> cases d <;> first | rfl | exact absurd rfl h | skip
  rename_i k j
  have hjk : k ≠ j := fun he => h (by rw [he])
  simp [State.lane?, State.setLane, hjk]

theorem State.setLane_setLane (s : State) (c : Ctx) (l m : Lane) : (s.setLane c l).setLane c m = s.setLane c m := by
  cases c <;> simp [State.setLane]

/-- A lane set to what it is changes nothing. -/
theorem State.setLane_self (s : State) {c : Ctx} {l : Lane} (h : s.lane? c = some l) : s.setLane c l = s := by
  cases c with
  | up k =>
    simp only [State.lane?] at h
    have hset : s.lanes.up.set k l = s.lanes.up := by
      apply List.ext_getElem?
      intro j
      rw [List.getElem?_set]
      split
      · subst_vars
        split
        · rw [h]
        · rw [List.getElem?_eq_none (by omega)]
      · rfl
    simp [State.setLane, hset]
  | _ =>
    simp only [State.lane?, Option.some.injEq] at h
    subst h
    rfl

/-- A continuation after one was set. -/
theorem State.lane?_setCont_same (s : State) {c : Ctx} {l : Lane} (k : Cont) (h : s.lane? c = some l) :
    (s.setCont c k).lane? c = some { l with cont := k } := by
  simp only [State.setCont, h]
  exact s.lane?_setLane_same _ h

theorem State.lane?_setCont_other (s : State) {c d : Ctx} (k : Cont) (h : d ≠ c) :
    (s.setCont c k).lane? d = s.lane? d := by
  unfold State.setCont
  split
  · exact s.lane?_setLane_other _ h
  · rfl

@[simp] theorem State.setCont_setCont (s : State) (c : Ctx) (j k : Cont) :
    (s.setCont c j).setCont c k = s.setCont c k := by
  cases hl : s.lane? c with
  | none => simp only [State.setCont, hl]
  | some l =>
    have h2 := s.lane?_setCont_same j hl
    have : s.setCont c j = s.setLane c { l with cont := j } := by simp only [State.setCont, hl]
    rw [State.setCont, h2]
    simp only [this, State.setLane_setLane]
    simp only [State.setCont, hl]

/-- An idle context made idle again is as it was. -/
theorem State.setCont_idle (s : State) {c : Ctx} (h : s.idle c = true) : s.setCont c .idle = s := by
  unfold State.idle at h
  split at h
  · rename_i q hq
    rw [State.setCont, hq]
    exact s.setLane_self hq
  · cases h

/-- An idle context has a lane. -/
theorem State.idle_lane {s : State} {c : Ctx} (h : s.idle c = true) : ∃ q, s.lane? c = some ⟨.idle, q⟩ := by
  unfold State.idle at h
  split at h
  · rename_i q hq
    exact ⟨q, hq⟩
  · cases h

/-- Setting a continuation touches the lanes only. -/
theorem State.setCont_eq_lanes (s : State) (c : Ctx) (k : Cont) :
    s.setCont c k = { s with lanes := (s.setCont c k).lanes } := by
  unfold State.setCont
  split
  · cases c <;> rfl
  · rfl

/-! ## Faults and events -/

/-- The fault set never shrinks (R42). -/
theorem State.raise_fault (s : State) (f : Fault) :
    (s.raise f).fault = ⟨s.fault.dmaUnmapped || f == .dmaUnmapped, s.fault.pendEmpty || f == .pendEmpty,
      s.fault.pool || f == .pool⟩ := by
  cases f <;> simp [State.raise]

@[simp] theorem State.emit_hist (s : State) (e : Event) : (s.emit e).hist = s.hist ++ [e] := rfl

@[simp] theorem State.respond_hist (s : State) (c : Ctx) (k : Code) (n : Nat) :
    (s.respond c k n).hist = s.hist ++ [.resp c (respWord k n)] := rfl

@[simp] theorem State.barrier_eq (s : State) : s.barrier = s := rfl

end Sys2Proof.Machine
end

