-- ==== Sys2Proof/Laws/Schedule.lean ====
section
/-! SUPPORT. A micro-step neither reads nor writes the contexts' own lanes, so an operation can be followed
without them: `taskRun` is a slice of one operation, `issue_start` what a command comes to. -/

namespace Sys2Proof.Machine

/-- The state with other lanes. -/
def State.putLanes (s : State) (l : Lanes) : State := { s with lanes := l }

/-! ## Lanes are independent of every named operation -/

@[simp] theorem State.putLanes_cfg (s : State) (l : Lanes) : (s.putLanes l).cfg = s.cfg := (rfl)
@[simp] theorem State.putLanes_life (s : State) (l : Lanes) : (s.putLanes l).life = s.life := (rfl)
@[simp] theorem State.putLanes_rx (s : State) (l : Lanes) : (s.putLanes l).rx = s.rx := (rfl)
@[simp] theorem State.putLanes_tx (s : State) (l : Lanes) : (s.putLanes l).tx = s.tx := (rfl)
@[simp] theorem State.putLanes_pool (s : State) (l : Lanes) : (s.putLanes l).pool = s.pool := (rfl)
@[simp] theorem State.putLanes_isrLatch (s : State) (l : Lanes) : (s.putLanes l).isrLatch = s.isrLatch := (rfl)
@[simp] theorem State.putLanes_pollSched (s : State) (l : Lanes) : (s.putLanes l).pollSched = s.pollSched := (rfl)
@[simp] theorem State.putLanes_pollRunning (s : State) (l : Lanes) : (s.putLanes l).pollRunning = s.pollRunning := (rfl)
@[simp] theorem State.putLanes_txStopped (s : State) (l : Lanes) : (s.putLanes l).txStopped = s.txStopped := (rfl)
@[simp] theorem State.putLanes_txLock (s : State) (l : Lanes) : (s.putLanes l).txLock = s.txLock := (rfl)
@[simp] theorem State.putLanes_rxErr (s : State) (l : Lanes) : (s.putLanes l).rxErr = s.rxErr := (rfl)
@[simp] theorem State.putLanes_txErr (s : State) (l : Lanes) : (s.putLanes l).txErr = s.txErr := (rfl)
@[simp] theorem State.putLanes_fault (s : State) (l : Lanes) : (s.putLanes l).fault = s.fault := (rfl)
@[simp] theorem State.putLanes_hist (s : State) (l : Lanes) : (s.putLanes l).hist = s.hist := (rfl)
@[simp] theorem State.putLanes_desc (s : State) (l : Lanes) : (s.putLanes l).desc = s.desc := (rfl)
@[simp] theorem State.putLanes_buf (s : State) (l : Lanes) : (s.putLanes l).buf = s.buf := (rfl)
@[simp] theorem State.putLanes_isr (s : State) (l : Lanes) : (s.putLanes l).isr = s.isr := (rfl)
@[simp] theorem State.putLanes_txctl (s : State) (l : Lanes) : (s.putLanes l).txctl = s.txctl := (rfl)
@[simp] theorem State.putLanes_rst (s : State) (l : Lanes) : (s.putLanes l).rst = s.rst := (rfl)
@[simp] theorem State.putLanes_lineEn (s : State) (l : Lanes) : (s.putLanes l).lineEn = s.lineEn := (rfl)
@[simp] theorem State.putLanes_dev (s : State) (l : Lanes) : (s.putLanes l).dev = s.dev := (rfl)
@[simp] theorem State.putLanes_script (s : State) (l : Lanes) : (s.putLanes l).script = s.script := (rfl)
@[simp] theorem State.putLanes_draws (s : State) (l : Lanes) : (s.putLanes l).draws = s.draws := (rfl)
@[simp] theorem State.putLanes_tick (s : State) (l : Lanes) : (s.putLanes l).tick = s.tick := (rfl)
@[simp] theorem State.putLanes_cur (s : State) (l : Lanes) : (s.putLanes l).cur = s.cur := (rfl)
@[simp] theorem State.putLanes_slice (s : State) (l : Lanes) : (s.putLanes l).slice = s.slice := (rfl)
@[simp] theorem State.putLanes_lanes (s : State) (l : Lanes) : (s.putLanes l).lanes = l := (rfl)
@[simp] theorem State.putLanes_self (s : State) : s.putLanes s.lanes = s := (rfl)
@[simp] theorem State.putLanes_ring (s : State) (l : Lanes) (r : Ring) : (s.putLanes l).ring r = s.ring r := by cases r <;> rfl
@[simp] theorem State.putLanes_full (s : State) (l : Lanes) (r : Ring) : (s.putLanes l).full r = s.full r := by cases r <;> rfl
@[simp] theorem State.putLanes_empty (s : State) (l : Lanes) (r : Ring) : (s.putLanes l).empty r = s.empty r := by cases r <;> rfl
@[simp] theorem State.putLanes_count (s : State) (l : Lanes) (r : Ring) : (s.putLanes l).count r = s.count r := by cases r <;> rfl
@[simp] theorem State.putLanes_freeSlots (s : State) (l : Lanes) (r : Ring) : (s.putLanes l).freeSlots r = s.freeSlots r := by cases r <;> rfl
@[simp] theorem State.putLanes_inWindow (s : State) (l : Lanes) (r : Ring) (j : Nat) : (s.putLanes l).inWindow r j = s.inWindow r j := by cases r <;> rfl
@[simp] theorem State.putLanes_pending (s : State) (l : Lanes) (r : Ring) (j : Nat) : (s.putLanes l).pending r j = s.pending r j := by cases r <;> rfl
@[simp] theorem State.putLanes_buffer (s : State) (l : Lanes) (j : Nat) : (s.putLanes l).buffer j = s.buffer j := (rfl)
@[simp] theorem State.putLanes_handleOk (s : State) (l : Lanes) (j : Nat) : (s.putLanes l).handleOk j = s.handleOk j := (rfl)
@[simp] theorem State.putLanes_sizeOk (s : State) (l : Lanes) (z : Nat) : (s.putLanes l).sizeOk z = s.sizeOk z := (rfl)
@[simp] theorem State.putLanes_tooLong (s : State) (l : Lanes) (z : Word) : (s.putLanes l).tooLong z = s.tooLong z := (rfl)
@[simp] theorem State.putLanes_lowestFree (s : State) (l : Lanes) : (s.putLanes l).lowestFree = s.lowestFree := (rfl)
@[simp] theorem State.putLanes_descByte (s : State) (l : Lanes) (j : Nat) : (s.putLanes l).descByte j = s.descByte j := (rfl)
@[simp] theorem State.putLanes_descRead32 (s : State) (l : Lanes) (j : Nat) : (s.putLanes l).descRead32 j = s.descRead32 j := (rfl)
@[simp] theorem State.putLanes_descRead64 (s : State) (l : Lanes) (j : Nat) : (s.putLanes l).descRead64 j = s.descRead64 j := (rfl)
@[simp] theorem State.putLanes_bufByte (s : State) (l : Lanes) (j z : Nat) : (s.putLanes l).bufByte j z = s.bufByte j z := (rfl)
@[simp] theorem State.putLanes_bufBytes (s : State) (l : Lanes) (j z : Nat) : (s.putLanes l).bufBytes j z = s.bufBytes j z := (rfl)
@[simp] theorem State.putLanes_regRead32 (s : State) (l : Lanes) (g : DevReg) : (s.putLanes l).regRead32 g = s.regRead32 g := by cases g <;> rfl
@[simp] theorem State.emit_putLanes (s : State) (l : Lanes) (e : Event) : (s.putLanes l).emit e = (s.emit e).putLanes l := (rfl)
@[simp] theorem State.respond_putLanes (s : State) (l : Lanes) (c : Ctx) (k : Code) (n : Nat) : (s.putLanes l).respond c k n = (s.respond c k n).putLanes l := (rfl)
@[simp] theorem State.raise_putLanes (s : State) (l : Lanes) (f : Fault) : (s.putLanes l).raise f = (s.raise f).putLanes l := by cases f <;> rfl
@[simp] theorem State.lock_putLanes (s : State) (l : Lanes) (c : Ctx) : (s.putLanes l).lock c = (s.lock c).putLanes l := (rfl)
@[simp] theorem State.unlock_putLanes (s : State) (l : Lanes) : (s.putLanes l).unlock = (s.unlock).putLanes l := (rfl)
@[simp] theorem State.setBuffer_putLanes (s : State) (l : Lanes) (h : Nat) (e : PoolEntry) : (s.putLanes l).setBuffer h e = (s.setBuffer h e).putLanes l := (rfl)
@[simp] theorem State.setRing_putLanes (s : State) (l : Lanes) (q : Ring) (x : RingRegs) : (s.putLanes l).setRing q x = (s.setRing q x).putLanes l := by cases q <;> rfl
@[simp] theorem State.setHead_putLanes (s : State) (l : Lanes) (q : Ring) (i : Nat) : (s.putLanes l).setHead q i = (s.setHead q i).putLanes l := by cases q <;> rfl
@[simp] theorem State.setTail_putLanes (s : State) (l : Lanes) (q : Ring) (i : Nat) : (s.putLanes l).setTail q i = (s.setTail q i).putLanes l := by cases q <;> rfl
@[simp] theorem State.setPending_putLanes (s : State) (l : Lanes) (q : Ring) (i : Nat) (e : Option (Nat × DAddr)) : (s.putLanes l).setPending q i e = (s.setPending q i e).putLanes l := by cases q <;> rfl
@[simp] theorem State.descWrite32_putLanes (s : State) (l : Lanes) (a : Nat) (v : Word) : (s.putLanes l).descWrite32 a v = (s.descWrite32 a v).putLanes l := (rfl)
@[simp] theorem State.descWrite64_putLanes (s : State) (l : Lanes) (a : Nat) (v : DAddr) : (s.putLanes l).descWrite64 a v = (s.descWrite64 a v).putLanes l := (rfl)
@[simp] theorem State.bufWrite_putLanes (s : State) (l : Lanes) (h o : Nat) (bs : List Byte) : (s.putLanes l).bufWrite h o bs = (s.bufWrite h o bs).putLanes l := (rfl)
@[simp] theorem State.regWrite32_putLanes (s : State) (l : Lanes) (g : DevReg) (v : Word) : (s.putLanes l).regWrite32 g v = (s.regWrite32 g v).putLanes l := by cases g <;> first | rfl | (simp only [State.regWrite32]; split <;> rfl)

theorem State.drawMapOk_putLanes (s : State) (l : Lanes) :
    (s.putLanes l).drawMapOk = (s.drawMapOk.1, s.drawMapOk.2.putLanes l) := by
  simp only [State.drawMapOk, State.putLanes_draws]
  split <;> rfl

theorem State.drawRstAck_putLanes (s : State) (l : Lanes) :
    (s.putLanes l).drawRstAck = (s.drawRstAck.1, s.drawRstAck.2.putLanes l) := by
  simp only [State.drawRstAck, State.putLanes_draws]
  split <;> rfl

theorem State.drawAckIsr_putLanes (s : State) (l : Lanes) :
    (s.putLanes l).drawAckIsr = (s.drawAckIsr.1, s.drawAckIsr.2.putLanes l) := by
  simp only [State.drawAckIsr, State.putLanes_draws]
  split <;> rfl

theorem State.poolAcquire_putLanes (s : State) (l : Lanes) (size : Nat) (o : Own) :
    (s.putLanes l).poolAcquire size o = (s.poolAcquire size o).map fun p => (p.1, p.2.putLanes l) := by
  simp only [State.poolAcquire, State.putLanes_sizeOk, State.putLanes_lowestFree, State.setBuffer_putLanes]
  split
  · split <;> rfl
  · rfl

theorem State.poolRelease_putLanes (s : State) (l : Lanes) (h : Nat) :
    (s.putLanes l).poolRelease h = (s.poolRelease h).map (·.putLanes l) := by
  simp only [State.poolRelease, State.putLanes_cfg, State.putLanes_buffer, State.setBuffer_putLanes]
  split <;> rfl

theorem State.unmapBuffer_putLanes (s : State) (l : Lanes) (h : Nat) (d : Dir) :
    (s.putLanes l).unmapBuffer h d = (s.unmapBuffer h d).map (·.putLanes l) := by
  simp only [State.unmapBuffer, State.putLanes_cfg, State.putLanes_buffer, State.setBuffer_putLanes]
  split <;> rfl

/-- MAP's outcome with other lanes. -/
def MapResult.putLanes (l : Lanes) : MapResult → MapResult
  | .misuse => .misuse
  | .failure s => .failure (s.putLanes l)
  | .address a s => .address a (s.putLanes l)

theorem State.mapBuffer_putLanes (s : State) (l : Lanes) (h : Nat) (d : Dir) :
    (s.putLanes l).mapBuffer h d = (s.mapBuffer h d).putLanes l := by
  simp only [State.mapBuffer, State.putLanes_cfg, State.putLanes_buffer, State.drawMapOk_putLanes,
    State.setBuffer_putLanes]
  split
  · split <;> rfl
  · rfl

/-- A micro-step's outcome with other lanes. -/
def onLanes {π ρ : Type} (l : Lanes) (x : State × Next π ρ) : State × Next π ρ := (x.1.putLanes l, x.2)

@[simp] theorem onLanes_mk {π ρ : Type} (l : Lanes) (s : State) (n : Next π ρ) :
    onLanes l (s, n) = (s.putLanes l, n) := (rfl)

theorem orPoolFault_putLanes {π ρ : Type} (s : State) (l : Lanes) (o : Option State)
    (k k' : State → State × Next π ρ) (hk : ∀ t, k' (t.putLanes l) = onLanes l (k t)) :
    orPoolFault (s.putLanes l) (o.map (·.putLanes l)) k' = onLanes l (orPoolFault s o k) := by
  cases o with
  | none => simp [orPoolFault]
  | some t => simp [orPoolFault, hk]

theorem acquireStep_putLanes (size : Nat) (s : State) (l : Lanes) :
    acquireStep size (s.putLanes l) = onLanes l (acquireStep size s) := by
  simp only [acquireStep, State.poolAcquire_putLanes]
  cases s.poolAcquire size .up <;> rfl

theorem releaseStep_putLanes (h : Nat) (s : State) (l : Lanes) :
    releaseStep h (s.putLanes l) = onLanes l (releaseStep h s) := by
  simp only [releaseStep, State.putLanes_handleOk]
  split
  · rw [State.poolRelease_putLanes]
    exact orPoolFault_putLanes _ _ _ _ _ fun t => rfl
  · rfl

theorem produceStep_putLanes (r : Ring) (st len : Word) (a : DAddr) (p : ProducePc) (s : State) (l : Lanes) :
    produceStep r st len a p (s.putLanes l) = onLanes l (produceStep r st len a p s) := by
  cases p <;> simp [produceStep]

theorem peekStep_putLanes (r : Ring) (p : PeekPc) (s : State) (l : Lanes) :
    peekStep r p (s.putLanes l) = onLanes l (peekStep r p s) := by
  cases p
  · simp only [peekStep, State.putLanes_empty, State.putLanes_descRead32, State.putLanes_cfg, State.putLanes_ring]
    split
    · rfl
    · split <;> rfl
  · simp [peekStep]

theorem refillStep_putLanes (p : RefillPc) (s : State) (l : Lanes) :
    refillStep p (s.putLanes l) = onLanes l (refillStep p s) := by
  cases p with
  | f1 n =>
    simp only [refillStep, State.putLanes_full]
    split <;> rfl
  | f2 n =>
    simp only [refillStep, State.putLanes_cfg, State.poolAcquire_putLanes]
    cases s.poolAcquire s.cfg.bufSize .eng <;> rfl
  | f3 n h =>
    simp only [refillStep, State.mapBuffer_putLanes]
    cases s.mapBuffer h .inbound with
    | misuse => simp [MapResult.putLanes]
    | failure t =>
      simp only [MapResult.putLanes, State.poolRelease_putLanes]
      exact orPoolFault_putLanes _ _ _ _ _ fun t => rfl
    | address a t => rfl
  | f4 n h a q =>
    simp only [refillStep, State.putLanes_cfg, produceStep_putLanes]
    rcases produceStep .rx rxArmedStatus (BitVec.ofNat 32 s.cfg.bufSize) a q s with ⟨t, _ | _ | _ | _⟩ <;> rfl
  | f5 n h a i => simp [refillStep]
  | f6 n i => simp [refillStep, State.produceCommit]
  | f7 n => rfl
  | f9 n => rfl

theorem drainStep_putLanes (b : Nat) (p : DrainPc) (s : State) (l : Lanes) :
    drainStep b p (s.putLanes l) = onLanes l (drainStep b p s) := by
  cases p with
  | g1 w => simp only [drainStep]; split <;> rfl
  | g2 w q =>
    simp only [drainStep, peekStep_putLanes]
    rcases peekStep .rx q s with ⟨t, _ | (_ | _) | _ | _⟩ <;> rfl
  | g3 w st len =>
    simp only [drainStep, State.putLanes_pending, State.putLanes_rx]
    cases s.pending .rx s.rx.tail <;> simp
  | g4 w st len i h =>
    simp only [drainStep, State.unmapBuffer_putLanes]
    exact orPoolFault_putLanes _ _ _ _ _ fun t => rfl
  | g5 w st len i h =>
    simp only [drainStep, State.putLanes_tooLong, State.putLanes_buffer, State.putLanes_bufBytes,
      State.setBuffer_putLanes, State.emit_putLanes]
    split
    · have := State.poolRelease_putLanes { s with rxErr := bump s.rxErr } l h
      refine Eq.trans (congrArg (fun o => orPoolFault _ o _) this) ?_
      exact orPoolFault_putLanes { s with rxErr := bump s.rxErr } l _ _ _ fun t => rfl
    · rfl
  | g6 w i => simp [drainStep]
  | g7 w => simp [drainStep, State.advanceTail]
  | g8 w => rfl
  | g9 w => rfl

theorem reclaimBuffer_putLanes (s : State) (l : Lanes) (st : Word) (h : Nat)
    (k k' : State → State × Next ReclaimPc (Option Nat)) (hk : ∀ t, k' (t.putLanes l) = onLanes l (k t)) :
    (s.putLanes l).reclaimBuffer st h k' = onLanes l (s.reclaimBuffer st h k) := by
  simp only [State.reclaimBuffer, State.unmapBuffer_putLanes]
  refine orPoolFault_putLanes _ _ _ _ _ fun t => ?_
  by_cases he : errBit st = true
  · simp only [he, if_true]
    refine Eq.trans (congrArg (fun o => orPoolFault _ o _)
      (State.poolRelease_putLanes { t with txErr := bump t.txErr } l h)) ?_
    exact orPoolFault_putLanes { t with txErr := bump t.txErr } l _ _ _ hk
  · simp only [he, if_false, Bool.false_eq_true, State.poolRelease_putLanes]
    exact orPoolFault_putLanes _ _ _ _ _ hk

theorem reclaimStep_putLanes (c : Ctx) (p : ReclaimPc) (s : State) (l : Lanes) :
    reclaimStep c p (s.putLanes l) = onLanes l (reclaimStep c p s) := by
  cases p with
  | y1 =>
    simp only [reclaimStep, State.putLanes_txLock]
    split <;> rfl
  | y2 =>
    simp only [reclaimStep, State.putLanes_life, State.putLanes_full]
    split <;> rfl
  | y3 f n q =>
    simp only [reclaimStep, peekStep_putLanes]
    rcases peekStep .tx q s with ⟨t, _ | (_ | ⟨_, _⟩) | _ | _⟩ <;> rfl
  | y4 f n st =>
    simp only [reclaimStep, State.putLanes_pending, State.putLanes_tx]
    cases s.pending .tx s.tx.tail <;> simp
  | y5 f n st i h => exact reclaimBuffer_putLanes _ _ _ _ _ _ fun t => rfl
  | y6 f n i => simp [reclaimStep]
  | y7 f n => simp [reclaimStep, State.advanceTail]
  | y8 f n =>
    simp only [reclaimStep, State.wakeIf]
    split <;> rfl
  | y9 n => rfl

theorem submitTask_putLanes (c : Ctx) (h : Nat) (p : SubmitPc) (s : State) (l : Lanes) :
    submitTask c h p (s.putLanes l) = onLanes l (submitTask c h p s) := by
  cases p with
  | x1 => simp only [submitTask, State.putLanes_txLock]; split <;> rfl
  | x2 => simp only [submitTask, State.putLanes_life]; split <;> rfl
  | x3 => simp only [submitTask, State.putLanes_full]; split <;> rfl
  | x4 => simp only [submitTask, State.putLanes_handleOk]; split <;> rfl
  | x5 =>
    simp only [submitTask, State.mapBuffer_putLanes]
    cases s.mapBuffer h .outbound with
    | misuse => simp [MapResult.putLanes]
    | failure t =>
      simp only [MapResult.putLanes, State.poolRelease_putLanes]
      exact orPoolFault_putLanes _ _ _ _ _ fun t => rfl
    | address a t => rfl
  | x6 a q =>
    simp only [submitTask, State.putLanes_buffer, produceStep_putLanes]
    rcases produceStep .tx txArmedStatus ((s.buffer h).len.setWidth 32) a q s with ⟨t, _ | _ | _ | _⟩ <;> rfl
  | x7 a i => simp [submitTask]
  | x8 i => simp [submitTask, State.produceCommit]
  | x9 => rfl
  | x10 => rfl

theorem irqTask_putLanes (c : Ctx) (p : IrqPc) (s : State) (l : Lanes) :
    irqTask c p (s.putLanes l) = onLanes l (irqTask c p s) := by
  cases p with
  | i1 => rfl
  | i2 v => simp only [irqTask, State.putLanes_cfg]; split <;> rfl
  | i3 v => simp only [irqTask, State.schedulePoll, State.putLanes_cfg, State.putLanes_life, State.putLanes_pollSched]; split <;> rfl
  | i4 v => simp only [irqTask, State.putLanes_cfg]; split <;> rfl
  | i4r v q =>
    simp only [irqTask, reclaimStep_putLanes]
    rcases reclaimStep c q s with ⟨t, _ | _ | _ | _⟩ <;> rfl
  | i5 v => simp only [irqTask, State.reportIf, State.putLanes_cfg]; split <;> rfl
  | i6 v => simp only [irqTask, State.reportIf, State.putLanes_cfg]; split <;> rfl
  | i7 v => simp [irqTask]
  | i8 => rfl

theorem pollTask_putLanes (b : Nat) (p : PollPc) (s : State) (l : Lanes) :
    pollTask b p (s.putLanes l) = onLanes l (pollTask b p s) := by
  cases p with
  | l1 q =>
    simp only [pollTask, drainStep_putLanes]
    rcases drainStep b q s with ⟨t, _ | _ | _ | _⟩ <;> rfl
  | l2 w q =>
    simp only [pollTask, refillStep_putLanes]
    rcases refillStep q s with ⟨t, _ | _ | _ | _⟩ <;> rfl
  | l3 w => rfl
  | l4 w => rfl

theorem State.devResetAck_putLanes (s : State) (l : Lanes) (v : Word) :
    (s.putLanes l).devResetAck v = (s.devResetAck v).putLanes l := by
  simp only [State.devResetAck, State.putLanes_rst]
  split <;> rfl

theorem State.answerReset_putLanes (s : State) (l : Lanes) :
    (s.putLanes l).answerReset = s.answerReset.putLanes l := by
  simp only [State.answerReset, State.putLanes_rst, State.drawRstAck_putLanes, State.drawAckIsr_putLanes,
    State.devResetAck_putLanes]
  split
  · split <;> rfl
  · rfl

theorem State.clearSlot_putLanes (s : State) (l : Lanes) (r : Ring) (i : Nat) (p : ClearPc) :
    (s.putLanes l).clearSlot r i p = (s.clearSlot r i p).putLanes l := by
  cases p <;> simp [State.clearSlot]

theorem bringupTask_putLanes (p : BringupPc) (s : State) (l : Lanes) :
    bringupTask p (s.putLanes l) = onLanes l (bringupTask p s) := by
  cases p with
  | h1 => simp [bringupTask]
  | h3 k =>
    simp only [bringupTask, State.answerReset_putLanes, State.putLanes_regRead32, State.putLanes_cfg]
    split
    · split <;> rfl
    · rfl
  | b2 r i q => simp [bringupTask, State.clearSlot_putLanes]
  | b3 => rfl
  | b4 q =>
    simp only [bringupTask, refillStep_putLanes]
    rcases refillStep q s with ⟨t, _ | _ | _ | _⟩ <;> rfl
  | b5 n => rfl

theorem teardownTask_putLanes (c : Ctx) (p : TeardownPc) (s : State) (l : Lanes) :
    teardownTask c p (s.putLanes l) = onLanes l (teardownTask c p s) := by
  cases p with
  | t1 => simp only [teardownTask, State.putLanes_life]; split <;> rfl
  | t2 => simp only [teardownTask, State.putLanes_txLock]; split <;> rfl
  | t3 => simp only [teardownTask, State.putLanes_pollRunning]; split <;> rfl
  | t4 r i k =>
    simp only [teardownTask, teardownSlot, State.putLanes_pending, State.putLanes_cfg]
    cases s.pending r i with
    | none => rfl
    | some e =>
      simp only [State.unmapBuffer_putLanes]
      refine orPoolFault_putLanes _ _ _ _ _ fun t => ?_
      simp only [State.poolRelease_putLanes]
      exact orPoolFault_putLanes _ _ _ _ _ fun u => by simp
  | t5 k => rfl
  | t6 k => rfl

/-- Every micro-step is independent of the lanes, and leaves them as they are. -/
theorem taskStep_putLanes (c : Ctx) (t : Task) (s : State) (l : Lanes) :
    taskStep c t (s.putLanes l) = onLanes l (taskStep c t s) := by
  cases t with
  | acquire size => exact acquireStep_putLanes size s l
  | release h => exact releaseStep_putLanes h s l
  | isFull r => simp [taskStep, isFullStep]
  | isEmpty r => simp [taskStep, isEmptyStep]
  | refill p =>
    simp only [taskStep, refillTask, refillStep_putLanes]
    rcases refillStep p s with ⟨t, _ | _ | _ | _⟩ <;> rfl
  | drain b p =>
    simp only [taskStep, drainTask, drainStep_putLanes]
    rcases drainStep b p s with ⟨t, _ | _ | _ | _⟩ <;> rfl
  | submit h p => exact submitTask_putLanes c h p s l
  | reclaim p =>
    simp only [taskStep, reclaimTask, reclaimStep_putLanes]
    rcases reclaimStep c p s with ⟨t, _ | (_ | _) | _ | _⟩ <;> rfl
  | irq p => exact irqTask_putLanes c p s l
  | poll b p => exact pollTask_putLanes b p s l
  | bringup p => exact bringupTask_putLanes p s l
  | teardown p => exact teardownTask_putLanes c p s l

theorem taskStep_lanes (c : Ctx) (t : Task) (s : State) : (taskStep c t s).1.lanes = s.lanes := by
  have h := taskStep_putLanes c t s s.lanes
  rw [State.putLanes_self] at h
  have h1 := congrArg (fun x => x.1.lanes) h
  simpa [onLanes] using h1

/-! ## A slice of an operation -/

/-- Up to `n` micro-steps of the operation `t` in a row; a hold stays where it is. -/
def taskRun (c : Ctx) : Nat → Task → State → State × Next Task Resp
  | 0, t, s => (s, .goto t)
  | n + 1, t, s =>
    match taskStep c t s with
    | (s', .goto t') => taskRun c n t' s'
    | (s', .ret r) => (s', .ret r)
    | (_, .hold) => (s, .goto t)
    | (s', .stop) => (s', .stop)

/-- What a slice leaves of the context. -/
def finish (c : Ctx) (x : State × Next Task Resp) : State :=
  match x with
  | (s, .goto t) => s.setCont c (.running t)
  | (s, .ret (code, n)) => (s.setCont c .idle).respond c code n
  | (s, .hold) => s
  | (s, .stop) => s.setCont c .stopped

theorem taskStep_setCont (c d : Ctx) (t : Task) (s : State) (k : Cont) :
    taskStep c t (s.setCont d k) = ((taskStep c t s).1.setCont d k, (taskStep c t s).2) := by
  have h1 : s.setCont d k = s.putLanes (s.setCont d k).lanes := s.setCont_eq_lanes d k
  have h2 : (taskStep c t s).1.setCont d k = (taskStep c t s).1.putLanes (s.setCont d k).lanes := by
    rw [State.setCont_eq_lanes]
    have hl := taskStep_lanes c t s
    unfold State.putLanes
    congr 1
    simp only [State.setCont, State.lane?, hl]
    cases d with
    | up j =>
      simp only [State.setLane, hl]
      split
      · rfl
      · exact hl
    | _ => simp only [State.setLane, hl]
  rw [h2]
  conv_lhs => rw [h1]
  rw [taskStep_putLanes]
  rfl

/-- One micro-step of a context whose operation is `t`. -/
theorem microStep_setCont {c : Ctx} {s : State} {l : Lane} (t : Task) (h : s.lane? c = some l) :
    microStep c (s.setCont c (.running t)) =
      match taskStep c t s with
      | (s', .goto t') => s'.setCont c (.running t')
      | (s', .ret (code, n)) => (s'.setCont c .idle).respond c code n
      | (_, .hold) => s.setCont c (.running t)
      | (s', .stop) => s'.setCont c .stopped := by
  unfold microStep
  rw [s.lane?_setCont_same _ h]
  simp only [taskStep_setCont]
  rcases taskStep c t s with ⟨s', _ | ⟨_, _⟩ | _ | _⟩ <;> simp

theorem running_setCont {c : Ctx} {s : State} {l : Lane} (t : Task) (h : s.lane? c = some l) :
    (s.setCont c (.running t)).running c = true := by
  simp [State.running, s.lane?_setCont_same _ h]

theorem lane?_of_lanes_eq {s s' : State} (c : Ctx) (h : s'.lanes = s.lanes) : s'.lane? c = s.lane? c := by
  cases c <;> simp [State.lane?, h]

/-- A context that has nothing in progress takes no micro-step. -/
theorem runFor_not_running {c : Ctx} {s : State} (n : Nat) (h : s.running c = false) : runFor c n s = s := by
  cases n with
  | zero => rfl
  | succ n => simp [runFor, h]

/-- A context that holds stays where it is. -/
theorem runFor_hold {c : Ctx} {s : State} (n : Nat) (h : microStep c s = s) : runFor c n s = s := by
  induction n with
  | zero => rfl
  | succ n ih =>
    simp only [runFor, h, ih]
    split <;> rfl

/-- A slice of a context is a slice of its operation. -/
theorem runFor_taskRun {c : Ctx} (n : Nat) : ∀ {s : State} {l : Lane} (t : Task), s.lane? c = some l →
    runFor c n (s.setCont c (.running t)) = finish c (taskRun c n t s) := by
  induction n with
  | zero => intro s l t _; rfl
  | succ n ih =>
    intro s l t h
    have hm := microStep_setCont t h
    simp only [runFor, running_setCont t h, if_true, taskRun]
    have hl : (taskStep c t s).1.lane? c = some l := by
      rw [lane?_of_lanes_eq c (taskStep_lanes c t s), h]
    rcases hx : taskStep c t s with ⟨s', t' | ⟨code, v⟩ | _ | _⟩
    · rw [hx] at hl hm
      rw [hm]
      exact ih t' hl
    · rw [hx] at hl hm
      rw [hm]
      apply runFor_not_running
      simp [State.running, s'.lane?_setCont_same _ hl]
    · rw [hx] at hm
      rw [hm]
      exact runFor_hold n hm
    · rw [hx] at hl hm
      rw [hm]
      apply runFor_not_running
      simp [State.running, s'.lane?_setCont_same _ hl]

/-- A longer slice of an operation that has ended ends the same way. -/
theorem taskRun_ret {c : Ctx} {n m : Nat} {t : Task} {s s' : State} {r : Resp}
    (h : taskRun c n t s = (s', .ret r)) (hm : n ≤ m) : taskRun c m t s = (s', .ret r) := by
  induction n generalizing m t s with
  | zero => simp [taskRun] at h
  | succ n ih =>
    cases m with
    | zero => omega
    | succ m =>
      simp only [taskRun] at h ⊢
      rcases hx : taskStep c t s with ⟨u, t' | r' | _ | _⟩ <;> rw [hx] at h <;> simp only at h ⊢
      · exact ih h (by omega)
      · exact h
      · simp at h
      · simp at h

/-- One micro-step at the head of a slice. -/
theorem taskRun_goto {c : Ctx} {n : Nat} {t t' : Task} {s s' : State} (h : taskStep c t s = (s', .goto t')) :
    taskRun c (n + 1) t s = taskRun c n t' s' := by simp [taskRun, h]

theorem taskRun_lanes (c : Ctx) (n : Nat) : ∀ (t : Task) (s : State), (taskRun c n t s).1.lanes = s.lanes := by
  induction n with
  | zero => intro t s; rfl
  | succ n ih =>
    intro t s
    have hl := taskStep_lanes c t s
    simp only [taskRun]
    rcases hx : taskStep c t s with ⟨u, t' | r' | _ | _⟩ <;> rw [hx] at hl <;> simp only
    · rw [ih, hl]
    · exact hl
    · exact hl

/-! ## What a command comes to -/

/-- A command that starts: its context takes a slice of its operation. -/
theorem issue_start {i : Instr} {s s0 : State} {t : Task} (h : s.Ready i) (hl : s0.lanes = s.lanes) :
    issue i s (.start t s0) = .next (finish s.cur (taskRun s.cur s.slice t s0)) := by
  obtain ⟨q, hq⟩ := State.idle_lane h.idle
  have h0 : s0.lane? s.cur = some ⟨.idle, q⟩ := by rw [lane?_of_lanes_eq _ hl, hq]
  simp only [issue, h.wf, h.idle, h.legal, if_true]
  rw [runFor_taskRun _ t h0]

/-- A command whose operation ends within the slice: its response, its context `Idle` again. -/
theorem issue_ret {i : Instr} {s s0 s' : State} {t : Task} {k : Nat} {code : Code} {n : Nat}
    (h : s.Ready i) (hl : s0.lanes = s.lanes) (hr : taskRun s.cur k t s0 = (s', .ret (code, n)))
    (hk : k ≤ s.slice) : issue i s (.start t s0) = .next (s'.respond s.cur code n) := by
  rw [issue_start h hl, taskRun_ret hr hk]
  have hlanes : s'.lanes = s.lanes := by
    have := taskRun_lanes s.cur k t s0
    rw [hr] at this
    exact this.trans hl
  have hi : s'.idle s.cur = true := by
    rw [← h.idle]
    unfold State.idle
    rw [lane?_of_lanes_eq s.cur hlanes]
  simp only [finish, State.setCont_idle s' hi]

/-- A command that is answered on acceptance. -/
theorem issue_reject {i : Instr} {s : State} {code : Code} (h : s.Ready i) :
    issue i s (.reject code) = .next (s.respond s.cur code 0) := by
  simp [issue, h.wf, h.idle, h.legal]

/-- A command on a port that may not issue it (R94). -/
theorem issue_illegal {i : Instr} {s : State} (a : Acceptance) (hw : s.cfg.wf = true) (hi : s.idle s.cur = true)
    (hl : legalOn i s.cur.port = false) : issue i s a = .next (s.respond s.cur .illegal 0) := by
  simp [issue, hw, hi, hl]

/-- A word offered to a busy context waits (R97). -/
theorem issue_busy {i : Instr} {s : State} (a : Acceptance) (hw : s.cfg.wf = true) (hi : s.idle s.cur = false) :
    issue i s a = .next (s.offer s.cur (encode i)) := by
  simp [issue, hw, hi]

/-- A parameter set that breaks a constraint is refused (R7). -/
theorem issue_invalid {i : Instr} {s : State} (a : Acceptance) (hw : s.cfg.wf = false) :
    issue i s a = .refused .invalidConfig := by
  simp [issue, hw]

end Sys2Proof.Machine
end

