-- ==== Sys2Proof/Laws/Constant.lean ====
section
/-! SUPPORT. What no micro-step of any operation changes: the parameters, buffer memory, the lanes, the
environment's inputs and the model's own scheduling fields. -/

namespace Sys2Proof.Machine

/-- `t` agrees with `s` on what no micro-step writes. -/
structure Keeps (s t : State) : Prop where
  cfg : t.cfg = s.cfg
  buf : t.buf = s.buf
  txctl : t.txctl = s.txctl
  lineEn : t.lineEn = s.lineEn
  lanes : t.lanes = s.lanes
  script : t.script = s.script
  cur : t.cur = s.cur
  slice : t.slice = s.slice

theorem Keeps.rfl {s : State} : Keeps s s := ⟨by rfl, by rfl, by rfl, by rfl, by rfl, by rfl, by rfl, by rfl⟩

theorem Keeps.trans {s t u : State} (h : Keeps s t) (g : Keeps t u) : Keeps s u :=
  ⟨g.cfg.trans h.cfg, g.buf.trans h.buf, g.txctl.trans h.txctl, g.lineEn.trans h.lineEn, g.lanes.trans h.lanes,
    g.script.trans h.script, g.cur.trans h.cur, g.slice.trans h.slice⟩

theorem keeps_emit (s : State) (e : Event) : Keeps s (s.emit e) := by constructor <;> simp
theorem keeps_raise (s : State) (f : Fault) : Keeps s (s.raise f) := by cases f <;> constructor <;> rfl
theorem keeps_lock (s : State) (c : Ctx) : Keeps s (s.lock c) := by constructor <;> rfl
theorem keeps_unlock (s : State) : Keeps s s.unlock := by constructor <;> rfl
theorem keeps_setBuffer (s : State) (h : Nat) (e : PoolEntry) : Keeps s (s.setBuffer h e) := by constructor <;> rfl
theorem keeps_setRing (s : State) (r : Ring) (x : RingRegs) : Keeps s (s.setRing r x) := by
  cases r <;> constructor <;> rfl
theorem keeps_setHead (s : State) (r : Ring) (i : Nat) : Keeps s (s.setHead r i) := keeps_setRing _ _ _
theorem keeps_setTail (s : State) (r : Ring) (i : Nat) : Keeps s (s.setTail r i) := keeps_setRing _ _ _
theorem keeps_setPending (s : State) (r : Ring) (i : Nat) (e : Option (Nat × DAddr)) : Keeps s (s.setPending r i e) :=
  keeps_setRing _ _ _
theorem keeps_descWrite32 (s : State) (a : Nat) (v : Word) : Keeps s (s.descWrite32 a v) := by constructor <;> rfl
theorem keeps_descWrite64 (s : State) (a : Nat) (v : DAddr) : Keeps s (s.descWrite64 a v) := by constructor <;> rfl
theorem keeps_regWrite32 (s : State) (g : DevReg) (v : Word) : Keeps s (s.regWrite32 g v) := by
  cases g with
  | isr => constructor <;> rfl
  | txctl => exact Keeps.rfl
  | reset =>
    simp only [State.regWrite32]
    split
    · constructor <;> rfl
    · exact Keeps.rfl

theorem keeps_drawMapOk (s : State) : Keeps s s.drawMapOk.2 := by
  simp only [State.drawMapOk]
  split <;> constructor <;> rfl

theorem keeps_drawRstAck (s : State) : Keeps s s.drawRstAck.2 := by
  simp only [State.drawRstAck]
  split <;> constructor <;> rfl

theorem keeps_drawAckIsr (s : State) : Keeps s s.drawAckIsr.2 := by
  simp only [State.drawAckIsr]
  split <;> constructor <;> rfl

theorem keeps_poolAcquire {s s' : State} {size h : Nat} {o : Own} (hs : s.poolAcquire size o = some (h, s')) :
    Keeps s s' := by
  rw [(State.poolAcquire_eq_some hs).2.2]
  exact keeps_setBuffer _ _ _

theorem keeps_poolRelease {s s' : State} {h : Nat} (hs : s.poolRelease h = some s') : Keeps s s' := by
  rw [(State.poolRelease_eq_some hs).2.2.2]
  exact keeps_setBuffer _ _ _

theorem keeps_unmapBuffer {s s' : State} {h : Nat} {d : Dir} (hs : s.unmapBuffer h d = some s') : Keeps s s' := by
  rw [(State.unmapBuffer_eq_some hs).2.2]
  exact keeps_setBuffer _ _ _

theorem keeps_mapBuffer (s : State) (h : Nat) (d : Dir) :
    match s.mapBuffer h d with
    | .misuse => True
    | .failure t => Keeps s t
    | .address _ t => Keeps s t := by
  simp only [State.mapBuffer]
  split
  · rename_i heq
    split at heq <;> first | (split at heq <;> cases heq) | cases heq; trivial
  · rename_i t heq
    split at heq <;> [split at heq; skip] <;> cases heq
    exact keeps_drawMapOk s
  · rename_i a t heq
    split at heq <;> [split at heq; skip] <;> cases heq
    exact (keeps_drawMapOk s).trans (keeps_setBuffer _ _ _)

theorem keeps_orPoolFault {π ρ : Type} {s : State} {o : Option State} {k : State → State × Next π ρ}
    (h : ∀ t, o = some t → Keeps s (k t).1) : Keeps s (orPoolFault s o k).1 := by
  cases o with
  | none => exact keeps_raise s .pool
  | some t => exact h t (by rfl)

theorem keeps_produceStep (r : Ring) (st len : Word) (a : DAddr) (p : ProducePc) (s : State) :
    Keeps s (produceStep r st len a p s).1 := by
  cases p with
  | p1 => exact keeps_descWrite64 _ _ _
  | p2 i => exact keeps_descWrite32 _ _ _
  | p3 i => exact Keeps.rfl
  | p4 i => exact keeps_descWrite32 _ _ _

/-- PEEK changes nothing. -/
theorem peekStep_state (r : Ring) (p : PeekPc) (s : State) : (peekStep r p s).1 = s := by
  cases p with
  | k1 =>
    simp only [peekStep]
    split
    · rfl
    · split <;> rfl
  | k2 i st => rfl

theorem keeps_refillStep (p : RefillPc) (s : State) : Keeps s (refillStep p s).1 := by
  cases p with
  | f1 n => simp only [refillStep]; split <;> exact Keeps.rfl
  | f2 n =>
    simp only [refillStep]
    split
    · rename_i h t ht
      exact keeps_poolAcquire ht
    · exact Keeps.rfl
  | f3 n h =>
    have hm := keeps_mapBuffer s h .inbound
    simp only [refillStep]
    split
    · exact keeps_raise s .pool
    · rename_i t ht
      rw [ht] at hm
      exact hm.trans (keeps_orPoolFault fun u hu => keeps_poolRelease hu)
    · rename_i a t ht
      rw [ht] at hm
      exact hm
  | f4 n h a q =>
    have hp := keeps_produceStep .rx rxArmedStatus (BitVec.ofNat 32 s.cfg.bufSize) a q s
    simp only [refillStep]
    rcases hx : produceStep .rx rxArmedStatus (BitVec.ofNat 32 s.cfg.bufSize) a q s with ⟨t, _ | _ | _ | _⟩ <;>
      rw [hx] at hp <;> exact hp
  | f5 n h a i => exact keeps_setPending s .rx i (some (h, a))
  | f6 n i => exact keeps_setHead s .rx _
  | f7 n => exact Keeps.rfl
  | f9 n => exact Keeps.rfl

theorem keeps_drainStep (b : Nat) (p : DrainPc) (s : State) : Keeps s (drainStep b p s).1 := by
  cases p with
  | g1 w => simp only [drainStep]; split <;> exact Keeps.rfl
  | g2 w q =>
    have hp := peekStep_state .rx q s
    simp only [drainStep]
    rcases hx : peekStep .rx q s with ⟨t, _ | (_ | _) | _ | _⟩ <;> rw [hx] at hp <;> subst hp <;> exact Keeps.rfl
  | g3 w st len =>
    simp only [drainStep]
    split
    · exact Keeps.rfl
    · exact keeps_raise s .pendEmpty
  | g4 w st len i h => exact keeps_orPoolFault fun u hu => keeps_unmapBuffer hu
  | g5 w st len i h =>
    simp only [drainStep]
    split
    · have h1 : Keeps s { s with rxErr := bump s.rxErr } := by constructor <;> rfl
      cases ho : State.poolRelease { s with rxErr := bump s.rxErr } h with
      | none => exact h1.trans (keeps_raise _ .pool)
      | some u => exact h1.trans (keeps_poolRelease ho)
    · exact (keeps_setBuffer _ _ _).trans (keeps_emit _ _)
  | g6 w i => exact keeps_setPending s .rx i none
  | g7 w => exact keeps_setTail s .rx _
  | g8 w => exact Keeps.rfl
  | g9 w => exact Keeps.rfl

theorem keeps_reclaimStep (c : Ctx) (p : ReclaimPc) (s : State) : Keeps s (reclaimStep c p s).1 := by
  cases p with
  | y1 =>
    simp only [reclaimStep]
    split
    · exact keeps_lock _ _
    · exact Keeps.rfl
  | y2 =>
    simp only [reclaimStep]
    split
    · exact Keeps.rfl
    · exact keeps_unlock _
  | y3 f n q =>
    have hp := peekStep_state .tx q s
    simp only [reclaimStep]
    rcases hx : peekStep .tx q s with ⟨t, _ | (_ | ⟨_, _⟩) | _ | _⟩ <;> rw [hx] at hp <;> subst hp <;> exact Keeps.rfl
  | y4 f n st =>
    simp only [reclaimStep]
    split
    · exact Keeps.rfl
    · exact keeps_raise s .pendEmpty
  | y5 f n st i h =>
    simp only [reclaimStep, State.reclaimBuffer]
    refine keeps_orPoolFault fun t ht => (keeps_unmapBuffer ht).trans ?_
    by_cases he : errBit st = true
    · simp only [he, if_true]
      have h1 : Keeps t { t with txErr := bump t.txErr } := by constructor <;> rfl
      exact h1.trans (keeps_orPoolFault fun u hu => keeps_poolRelease hu)
    · simp only [he, if_false, Bool.false_eq_true]
      exact keeps_orPoolFault fun u hu => keeps_poolRelease hu
  | y6 f n i => exact keeps_setPending s .tx i none
  | y7 f n => exact keeps_setTail s .tx _
  | y8 f n =>
    simp only [reclaimStep, State.wakeIf]
    split
    · constructor <;> rfl
    · exact Keeps.rfl
  | y9 n => exact keeps_unlock _

theorem keeps_submitTask (c : Ctx) (h : Nat) (p : SubmitPc) (s : State) : Keeps s (submitTask c h p s).1 := by
  cases p with
  | x1 =>
    simp only [submitTask]
    split
    · exact keeps_lock _ _
    · exact Keeps.rfl
  | x2 =>
    simp only [submitTask]
    split
    · exact Keeps.rfl
    · exact keeps_unlock _
  | x3 =>
    simp only [submitTask]
    split
    · constructor <;> rfl
    · exact Keeps.rfl
  | x4 =>
    simp only [submitTask]
    split
    · exact keeps_setBuffer _ _ _
    · exact keeps_unlock _
  | x5 =>
    have hm := keeps_mapBuffer s h .outbound
    simp only [submitTask]
    split
    · exact keeps_raise s .pool
    · rename_i t ht
      rw [ht] at hm
      exact hm.trans (keeps_orPoolFault fun u hu => (keeps_poolRelease hu).trans (keeps_unlock _))
    · rename_i a t ht
      rw [ht] at hm
      exact hm
  | x6 a q =>
    have hp := keeps_produceStep .tx txArmedStatus ((s.buffer h).len.setWidth 32) a q s
    simp only [submitTask]
    rcases hx : produceStep .tx txArmedStatus ((s.buffer h).len.setWidth 32) a q s with ⟨t, _ | _ | _ | _⟩ <;>
      rw [hx] at hp <;> exact hp
  | x7 a i => exact keeps_setPending s .tx i (some (h, a))
  | x8 i => exact keeps_setHead s .tx _
  | x9 => exact (keeps_regWrite32 _ _ _).trans (keeps_emit _ _)
  | x10 => exact keeps_unlock _

theorem keeps_irqTask (c : Ctx) (p : IrqPc) (s : State) : Keeps s (irqTask c p s).1 := by
  cases p with
  | i1 => constructor <;> rfl
  | i2 v => simp only [irqTask]; split <;> exact Keeps.rfl
  | i3 v =>
    simp only [irqTask, State.schedulePoll]
    split
    · constructor <;> rfl
    · exact Keeps.rfl
  | i4 v => simp only [irqTask]; split <;> exact Keeps.rfl
  | i4r v q =>
    have hp := keeps_reclaimStep c q s
    simp only [irqTask]
    rcases hx : reclaimStep c q s with ⟨t, _ | _ | _ | _⟩ <;> rw [hx] at hp <;> exact hp
  | i5 v =>
    simp only [irqTask, State.reportIf]
    split
    · exact keeps_emit _ _
    · exact Keeps.rfl
  | i6 v =>
    simp only [irqTask, State.reportIf]
    split
    · exact keeps_emit _ _
    · exact Keeps.rfl
  | i7 v => exact keeps_regWrite32 s .isr v
  | i8 => exact Keeps.rfl

theorem keeps_pollTask (b : Nat) (p : PollPc) (s : State) : Keeps s (pollTask b p s).1 := by
  cases p with
  | l1 q =>
    have hp := keeps_drainStep b q s
    simp only [pollTask]
    rcases hx : drainStep b q s with ⟨t, _ | _ | _ | _⟩ <;> rw [hx] at hp <;> exact hp
  | l2 w q =>
    have hp := keeps_refillStep q s
    simp only [pollTask]
    rcases hx : refillStep q s with ⟨t, _ | _ | _ | _⟩ <;> rw [hx] at hp <;> exact hp
  | l3 w => constructor <;> rfl
  | l4 w => constructor <;> rfl

theorem keeps_answerReset (s : State) : Keeps s s.answerReset := by
  simp only [State.answerReset]
  split
  · split
    · refine ((keeps_drawRstAck s).trans (keeps_drawAckIsr _)).trans ?_
      simp only [State.devResetAck]
      split
      · constructor <;> rfl
      · exact Keeps.rfl
    · exact keeps_drawRstAck s
  · exact Keeps.rfl

theorem keeps_bringupTask (p : BringupPc) (s : State) : Keeps s (bringupTask p s).1 := by
  cases p with
  | h1 => exact keeps_regWrite32 s .reset 1
  | h3 k =>
    simp only [bringupTask]
    split
    · split <;> exact keeps_answerReset s
    · exact keeps_answerReset s
  | b2 r i q =>
    cases q with
    | addr => exact keeps_descWrite64 _ _ _
    | len => exact keeps_descWrite32 _ _ _
    | status => exact (keeps_descWrite32 _ _ _).trans (keeps_setPending _ _ _ _)
  | b3 => constructor <;> rfl
  | b4 q =>
    have hp := keeps_refillStep q s
    simp only [bringupTask]
    rcases hx : refillStep q s with ⟨t, _ | _ | _ | _⟩ <;> rw [hx] at hp <;> exact hp
  | b5 n => constructor <;> rfl

theorem keeps_teardownTask (c : Ctx) (p : TeardownPc) (s : State) : Keeps s (teardownTask c p s).1 := by
  cases p with
  | t1 => simp only [teardownTask]; split <;> exact Keeps.rfl
  | t2 =>
    simp only [teardownTask]
    split
    · exact keeps_lock _ _
    · exact Keeps.rfl
  | t3 =>
    simp only [teardownTask]
    split
    · exact Keeps.rfl
    · constructor <;> rfl
  | t4 r i k =>
    simp only [teardownTask, teardownSlot]
    split
    · refine keeps_orPoolFault fun t ht => (keeps_unmapBuffer ht).trans ?_
      exact keeps_orPoolFault fun u hu => (keeps_poolRelease hu).trans (keeps_setPending _ _ _ _)
    · exact Keeps.rfl
  | t5 k => constructor <;> rfl
  | t6 k => exact keeps_unlock _

/-- No micro-step of any operation changes these. -/
theorem keeps_taskStep (c : Ctx) (t : Task) (s : State) : Keeps s (taskStep c t s).1 := by
  cases t with
  | acquire size =>
    simp only [taskStep, acquireStep]
    split
    · rename_i h u hu
      exact keeps_poolAcquire hu
    · exact Keeps.rfl
  | release h =>
    simp only [taskStep, releaseStep]
    split
    · exact keeps_orPoolFault fun u hu => keeps_poolRelease hu
    · exact Keeps.rfl
  | isFull r => exact Keeps.rfl
  | isEmpty r => exact Keeps.rfl
  | refill p =>
    have hp := keeps_refillStep p s
    simp only [taskStep, refillTask]
    rcases hx : refillStep p s with ⟨t, _ | _ | _ | _⟩ <;> rw [hx] at hp <;>
      first | exact hp | exact hp.trans (by constructor <;> rfl)
  | drain b p =>
    have hp := keeps_drainStep b p s
    simp only [taskStep, drainTask]
    rcases hx : drainStep b p s with ⟨t, _ | _ | _ | _⟩ <;> rw [hx] at hp <;>
      first | exact hp | exact hp.trans (by constructor <;> rfl)
  | submit h p => exact keeps_submitTask c h p s
  | reclaim p =>
    have hp := keeps_reclaimStep c p s
    simp only [taskStep, reclaimTask]
    rcases hx : reclaimStep c p s with ⟨t, _ | (_ | _) | _ | _⟩ <;> rw [hx] at hp <;> exact hp
  | irq p => exact keeps_irqTask c p s
  | poll b p => exact keeps_pollTask b p s
  | bringup p => exact keeps_bringupTask p s
  | teardown p => exact keeps_teardownTask c p s

/-- Nor does a slice of it. -/
theorem keeps_taskRun (c : Ctx) (n : Nat) : ∀ (t : Task) (s : State), Keeps s (taskRun c n t s).1 := by
  induction n with
  | zero => intro t s; exact Keeps.rfl
  | succ n ih =>
    intro t s
    have hp := keeps_taskStep c t s
    simp only [taskRun]
    rcases hx : taskStep c t s with ⟨u, t' | r' | _ | _⟩ <;> rw [hx] at hp <;> simp only
    · exact hp.trans (ih t' u)
    · exact hp
    · exact Keeps.rfl
    · exact hp

end Sys2Proof.Machine
end

