-- ==== Sys2Proof/Laws/PerInstr.lean ====
section
/-! SUPPORT. Per command: the fields its word has (30_encoding R90, R91, R93). -/

namespace Sys2Proof.Laws.Fields

open Sys2Proof

/-- The word of a well-formed command has the command's opcode, selector and operand in their fields, and 0
in the reserved one. -/
def Statement (i : Instr) : Prop :=
  i.wf = true →
    slice (encode i) 31 24 = i.opcode ∧ slice (encode i) 23 23 = i.selField ∧ slice (encode i) 22 16 = 0
      ∧ slice (encode i) 15 0 = i.argField

theorem opcode_lt (i : Instr) : i.opcode < 2 ^ 8 := by cases i <;> simp [Instr.opcode]

theorem sel_lt (r : Ring) : r.sel < 2 := by cases r <;> decide

theorem selField_lt (i : Instr) : i.selField < 2 := by cases i <;> first | exact sel_lt _ | simp [Instr.selField]

theorem argField_lt (i : Instr) (h : i.wf = true) : i.argField < 2 ^ 16 := by
  cases i <;> simp_all [Instr.argField, Instr.wf]

/-- The word is `op << 24 | sel << 23 | arg`, each part within its field. -/
theorem fields_of (i : Instr) : Statement i := by
  intro h
  have ho := opcode_lt i
  have hs := selField_lt i
  have ha := argField_lt i h
  simp only [slice, encode, BitVec.toNat_ofNat]
  omega

theorem bringup : Statement .bringup := fields_of _
theorem teardown : Statement .teardown := fields_of _
theorem acquire (size : Nat) : Statement (.acquire size) := fields_of _
theorem release (h : Nat) : Statement (.release h) := fields_of _
theorem isFull (r : Ring) : Statement (.isFull r) := fields_of _
theorem isEmpty (r : Ring) : Statement (.isEmpty r) := fields_of _
theorem refill : Statement .refill := fields_of _
theorem drain (budget : Nat) : Statement (.drain budget) := fields_of _
theorem submit (h : Nat) : Statement (.submit h) := fields_of _
theorem reclaim : Statement .reclaim := fields_of _
theorem irq : Statement .irq := fields_of _
theorem poll (budget : Nat) : Statement (.poll budget) := fields_of _

end Sys2Proof.Laws.Fields
end

