-- ==== Sys2Proof/Laws/Runs.lean ====
section
/-! SUPPORT. The end of a run (70_reset R260): a sound, quiescent state that is `DOWN` is at rest. -/

namespace Sys2Proof.Machine

/-- In a quiescent state no context has an operation in progress. -/
theorem State.quiescent_task {s : State} (q : s.quiescent = true) (c : Ctx) : s.task? c = none := by
  have hi : ∀ l, s.lane? c = some l → l.cont = .idle := by
    intro l hl
    have hm : l ∈ s.lanes.all := by
      cases c <;> simp only [State.lane?, Option.some.injEq] at hl <;> simp only [Lanes.all, List.mem_cons]
      · exact .inl hl.symm
      · exact .inr (.inr (.inr (List.mem_of_getElem? hl)))
      · exact .inr (.inl hl.symm)
      · exact .inr (.inr (.inl hl.symm))
    have := List.all_eq_true.mp q l hm
    simp only [Bool.and_eq_true, beq_iff_eq] at this
    exact this.1
  simp only [State.task?, State.cont]
  cases hl : s.lane? c with
  | none => rfl
  | some l => simp only [hi l hl]

theorem State.quiescent_tasks {s : State} (q : s.quiescent = true) : s.tasks = [] := by
  simp [State.tasks, State.quiescent_task q]

/-- A ring whose indices are equal has an empty window. -/
theorem State.inWindow_of_zero {s : State} {r : Ring} (hh : (s.ring r).head = 0) (ht : (s.ring r).tail = 0) (i : Nat) :
    s.inWindow r i = false := by
  simp [State.inWindow, State.count, subIndex, hh, ht]

/-- What R260 asks of the end of a run follows from the invariants of R261 once the block is quiescent and
`DOWN`. -/
theorem State.atRest_of_sound {s : State} (h : s.Sound) (noDma : s.fault.dmaUnmapped = false)
    (q : s.quiescent = true) (d : s.life = .down) : s.atRest = true := by
  have ht := State.quiescent_tasks q
  have hrx := h.ring.downRx d (by simp [ht]) (by simp [ht])
  have htx := h.ring.downTx d (by simp [ht])
  have hp : ∀ r i, i < ringSize s.cfg r → s.pending r i = none := by
    intro r i hi
    have hw : s.inWindow r i = false := by
      cases r
      · exact State.inWindow_of_zero (r := .rx) hrx.1 hrx.2 i
      · exact State.inWindow_of_zero (r := .tx) htx.1 htx.2 i
    have := h.ring.pending r i hi
    simpa [State.expects, ht, hw] using this
  have hpend : ∀ (r : Ring), (s.ring r).pend.length = ringSize s.cfg r → (s.ring r).pend.all Option.isNone = true := by
    intro r hl
    refine List.all_eq_true.mpr fun e he => ?_
    obtain ⟨i, hi, rfl⟩ := List.getElem_of_mem he
    have := hp r i (hl ▸ hi)
    rw [State.pending, List.getD_eq_getElem _ _ hi] at this
    simp [this]
  have hc : s.claims = [] := by
    simp only [State.claims, ht, List.flatMap_nil, List.nil_append, List.append_eq_nil_iff, State.pendClaims,
      List.filterMap_eq_nil_iff, List.mem_range]
    exact ⟨fun i hi => by simp [hp .rx i hi], fun i hi => by simp [hp .tx i hi]⟩
  have hown : ∀ k, (s.buffer k).own ≠ .eng := by
    intro k hk
    simpa [hc] using h.pool.claimed k hk
  have hpool : (s.pool.all fun e => e.own != .eng && e.map.isNone) = true := by
    refine List.all_eq_true.mpr fun e he => ?_
    obtain ⟨k, hk, rfl⟩ := List.getElem_of_mem he
    have hb : s.buffer k = s.pool[k] := by rw [State.buffer, List.getD_eq_getElem _ _ hk]
    have h1 := hown k
    have h2 := h.pool.unmapped k h1
    rw [hb] at h1 h2
    simp [h1, h2]
  have hf : s.fault.none = true := by simp [FaultSet.none, noDma, h.ring.noPendEmpty, h.ring.noPool]
  have hr := hpend .rx h.shaped.rxPend
  have hx := hpend .tx h.shaped.txPend
  simp only [State.ring] at hr hx
  simp [State.atRest, q, d, hf, hr, hx, hpool]

end Sys2Proof.Machine
end

