-- ==== Sys2Proof/Machine/Directives.lean ====
section
/-! DEFINITION. The syntax of test programs (30_encoding R101) and what a test-bench directive stands for
(R102). -/

namespace Sys2Proof.Machine

/-- An operand as a line writes it (R101): none, a number, or `RX` or `TX`. -/
inductive AsmOperand where
  | none
  | num (n : Nat)
  | ring (r : Ring)
deriving DecidableEq, Repr

/-- The command a mnemonic and its operand name (R101). -/
def assemble (mnemonic : String) (o : AsmOperand) : Option Instr :=
  match o with
  | .none =>
    if mnemonic = "BRINGUP" then some .bringup
    else if mnemonic = "TEARDOWN" then some .teardown
    else if mnemonic = "REFILL" then some .refill
    else if mnemonic = "RECLAIM" then some .reclaim
    else if mnemonic = "IRQ" then some .irq
    else Option.none
  | .num n =>
    if mnemonic = "ACQUIRE" then some (.acquire n)
    else if mnemonic = "RELEASE" then some (.release n)
    else if mnemonic = "DRAIN" then some (.drain n)
    else if mnemonic = "SUBMIT" then some (.submit n)
    else if mnemonic = "POLL" then some (.poll n)
    else Option.none
  | .ring r =>
    if mnemonic = "IS_FULL" then some (.isFull r)
    else if mnemonic = "IS_EMPTY" then some (.isEmpty r)
    else Option.none

/-- A command's operand (R91). -/
def asmOperand : Instr → AsmOperand
  | .bringup => .none
  | .teardown => .none
  | .acquire n => .num n
  | .release n => .num n
  | .isFull r => .ring r
  | .isEmpty r => .ring r
  | .refill => .none
  | .drain n => .num n
  | .submit n => .num n
  | .reclaim => .none
  | .irq => .none
  | .poll n => .num n

/-- `<port>` of R101. -/
def asmPort : Ctx → String
  | .drv => "DRV"
  | .up k => "UP" ++ toString k
  | .irq => "IRQ"
  | .poll => "POLL"

/-- An operand's text, with the space before it. -/
def AsmOperand.text : AsmOperand → String
  | .none => ""
  | .num n => " " ++ toString n
  | .ring .rx => " RX"
  | .ring .tx => " TX"

/-- One line: `<port>: <MNEMONIC> [operand]` (R101). -/
def asmLine (c : Ctx) (i : Instr) : String := asmPort c ++ ": " ++ i.mnemonic ++ (asmOperand i).text

/-- The test-bench directives of R102. -/
inductive Directive where
  | completeRx (i : Nat) (len : Word) (err : Bool) (bytes : List Byte)
  | completeTx (i : Nat) (err : Bool)
  | raise (bits : Word)
  | mapOk (bs : List Bool)
  | rstAck (k : Nat)
  | rstAckNever
  | fill (k h : Nat) (bytes : List Byte)
deriving DecidableEq, Repr

/-- More accesses than one completion makes (a buffer has at most 65535 bytes, R7). -/
def completionAccesses : Nat := 65545

/-- The moves a directive stands for (R102); `flight` completions are already in progress. -/
def Directive.moves (c : Config) (flight : Nat) : Directive → List Move
  | .completeRx i len err bytes => [.rxComplete i len err bytes, .device flight completionAccesses]
  | .completeTx i err => [.txComplete i err, .device flight completionAccesses]
  | .raise bits => [.raise bits]
  | .mapOk bs => [.mapOk bs]
  | .rstAck k => [.rstAck (List.replicate (k - 1) false ++ [true])]
  | .rstAckNever => [.rstAck (List.replicate c.resetBound false)]
  | .fill k h bytes => [.fill k h 0 bytes]

end Sys2Proof.Machine
end

