-- ==== Sys2Proof/Tests/Slice0.lean ====
section
/-! SUPPORT. Tests: expected values are from 95_test_vectors.md (V1 to V80, P1 to P5), 30_encoding.md and the
rules' own examples; then one witness per obligation that has hypotheses. -/

namespace Sys2Proof.Tests

open Sys2Proof Sys2Proof.Machine

-- One proof at a time: many kernel evaluations at once need more threads than the build has.
set_option Elab.async false

/-! ## Well-formedness: one ill-formed term for each check -/

theorem test_wf_refuses_wide_operands :
    Instr.wf (.acquire 65536) = false ∧ Instr.wf (.release 65536) = false ∧ Instr.wf (.drain 65536) = false
      ∧ Instr.wf (.submit 65536) = false ∧ Instr.wf (.poll 65536) = false ∧ Instr.wf (.poll 65535) = true := by decide

theorem test_wf_sample : Config.sample.wf = true := by decide

theorem test_wf_ring_sizes :
    Config.sizesOk { Config.sample with nRx := 1 } = false ∧ Config.sizesOk { Config.sample with nTx := 1 } = false
      ∧ Config.sizesOk { Config.sample with nRx := 65537 } = false
      ∧ Config.sizesOk { Config.sample with nTx := 65537 } = false := by decide

theorem test_wf_pool :
    Config.poolOk { Config.sample with poolSize := 0 } = false
      ∧ Config.poolOk { Config.sample with poolSize := 65537 } = false
      ∧ Config.poolOk { Config.sample with bufSize := 0 } = false
      ∧ Config.poolOk { Config.sample with bufSize := 65536 } = false
      ∧ Config.poolOk { Config.sample with xlate := [0] } = false := by decide

theorem test_wf_rings :
    Config.ringsOk { Config.sample with rxBase := 0x1008 } = false
      ∧ Config.ringsOk { Config.sample with txBase := 0x2004 } = false
      ∧ Config.ringsOk { Config.sample with rxBase := 0xFFFFFFFFFFFFFFD0 } = false
      ∧ Config.ringsOk { Config.sample with txBase := 0xFFFFFFFFFFFFFFD0 } = false
      ∧ Config.ringsOk { Config.sample with txBase := 0x1030 } = false := by decide

theorem test_wf_windows :
    Config.windowsOk { Config.sample with xlate := [0xFFFFFFFFFFFFF801] } = false
      ∧ Config.windowsOk { Config.sample with xlate := [0x1030] } = false
      ∧ Config.windowsOk { Config.sample with xlate := [0x1801] } = false
      ∧ Config.windowsOk { Config.sample with xlate := [0x80000000, 0x800007FF] } = false := by decide

theorem test_wf_causes_and_registers :
    Config.causesOk { Config.sample with isrErr := 0 } = false ∧ Config.causesOk { Config.sample with isrErr := 32 } = false
      ∧ Config.regsOk { Config.sample with regReset := 4 } = false
      ∧ Config.regsOk { Config.sample with regReset := 9 } = false
      ∧ Config.regsOk { Config.sample with resetBound := 0 } = false := by decide

/-! ## Decoding: each constructor's word, `op` in bits 31:24, `sel` in bit 23, `arg` in bits 15:0 (R90, R93) -/

theorem test_decode_bringup : decode 0b00000001_0_0000000_0000000000000000 = .ok .bringup := by decide
theorem test_decode_teardown : decode 0b00000010_0_0000000_0000000000000000 = .ok .teardown := by decide
theorem test_decode_acquire : decode 0b00010000_0_0000000_0000000000111100 = .ok (.acquire 60) := by decide
theorem test_decode_release : decode 0b00010011_0_0000000_0000000000000001 = .ok (.release 1) := by decide
theorem test_decode_isFull : decode 0b00100000_1_0000000_0000000000000000 = .ok (.isFull .tx) := by decide
theorem test_decode_isEmpty : decode 0b00100001_0_0000000_0000000000000000 = .ok (.isEmpty .rx) := by decide
theorem test_decode_refill : decode 0b00110000_0_0000000_0000000000000000 = .ok .refill := by decide
theorem test_decode_drain : decode 0b00110001_0_0000000_0000000000001010 = .ok (.drain 10) := by decide
theorem test_decode_submit : decode 0b00111000_0_0000000_0000000000000011 = .ok (.submit 3) := by decide
theorem test_decode_reclaim : decode 0b00111001_0_0000000_0000000000000000 = .ok .reclaim := by decide
theorem test_decode_irq : decode 0b01000000_0_0000000_0000000000000000 = .ok .irq := by decide
theorem test_decode_poll : decode 0b01000001_0_0000000_1000000000000010 = .ok (.poll 32770) := by decide

/-- V68 to V72, V78, V79. -/
theorem test_decode_illegal :
    decode 0x00000000 = .error (.unassignedOpcode 0) ∧ decode 0xFFFFFFFF = .error .reservedNotZero
      ∧ decode 0xFF000000 = .error (.unassignedOpcode 0xFF)
      ∧ decode 0x01000001 = .error .argNotZero ∧ decode 0x30800000 = .error .selNotZero
      ∧ decode 0x3101000A = .error .reservedNotZero ∧ decode 0x20800001 = .error .argNotZero
      ∧ decode 0x10800010 = .error .selNotZero := by decide

/-- R101's examples and their words in the vectors. -/
theorem test_assembler :
    (assemble "DRAIN" (.num 10)).map encode = some 0x3100000A ∧ (assemble "SUBMIT" (.num 3)).map encode = some 0x38000003
      ∧ (assemble "IS_FULL" (.ring .tx)).map encode = some 0x20800000
      ∧ (assemble "BRINGUP" .none).map encode = some 0x01000000 := by decide

/-! ## One command at a time -/

/-- The state after a step, or the state itself where the step stops. -/
def next (s : State) : State :=
  match step s with
  | .next t => t
  | .fault _ => s
  | .refused _ => s

/-- The word `w` on context `c`'s port, run to its end. -/
def on (c : Ctx) (w : Word) (s : State) : State := next { s.setLane c ⟨.idle, [w]⟩ with script := [.run c 500] }

/-- One move. -/
def move (m : Move) (s : State) : State := next { s with script := [m] }

/-- The whole completion of the only one in progress. -/
def completeRx (i : Nat) (len : Word) (err : Bool) (bytes : List Byte) (s : State) : State :=
  move (.device 0 100) (move (.rxComplete i len err bytes) s)

/-- The last response word. -/
def answer (s : State) : Option Word :=
  match s.hist.getLast? with
  | some (.resp _ w) => some w
  | _ => none

/-- Reset, every `map_ok` true, the first read of `RESET` acknowledged, `ISR` left 0. -/
def fresh : State := { State.reset with draws := ⟨List.replicate 12 true, [true], [0]⟩ }

/-- `S_UP` of 95_test_vectors. -/
def sUp : State := on .drv 0x01000000 fresh

/-- V1, V2: the lowest free handle, the length recorded. -/
theorem test_acquire :
    answer (on (.up 0) 0x1000003C fresh) = some 0 ∧ (on (.up 0) 0x1000003C fresh).buffer 0 = ⟨.up, 60, none⟩
      ∧ answer (on (.up 0) 0x10000800 (on (.up 0) 0x1000003C fresh)) = some 1 := by decide +kernel

/-- V3: `size > BUF_SIZE`. -/
theorem test_acquire_too_long :
    answer (on (.up 0) 0x10000801 fresh) = some 0x20000000 ∧ (on (.up 0) 0x10000801 fresh).pool = fresh.pool := by decide +kernel

/-- V5, V6: released once, refused the second time; `len` stays. -/
theorem test_release :
    answer (on (.up 1) 0x13000000 (on (.up 0) 0x1000003C fresh)) = some 0
      ∧ (on (.up 1) 0x13000000 (on (.up 0) 0x1000003C fresh)).buffer 0 = ⟨.free, 60, none⟩
      ∧ answer (on (.up 1) 0x13000000 fresh) = some 0xD0000000 := by decide +kernel

/-- V9, V8: an engine's buffer and a handle out of range. -/
theorem test_release_refused :
    answer (on (.up 0) 0x13000000 sUp) = some 0xD0000000 ∧ answer (on (.up 0) 0x1300FFFF fresh) = some 0xD0000000 := by
  decide +kernel

/-- V12, V13. -/
theorem test_isFull :
    answer (on .drv 0x20000000 fresh) = some 0 ∧ answer (on .irq 0x20000000 sUp) = some 1
      ∧ answer (on (.up 1) 0x20800000 sUp) = some 0 := by decide +kernel

/-- V11. -/
theorem test_isEmpty :
    answer (on .poll 0x21000000 fresh) = some 1 ∧ answer (on (.up 0) 0x21800000 fresh) = some 1
      ∧ answer (on .poll 0x21000000 sUp) = some 0 := by decide +kernel

/-- V60 and `S_UP`. -/
theorem test_bringup :
    answer sUp = some 3 ∧ sUp.life = .up ∧ sUp.rx.head = 3 ∧ sUp.rx.tail = 0
      ∧ sUp.rx.pend = [some (0, 0x80000000), some (1, 0x80000800), some (2, 0x80001000), none]
      ∧ sUp.descriptor .rx 2 = (0x90000000, 0x800, 0x80001000) ∧ sUp.descriptor .rx 3 = (0, 0, 0)
      ∧ sUp.descriptor .tx 3 = (0, 0, 0) := by decide +kernel

/-- V62: no acknowledge within `RESET_BOUND` reads. -/
theorem test_bringup_timeout :
    let t := on .drv 0x01000000 { fresh with draws := ⟨[], [false, false, false], []⟩ }
    answer t = some 0x50000000 ∧ t.life = .down ∧ t.desc = [] ∧ t.pool = fresh.pool := by decide +kernel

/-- V65. -/
theorem test_teardown :
    let t := on .drv 0x02000000 sUp
    answer t = some 3 ∧ t.life = .down ∧ t.rx.head = 0 ∧ (t.buffer 1).own = .free ∧ (t.buffer 1).map = none
      ∧ (t.descriptor .rx 2).1 = 0x90000000 := by decide +kernel

/-- P4 line 4. -/
theorem test_teardown_twice : answer (on .drv 0x02000000 (on .drv 0x02000000 sUp)) = some 0 := by decide +kernel

/-- S2: a full ring. -/
theorem test_refill_full : answer (on .poll 0x30000000 sUp) = some 0 ∧ (on .poll 0x30000000 sUp).rx = sUp.rx := by decide +kernel

/-- S3: the next REFILL arms slot 3 with handle 3, not with the delivered handle 0. -/
theorem test_refill_other_handle :
    let t := on .poll 0x30000000 (on .poll 0x3100000A (completeRx 0 1 false [0x11] sUp))
    answer t = some 1 ∧ t.pending .rx 3 = some (3, 0x80001800) ∧ t.rx.head = 0 ∧ (t.buffer 0).own = .up := by decide +kernel

/-- P1 line 6, with shorter frames: two deliveries in slot order. -/
theorem test_drain :
    let t := on .poll 0x3100000A (completeRx 1 1 false [0x22] (completeRx 0 2 false [0x11, 0x12] sUp))
    t.hist.drop 1 = [.deliver 0 [0x11, 0x12], .deliver 1 [0x22], .resp .poll 2] ∧ t.rx.tail = 2 ∧ t.rx.head = 3 := by
  decide +kernel

/-- R146: an errored descriptor is dropped and counted, its buffer freed. -/
theorem test_drain_error :
    let t := on .poll 0x3100000A (completeRx 0 1 true [0x11] sUp)
    t.hist.drop 1 = [.resp .poll 1] ∧ t.rxErr = 1 ∧ (t.buffer 0).own = .free ∧ (t.buffer 0).map = none := by decide +kernel

/-- R155's example, with the bytes it writes. -/
theorem test_submit :
    let t := on (.up 0) 0x38000003 (on (.up 0) 0x1000003C sUp)
    answer t = some 0 ∧ t.tx.head = 1 ∧ t.pending .tx 0 = some (3, 0x80001800)
      ∧ (List.range 16).map (fun k => t.descByte (0x2000 + k))
        = [0, 0, 0, 0xF0, 0x3C, 0, 0, 0, 0x00, 0x18, 0x00, 0x80, 0, 0, 0, 0]
      ∧ t.hist.getD (t.hist.length - 2) .wake = .kick := by decide +kernel

/-- R155: BUSY on a full ring, and the queue is stopped. -/
theorem test_submit_busy :
    let t := on (.up 0) 0x38000007 { sUp with tx := { sUp.tx with head := 3 } }
    answer t = some 0x10000000 ∧ t.txStopped = true ∧ t.txLock = none := by decide +kernel

/-- R156's example: one slot freed of a full ring, WAKE. -/
theorem test_reclaim :
    let full := on (.up 0) 0x38000005 (on (.up 0) 0x38000004 (on (.up 0) 0x38000003 (on (.up 0) 0x10000001
      (on (.up 0) 0x10000001 (on (.up 0) 0x10000001 sUp)))))
    let t := on .poll 0x39000000 (move (.device 0 100) (move (.txComplete 0 false) { full with txStopped := true }))
    answer t = some 1 ∧ (t.buffer 3).own = .free ∧ t.pending .tx 0 = none ∧ t.tx.tail = 1 ∧ t.txStopped = false
      ∧ t.hist.getD (t.hist.length - 2) .kick = .wake := by decide +kernel

/-- P5 line 11: RECLAIM on the wrong port. -/
theorem test_reclaim_wrong_port : answer (on (.up 0) 0x39000000 sUp) = some 0xF0000000 := by decide +kernel

/-- R170's example: `ISR = 3`. -/
theorem test_irq :
    let t := on .irq 0x40000000 (move (.raise 0x43) sUp)
    answer t = some 0 ∧ t.isrLatch = 3 ∧ t.pollSched = true ∧ t.isr = 0 := by decide +kernel

/-- R170's second example, and V55. -/
theorem test_irq_not_mine :
    answer (on .irq 0x40000000 sUp) = some 0x40000000 ∧ answer (on .irq 0x40000000 fresh) = some 0xE0000000 := by decide +kernel

/-- V56. -/
theorem test_poll :
    let t := on .poll 0x41000004 { sUp with pollSched := true }
    answer t = some 0 ∧ t.pollSched = false ∧ t.pollRunning = false := by decide +kernel

/-- V57. -/
theorem test_poll_zero :
    answer (on .poll 0x41000000 sUp) = some 0 ∧ (on .poll 0x41000000 sUp).pollSched = true := by decide +kernel

/-- R196's example, with a shorter frame: the bytes and the length, then the hand-back. -/
theorem test_device_rx :
    let t := completeRx 0 2 false [0xAA, 0xBB] sUp
    t.descriptor .rx 0 = (0x70000000, 2, 0x80000000) ∧ t.bufByte 0 0 = 0xAA ∧ t.bufByte 0 1 = 0xBB ∧ t.dev = []
      ∧ t.fault.none = true := by decide +kernel

/-- A step runs a word placed by `withFetchWord` as the first instruction after reset (log entry 6). -/
theorem test_first_word :
    answer (next (State.reset.withFetchWord 32 0x1000003C)) = some 0
      ∧ answer (next (State.reset.withFetchWord 32 0x41000002)) = some 0xE0000000 := by decide +kernel

/-! ## Witnesses: one state and operands that meet all hypotheses of each obligation, for each clause -/

/-- The outcome is a next state. -/
def answers : Host.Outcome State Fault Refusal → Bool
  | .next _ => true
  | .fault _ => false
  | .refused _ => false

theorem answers_next {o : Host.Outcome State Fault Refusal} (h : answers o = true) : ∃ t, o = .next t := by
  cases o with
  | next t => exact ⟨t, rfl⟩
  | fault f => cases h
  | refused r => cases h

/-- The context `c` of `s` scheduled with `n` micro-steps. -/
def sched (c : Ctx) (n : Nat) (s : State) : State := { s with cur := c, slice := n }

/-- A state whose scheduled context can accept `i` (R94, R97). -/
theorem ready_of {i : Instr} {s : State} (h : (s.cfg.wf && s.idle s.cur && legalOn i s.cur.port) = true) : s.Ready i := by
  simp only [Bool.and_eq_true] at h
  exact ⟨h.1.1, h.1.2, h.2⟩

theorem with_ready {i : Instr} {s : State} {p : Prop} (h : (s.cfg.wf && s.idle s.cur && legalOn i s.cur.port) = true ∧ p) :
    s.Ready i ∧ p := ⟨ready_of h.1, h.2⟩

/-- The state the invariants' obligations are witnessed by; no invariant is an obligation about it. -/
def quiet : State :=
  { State.reset with
    life := .up, script := [.raise 1]
    desc := (List.range 64).map (fun k => (0x1000 + k, 0)) ++ (List.range 64).map (fun k => (0x2000 + k, 0)) }

/-- `S_UP` of 95_test_vectors, every further mapping succeeding. -/
def armed : State := { ((quiet.armRx 0).armRx 1).armRx 2 with draws := ⟨List.replicate 9 true, [true], []⟩ }

/-- The device has completed RX slot 0 well and RX slot 1 badly. -/
def twoDone : State := (armed.setDescriptor .rx 0 0x70000000 1 0x80000000).setDescriptor .rx 1 0x78000000 1 0x80000800

/-- `armed` after one descriptor was consumed. -/
def sHole : State := (armed.setDescriptor .rx 0 0x70000000 1 0x80000000).takeRx

/-- `armed` after `ACQUIRE 60`, which answered handle 3. -/
def sHeld : State := armed.setBuffer 3 ⟨.up, 60, none⟩

/-- A packet of one byte handed to the transmit engine in buffer `h`. -/
def sendByte (h : Nat) (s : State) : State := (s.setBuffer h ⟨.eng, 1, some .outbound⟩).arm .tx h 0xF0000000 1

/-- Three packets submitted, the first one completed with an error: the TX ring is full. -/
def sSent : State := (sendByte 5 (sendByte 4 (sendByte 3 armed))).setDescriptor .tx 0 0x78000000 1 0x80001800

theorem witness_DecodeOfEncode : Instr.wf (.acquire 65535) = true := by decide

theorem witness_EncodeOfDecode : decode 0x1000FFFF = .ok (.acquire 65535) := by decide

theorem witness_RowsAgreeWithDecoder :
    decode 0x20800000 = .ok (.isFull .tx)
      ∧ (⟨"IS_FULL", 0x20000000, 0xFF7FFFFF⟩ : OpRow) ∈ opRows
      ∧ OpRow.selects ⟨"IS_FULL", 0x20000000, 0xFF7FFFFF⟩ 0x20800000 = true := by decide

theorem witness_ReservedFieldsMatchNoRow :
    slice 0x3101000A 22 16 ≠ 0
      ∧ (slice 0x30800000 23 23 = 1 ∧ slice 0x30800000 31 24 ≠ 0x20 ∧ slice 0x30800000 31 24 ≠ 0x21)
      ∧ (slice 0x01000001 15 0 ≠ 0 ∧ slice 0x01000001 31 24 ∈ [0x01, 0x02, 0x20, 0x21, 0x30, 0x39, 0x40]) := by decide

theorem witness_ResponseFields : 65535 < 2 ^ 16 := by decide

/-- An idle context with two words waiting, then a running one. -/
theorem witness_StepRunsDecodedCommand :
    (∃ s : State, s.cfg.wf = true ∧ s.script = [.run (.up 0) 5]
      ∧ s.lane? (.up 0) = some ⟨.idle, [0x1000003C, 0x13000000]⟩ ∧ decode 0x1000003C = .ok (.acquire 60))
    ∧ ∃ s : State, s.cfg.wf = true ∧ s.script = [.run .irq 0]
      ∧ s.lane? .irq = some ⟨.running (.irq .i1), [0x40000000]⟩ :=
  ⟨⟨{ fresh.setLane (.up 0) ⟨.idle, [0x1000003C, 0x13000000]⟩ with script := [.run (.up 0) 5] }, by decide +kernel⟩,
    ⟨{ fresh.setLane .irq ⟨.running (.irq .i1), [0x40000000]⟩ with script := [.run .irq 0] }, by decide +kernel⟩⟩

theorem witness_IllegalWordAnswered :
    ∃ s : State, s.cfg.wf = true ∧ s.script = [.run .poll 0] ∧ s.lane? .poll = some ⟨.idle, [0x3101000A]⟩
      ∧ decode 0x3101000A = .error .reservedNotZero :=
  ⟨{ fresh.setLane .poll ⟨.idle, [0x3101000A]⟩ with script := [.run .poll 0] }, by decide +kernel⟩

theorem witness_PlacedWordRunsFirst : Instr.wf (.poll 65535) = true := by decide

/-- Each of the four clauses: a context of another class. -/
theorem witness_WrongPortIsIllegal :
    fresh.cfg.wf = true ∧ (sched .irq 0 fresh).idle .irq = true ∧ (sched .drv 0 fresh).idle .drv = true
      ∧ (sched .irq 0 fresh).cur ≠ .drv ∧ (sched .irq 0 fresh).cur ≠ .poll ∧ (sched .drv 0 fresh).cur ≠ .irq
      ∧ ∀ k, (sched .irq 0 fresh).cur ≠ .up k :=
  ⟨by decide, by decide, by decide, by decide, by decide, by decide, fun k h => by cases h⟩

theorem witness_BusyPortKeepsWord :
    ∃ s : State, s.cfg.wf = true ∧ s.cur = .irq ∧ s.lane? .irq = some ⟨.running (.irq .i1), []⟩
      ∧ Cont.running (.irq .i1) ≠ .idle ∧ s.script = [.offer .irq 0x40000000] :=
  ⟨{ sched .irq 0 (fresh.setLane .irq ⟨.running (.irq .i1), []⟩) with script := [.offer .irq 0x40000000] },
    by decide +kernel⟩

theorem witness_AcceptanceStartsOperation :
    (sched .drv 0 fresh).Ready .bringup ∧ fresh.life = .down ∧ (sched .drv 0 fresh).slice = 0
      ∧ (sched .drv 0 fresh).Ready .teardown ∧ (sched (.up 1) 0 fresh).Ready (.acquire 1)
      ∧ (sched (.up 1) 0 fresh).Ready (.release 1) ∧ (sched .irq 0 fresh).Ready (.isFull .rx)
      ∧ (sched .irq 0 fresh).Ready (.isEmpty .tx) ∧ (sched .poll 0 armed).Ready .refill
      ∧ (sched .poll 0 armed).Ready (.drain 1) ∧ (sched .poll 0 armed).Ready (.poll 1)
      ∧ (sched (.up 0) 0 fresh).Ready (.submit 1) ∧ (sched .poll 0 fresh).Ready .reclaim ∧ (sched .irq 0 armed).Ready .irq
      ∧ armed.life = .up ∧ armed.pollRunning = false :=
  ⟨ready_of (by decide +kernel), by decide, by decide, ready_of (by decide +kernel), ready_of (by decide +kernel),
    ready_of (by decide +kernel), ready_of (by decide +kernel), ready_of (by decide +kernel), ready_of (by decide +kernel),
    ready_of (by decide +kernel), ready_of (by decide +kernel), ready_of (by decide +kernel), ready_of (by decide +kernel),
    ready_of (by decide +kernel), by decide +kernel, by decide +kernel⟩

theorem witness_OnlyBadParametersStop : armed.cfg.wf = true ∧ Config.wf { Config.sample with nRx := 1 } = false := by
  decide +kernel

/-! ### A sound state that is `UP`, with both rings empty and their descriptors zero -/

theorem quiet_cont (c : Ctx) : quiet.cont c = .idle := by
  cases c with
  | up k =>
    match k with
    | 0 => rfl
    | 1 => rfl
    | k + 2 => rfl
  | drv => rfl
  | irq => rfl
  | poll => rfl

theorem quiet_task (c : Ctx) : quiet.task? c = none := by simp [State.task?, quiet_cont]

theorem quiet_tasks : quiet.tasks = [] := by simp [State.tasks, quiet_task]

theorem quiet_buffer (h : Nat) : quiet.buffer h = ⟨.free, 0, none⟩ := by
  match h with
  | 0 | 1 | 2 | 3 | 4 | 5 | 6 | 7 => rfl
  | h + 8 => rfl

theorem quiet_pending (r : Ring) (i : Nat) : quiet.pending r i = none := by
  cases r <;>
  · match i with
    | 0 | 1 | 2 | 3 => rfl
    | i + 4 => rfl

theorem quiet_claims : quiet.claims = [] := by
  simp [State.claims, quiet_tasks, State.pendClaims, quiet_pending]

theorem quiet_shaped : quiet.Shaped where
  pool := by decide
  rxPend := by decide
  txPend := by decide
  up := by decide
  rxHead := by decide
  rxTail := by decide
  txHead := by decide
  txTail := by decide
  desc := by decide +kernel
  buf := by decide
  isr := by decide
  rst := by decide

theorem quiet_exclusive : quiet.Exclusive where
  fits c t h := by simp [quiet_task] at h
  lockHolder c h := by cases h
  lockHeld c t h := by simp [quiet_task] at h
  pollHeld h := by cases h
  pollRuns t h := by simp [quiet_task] at h
  up c t h := by simp [quiet_task] at h
  down c t h := by simp [quiet_task] at h

theorem quiet_sound : quiet.Sound where
  wf := by decide +kernel
  shaped := quiet_shaped
  exclusive := quiet_exclusive
  pool := by
    refine ⟨?_, ?_, ?_, ?_, ?_, ?_⟩ <;> simp [quiet_claims, quiet_buffer, quiet_pending]
  ring := by
    refine ⟨?_, ?_, ?_, ?_, ?_, ?_, ?_, ?_⟩
    · intro r i h
      have hw : quiet.inWindow r i = false := by cases r <;> simp [State.inWindow, State.count, subIndex] <;> rfl
      simp [quiet_pending, State.expects, quiet_tasks, hw]
    · simp [quiet_tasks]
    · intro h
      cases h
    · intro h
      cases h
    · intro h
      cases h
    · simp [quiet_cont]
    · rfl
    · rfl

theorem quiet_unowned : ∀ r ∈ [Ring.rx, Ring.tx], ∀ i ∈ List.range 4,
    ownBit (quiet.descRead32 (statusAddr quiet.cfg r i)) = false := by decide +kernel

theorem quiet_not_owned (r : Ring) (i : Nat) (h : i < ringSize quiet.cfg r) :
    ownBit (quiet.descRead32 (statusAddr quiet.cfg r i)) = false :=
  quiet_unowned r (by cases r <;> simp) i (by cases r <;> exact List.mem_range.mpr h)

theorem quiet_devSound : quiet.DevSound where
  armed _ r i h ho := by simp [quiet_not_owned r i h] at ho
  ops _ o ho := by cases ho
  slots := by decide +kernel
  addressed r i h a hp := by simp [quiet_pending] at hp
  asked _ := .inr rfl
  forgotten _ := rfl
  answered _ := by decide +kernel
  cleared r i _ h := by simp [quiet_tasks] at h
  consumed r h := by simp [quiet_tasks] at h
  written t h := by simp [quiet_tasks] at h
  noDma := rfl

theorem quiet_step : ∃ t, step quiet = .next t := answers_next (by decide +kernel)

/-- R260: reset is at rest, but no TEARDOWN has run; a TEARDOWN word placed at its port is one. -/
theorem test_tearsDown :
    State.reset.atRest = true ∧ (State.reset.withFetchWord 32 0x02000000).tearsDown = true
      ∧ (State.reset.withFetchWord 32 0x01000000).tearsDown = false := by decide +kernel

/-- A context with an operation in progress, and one without. -/
theorem witness_SlicesCompose :
    (armed.setCont .irq (.running (.irq (.i7 1)))).running .irq = true ∧ armed.running .irq = false := by decide +kernel

theorem witness_ShapeKept : quiet.Shaped ∧ ∃ t, step quiet = .next t := ⟨quiet_shaped, quiet_step⟩

theorem witness_ExclusionKept : quiet.Shaped ∧ quiet.Exclusive ∧ ∃ t, step quiet = .next t :=
  ⟨quiet_shaped, quiet_exclusive, quiet_step⟩

theorem witness_SoundKept : quiet.Sound ∧ ∃ t, step quiet = .next t := ⟨quiet_sound, quiet_step⟩

theorem witness_DeviceSoundKept : quiet.Sound ∧ quiet.DevSound ∧ ∃ t, step quiet = .next t :=
  ⟨quiet_sound, quiet_devSound, quiet_step⟩

theorem witness_SoundAtReset : Config.wf { Config.sample with kUp := 7 } = true := by decide

/-- A step after a fault; a SUBMIT about to kick in a shaped state; and no SUBMIT in progress. -/
theorem witness_FaultsHistoryAndKicks :
    (∃ t, step (quiet.raise .pool) = .next t)
      ∧ (∃ s : State, s.Shaped ∧ s.kicks = 0 + s.kicked ∧ s.task? (.up 0) = some (.submit 3 .x9)
          ∧ (microStep (.up 0) s).kicked = 1 ∧ ∃ t, step s = .next t)
      ∧ ∀ c h p, quiet.task? c ≠ some (.submit h p) := by
  refine ⟨answers_next (by decide +kernel), ⟨?_, ?_⟩⟩
  · refine ⟨{ quiet with
        lanes := { quiet.lanes with up := [⟨.running (.submit 3 .x9), []⟩, ⟨.idle, []⟩] }, script := [.run (.up 0) 0] },
      ?_, by decide +kernel, by decide +kernel, by decide +kernel, answers_next (by decide +kernel)⟩
    exact { quiet_shaped with up := by decide }
  · intro c h p
    simp [quiet_task]

/-- REFILL about to advance the head. -/
theorem witness_IndexWriters :
    ∃ s : State, s.task? .poll = some (.refill (.f6 0 3)) ∧ (∀ k, s.task? .poll = some k → k.ok s)
      ∧ (microStep .poll s).rx.head ≠ s.rx.head :=
  ⟨{ quiet with
      rx := { quiet.rx with head := 3, tail := 1 }, lanes := { quiet.lanes with poll := ⟨.running (.refill (.f6 0 3)), []⟩ } },
    by decide +kernel,
    fun k h => by
      cases h
      exact And.intro (by decide +kernel) (by decide +kernel),
    by decide +kernel⟩

/-- One state for every clause: a slot at the ring's end, a device move, a command accepted with a slice of 0. -/
theorem witness_SlotCycle :
    quiet.Sound ∧ quiet.DevSound ∧ quiet.life = .up ∧ 3 < ringSize quiet.cfg .tx ∧ quiet.slice = 0
      ∧ (∃ t, moveTurn (.raise 1) quiet = .done t) ∧ ∃ t, exec (.isFull .rx) quiet = .next t :=
  ⟨quiet_sound, quiet_devSound, rfl, by decide, rfl, ⟨_, rfl⟩, answers_next (by decide +kernel)⟩

/-- A device move, an offer, and each input of the environment. -/
theorem witness_OthersLeavePrivateState :
    (∀ c k, Move.raise 1 ≠ .run c k) ∧ (∀ c w, Move.raise 1 ≠ .offer c w) ∧ (∃ t, moveTurn (.raise 1) quiet = .done t)
      ∧ (∀ c k, Move.offer .irq 0 ≠ .run c k) ∧ (∃ t, moveTurn (.offer .irq 0) quiet = .done t)
      ∧ (∃ t, moveTurn (.line true) quiet = .done t) ∧ (∃ t, moveTurn (.mapOk [false]) quiet = .done t)
      ∧ (∃ t, moveTurn (.rstAck [true]) quiet = .done t) ∧ ∃ t, moveTurn (.ackIsr [1]) quiet = .done t :=
  ⟨fun c k h => (by cases h), fun c w h => (by cases h), ⟨_, rfl⟩, fun c k h => (by cases h), ⟨_, rfl⟩, ⟨_, rfl⟩, ⟨_, rfl⟩,
    ⟨_, rfl⟩, ⟨_, rfl⟩⟩

/-! ### Commands -/

/-- Success at `size = BUF_SIZE`; failure one byte above, and with no buffer free. -/
theorem witness_AcquireAnswers :
    (sched (.up 0) 1 armed).Ready (.acquire 2048) ∧ (sched (.up 0) 1 armed).Ready (.acquire 2049)
      ∧ (2048 ≤ armed.cfg.bufSize ∧ 3 < armed.cfg.poolSize ∧ (armed.buffer 3).own = .free
        ∧ ∀ j, j < 3 → (armed.buffer j).own ≠ .free)
      ∧ armed.cfg.bufSize < 2049
      ∧ (∃ s : State, s.Ready (.acquire 1) ∧ 1 ≤ s.slice ∧ ∀ h, h < s.cfg.poolSize → (s.buffer h).own ≠ .free) :=
  ⟨ready_of (by decide +kernel), ready_of (by decide +kernel), by decide +kernel, by decide +kernel,
    ⟨sched (.up 0) 1 { fresh with pool := List.replicate 8 ⟨.up, 1, none⟩ },
      ready_of (by decide +kernel), by decide +kernel, by decide +kernel⟩⟩

theorem witness_ReleaseAnswers :
    ∃ s : State, s.Ready (.release 7) ∧ s.Ready (.release 8) ∧ 1 ≤ s.slice
      ∧ (7 < s.cfg.poolSize ∧ (s.buffer 7).own = .up ∧ (s.buffer 7).map = none) ∧ s.cfg.poolSize ≤ 8
      ∧ (s.buffer 0).own ≠ .up ∧ s.Ready (.release 0) :=
  ⟨sched (.up 1) 1 (armed.setBuffer 7 ⟨.up, 1, none⟩), ready_of (by decide +kernel), ready_of (by decide +kernel),
    by decide +kernel, by decide +kernel, by decide +kernel, by decide +kernel, ready_of (by decide +kernel)⟩

theorem witness_ReleaseOfMappedStops :
    ∃ s : State, s.Ready (.release 7) ∧ 1 ≤ s.slice ∧ 7 < s.cfg.poolSize ∧ (s.buffer 7).own = .up
      ∧ (s.buffer 7).map ≠ none :=
  ⟨sched (.up 1) 1 (armed.setBuffer 7 ⟨.up, 1, some .inbound⟩), ready_of (by decide +kernel), by decide +kernel,
    by decide +kernel, by decide +kernel, by decide +kernel⟩

/-- Both answers of each query. -/
theorem witness_RingQueriesAnswer :
    armed.cfg.wf = true ∧ (sched .irq 1 armed).idle .irq = true ∧ 1 ≤ (sched .irq 1 armed).slice
      ∧ ((armed.ring .rx).head + 1) % ringSize armed.cfg .rx = (armed.ring .rx).tail
      ∧ (armed.ring .tx).head = (armed.ring .tx).tail := by decide +kernel

theorem witness_RingPredicates :
    2 ≤ ringSize armed.cfg .rx ∧ (armed.ring .rx).head < ringSize armed.cfg .rx ∧ (armed.ring .rx).tail < ringSize armed.cfg .rx := by
  decide +kernel

/-- PEEK's three cases at K1: an empty ring, a slot the device owns, one it has handed back. -/
theorem witness_ProduceAndPeekOrder :
    (quiet.ring .rx).head = (quiet.ring .rx).tail
      ∧ ((armed.ring .rx).head ≠ (armed.ring .rx).tail ∧ (armed.descriptor .rx (armed.ring .rx).tail).1.getLsbD 31 = true)
      ∧ (twoDone.ring .rx).head ≠ (twoDone.ring .rx).tail
      ∧ (twoDone.descriptor .rx (twoDone.ring .rx).tail).1.getLsbD 31 = false := by decide +kernel

theorem witness_RefillRuns :
    ∃ s : State, s.Ready .refill ∧ s.life = .up ∧ s.pollRunning = false ∧ s.sizesOk = true ∧ 10 * s.cfg.nRx ≤ s.slice :=
  ⟨sched .poll 40 sHole, with_ready (by decide +kernel)⟩

/-- The last clause too: `N_RX` mappings will succeed. -/
theorem witness_RefillArmsSlots :
    ∃ s : State, s.Ready .refill ∧ s.life = .up ∧ s.pollRunning = false ∧ s.sizesOk = true ∧ 10 * s.cfg.nRx ≤ s.slice
      ∧ s.draws.mapOk = List.replicate 4 true ++ s.draws.mapOk.drop 4 ∧ s.cfg.nRx ≤ 4
      ∧ ((List.range s.cfg.poolSize).filter fun h => (s.buffer h).own == .free)[0]? = some 3 :=
  ⟨sched .poll 40 sHole, with_ready (by decide +kernel)⟩

theorem witness_RefillReleasesUnmapped :
    ∃ s : State, s.Ready .refill ∧ s.life = .up ∧ s.pollRunning = false ∧ s.pool.length = s.cfg.poolSize ∧ 4 ≤ s.slice
      ∧ s.full .rx = false ∧ 3 < s.cfg.poolSize ∧ (s.buffer 3).own = .free ∧ (∀ j, j < 3 → (s.buffer j).own ≠ .free)
      ∧ s.draws.mapOk = false :: [true] :=
  ⟨sched .poll 4 { sHole with draws := ⟨[false, true], [], []⟩ }, ready_of (by decide +kernel), by decide +kernel,
    by decide +kernel, by decide +kernel, by decide +kernel, by decide +kernel, by decide +kernel, by decide +kernel,
    by decide +kernel, by decide +kernel⟩

/-- Two completed slots, one of them bad, and a budget of one. -/
theorem witness_DrainDeliversInOrder :
    ∃ s : State, s.Ready (.drain 1) ∧ s.life = .up ∧ s.pollRunning = false ∧ s.sizesOk = true ∧ s.entriesOk = true
      ∧ s.windowOk .rx = true ∧ 9 * s.cfg.nRx ≤ s.slice ∧ s.slotState .rx 0 = .completed ∧ s.dropped 1 = true
      ∧ s.pending .rx 0 = some (0, 0x80000000) :=
  ⟨sched .poll 36 twoDone, with_ready (by decide +kernel)⟩

/-- Each way of having nothing to do: no budget, an empty ring, an armed slot at the tail, a full ring. -/
theorem witness_NothingToDo :
    (armed.life = .up ∧ armed.pollRunning = false ∧ 3 ≤ (sched .poll 3 armed).slice)
      ∧ (sched .poll 3 armed).Ready (.drain 0) ∧ (sched .poll 3 armed).Ready (.drain 9)
      ∧ (armed.descriptor .rx armed.rx.tail).1.getLsbD 31 = true
      ∧ (sched .poll 3 quiet).Ready (.drain 9) ∧ quiet.empty .rx = true ∧ quiet.life = .up
      ∧ (sched .poll 3 armed).Ready .refill ∧ armed.full .rx = true :=
  ⟨by decide +kernel, ready_of (by decide +kernel), ready_of (by decide +kernel), by decide +kernel,
    ready_of (by decide +kernel), by decide +kernel, by decide +kernel, ready_of (by decide +kernel), by decide +kernel⟩

theorem witness_SubmitQueuesPacket :
    ∃ s : State, s.Ready (.submit 3) ∧ s.life = .up ∧ s.txLock = none ∧ s.full .tx = false ∧ 3 < s.cfg.poolSize
      ∧ s.pool.length = s.cfg.poolSize ∧ (s.buffer 3).own = .up ∧ (s.buffer 3).map = none ∧ s.drawMapOk.1 = true
      ∧ 13 ≤ s.slice :=
  ⟨sched (.up 1) 13 sHeld, with_ready (by decide +kernel)⟩

/-- A full ring; then a handle out of range and one an engine holds. -/
theorem witness_SubmitBusyOrBadHandle :
    (∃ s : State, s.Ready (.submit 3) ∧ s.life = .up ∧ s.txLock = none ∧ 4 ≤ s.slice ∧ s.full .tx = true)
      ∧ ∃ s : State, s.Ready (.submit 8) ∧ s.Ready (.submit 0) ∧ s.life = .up ∧ s.txLock = none ∧ 4 ≤ s.slice
        ∧ s.full .tx = false ∧ s.cfg.poolSize ≤ 8 ∧ (s.buffer 0).own ≠ .up :=
  ⟨⟨sched (.up 1) 4 { sHeld with tx := { sHeld.tx with head := 3 } }, with_ready (by decide +kernel)⟩,
    ⟨sched (.up 1) 4 sHeld, ready_of (by decide +kernel), ready_of (by decide +kernel), by decide +kernel,
      by decide +kernel, by decide +kernel, by decide +kernel, by decide +kernel, by decide +kernel⟩⟩

theorem witness_SubmitMapFailure :
    ∃ s : State, s.Ready (.submit 3) ∧ s.life = .up ∧ s.txLock = none ∧ s.full .tx = false ∧ 3 < s.cfg.poolSize
      ∧ s.pool.length = s.cfg.poolSize ∧ (s.buffer 3).own = .up ∧ (s.buffer 3).map = none ∧ s.drawMapOk.1 = false
      ∧ 5 ≤ s.slice :=
  ⟨sched (.up 1) 5 { sHeld with draws := ⟨[false], [], []⟩ }, ready_of (by decide +kernel), by decide +kernel,
    by decide +kernel, by decide +kernel, by decide +kernel, by decide +kernel, by decide +kernel, by decide +kernel,
    by decide +kernel, by decide +kernel⟩

/-- The lock held by caller 1; each command that waits for it, and each waiting operation. -/
theorem witness_LockHolds :
    let s := { sHeld with txLock := some (.up 1) }
    s.txLock = some (.up 1) ∧ (sched (.up 0) 1 s).Ready (.submit 3) ∧ (sched .poll 1 s).Ready .reclaim
      ∧ (sched .drv 1 s).Ready .teardown ∧ s.life = .up ∧ 1 ≤ (sched .drv 1 s).slice
      ∧ (s.setCont (.up 0) (.running (.submit 3 .x1))).task? (.up 0) = some (.submit 3 .x1)
      ∧ (s.setCont .poll (.running (.reclaim .y1))).task? .poll = some (.reclaim .y1)
      ∧ (s.setCont .irq (.running (.irq (.i4r 2 .y1)))).task? .irq = some (.irq (.i4r 2 .y1))
      ∧ (s.setCont .drv (.running (.teardown .t2))).task? .drv = some (.teardown .t2) :=
  ⟨by decide +kernel, ready_of (by decide +kernel), ready_of (by decide +kernel), ready_of (by decide +kernel),
    by decide +kernel, by decide +kernel, by decide +kernel, by decide +kernel, by decide +kernel, by decide +kernel⟩

theorem witness_ReclaimFreesAndWakes :
    ∃ s : State, s.Ready .reclaim ∧ s.life = .up ∧ s.txLock = none ∧ s.sizesOk = true ∧ s.entriesOk = true
      ∧ s.windowOk .tx = true ∧ 6 * s.cfg.nTx ≤ s.slice ∧ s.full .tx = true ∧ s.slotState .tx 0 = .completed
      ∧ s.pending .tx 0 = some (3, 0x80001800) :=
  ⟨sched .poll 24 sSent, with_ready (by decide +kernel)⟩

theorem witness_IrqHandlesCauses :
    ∃ s : State, s.Ready .irq ∧ s.life = .up ∧ s.observed ≠ 0 ∧ 6 * s.cfg.nTx + 8 ≤ s.slice
      ∧ s.observed.getLsbD s.cfg.isrTxDone = true
      ∧ (s.txLock = none ∧ s.sizesOk = true ∧ s.entriesOk = true ∧ s.windowOk .tx = true) :=
  ⟨sched .irq 32 { sSent with isr := 0xF }, with_ready (by decide +kernel)⟩

theorem witness_LineFollowsCauses :
    ∃ s : State, s.Ready .irq ∧ s.life = .up ∧ s.observed ≠ 0 ∧ 6 * s.cfg.nTx + 8 ≤ s.slice ∧ s.lineEn = true
      ∧ (s.observed.getLsbD s.cfg.isrTxDone = true →
          s.txLock = none ∧ s.sizesOk = true ∧ s.entriesOk = true ∧ s.windowOk .tx = true) :=
  ⟨sched .irq 32 { sSent with isr := 0xF, lineEn := true }, with_ready (by decide +kernel)⟩

theorem witness_IrqNotMine :
    ∃ s : State, s.Ready .irq ∧ s.life = .up ∧ s.observed = 0 ∧ 2 ≤ s.slice ∧ s.isrLatch ≠ 0 :=
  ⟨sched .irq 2 { armed with isrLatch := 3 }, with_ready (by decide +kernel)⟩

/-- V53: TX_DONE has arrived since the read. -/
theorem witness_AcknowledgeKeepsNewCauses :
    ∃ s : State, s.task? .irq = some (.irq (.i7 1)) ∧ s.isr = 3 :=
  ⟨{ armed.setCont .irq (.running (.irq (.i7 1))) with isr := 3 }, by decide +kernel⟩

theorem witness_PollRuns :
    ∃ s : State, s.Ready (.poll 1) ∧ s.life = .up ∧ s.pollRunning = false ∧ s.sizesOk = true ∧ s.entriesOk = true
      ∧ s.windowOk .rx = true ∧ 19 * s.cfg.nRx ≤ s.slice ∧ s.slotState .rx 0 = .completed :=
  ⟨sched .poll 76 twoDone, with_ready (by decide +kernel)⟩

/-- `DOWN` for each command, `poll_running` for the poll-context ones, `UP` for BRINGUP. -/
theorem witness_TurnedAway :
    fresh.life = .down ∧ (sched .poll 2 fresh).Ready .refill ∧ (sched .poll 2 fresh).Ready (.drain 1)
      ∧ (sched .poll 2 fresh).Ready (.poll 1) ∧ (sched .poll 2 { armed with pollRunning := true }).Ready (.poll 1)
      ∧ (sched .irq 2 fresh).Ready .irq ∧ (sched .drv 2 armed).Ready .bringup ∧ armed.life = .up
      ∧ (sched (.up 0) 2 fresh).Ready (.submit 3) ∧ (sched .poll 2 fresh).Ready .reclaim ∧ fresh.txLock = none
      ∧ (sched .drv 2 fresh).Ready .teardown :=
  ⟨by decide, ready_of (by decide +kernel), ready_of (by decide +kernel), ready_of (by decide +kernel),
    ready_of (by decide +kernel), ready_of (by decide +kernel), ready_of (by decide +kernel), by decide +kernel,
    ready_of (by decide +kernel), ready_of (by decide +kernel), by decide, ready_of (by decide +kernel)⟩

theorem witness_BringupTimesOut :
    ∃ s : State, s.Ready .bringup ∧ s.life = .down ∧ s.draws.rstAck = List.replicate s.cfg.resetBound false ++ [true]
      ∧ 1 + s.cfg.resetBound ≤ s.slice :=
  ⟨sched .drv 4 { fresh with draws := ⟨[], [false, false, false, true], []⟩ }, ready_of (by decide +kernel), by decide,
    by decide, by decide⟩

theorem witness_BringupRuns :
    ∃ s : State, s.Ready .bringup ∧ s.life = .down ∧ s.sizesOk = true
      ∧ s.cfg.resetBound + 13 * s.cfg.nRx + 3 * s.cfg.nTx ≤ s.slice :=
  ⟨sched .drv 67 fresh, with_ready (by decide +kernel)⟩

/-- The acknowledge on the last read the bound allows (V61). -/
theorem witness_BringupArmsRx :
    ∃ s : State, s.Ready .bringup ∧ s.life = .down ∧ s.sizesOk = true
      ∧ s.draws.rstAck = List.replicate 2 false ++ true :: [] ∧ 2 < s.cfg.resetBound
      ∧ s.draws.mapOk = List.replicate 4 true ++ [] ∧ s.cfg.nRx ≤ 4
      ∧ s.cfg.resetBound + 13 * s.cfg.nRx + 3 * s.cfg.nTx ≤ s.slice :=
  ⟨sched .drv 67 { fresh with draws := ⟨[true, true, true, true], [false, false, true], []⟩ }, ready_of (by decide +kernel),
    by decide, by decide, by decide, by decide, by decide, by decide, by decide⟩

theorem witness_TeardownReleasesAll :
    ∃ s : State, s.Ready .teardown ∧ s.life = .up ∧ s.txLock = none ∧ s.pollRunning = false ∧ s.sizesOk = true
      ∧ s.entriesOk = true ∧ s.cfg.nRx + s.cfg.nTx + 5 ≤ s.slice ∧ s.pending .tx 2 = some (5, 0x80002800)
      ∧ (∀ r ∈ [Ring.rx, Ring.tx], ∀ i, i < ringSize s.cfg r → (s.pending r i).map Prod.fst ≠ some 7) :=
  ⟨sched .drv 13 sSent, with_ready (by decide +kernel)⟩

/-! ### The device and upstream -/

/-- A completion begun on RX slot 2 with a frame longer than the buffer: `min` takes the capacity. -/
theorem witness_DeviceCompletesRx :
    ∃ (s : State) (st : Word), s.cfg.wf = true ∧ s.life = .up ∧ s.script = .device 0 2053 :: []
      ∧ s.dev[0]? = some (.rx 2 0xFFFFFFFF true [0x11] 0 (.v1len st)) ∧ 2 < s.cfg.nRx ∧ 2 < s.cfg.poolSize
      ∧ (s.buffer 2).map = some .inbound ∧ (s.descriptor .rx 2).2.2 = xlateOf s.cfg 2
      ∧ (s.descriptor .rx 2).2.1.toNat ≤ s.cfg.bufSize
      ∧ min (0xFFFFFFFF : Word).toNat (s.descriptor .rx 2).2.1.toNat + 5 ≤ 2053 + 1 :=
  ⟨{ armed with script := [.device 0 2053], dev := [.rx 2 0xFFFFFFFF true [0x11] 0 (.v1len 0x90000000)] }, 0x90000000,
    by decide +kernel⟩

theorem witness_DeviceCompletesTx :
    ∃ (s : State) (st : Word), s.cfg.wf = true ∧ s.life = .up ∧ s.script = .device 0 5 :: []
      ∧ s.dev[0]? = some (.tx 1 false (.w1len st)) ∧ 1 < s.cfg.nTx ∧ 4 < s.cfg.poolSize
      ∧ (s.buffer 4).map = some .outbound ∧ (s.descriptor .tx 1).2.2 = xlateOf s.cfg 4
      ∧ (s.descriptor .tx 1).2.1.toNat ≤ s.cfg.bufSize ∧ (s.descriptor .tx 1).2.1.toNat + 4 ≤ 5 + 1 :=
  ⟨{ sSent with script := [.device 0 5], dev := [.tx 1 false (.w1len 0xF0000000)] }, 0xF0000000, by decide +kernel⟩

/-- Begun and not begun, on each ring; the second by each of its grounds. -/
theorem witness_DeviceBeginsCompletion :
    sSent.cfg.wf = true ∧ sSent.life = .up
      ∧ (2 < sSent.cfg.nRx ∧ (sSent.descriptor .rx 2).1.getLsbD 31 = true ∧ ∀ o ∈ sSent.dev, o.slot ≠ (.rx, 2))
      ∧ (2 < sSent.cfg.nTx ∧ (sSent.descriptor .tx 2).1.getLsbD 31 = true ∧ ∀ o ∈ sSent.dev, o.slot ≠ (.tx, 2))
      ∧ (sSent.descriptor .rx 3).1.getLsbD 31 = false ∧ (sSent.descriptor .tx 0).1.getLsbD 31 = false
      ∧ sSent.cfg.nRx ≤ 4 ∧ sSent.cfg.nTx ≤ 4 ∧ fresh.life = .down
      ∧ (∃ o ∈ [DevOp.rx 2 4 false [] 0 (.v1len 0x90000000)], o.slot = (.rx, 2))
      ∧ (∃ o ∈ [DevOp.tx 2 false (.w1len 0xF0000000)], o.slot = (.tx, 2)) := by decide +kernel

/-- A request pending, and none pending. -/
theorem witness_DeviceRaisesAndAcknowledges :
    fresh.cfg.wf = true ∧ State.rst { fresh with rst := 1, script := [.resetAck 0xFF] } = 1
      ∧ (1 : Word).getLsbD 0 = true ∧ fresh.rst.getLsbD 0 = false := by decide

/-- The whole valid length; then each ground for refusing. -/
theorem witness_UpstreamFills :
    sHeld.cfg.wf = true ∧ 1 < sHeld.cfg.kUp ∧ 3 < sHeld.cfg.poolSize ∧ (sHeld.buffer 3).own = .up
      ∧ 58 + [0x01, 0x02].length ≤ (sHeld.buffer 3).len.toNat
      ∧ sHeld.cfg.kUp ≤ 2 ∧ sHeld.cfg.poolSize ≤ 8 ∧ (sHeld.buffer 0).own ≠ .up
      ∧ (sHeld.buffer 3).len.toNat < 59 + [0x01, 0x02].length := by decide +kernel

/-- The last byte of an inbound window; of an outbound one; and an address past every window. -/
theorem witness_DeviceAccessCheck :
    sSent.cfg.wf = true
      ∧ (2 < sSent.cfg.poolSize ∧ (xlateOf sSent.cfg 2).toNat ≤ 0x800017FF
        ∧ 0x800017FF < (xlateOf sSent.cfg 2).toNat + sSent.cfg.bufSize ∧ (sSent.buffer 2).map = some .inbound)
      ∧ ((xlateOf sSent.cfg 4).toNat ≤ 0x800027FF ∧ 0x800027FF < (xlateOf sSent.cfg 4).toNat + sSent.cfg.bufSize
        ∧ (sSent.buffer 4).map = some .outbound)
      ∧ (∀ h, h < sSent.cfg.poolSize → (xlateOf sSent.cfg h).toNat ≤ 0x80004000 →
        0x80004000 < (xlateOf sSent.cfg h).toNat + sSent.cfg.bufSize → (sSent.buffer h).map ≠ some .inbound)
      ∧ (∀ h, h < sSent.cfg.poolSize → (xlateOf sSent.cfg h).toNat ≤ 0x80000000 →
        0x80000000 < (xlateOf sSent.cfg h).toNat + sSent.cfg.bufSize → (sSent.buffer h).map ≠ some .outbound)
      ∧ (0x7FFFFFFF : DAddr).toNat + ([0x01] : List Byte).length = 0x80000000
      ∧ ([0x01] : List Byte).length < (2 : Word).toNat := by
  decide +kernel

/-! ### Frames: each command answers a next state -/

theorem witness_QueryAndPoolFrame :
    (∃ t, exec (.isFull .rx) (sched .irq 1 armed) = .next t) ∧ (∃ t, exec (.isEmpty .tx) (sched .drv 1 armed) = .next t)
      ∧ (∃ t, exec (.acquire 7) (sched (.up 0) 1 armed) = .next t) ∧ ∃ t, exec (.release 3) (sched (.up 0) 1 sHeld) = .next t :=
  ⟨answers_next (by decide +kernel), answers_next (by decide +kernel), answers_next (by decide +kernel),
    answers_next (by decide +kernel)⟩

theorem witness_ReceiveFrame :
    (∃ t, exec .refill (sched .poll 40 sHole) = .next t) ∧ (∃ t, exec (.drain 2) (sched .poll 40 sHole) = .next t)
      ∧ (∃ t, exec (.poll 2) (sched .poll 80 sHole) = .next t) ∧ sHole.rx.head < sHole.cfg.nRx
      ∧ sHole.rx.tail < sHole.cfg.nRx ∧ sHole.inWindow .rx 2 = true ∧ sHole.slotState .rx 2 = .armed :=
  ⟨answers_next (by decide +kernel), answers_next (by decide +kernel), answers_next (by decide +kernel),
    by decide +kernel, by decide +kernel, by decide +kernel, by decide +kernel⟩

theorem witness_TransmitFrame :
    (∃ t, exec (.submit 3) (sched (.up 0) 13 sHeld) = .next t) ∧ (∃ t, exec .reclaim (sched .poll 24 sSent) = .next t)
      ∧ ∃ t, exec .irq (sched .irq 32 { sSent with isr := 0xF }) = .next t :=
  ⟨answers_next (by decide +kernel), answers_next (by decide +kernel), answers_next (by decide +kernel)⟩

theorem witness_LifecycleFrame :
    (∃ t, exec .bringup (sched .drv 67 fresh) = .next t) ∧ ∃ t, exec .teardown (sched .drv 13 sSent) = .next t :=
  ⟨answers_next (by decide +kernel), answers_next (by decide +kernel)⟩

end Sys2Proof.Tests
end

section
/-! PROOF. Slices, the acceptance of a command, and turns: what `runFor`, `exec` and `step` come to (00_scope R7, R10,
30_encoding R96, R97). -/

namespace Sys2Proof.Machine

/-- A slice of `m + n` micro-steps is a slice of `m` and then one of `n`. -/
theorem runFor_add (c : Ctx) (m n : Nat) (s : State) : runFor c (m + n) s = runFor c n (runFor c m s) := by
  induction m generalizing s with
  | zero => simp [runFor]
  | succ m ih =>
    cases hr : s.running c with
    | false => simp only [runFor_not_running _ hr]
    | true => simp only [Nat.succ_add, runFor, hr, if_true, ih]

theorem runFor_succ_running {c : Ctx} {s : State} (n : Nat) (h : s.running c = true) :
    runFor c (n + 1) s = runFor c n (microStep c s) := by simp only [runFor, h, if_true]

/-- Settles O14: slices add up by induction on the first one; a context with nothing in progress takes no micro-step. -/
theorem slicesCompose : Obligations.SlicesCompose :=
  ⟨runFor_add, fun _ _ h => runFor_succ_running 0 h, fun _ n _ h => runFor_not_running n h⟩

/-- How each command is accepted (R94, R97): what `exec` hands to `issue`. -/
def acceptance (i : Instr) (s : State) : Acceptance :=
  match i with
  | .bringup => if s.life = .down then .start (.bringup .h1) s else .reject .badState
  | .teardown => .start (.teardown .t1) s
  | .acquire size => .start (.acquire size) s
  | .release h => .start (.release h) s
  | .isFull r => .start (.isFull r) s
  | .isEmpty r => .start (.isEmpty r) s
  | .refill => acceptPoll s (.refill (.f1 0))
  | .drain b => acceptPoll s (.drain b (.g1 0))
  | .submit h => .start (.submit h .x1) s
  | .reclaim => .start (.reclaim .y1) s
  | .irq => if s.life = .up then .start (.irq .i1) s else .reject .badState
  | .poll b => acceptPoll s (.poll b (.l1 (.g1 0)))

theorem exec_eq_issue (i : Instr) (s : State) : exec i s = issue i s (acceptance i s) := by cases i <;> rfl

theorem acceptPoll_start {s s0 : State} {t t0 : Task} (h : acceptPoll s t0 = .start t s0) :
    t = t0 ∧ ∃ b, s0 = { s with pollRunning := b } := by
  unfold acceptPoll at h
  split at h <;> cases h
  exact ⟨rfl, true, rfl⟩

/-- With a parameter set that has a meaning a command has a next state, whatever its acceptance says. -/
theorem issue_next {i : Instr} {s : State} (a : Acceptance) (hw : s.cfg.wf = true) : ∃ t, issue i s a = .next t := by
  simp only [issue, hw, if_true]
  split <;> [split; skip]
  · cases a <;> exact ⟨_, rfl⟩
  · exact ⟨_, rfl⟩
  · exact ⟨_, rfl⟩

@[simp] theorem State.nextMove_cfg (s : State) : s.nextMove.2.cfg = s.cfg := by
  unfold State.nextMove; split <;> rfl

/-- A turn that runs a command took the first waiting word of an idle context (R97). -/
theorem contextTurn_command {c : Ctx} {more : Nat} {s t : State} {i : Instr}
    (h : contextTurn c more s = .command i t) :
    ∃ w ws, s.lane? c = some ⟨.idle, w :: ws⟩ ∧ decode w = .ok i ∧ t = s.setQueue c ws := by
  unfold contextTurn at h
  split at h
  · rename_i w ws hl
    split at h <;> cases h
    exact ⟨w, ws, hl, ‹_›, rfl⟩
  · cases h
  · cases h

/-- Only a context's turn runs a command. -/
theorem moveTurn_command {m : Move} {s t : State} {i : Instr} (h : moveTurn m s = .command i t) :
    ∃ c more, m = .run c more ∧ contextTurn c more { s with cur := c, slice := more } = .command i t := by
  cases m with
  | run c more => exact ⟨c, more, rfl, h⟩
  | _ => cases h

theorem step_of_command {s t : State} {i : Instr} (hw : s.cfg.wf = true) (h : turn s = .command i t) :
    step s = exec i t := by simp only [step, hw, if_true, h]

theorem step_of_done {s t : State} (hw : s.cfg.wf = true) (h : turn s = .done t) : step s = .next t := by
  simp only [step, hw, if_true, h]

/-- Settles O13: every command goes through `issue`, which answers by the parameter set alone, and no turn changes it. -/
theorem onlyBadParametersStop : Obligations.OnlyBadParametersStop := by
  refine ⟨fun i s hw => ?_, fun s hw => ?_, fun i s hw => ?_, fun s hw => ?_⟩
  · rw [exec_eq_issue]; exact issue_next _ hw
  · cases ht : turn s with
    | command i u =>
      obtain ⟨c, more, -, hc⟩ := moveTurn_command ht
      obtain ⟨w, ws, -, -, rfl⟩ := contextTurn_command hc
      rw [step_of_command hw ht, exec_eq_issue]
      exact issue_next _ (by simpa using hw)
    | done u => exact ⟨u, step_of_done hw ht⟩
  · rw [exec_eq_issue]; exact issue_invalid _ hw
  · simp only [step, hw, Bool.false_eq_true, if_false]

theorem turn_of_script {s : State} {m : Move} {rest : List Move} (h : s.script = m :: rest) :
    turn s = moveTurn m { s with script := rest } := by simp only [turn, State.nextMove, h]

/-- Settles O7: the script's first move is the turn, and the context's lane says which of its branches it takes. -/
theorem stepRunsDecodedCommand : Obligations.StepRunsDecodedCommand := by
  intro s c more rest hw hs
  have hlane : ({ s with script := rest, cur := c, slice := more } : State).lane? c = s.lane? c := by cases c <;> rfl
  constructor
  · intro w ws i hl hd
    refine step_of_command hw ?_
    rw [turn_of_script hs]
    simp only [moveTurn, contextTurn, hlane, hl, hd, State.setQueue]
  · intro t ws hl
    refine step_of_done hw ?_
    rw [turn_of_script hs]
    simp only [moveTurn, contextTurn, hlane, hl]

end Sys2Proof.Machine
end

section
/-! PROOF. What is recorded, and what the moves of the device and the environment leave alone (00_scope R5, R11). -/

namespace Sys2Proof.Machine

/-! ## What is recorded: faults and events (00_scope R11, 10_state R42, R43) -/

/-- Every fault recorded in `f` is recorded in `g`. -/
structure FaultSet.Subset (f g : FaultSet) : Prop where
  dmaUnmapped : f.dmaUnmapped = true → g.dmaUnmapped = true
  pendEmpty : f.pendEmpty = true → g.pendEmpty = true
  pool : f.pool = true → g.pool = true

theorem FaultSet.Subset.rfl {f : FaultSet} : f.Subset f := ⟨id, id, id⟩

theorem FaultSet.Subset.trans {f g h : FaultSet} (a : f.Subset g) (b : g.Subset h) : f.Subset h :=
  ⟨b.dmaUnmapped ∘ a.dmaUnmapped, b.pendEmpty ∘ a.pendEmpty, b.pool ∘ a.pool⟩

/-- From `s` to `t` no fault is lost, and exactly the events `l` are appended to the history. -/
structure Records (l : List Event) (s t : State) : Prop where
  fault : s.fault.Subset t.fault
  hist : t.hist = s.hist ++ l

theorem Records.of_eq {s t : State} (hf : t.fault = s.fault) (hh : t.hist = s.hist) : Records [] s t :=
  ⟨hf ▸ .rfl, by simp [hh]⟩

theorem Records.rfl {s : State} : Records [] s s := .of_eq (by rfl) (by rfl)

theorem Records.trans {l m : List Event} {s t u : State} (h : Records l s t) (g : Records m t u) :
    Records (l ++ m) s u :=
  ⟨h.fault.trans g.fault, by rw [g.hist, h.hist, List.append_assoc]⟩

theorem records_emit (s : State) (e : Event) : Records [e] s (s.emit e) := ⟨.rfl, by simp⟩

theorem records_raise (s : State) (f : Fault) : Records [] s (s.raise f) := by
  refine ⟨?_, by simp⟩
  rw [State.raise_fault]
  exact ⟨by simp +contextual, by simp +contextual, by simp +contextual⟩

/-- What is appended from `s` to `t` has no KICK in it. -/
def Kickless (s t : State) : Prop := ∃ l, Records l s t ∧ Event.kick ∉ l

theorem Records.kickless {s t : State} (h : Records [] s t) : Kickless s t := ⟨[], h, by simp⟩

theorem Kickless.of_eq {s t : State} (hf : t.fault = s.fault) (hh : t.hist = s.hist) : Kickless s t :=
  (Records.of_eq hf hh).kickless

theorem Kickless.rfl {s : State} : Kickless s s := Records.rfl.kickless

theorem Kickless.trans {s t u : State} : Kickless s t → Kickless t u → Kickless s u
  | ⟨_, h, hl⟩, ⟨_, g, hm⟩ => ⟨_, h.trans g, by simp [hl, hm]⟩

theorem kickless_emit (s : State) {e : Event} (h : e ≠ .kick) : Kickless s (s.emit e) :=
  ⟨[e], records_emit s e, by simp [h.symm]⟩

theorem kickless_respond (s : State) (c : Ctx) (k : Code) (n : Nat) : Kickless s (s.respond c k n) :=
  kickless_emit s (by simp)

/-! ## What the device and the environment leave alone (R5, R195, R201) -/

/-- From `s` to `t` only what the device and the environment may write has changed, and no KICK was emitted. -/
structure Foreign (s t : State) : Prop where
  frame : t = { s with
    fault := t.fault, hist := t.hist, desc := t.desc, buf := t.buf, isr := t.isr, rst := t.rst, lineEn := t.lineEn,
    dev := t.dev, draws := t.draws, tick := t.tick }
  kickless : Kickless s t

theorem Foreign.rfl {s : State} : Foreign s s := ⟨by rfl, .rfl⟩

theorem Foreign.trans {s t u : State} (h : Foreign s t) (g : Foreign t u) : Foreign s u := by
  refine ⟨g.frame.trans ?_, h.kickless.trans g.kickless⟩
  rw [h.frame]

theorem Foreign.lanes {s t : State} (h : Foreign s t) : t.lanes = s.lanes := by rw [h.frame]

theorem Foreign.cfg {s t : State} (h : Foreign s t) : t.cfg = s.cfg := by rw [h.frame]

theorem foreign_emit (s : State) {e : Event} (h : e ≠ .kick) : Foreign s (s.emit e) := ⟨rfl, kickless_emit s h⟩

theorem foreign_raise (s : State) (f : Fault) : Foreign s (s.raise f) :=
  ⟨by cases f <;> rfl, (records_raise s f).kickless⟩

theorem foreign_descWrite32 (s : State) (a : Nat) (v : Word) : Foreign s (s.descWrite32 a v) :=
  ⟨rfl, .of_eq rfl rfl⟩

theorem foreign_bufWrite (s : State) (h o : Nat) (bs : List Byte) : Foreign s (s.bufWrite h o bs) :=
  ⟨rfl, .of_eq rfl rfl⟩

theorem foreign_tick (s : State) (n : Nat) : Foreign s { s with tick := n } :=
  ⟨rfl, .of_eq rfl rfl⟩

theorem foreign_dev (s : State) (d : List DevOp) : Foreign s { s with dev := d } :=
  ⟨rfl, .of_eq rfl rfl⟩

theorem foreign_draws (s : State) (d : Draws) : Foreign s { s with draws := d } :=
  ⟨rfl, .of_eq rfl rfl⟩

theorem foreign_devMemWrite (s : State) (da : Nat) (v : Byte) : Foreign s (s.devMemWrite da v) := by
  unfold State.devMemWrite
  split <;> [split; skip]
  · exact foreign_bufWrite ..
  · exact foreign_raise ..
  · exact foreign_raise ..

theorem foreign_devRxStep (i : Nat) (len : Word) (err : Bool) (bytes : List Byte) (seed : Nat) (p : RxPc) (s : State) :
    Foreign s (devRxStep i len err bytes seed p s).1 := by
  cases p with
  | v1len st => exact .rfl
  | v1addr st cap => exact .rfl
  | v2 st cap a k =>
    simp only [devRxStep]
    split
    · exact foreign_devMemWrite ..
    · exact .rfl
  | v3 st => exact foreign_descWrite32 ..
  | v4 st => exact foreign_descWrite32 ..

theorem foreign_devTxStep (i : Nat) (err : Bool) (p : TxPc) (s : State) : Foreign s (devTxStep i err p s).1 := by
  cases p with
  | w1len st => exact .rfl
  | w1addr st len => exact .rfl
  | w2 st len a b =>
    simp only [devTxStep]
    split <;> [split; skip]
    · exact .rfl
    · exact (foreign_raise s _).trans (foreign_tick ..)
    · exact foreign_emit s (by simp)
  | w3 st => exact foreign_descWrite32 ..

theorem foreign_devOpStep (o : DevOp) (s : State) : Foreign s (devOpStep o s).1 := by
  cases o with
  | rx i len err bytes seed p => exact foreign_devRxStep ..
  | tx i err p => exact foreign_devTxStep ..

theorem foreign_devStep (s : State) (j : Nat) : Foreign s (s.devStep j) := by
  unfold State.devStep
  split <;> [split; exact .rfl]
  · rename_i o _
    have h := foreign_devOpStep o s
    split <;> rename_i heq <;> rw [heq] at h <;> exact h.trans (foreign_dev ..)
  · exact .rfl

theorem foreign_devRun (j n : Nat) (s : State) : Foreign s (devRun j n s) := by
  induction n generalizing s with
  | zero => exact .rfl
  | succ n ih =>
    unfold devRun
    split
    · exact foreign_devStep s j
    · exact (foreign_devStep s j).trans (ih _)

theorem foreign_devRxStart (s : State) (i : Nat) (len : Word) (err : Bool) (bytes : List Byte) :
    Foreign s (s.devRxStart i len err bytes) := by
  unfold State.devRxStart
  split
  · exact ⟨rfl, .of_eq rfl rfl⟩
  · exact .rfl

theorem foreign_devTxStart (s : State) (i : Nat) (err : Bool) : Foreign s (s.devTxStart i err) := by
  unfold State.devTxStart
  split
  · exact foreign_dev ..
  · exact .rfl

theorem foreign_devResetAck (s : State) (v : Word) : Foreign s (s.devResetAck v) := by
  unfold State.devResetAck
  split
  · exact ⟨rfl, .of_eq rfl rfl⟩
  · exact .rfl

theorem foreign_upstreamFill (s : State) (k h off : Nat) (bytes : List Byte) :
    Foreign s (s.upstreamFill k h off bytes) := by
  unfold State.upstreamFill
  split
  · exact foreign_bufWrite ..
  · exact .rfl

/-- A move that is neither a context's turn nor an offer. -/
theorem foreign_moveTurn {m : Move} {s t : State} (hr : ∀ c k, m ≠ .run c k) (ho : ∀ c w, m ≠ .offer c w)
    (h : moveTurn m s = .done t) : Foreign s t := by
  cases m with
  | run c k => exact absurd rfl (hr c k)
  | offer c w => exact absurd rfl (ho c w)
  | rxComplete i len err bytes => cases h; exact foreign_devRxStart ..
  | txComplete i err => cases h; exact foreign_devTxStart ..
  | device j more => cases h; exact foreign_devRun ..
  | raise bits => cases h; exact ⟨rfl, .of_eq rfl rfl⟩
  | resetAck v => cases h; exact foreign_devResetAck ..
  | fill k h off bytes => cases h; exact foreign_upstreamFill ..
  | mapOk bs => cases h; exact foreign_draws ..
  | rstAck bs => cases h; exact foreign_draws ..
  | ackIsr ws => cases h; exact foreign_draws ..
  | line on => cases h; exact ⟨rfl, .of_eq rfl rfl⟩

/-! ## Continuations and waiting words -/

theorem State.cont_of_lane? {s t : State} {c : Ctx} (h : t.lane? c = s.lane? c) : t.cont c = s.cont c := by
  simp only [State.cont, h]

theorem State.cont_of_lane {s : State} {c : Ctx} {l : Lane} (h : s.lane? c = some l) : s.cont c = l.cont := by
  simp only [State.cont, h]

theorem State.offer_eq_lanes (s : State) (c : Ctx) (w : Word) :
    s.offer c w = { s with lanes := (s.offer c w).lanes } := by
  unfold State.offer
  split
  · cases c <;> rfl
  · rfl

theorem State.lane?_offer_same (s : State) (c : Ctx) (w : Word) :
    (s.offer c w).lane? c = (s.lane? c).map fun l => { l with queue := l.queue ++ [w] } := by
  unfold State.offer
  split
  · rename_i l hl
    rw [hl, s.lane?_setLane_same _ hl]
    rfl
  · rename_i hl
    rw [hl]
    rfl

theorem State.lane?_offer_other (s : State) {c d : Ctx} (w : Word) (h : d ≠ c) :
    (s.offer c w).lane? d = s.lane? d := by
  unfold State.offer
  split
  · exact s.lane?_setLane_other _ h
  · rfl

theorem State.cont_offer (s : State) (c d : Ctx) (w : Word) : (s.offer c w).cont d = s.cont d := by
  by_cases h : d = c
  · subst h
    simp only [State.cont, State.lane?_offer_same]
    cases s.lane? d <;> rfl
  · exact State.cont_of_lane? (s.lane?_offer_other w h)

/-- Position by position, the new draws and then the old ones (R102, log entry 8). -/
theorem getElem?_setNext {α : Type} (new old : List α) (i : Nat) :
    (setNext new old)[i]? = if i < new.length then new[i]? else old[i]? := by
  rw [setNext, List.getElem?_append, List.getElem?_drop]
  split
  · rfl
  · congr 1
    omega

theorem cont_moveTurn {m : Move} {s t : State} (hr : ∀ c k, m ≠ .run c k) (h : moveTurn m s = .done t) (d : Ctx) :
    t.cont d = s.cont d := by
  by_cases ho : ∃ c w, m = .offer c w
  · obtain ⟨c, w, rfl⟩ := ho
    cases h
    exact s.cont_offer c d w
  · push Not at ho
    exact State.cont_of_lane? (lane?_of_lanes_eq d (foreign_moveTurn hr ho h).lanes)

theorem frame_moveTurn {m : Move} {s t : State} (hr : ∀ c k, m ≠ .run c k) (h : moveTurn m s = .done t) :
    t = { s with
      lanes := t.lanes, fault := t.fault, hist := t.hist, desc := t.desc, buf := t.buf, isr := t.isr, rst := t.rst,
      lineEn := t.lineEn, dev := t.dev, draws := t.draws, tick := t.tick } := by
  by_cases ho : ∃ c w, m = .offer c w
  · obtain ⟨c, w, rfl⟩ := ho
    cases h
    rw [State.offer_eq_lanes]
  · push Not at ho
    rw [(foreign_moveTurn hr ho h).frame]

/-- Settles O24: an offer writes one lane, every other move is `Foreign`; each directive's clause is its own arm. -/
theorem othersLeavePrivateState : Obligations.OthersLeavePrivateState := by
  intro m s t hr h
  refine ⟨frame_moveTurn hr h, cont_moveTurn hr h, fun ho => (foreign_moveTurn hr ho h).lanes, ?_, ?_, ?_, ?_, ?_⟩
  · rintro c w rfl
    cases h
    exact ⟨s.offer_eq_lanes c w, fun d hd => s.lane?_offer_other w hd, s.lane?_offer_same c w⟩
  · rintro on rfl
    cases h
    rfl
  · rintro bs rfl
    cases h
    exact ⟨rfl, getElem?_setNext bs s.draws.mapOk⟩
  · rintro bs rfl
    cases h
    exact ⟨rfl, getElem?_setNext bs s.draws.rstAck⟩
  · rintro ws rfl
    cases h
    exact ⟨rfl, getElem?_setNext ws s.draws.ackIsr⟩

end Sys2Proof.Machine
end

section
/-! PROOF. What every operation's micro-step records, and which operation it goes on with (10_state R42, R43). -/

namespace Sys2Proof.Machine

/-! ## What a micro-step records -/

theorem records_lock (s : State) (c : Ctx) : Records [] s (s.lock c) := .of_eq rfl rfl
theorem records_unlock (s : State) : Records [] s s.unlock := .of_eq rfl rfl
theorem records_setBuffer (s : State) (h : Nat) (e : PoolEntry) : Records [] s (s.setBuffer h e) := .of_eq rfl rfl
theorem records_setHead (s : State) (r : Ring) (i : Nat) : Records [] s (s.setHead r i) := .of_eq (by simp) (by simp)
theorem records_setTail (s : State) (r : Ring) (i : Nat) : Records [] s (s.setTail r i) := .of_eq (by simp) (by simp)
theorem records_setPending (s : State) (r : Ring) (i : Nat) (e : Option (Nat × DAddr)) :
    Records [] s (s.setPending r i e) := .of_eq (by simp) (by simp)
theorem records_descWrite32 (s : State) (a : Nat) (v : Word) : Records [] s (s.descWrite32 a v) := .of_eq rfl rfl
theorem records_descWrite64 (s : State) (a : Nat) (v : DAddr) : Records [] s (s.descWrite64 a v) := .of_eq rfl rfl
theorem records_regWrite32 (s : State) (g : DevReg) (v : Word) : Records [] s (s.regWrite32 g v) :=
  .of_eq (by simp) (by simp)
theorem records_setCont (s : State) (c : Ctx) (k : Cont) : Records [] s (s.setCont c k) := .of_eq (by simp) (by simp)

theorem records_drawMapOk (s : State) : Records [] s s.drawMapOk.2 := by
  unfold State.drawMapOk
  split <;> exact .of_eq rfl rfl

theorem records_poolAcquire {s t : State} {size h : Nat} {o : Own} (ht : s.poolAcquire size o = some (h, t)) :
    Records [] s t := by
  obtain ⟨-, -, rfl⟩ := State.poolAcquire_eq_some ht
  exact records_setBuffer ..

theorem records_poolRelease {s t : State} {h : Nat} (ht : s.poolRelease h = some t) : Records [] s t := by
  obtain ⟨-, -, -, rfl⟩ := State.poolRelease_eq_some ht
  exact records_setBuffer ..

theorem records_unmapBuffer {s t : State} {h : Nat} {d : Dir} (ht : s.unmapBuffer h d = some t) : Records [] s t := by
  obtain ⟨-, -, rfl⟩ := State.unmapBuffer_eq_some ht
  exact records_setBuffer ..

/-- What MAP can do (R114). -/
theorem State.mapBuffer_cases (s : State) (h : Nat) (d : Dir) :
    s.mapBuffer h d = .misuse ∨ s.mapBuffer h d = .failure s.drawMapOk.2
      ∨ s.mapBuffer h d = .address (xlateOf s.cfg h) (s.drawMapOk.2.setBuffer h { s.buffer h with map := some d }) := by
  unfold State.mapBuffer
  split <;> [split; skip]
  · exact .inr (.inr rfl)
  · exact .inr (.inl rfl)
  · exact .inl rfl

theorem kickless_orPoolFault {π ρ : Type} {s : State} {o : Option State} {k : State → State × Next π ρ}
    (h : ∀ t, o = some t → Kickless s (k t).1) : Kickless s (orPoolFault s o k).1 := by
  cases o with
  | none => exact (records_raise s .pool).kickless
  | some t => exact h t rfl

theorem records_produceStep (r : Ring) (st len : Word) (a : DAddr) (p : ProducePc) (s : State) :
    Records [] s (produceStep r st len a p s).1 := by
  cases p with
  | p1 => exact records_descWrite64 ..
  | p2 i => exact records_descWrite32 ..
  | p3 i => exact .rfl
  | p4 i => exact records_descWrite32 ..

theorem kickless_refillStep (p : RefillPc) (s : State) : Kickless s (refillStep p s).1 := by
  cases p with
  | f1 n => simp only [refillStep]; split <;> exact .rfl
  | f2 n =>
    simp only [refillStep]
    split
    · rename_i ht
      exact (records_poolAcquire ht).kickless
    · exact .rfl
  | f3 n h =>
    simp only [refillStep]
    obtain hm | hm | hm := s.mapBuffer_cases h .inbound <;> rw [hm]
    · exact (records_raise s .pool).kickless
    · exact (records_drawMapOk s).kickless.trans (kickless_orPoolFault fun t ht => (records_poolRelease ht).kickless)
    · exact ((records_drawMapOk s).trans (records_setBuffer ..)).kickless
  | f4 n h a q =>
    have hp := records_produceStep .rx rxArmedStatus (BitVec.ofNat 32 s.cfg.bufSize) a q s
    simp only [refillStep]
    split <;> rename_i hx <;> rw [hx] at hp <;> exact hp.kickless
  | f5 n h a i => exact (records_setPending s .rx i (some (h, a))).kickless
  | f6 n i => exact (records_setHead s .rx _).kickless
  | f7 n => exact .rfl
  | f9 n => exact .rfl

theorem kickless_drainStep (b : Nat) (p : DrainPc) (s : State) : Kickless s (drainStep b p s).1 := by
  cases p with
  | g1 w => simp only [drainStep]; split <;> exact .rfl
  | g2 w q =>
    have hp := peekStep_state .rx q s
    simp only [drainStep]
    split <;> rename_i hx <;> rw [hx] at hp <;> exact hp ▸ .rfl
  | g3 w st len =>
    simp only [drainStep]
    split
    · exact .rfl
    · exact (records_raise s .pendEmpty).kickless
  | g4 w st len i h => exact kickless_orPoolFault fun t ht => (records_unmapBuffer ht).kickless
  | g5 w st len i h =>
    simp only [drainStep]
    split
    · have hb : Kickless s { s with rxErr := bump s.rxErr } := .of_eq rfl rfl
      exact hb.trans (kickless_orPoolFault fun t ht => (records_poolRelease ht).kickless)
    · exact (records_setBuffer ..).kickless.trans (kickless_emit _ (by simp))
  | g6 w i => exact (records_setPending s .rx i none).kickless
  | g7 w => exact (records_setTail s .rx _).kickless
  | g8 w => exact .rfl
  | g9 w => exact .rfl

theorem kickless_reclaimBuffer {s : State} {st : Word} {h : Nat}
    {k : State → State × Next ReclaimPc (Option Nat)} (hk : ∀ t, Kickless t (k t).1) :
    Kickless s (s.reclaimBuffer st h k).1 := by
  refine kickless_orPoolFault fun t ht => (records_unmapBuffer ht).kickless.trans ?_
  have hb : Kickless t (if errBit st then { t with txErr := bump t.txErr } else t) := by
    split <;> exact .of_eq rfl rfl
  exact hb.trans (kickless_orPoolFault fun u hu => (records_poolRelease hu).kickless.trans (hk u))

theorem kickless_reclaimStep (c : Ctx) (p : ReclaimPc) (s : State) : Kickless s (reclaimStep c p s).1 := by
  cases p with
  | y1 =>
    simp only [reclaimStep]
    split
    · exact (records_lock s c).kickless
    · exact .rfl
  | y2 =>
    simp only [reclaimStep]
    split
    · exact .rfl
    · exact (records_unlock s).kickless
  | y3 f n q =>
    have hp := peekStep_state .tx q s
    simp only [reclaimStep]
    split <;> rename_i hx <;> rw [hx] at hp <;> exact hp ▸ .rfl
  | y4 f n st =>
    simp only [reclaimStep]
    split
    · exact .rfl
    · exact (records_raise s .pendEmpty).kickless
  | y5 f n st i h => exact kickless_reclaimBuffer fun t => .rfl
  | y6 f n i => exact (records_setPending s .tx i none).kickless
  | y7 f n => exact (records_setTail s .tx _).kickless
  | y8 f n =>
    simp only [reclaimStep, State.wakeIf]
    split
    · exact (kickless_emit s (e := .wake) (by simp)).trans (.of_eq rfl rfl)
    · exact .rfl
  | y9 n => exact (records_unlock s).kickless

theorem kickless_reportIf (s : State) (b : Bool) (k : Cause) : Kickless s (s.reportIf b k) := by
  unfold State.reportIf
  split
  · exact kickless_emit s (by simp)
  · exact .rfl

theorem kickless_irqTask (c : Ctx) (p : IrqPc) (s : State) : Kickless s (irqTask c p s).1 := by
  cases p with
  | i1 => exact .of_eq rfl rfl
  | i2 v => simp only [irqTask]; split <;> exact .rfl
  | i3 v =>
    simp only [irqTask, State.schedulePoll]
    split <;> exact .of_eq rfl rfl
  | i4 v => simp only [irqTask]; split <;> exact .rfl
  | i4r v q =>
    have hp := kickless_reclaimStep c q s
    simp only [irqTask]
    split <;> rename_i hx <;> rw [hx] at hp <;> exact hp
  | i5 v => exact kickless_reportIf ..
  | i6 v => exact kickless_reportIf ..
  | i7 v => exact (records_regWrite32 s .isr v).kickless
  | i8 => exact .rfl

theorem kickless_pollTask (b : Nat) (p : PollPc) (s : State) : Kickless s (pollTask b p s).1 := by
  cases p with
  | l1 q =>
    have hp := kickless_drainStep b q s
    simp only [pollTask]
    split <;> rename_i hx <;> rw [hx] at hp <;> exact hp
  | l2 w q =>
    have hp := kickless_refillStep q s
    simp only [pollTask]
    split <;> rename_i hx <;> rw [hx] at hp <;> exact hp
  | l3 w => exact .of_eq rfl rfl
  | l4 w => exact .of_eq rfl rfl

theorem kickless_answerReset (s : State) : Kickless s s.answerReset := by
  unfold State.answerReset
  have hr : Records [] s s.drawRstAck.2 := by
    unfold State.drawRstAck
    split <;> exact .of_eq rfl rfl
  split <;> [split; exact .rfl]
  · have ha : Records [] s.drawRstAck.2 s.drawRstAck.2.drawAckIsr.2 := by
      unfold State.drawAckIsr
      split <;> exact .of_eq rfl rfl
    exact (hr.trans ha).kickless.trans (foreign_devResetAck ..).kickless
  · exact hr.kickless

theorem kickless_clearSlot (s : State) (r : Ring) (i : Nat) (p : ClearPc) : Kickless s (s.clearSlot r i p) := by
  cases p with
  | addr => exact (records_descWrite64 ..).kickless
  | len => exact (records_descWrite32 ..).kickless
  | status => exact ((records_descWrite32 ..).trans (records_setPending ..)).kickless

theorem kickless_bringupTask (p : BringupPc) (s : State) : Kickless s (bringupTask p s).1 := by
  cases p with
  | h1 => exact (records_regWrite32 s .reset 1).kickless
  | h3 k =>
    simp only [bringupTask]
    split <;> [split; skip] <;> exact kickless_answerReset s
  | b2 r i q => exact kickless_clearSlot ..
  | b3 => exact .of_eq rfl rfl
  | b4 q =>
    have hp := kickless_refillStep q s
    simp only [bringupTask]
    split <;> rename_i hx <;> rw [hx] at hp <;> exact hp
  | b5 n => exact .of_eq rfl rfl

theorem kickless_teardownTask (c : Ctx) (p : TeardownPc) (s : State) : Kickless s (teardownTask c p s).1 := by
  cases p with
  | t1 => simp only [teardownTask]; split <;> exact .rfl
  | t2 =>
    simp only [teardownTask]
    split
    · exact (records_lock s c).kickless
    · exact .rfl
  | t3 => simp only [teardownTask]; split <;> exact .of_eq rfl rfl
  | t4 r i k =>
    simp only [teardownTask, teardownSlot]
    split
    · refine kickless_orPoolFault fun t ht => (records_unmapBuffer ht).kickless.trans ?_
      exact kickless_orPoolFault fun u hu => ((records_poolRelease hu).trans (records_setPending ..)).kickless
    · exact .rfl
  | t5 k => exact .of_eq rfl rfl
  | t6 k => exact (records_unlock s).kickless

/-! ### SUBMIT -/

/-- How a micro-step of SUBMIT of `h` other than X9 and X10 goes on. -/
def SubmitGoesOn (h : Nat) : Next Task Resp → Prop
  | .goto t => ∃ p, t = .submit h p ∧ p ≠ .x10
  | .ret r => r.1 ≠ .ok ∧ r.2 = 0
  | .hold => True
  | .stop => True

/-- A micro-step of SUBMIT that emits nothing and does not lead to the answer `OK`. -/
def SubmitSilent (h : Nat) (s : State) (x : State × Next Task Resp) : Prop := Records [] s x.1 ∧ SubmitGoesOn h x.2

/-- Of SUBMIT's micro-steps only X9 emits, and only it leads to X10, the one that answers `OK`. -/
theorem submitTask_silent (c : Ctx) (h : Nat) {p : SubmitPc} (s : State) (h9 : p ≠ .x9) (h10 : p ≠ .x10) :
    SubmitSilent h s (submitTask c h p s) := by
  cases p with
  | x9 => exact absurd rfl h9
  | x10 => exact absurd rfl h10
  | x1 =>
    simp only [submitTask]
    split
    · exact ⟨records_lock s c, .x2, rfl, by simp⟩
    · exact ⟨.rfl, trivial⟩
  | x2 =>
    simp only [submitTask]
    split
    · exact ⟨.rfl, .x3, rfl, by simp⟩
    · exact ⟨records_unlock s, by simp, rfl⟩
  | x3 =>
    simp only [submitTask]
    split
    · exact ⟨.of_eq rfl rfl, by simp, rfl⟩
    · exact ⟨.rfl, .x4, rfl, by simp⟩
  | x4 =>
    simp only [submitTask]
    split
    · exact ⟨records_setBuffer .., .x5, rfl, by simp⟩
    · exact ⟨records_unlock s, by simp, rfl⟩
  | x5 =>
    have hd := records_drawMapOk s
    simp only [submitTask]
    obtain hm | hm | hm := s.mapBuffer_cases h .outbound <;> rw [hm] <;> dsimp only
    · exact ⟨records_raise s .pool, trivial⟩
    · cases ho : s.drawMapOk.2.poolRelease h with
      | none => exact ⟨hd.trans (records_raise _ .pool), trivial⟩
      | some t => exact ⟨(hd.trans (records_poolRelease ho)).trans (records_unlock t), by simp, rfl⟩
    · exact ⟨hd.trans (records_setBuffer ..), _, rfl, by simp⟩
  | x6 a q =>
    have hp := records_produceStep .tx txArmedStatus ((s.buffer h).len.setWidth 32) a q s
    simp only [submitTask]
    split <;> rename_i hx <;> rw [hx] at hp
    · exact ⟨hp, _, rfl, by simp⟩
    · exact ⟨hp, _, rfl, by simp⟩
    · exact ⟨hp, trivial⟩
    · exact ⟨hp, trivial⟩
  | x7 a i => exact ⟨records_setPending s .tx i (some (h, a)), _, rfl, by simp⟩
  | x8 i => exact ⟨records_setHead s .tx _, _, rfl, by simp⟩

/-! ## Which operation a micro-step goes on with -/

theorem irqTask_goto {c : Ctx} {p : IrqPc} {s u : State} {t : Task} (h : irqTask c p s = (u, .goto t)) :
    ∃ q, t = .irq q := by
  cases p with
  | i2 v => simp only [irqTask] at h; split at h <;> cases h; exact ⟨_, rfl⟩
  | i4 v => simp only [irqTask] at h; split at h <;> cases h <;> exact ⟨_, rfl⟩
  | i4r v q => simp only [irqTask] at h; split at h <;> cases h <;> exact ⟨_, rfl⟩
  | i8 => cases h
  | _ => cases h; exact ⟨_, rfl⟩

theorem pollTask_goto {b : Nat} {p : PollPc} {s u : State} {t : Task} (h : pollTask b p s = (u, .goto t)) :
    ∃ q, t = .poll b q := by
  cases p with
  | l1 q => simp only [pollTask] at h; split at h <;> cases h <;> exact ⟨_, rfl⟩
  | l2 w q => simp only [pollTask] at h; split at h <;> cases h <;> exact ⟨_, rfl⟩
  | l3 w => cases h; exact ⟨_, rfl⟩
  | l4 w => cases h

theorem bringupTask_goto {p : BringupPc} {s u : State} {t : Task} (h : bringupTask p s = (u, .goto t)) :
    ∃ q, t = .bringup q := by
  cases p with
  | h3 k => simp only [bringupTask] at h; split at h <;> [split at h; skip] <;> cases h <;> exact ⟨_, rfl⟩
  | b4 q => simp only [bringupTask] at h; split at h <;> cases h <;> exact ⟨_, rfl⟩
  | b5 n => cases h
  | _ => cases h; exact ⟨_, rfl⟩

theorem orPoolFault_goto {π ρ : Type} {s u : State} {o : Option State} {k : State → State × Next π ρ} {p : π}
    (h : orPoolFault s o k = (u, .goto p)) : ∃ s', k s' = (u, .goto p) := by
  cases o with
  | none => cases h
  | some s' => exact ⟨s', h⟩

theorem teardownTask_goto {c : Ctx} {p : TeardownPc} {s u : State} {t : Task}
    (h : teardownTask c p s = (u, .goto t)) : ∃ q, t = .teardown q := by
  cases p with
  | t1 => simp only [teardownTask] at h; split at h <;> cases h; exact ⟨_, rfl⟩
  | t2 => simp only [teardownTask] at h; split at h <;> cases h; exact ⟨_, rfl⟩
  | t3 => simp only [teardownTask] at h; split at h <;> cases h; exact ⟨_, rfl⟩
  | t4 r i k =>
    simp only [teardownTask, teardownSlot] at h
    split at h
    · obtain ⟨s1, h1⟩ := orPoolFault_goto h
      obtain ⟨s2, h2⟩ := orPoolFault_goto h1
      cases h2
      exact ⟨_, rfl⟩
    · cases h
      exact ⟨_, rfl⟩
  | t5 k => cases h; exact ⟨_, rfl⟩
  | t6 k => cases h

/-- An operation that is not SUBMIT does not become one. -/
theorem taskStep_goto_submits {c : Ctx} {t t' : Task} {s u : State} (h : taskStep c t s = (u, .goto t'))
    (ht : t.submits = false) : t'.submits = false := by
  cases t with
  | acquire size => simp only [taskStep, acquireStep] at h; split at h <;> cases h
  | release k =>
    simp only [taskStep, releaseStep] at h
    split at h
    · obtain ⟨s', hs'⟩ := orPoolFault_goto h
      cases hs'
    · cases h
  | isFull r => cases h
  | isEmpty r => cases h
  | refill p => simp only [taskStep, refillTask] at h; split at h <;> cases h; rfl
  | drain b p => simp only [taskStep, drainTask] at h; split at h <;> cases h; rfl
  | submit k p => cases ht
  | reclaim p => simp only [taskStep, reclaimTask] at h; split at h <;> cases h; rfl
  | irq p => obtain ⟨q, rfl⟩ := irqTask_goto h; rfl
  | poll b p => obtain ⟨q, rfl⟩ := pollTask_goto h; rfl
  | bringup p => obtain ⟨q, rfl⟩ := bringupTask_goto h; rfl
  | teardown p => obtain ⟨q, rfl⟩ := teardownTask_goto h; rfl

/-- No operation but SUBMIT kicks. -/
theorem kickless_taskStep {c : Ctx} {t : Task} {s : State} (ht : t.submits = false) :
    Kickless s (taskStep c t s).1 := by
  cases t with
  | acquire size =>
    simp only [taskStep, acquireStep]
    split
    · rename_i hx
      exact (records_poolAcquire hx).kickless
    · exact .rfl
  | release k =>
    simp only [taskStep, releaseStep]
    split
    · exact kickless_orPoolFault fun u hu => (records_poolRelease hu).kickless
    · exact .rfl
  | isFull r => exact .rfl
  | isEmpty r => exact .rfl
  | refill p =>
    have hp := kickless_refillStep p s
    simp only [taskStep, refillTask]
    split <;> rename_i hx <;> rw [hx] at hp
    · exact hp
    · exact hp.trans (.of_eq rfl rfl)
    · exact hp
    · exact hp
  | drain b p =>
    have hp := kickless_drainStep b p s
    simp only [taskStep, drainTask]
    split <;> rename_i hx <;> rw [hx] at hp
    · exact hp
    · exact hp.trans (.of_eq rfl rfl)
    · exact hp
    · exact hp
  | submit k p => cases ht
  | reclaim p =>
    have hp := kickless_reclaimStep c p s
    simp only [taskStep, reclaimTask]
    split <;> rename_i hx <;> rw [hx] at hp <;> exact hp
  | irq p => exact kickless_irqTask ..
  | poll b p => exact kickless_pollTask ..
  | bringup p => exact kickless_bringupTask ..
  | teardown p => exact kickless_teardownTask ..

/-! ## A micro-step of a context, by what its operation comes to -/

section
variable {c : Ctx} {s u : State} {t : Task} {q : List Word} (hl : s.lane? c = some ⟨.running t, q⟩)
include hl

theorem State.running_of_lane : s.running c = true := by simp only [State.running, hl]

theorem State.task?_of_lane : s.task? c = some t := by simp only [State.task?, State.cont, hl]

theorem microStep_goto {t' : Task} (h : taskStep c t s = (u, .goto t')) : microStep c s = u.setCont c (.running t') := by
  simp only [microStep, hl, h]

theorem microStep_ret {k : Code} {n : Nat} (h : taskStep c t s = (u, .ret (k, n))) :
    microStep c s = (u.setCont c .idle).respond c k n := by
  simp only [microStep, hl, h]

theorem microStep_hold (h : taskStep c t s = (u, .hold)) : microStep c s = s := by
  simp only [microStep, hl, h]

theorem microStep_stop (h : taskStep c t s = (u, .stop)) : microStep c s = u.setCont c .stopped := by
  simp only [microStep, hl, h]

end

theorem State.lane_of_running {c : Ctx} {s : State} (h : s.running c = true) :
    ∃ t q, s.lane? c = some ⟨.running t, q⟩ := by
  unfold State.running at h
  split at h
  · exact ⟨_, _, ‹_›⟩
  · cases h

theorem State.task?_eq_none {c : Ctx} {s : State} (h : s.running c = false) : s.task? c = none := by
  simp only [State.task?, State.cont]
  unfold State.running at h
  cases hl : s.lane? c with
  | none => rfl
  | some l =>
    obtain ⟨_ | t | _, q⟩ := l
    · rfl
    · rw [hl] at h
      cases h
    · rfl

end Sys2Proof.Machine
end

section
/-! PROOF. The account of faults, events and kicks, from a micro-step up to a step (43_transmit_engine R160,
70_reset R261). -/

namespace Sys2Proof.Machine

/-! ## Counting SUBMITs that have kicked -/

/-- The continuation is that of a SUBMIT that has kicked and not yet answered. -/
def Cont.kicked : Cont → Bool
  | .running t => t.kicked
  | _ => false

theorem State.kicked_eq_countP (s : State) : s.kicked = s.ctxs.countP fun c => (s.cont c).kicked := by
  rw [State.kicked, State.tasks, List.countP_filterMap]
  refine List.countP_congr fun c _ => ?_
  simp only [State.task?]
  cases s.cont c <;> simp [Cont.kicked]

theorem State.ctxs_nodup (s : State) : s.ctxs.Nodup := by
  have hup : ((List.range s.cfg.kUp).map Ctx.up).Nodup :=
    List.nodup_range.map fun _ _ h => Ctx.up.inj h
  simp [State.ctxs, hup]

/-- A context with a lane is one of the machine's. -/
theorem State.mem_ctxs {s : State} {c : Ctx} {l : Lane} (hup : s.lanes.up.length = s.cfg.kUp)
    (hl : s.lane? c = some l) : c ∈ s.ctxs := by
  cases c with
  | up k =>
    obtain ⟨hk, -⟩ := List.getElem?_eq_some_iff.mp hl
    simp [State.ctxs, ← hup, hk]
  | _ => simp [State.ctxs]

/-- Two counts over a list differ by their difference at the one member where they differ. -/
theorem countP_update {α : Type} [DecidableEq α] {p q : α → Bool} {l : List α} {a : α} (hn : l.Nodup) (ha : a ∈ l)
    (h : ∀ b, b ≠ a → q b = p b) : l.countP q + (p a).toNat = l.countP p + (q a).toNat := by
  have hrest : (l.erase a).countP q = (l.erase a).countP p :=
    List.countP_congr fun b hb => by rw [h b (hn.mem_erase_iff.mp hb).1]
  rw [(List.perm_cons_erase ha).countP_eq q, (List.perm_cons_erase ha).countP_eq p, List.countP_cons,
    List.countP_cons, hrest]
  cases p a <;> cases q a <;> simp

theorem State.kicked_setCont {s : State} {c : Ctx} {l : Lane} (k : Cont) (hup : s.lanes.up.length = s.cfg.kUp)
    (hl : s.lane? c = some l) : (s.setCont c k).kicked + l.cont.kicked.toNat = s.kicked + k.kicked.toNat := by
  have hctxs : (s.setCont c k).ctxs = s.ctxs := by simp [State.ctxs]
  have hold : s.cont c = l.cont := State.cont_of_lane hl
  have hnew : (s.setCont c k).cont c = k := State.cont_of_lane (s.lane?_setCont_same k hl)
  have h := countP_update (p := fun d => (s.cont d).kicked) (q := fun d => ((s.setCont c k).cont d).kicked)
    s.ctxs_nodup (State.mem_ctxs hup hl)
    fun d hd => by simp only [State.cont_of_lane? (s.lane?_setCont_other k hd)]
  rw [State.kicked_eq_countP, State.kicked_eq_countP, hctxs]
  simpa only [hold, hnew] using h

theorem State.kicked_of_cont {s t : State} (hc : t.cfg = s.cfg) (h : ∀ c, t.cont c = s.cont c) :
    t.kicked = s.kicked := by
  simp only [State.kicked_eq_countP, State.ctxs, hc, h]

theorem Records.kicks {l : List Event} {s t : State} (h : Records l s t) :
    t.kicks = s.kicks + l.countP (· == .kick) := by
  rw [State.kicks, State.kicks, h.hist, List.countP_append]

theorem countP_kick_eq_zero {l : List Event} (h : Event.kick ∉ l) : l.countP (· == .kick) = 0 :=
  List.countP_eq_zero.mpr fun e he => by simpa using ne_of_mem_of_not_mem he h

theorem Kickless.kicks {s t : State} (h : Kickless s t) : t.kicks = s.kicks := by
  obtain ⟨l, hr, hl⟩ := h
  rw [hr.kicks, countP_kick_eq_zero hl, Nat.add_zero]

theorem State.up_length_setLane (s : State) (c : Ctx) (l : Lane) :
    (s.setLane c l).lanes.up.length = s.lanes.up.length := by cases c <;> simp [State.setLane]

theorem State.up_length_setCont (s : State) (c : Ctx) (k : Cont) :
    (s.setCont c k).lanes.up.length = s.lanes.up.length := by
  unfold State.setCont
  split
  · exact s.up_length_setLane ..
  · rfl

theorem State.up_length_setQueue (s : State) (c : Ctx) (q : List Word) :
    (s.setQueue c q).lanes.up.length = s.lanes.up.length := by
  unfold State.setQueue
  split
  · exact s.up_length_setLane ..
  · rfl

theorem State.up_length_offer (s : State) (c : Ctx) (w : Word) :
    (s.offer c w).lanes.up.length = s.lanes.up.length := by
  unfold State.offer
  split
  · exact s.up_length_setLane ..
  · rfl

theorem State.lane?_setQueue_same (s : State) {c : Ctx} {l : Lane} (q : List Word) (h : s.lane? c = some l) :
    (s.setQueue c q).lane? c = some { l with queue := q } := by
  simp only [State.setQueue, h]
  exact s.lane?_setLane_same _ h

theorem State.cont_setQueue (s : State) (c d : Ctx) (q : List Word) : (s.setQueue c q).cont d = s.cont d := by
  cases hl : s.lane? c with
  | none => simp only [State.setQueue, hl]
  | some l =>
    by_cases hd : d = c
    · subst hd
      rw [State.cont_of_lane (s.lane?_setQueue_same q hl), State.cont_of_lane hl]
    · simp only [State.setQueue, hl]
      exact State.cont_of_lane? (s.lane?_setLane_other _ hd)

/-! ## The account of faults, events and kicks -/

/-- From `s` to `t` nothing recorded is lost; and the new KICK events, with the SUBMITs that had kicked and not
answered, are the `n` `OK` answers of SUBMIT given since and the SUBMITs that have kicked and not answered now. -/
structure Accounts (n : Nat) (s t : State) : Prop where
  cfg : t.cfg = s.cfg
  up : t.lanes.up.length = s.lanes.up.length
  grows : ∃ l, Records l s t
  kicks : s.lanes.up.length = s.cfg.kUp → t.kicks + s.kicked = s.kicks + n + t.kicked

theorem Accounts.trans {n m : Nat} {s t u : State} (h : Accounts n s t) (g : Accounts m t u) :
    Accounts (n + m) s u := by
  refine ⟨g.cfg.trans h.cfg, g.up.trans h.up, ?_, fun hup => ?_⟩
  · obtain ⟨l, hl⟩ := h.grows
    obtain ⟨m, hm⟩ := g.grows
    exact ⟨l ++ m, hl.trans hm⟩
  · have h1 := h.kicks hup
    have h2 := g.kicks (by rw [h.up, h.cfg, hup])
    omega

/-- What touches no continuation and does not kick. -/
theorem accounts_of_cont {s t : State} (hcfg : t.cfg = s.cfg) (hup : t.lanes.up.length = s.lanes.up.length)
    (hcont : ∀ c, t.cont c = s.cont c) (h : Kickless s t) : Accounts 0 s t := by
  refine ⟨hcfg, hup, ?_, fun _ => ?_⟩
  · obtain ⟨l, hl, -⟩ := h
    exact ⟨l, hl⟩
  · rw [h.kicks, State.kicked_of_cont hcfg hcont, Nat.add_zero]

theorem Accounts.rfl {s : State} : Accounts 0 s s := accounts_of_cont (by rfl) (by rfl) (fun _ => by rfl) .rfl

theorem accounts_respond (s : State) (c : Ctx) (k : Code) (n : Nat) : Accounts 0 s (s.respond c k n) :=
  accounts_of_cont (by simp) (by simp) (fun _ => State.cont_of_lane? (by simp)) (kickless_respond s c k n)

/-- A context's operation takes a micro-step and its continuation becomes `k`: the account balances if it does for
the KICK events and the one context. -/
theorem accounts_setCont {n : Nat} {c : Ctx} {s u : State} {l : Lane} {es : List Event} {k : Cont}
    (hl : s.lane? c = some l) (hu : Keeps s u) (hr : Records es s u)
    (h : es.countP (· == .kick) + l.cont.kicked.toNat = n + k.kicked.toNat) : Accounts n s (u.setCont c k) := by
  refine ⟨by simp [hu.cfg], by rw [State.up_length_setCont, hu.lanes], ⟨_, hr.trans (records_setCont u c k)⟩,
    fun hup => ?_⟩
  have hlane : u.lane? c = some l := by rw [lane?_of_lanes_eq c hu.lanes, hl]
  have hcont : ∀ d, u.cont d = s.cont d := fun d => State.cont_of_lane? (lane?_of_lanes_eq d hu.lanes)
  have hkicked := State.kicked_setCont k (by rw [hu.lanes, hu.cfg, hup]) hlane
  rw [State.kicked_of_cont hu.cfg hcont] at hkicked
  rw [(hr.trans (records_setCont u c k)).kicks, List.append_nil]
  omega

/-- The `OK` answer of SUBMIT in one micro-step of context `c`, whose operation is `t`. -/
def stepOks (c : Ctx) (t : Task) (s : State) : Nat :=
  if t.submits && decide ((microStep c s).hist = s.hist ++ [.resp c 0]) then 1 else 0

theorem sliceOks_succ {c : Ctx} {s : State} {t : Task} (n : Nat) (h : s.task? c = some t) :
    sliceOks c (n + 1) s = stepOks c t s + sliceOks c n (microStep c s) := by
  simp only [sliceOks, h, stepOks]

theorem sliceOks_not_running {c : Ctx} {s : State} (n : Nat) (h : s.running c = false) : sliceOks c n s = 0 := by
  cases n with
  | zero => rfl
  | succ n => simp only [sliceOks, State.task?_eq_none h]

theorem stepOks_of_not_submits {c : Ctx} {t : Task} {s : State} (ht : t.submits = false) : stepOks c t s = 0 := by
  simp [stepOks, ht]

/-- A micro-step of an operation other than SUBMIT. -/
theorem accounts_microStep_other {c : Ctx} {s : State} {t : Task} {q : List Word}
    (hl : s.lane? c = some ⟨.running t, q⟩) (ht : t.submits = false) : Accounts 0 s (microStep c s) := by
  have hk {t : Task} (ht : t.submits = false) : t.kicked = false := by
    cases t with
    | submit h p => cases ht
    | _ => rfl
  have hu := keeps_taskStep c t s
  obtain ⟨es, hr, hes⟩ := kickless_taskStep (c := c) (s := s) ht
  have hc := countP_kick_eq_zero hes
  rcases hx : taskStep c t s with ⟨u, t' | ⟨k, n⟩ | _ | _⟩ <;> rw [hx] at hu hr
  · rw [microStep_goto hl hx]
    exact accounts_setCont hl hu hr (by simp [hc, Cont.kicked, hk ht, hk (taskStep_goto_submits hx ht)])
  · rw [microStep_ret hl hx]
    exact (accounts_setCont hl hu hr (by simp [hc, Cont.kicked, hk ht])).trans (accounts_respond ..)
  · rw [microStep_hold hl hx]
    exact .rfl
  · rw [microStep_stop hl hx]
    exact accounts_setCont hl hu hr (by simp [hc, Cont.kicked, hk ht])

theorem respWord_ok : respWord .ok 0 = 0 := by decide

theorem respWord_ne_zero {k : Code} (h : k ≠ .ok) : respWord k 0 ≠ 0 := by
  cases k with
  | ok => exact absurd rfl h
  | _ => decide

/-- A micro-step that does not record the answer `OK` alone is not counted. -/
theorem stepOks_of_records {c : Ctx} {t : Task} {s : State} {es : List Event} (h : Records es s (microStep c s))
    (he : es ≠ [.resp c 0]) : stepOks c t s = 0 := by
  have hne : (microStep c s).hist ≠ s.hist ++ [.resp c 0] := by
    rw [h.hist]
    exact fun heq => he (List.append_cancel_left heq)
  simp only [stepOks, hne, decide_false, Bool.and_false, Bool.false_eq_true, if_false]

/-- A micro-step of SUBMIT. -/
theorem accounts_microStep_submit {c : Ctx} {s : State} {h : Nat} {p : SubmitPc} {q : List Word}
    (hl : s.lane? c = some ⟨.running (.submit h p), q⟩) :
    Accounts (stepOks c (.submit h p) s) s (microStep c s) := by
  by_cases h9 : p = .x9
  · subst h9
    have hm : microStep c s = s.kickTransmit.setCont c (.running (.submit h .x10)) := microStep_goto hl rfl
    have hr : Records [.kick] s s.kickTransmit := (records_regWrite32 s .txctl _).trans (records_emit _ .kick)
    rw [stepOks_of_records (by rw [hm]; exact hr.trans (records_setCont ..)) (by simp), hm]
    exact accounts_setCont hl (keeps_submitTask c h .x9 s) hr rfl
  by_cases h10 : p = .x10
  · subst h10
    have hm : microStep c s = (s.unlock.setCont c .idle).respond c .ok 0 := microStep_ret hl rfl
    have hok : stepOks c (.submit h .x10) s = 1 := by simp [stepOks, Task.submits, hm, respWord_ok]
    rw [hok, hm]
    exact (accounts_setCont (n := 1) hl (keeps_unlock s) (records_unlock s) rfl).trans (accounts_respond ..)
  have hu := keeps_submitTask c h p s
  have hk {p : SubmitPc} (hp : p ≠ .x10) : Task.kicked (.submit h p) = false := by
    cases p with
    | x10 => exact absurd rfl hp
    | _ => rfl
  obtain ⟨hr, hn⟩ := submitTask_silent c h s h9 h10
  rcases hx : submitTask c h p s with ⟨u, t' | ⟨k, n⟩ | _ | _⟩ <;> rw [hx] at hu hr hn
  · obtain ⟨p', rfl, h10'⟩ := hn
    have hm := microStep_goto hl hx
    rw [stepOks_of_records (by rw [hm]; exact hr.trans (records_setCont ..)) (by simp), hm]
    exact accounts_setCont hl hu hr (by simp [Cont.kicked, hk h10, hk h10'])
  · obtain ⟨hcode, rfl⟩ : k ≠ .ok ∧ n = 0 := hn
    have hm := microStep_ret hl hx
    rw [stepOks_of_records (by rw [hm]; exact (hr.trans (records_setCont ..)).trans (records_emit ..))
      (by simpa using respWord_ne_zero hcode), hm]
    exact (accounts_setCont hl hu hr (by simp [Cont.kicked, hk h10])).trans (accounts_respond ..)
  · have hm := microStep_hold hl hx
    rw [stepOks_of_records (by rw [hm]; exact .rfl) (by simp), hm]
    exact .rfl
  · have hm := microStep_stop hl hx
    rw [stepOks_of_records (by rw [hm]; exact hr.trans (records_setCont ..)) (by simp), hm]
    exact accounts_setCont hl hu hr (by simp [Cont.kicked, hk h10])

theorem accounts_microStep {c : Ctx} {s : State} {t : Task} {q : List Word}
    (hl : s.lane? c = some ⟨.running t, q⟩) : Accounts (stepOks c t s) s (microStep c s) := by
  cases ht : t.submits with
  | false =>
    rw [stepOks_of_not_submits ht]
    exact accounts_microStep_other hl ht
  | true =>
    cases t with
    | submit h p => exact accounts_microStep_submit hl
    | _ => cases ht

theorem accounts_runFor (c : Ctx) (n : Nat) (s : State) : Accounts (sliceOks c n s) s (runFor c n s) := by
  induction n generalizing s with
  | zero => exact .rfl
  | succ n ih =>
    cases hr : s.running c with
    | false =>
      rw [sliceOks_not_running _ hr, runFor_not_running _ hr]
      exact .rfl
    | true =>
      obtain ⟨t, q, hl⟩ := State.lane_of_running hr
      rw [sliceOks_succ n (State.task?_of_lane hl), runFor_succ_running n hr]
      exact (accounts_microStep hl).trans (ih _)

/-- A slice of an operation other than SUBMIT answers no SUBMIT. -/
theorem sliceOks_of_not_submits {c : Ctx} (n : Nat) : ∀ {s : State} {t : Task} {q : List Word},
    s.lane? c = some ⟨.running t, q⟩ → t.submits = false → sliceOks c n s = 0 := by
  induction n with
  | zero => intros; rfl
  | succ n ih =>
    intro s t q hl ht
    rw [sliceOks_succ n (State.task?_of_lane hl), stepOks_of_not_submits ht, Nat.zero_add]
    have hlane : (taskStep c t s).1.lane? c = some ⟨.running t, q⟩ := by
      rw [lane?_of_lanes_eq c (taskStep_lanes c t s), hl]
    rcases hx : taskStep c t s with ⟨u, t' | ⟨k, v⟩ | _ | _⟩ <;> rw [hx] at hlane
    · rw [microStep_goto hl hx]
      exact ih (u.lane?_setCont_same _ hlane) (taskStep_goto_submits hx ht)
    · rw [microStep_ret hl hx]
      exact sliceOks_not_running n (by simp [State.running, u.lane?_setCont_same _ hlane])
    · rw [microStep_hold hl hx]
      exact ih hl ht
    · rw [microStep_stop hl hx]
      exact sliceOks_not_running n (by simp [State.running, u.lane?_setCont_same _ hlane])

/-! ## The account of a command and of a step -/

/-- The operation a command starts, at its first micro-step. -/
def firstTask : Instr → Task
  | .bringup => .bringup .h1
  | .teardown => .teardown .t1
  | .acquire size => .acquire size
  | .release h => .release h
  | .isFull r => .isFull r
  | .isEmpty r => .isEmpty r
  | .refill => .refill (.f1 0)
  | .drain b => .drain b (.g1 0)
  | .submit h => .submit h .x1
  | .reclaim => .reclaim .y1
  | .irq => .irq .i1
  | .poll b => .poll b (.l1 (.g1 0))

/-- A command that starts begins its own operation; its acceptance writes at most `poll_running`. -/
theorem acceptance_start {i : Instr} {s s0 : State} {t : Task} (h : acceptance i s = .start t s0) :
    t = firstTask i ∧ ∃ b, s0 = { s with pollRunning := b } := by
  have self : ∃ b, s = { s with pollRunning := b } := ⟨s.pollRunning, rfl⟩
  cases i with
  | bringup => simp only [acceptance] at h; split at h <;> cases h; exact ⟨rfl, self⟩
  | irq => simp only [acceptance] at h; split at h <;> cases h; exact ⟨rfl, self⟩
  | refill => exact acceptPoll_start h
  | drain b => exact acceptPoll_start h
  | poll b => exact acceptPoll_start h
  | _ => cases h; exact ⟨rfl, self⟩

/-- The `OK` answers of SUBMIT in the command `i` on the scheduled context. -/
def commandOks (i : Instr) (s : State) : Nat :=
  match i with
  | .submit h =>
    if legalOn (.submit h) s.cur.port then sliceOks s.cur s.slice (s.setCont s.cur (.running (.submit h .x1))) else 0
  | _ => 0

/-- A command that is answered at once answers no SUBMIT `OK`. -/
theorem commandOks_reject {i : Instr} {s : State} {k : Code} (h : acceptance i s = .reject k) : commandOks i s = 0 := by
  cases i with
  | submit n => cases h
  | _ => rfl

/-- A command that starts answers SUBMIT `OK` as its operation's slice does. -/
theorem commandOks_start {i : Instr} {s s0 : State} {t : Task} {q : List Word}
    (hl : s.lane? s.cur = some ⟨.idle, q⟩) (hlegal : legalOn i s.cur.port = true)
    (h : acceptance i s = .start t s0) :
    commandOks i s = sliceOks s.cur s.slice (s0.setCont s.cur (.running t)) := by
  cases i with
  | submit n =>
    cases h
    simp only [commandOks, hlegal, if_true]
  | _ =>
    obtain ⟨rfl, b, rfl⟩ := acceptance_start h
    have hl0 : State.lane? { s with pollRunning := b } s.cur = some ⟨.idle, q⟩ := hl
    exact (sliceOks_of_not_submits s.slice (State.lane?_setCont_same _ _ hl0) rfl).symm

theorem commandOks_illegal {i : Instr} {s : State} (h : legalOn i s.cur.port = false) : commandOks i s = 0 := by
  cases i with
  | submit n => simp only [commandOks, h, Bool.false_eq_true, if_false]
  | _ => rfl

theorem accounts_exec {i : Instr} {s t : State} {q : List Word} (hw : s.cfg.wf = true)
    (hl : s.lane? s.cur = some ⟨.idle, q⟩) (h : exec i s = .next t) : Accounts (commandOks i s) s t := by
  have hi : s.idle s.cur = true := by simp only [State.idle, hl]
  rw [exec_eq_issue] at h
  cases hlegal : legalOn i s.cur.port with
  | false =>
    rw [issue_illegal _ hw hi hlegal] at h
    cases h
    rw [commandOks_illegal hlegal]
    exact accounts_respond ..
  | true =>
    cases ha : acceptance i s with
    | reject k =>
      rw [ha, issue_reject ⟨hw, hi, hlegal⟩] at h
      cases h
      rw [commandOks_reject ha]
      exact accounts_respond ..
    | start t0 s0 =>
      rw [commandOks_start hl hlegal ha]
      simp only [issue, hw, hi, hlegal, ha, if_true, Host.Outcome.next.injEq] at h
      obtain ⟨rfl, b, rfl⟩ := acceptance_start ha
      have hstart : Accounts 0 s (State.setCont { s with pollRunning := b } s.cur (.running (firstTask i))) :=
        accounts_setCont hl (by constructor <;> rfl) (.of_eq rfl rfl) (by cases i <;> rfl)
      rw [← h, ← Nat.zero_add (sliceOks ..)]
      exact hstart.trans (accounts_runFor ..)

/-- A turn that runs no command: a slice of the operation in progress, or at most an illegal word is answered. -/
theorem contextTurn_done {c : Ctx} {more : Nat} {s t : State} (h : contextTurn c more s = .done t) :
    (s.running c = true ∧ t = runFor c (more + 1) s)
      ∨ (s.running c = false ∧ (t = s ∨ ∃ ws, t = (s.setQueue c ws).respond c .illegal 0)) := by
  unfold contextTurn at h
  split at h
  · rename_i w ws hl
    split at h <;> cases h
    exact .inr ⟨by simp only [State.running, hl], .inr ⟨ws, rfl⟩⟩
  · rename_i hl
    cases h
    exact .inl ⟨by simp only [State.running, hl], rfl⟩
  · rename_i hl
    cases h
    refine .inr ⟨?_, .inl rfl⟩
    unfold State.running
    split
    · exact absurd ‹_› (hl _ _)
    · rfl

theorem accounts_setQueue (s : State) (c : Ctx) (q : List Word) : Accounts 0 s (s.setQueue c q) :=
  accounts_of_cont (by simp) (s.up_length_setQueue c q) (s.cont_setQueue c · q) (.of_eq (by simp) (by simp))

theorem accounts_contextTurn {c : Ctx} {more : Nat} {s t : State} (h : contextTurn c more s = .done t) :
    Accounts (sliceOks c (more + 1) s) s t := by
  obtain ⟨-, rfl⟩ | ⟨hr, rfl | ⟨ws, rfl⟩⟩ := contextTurn_done h
  · exact accounts_runFor ..
  · rw [sliceOks_not_running _ hr]
    exact .rfl
  · rw [sliceOks_not_running _ hr]
    exact (accounts_setQueue s c ws).trans (accounts_respond ..)

/-- A move of the device or the environment. -/
theorem accounts_moveTurn_other {m : Move} {s t : State} (hr : ∀ c k, m ≠ .run c k) (h : moveTurn m s = .done t) :
    Accounts 0 s t := by
  by_cases ho : ∃ c w, m = .offer c w
  · obtain ⟨c, w, rfl⟩ := ho
    cases h
    exact accounts_of_cont (by simp) (s.up_length_offer c w) (s.cont_offer c · w) (.of_eq (by simp) (by simp))
  · push Not at ho
    have hf := foreign_moveTurn hr ho h
    exact accounts_of_cont hf.cfg (by rw [hf.lanes]) (cont_moveTurn hr h) hf.kickless

theorem accounts_nextMove (s : State) : Accounts 0 s s.nextMove.2 := by
  unfold State.nextMove
  split <;> exact accounts_of_cont rfl rfl (fun _ => rfl) (.of_eq rfl rfl)

theorem accounts_scheduled (s : State) (c : Ctx) (more : Nat) : Accounts 0 s { s with cur := c, slice := more } :=
  accounts_of_cont rfl rfl (fun _ => rfl) (.of_eq rfl rfl)

theorem step_eq_next {s t : State} (h : step s = .next t) :
    s.cfg.wf = true ∧ ((∃ i u, turn s = .command i u ∧ exec i u = .next t) ∨ turn s = .done t) := by
  unfold step at h
  split at h
  · split at h
    · exact ⟨‹_›, .inl ⟨_, _, ‹_›, h⟩⟩
    · cases h
      exact ⟨‹_›, .inr ‹_›⟩
  · cases h

theorem submitOks_of_command {s u : State} {i : Instr} (h : turn s = .command i u) :
    s.submitOks = commandOks i u := by
  cases i <;> simp only [State.submitOks, h, commandOks]

theorem submitOks_of_run {s t : State} {c : Ctx} {more : Nat} (h : turn s = .done t)
    (hm : s.nextMove.1 = .run c more) :
    s.submitOks = sliceOks c (more + 1) { s.nextMove.2 with cur := c, slice := more } := by
  simp only [State.submitOks, h, hm]

theorem submitOks_of_other {s t : State} (h : turn s = .done t) (hm : ∀ c k, s.nextMove.1 ≠ .run c k) :
    s.submitOks = 0 := by
  cases hn : s.nextMove.1 with
  | run c k => exact absurd hn (hm c k)
  | _ => simp only [State.submitOks, h, hn]

/-- Every step balances: a command, a slice of an operation, or a move of the device or the environment. -/
theorem accounts_step {s t : State} (h : step s = .next t) : Accounts s.submitOks s t := by
  have hnext := accounts_nextMove s
  obtain ⟨hw, ⟨i, u, hu, hx⟩ | hd⟩ := step_eq_next h
  · obtain ⟨c, more, -, hc⟩ := moveTurn_command hu
    obtain ⟨w, ws, hl, -, rfl⟩ := contextTurn_command hc
    rw [submitOks_of_command hu]
    have hbefore := (hnext.trans (accounts_scheduled _ c more)).trans (accounts_setQueue _ c ws)
    have hcur : (State.setQueue { s.nextMove.2 with cur := c, slice := more } c ws).cur = c := by simp
    have hlane := State.lane?_setQueue_same _ ws hl
    simpa using hbefore.trans (accounts_exec (by simpa using hw) (by rw [hcur]; exact hlane) hx)
  · by_cases hr : ∃ c k, s.nextMove.1 = .run c k
    · obtain ⟨c, k, hm⟩ := hr
      rw [submitOks_of_run hd hm]
      rw [turn, hm] at hd
      simpa using (hnext.trans (accounts_scheduled _ c k)).trans (accounts_contextTurn hd)
    · push Not at hr
      rw [submitOks_of_other hd hr]
      exact hnext.trans (accounts_moveTurn_other hr hd)

/-- After reset there is no lane with an operation in progress. -/
theorem State.cont_resetFor (c : Config) (d : Ctx) : (State.resetFor c).cont d = .idle := by
  cases d with
  | up k =>
    by_cases hk : k < c.kUp
    · simp [State.cont, State.lane?, State.resetFor, Lane.empty, hk]
    · simp [State.cont, State.lane?, State.resetFor, hk]
  | _ => rfl

theorem kicked_of_no_submit {s : State} (h : ∀ c k p, s.task? c ≠ some (.submit k p)) : s.kicked = 0 := by
  refine List.countP_eq_zero.mpr fun t ht => ?_
  obtain ⟨c, -, hc⟩ := List.mem_filterMap.mp ht
  cases t with
  | submit k p => exact absurd hc (h c k p)
  | _ => simp [Task.kicked]

/-- Settles O21: each clause is read off the account of a step, which micro-steps keep and slices add up. -/
theorem faultsHistoryAndKicks : Obligations.FaultsHistoryAndKicks := by
  refine ⟨fun s t h => ?_, fun c => ?_, fun s t n hs hn h => ?_, fun s => kicked_of_no_submit⟩
  · obtain ⟨l, hfault, hhist⟩ := (accounts_step h).grows
    exact ⟨hfault.dmaUnmapped, hfault.pendEmpty, hfault.pool, l, hhist⟩
  · have hk : (State.resetFor c).kicked = 0 :=
      kicked_of_no_submit fun d k p => by simp [State.task?, State.cont_resetFor]
    rw [hk]
    rfl
  · have hbalance := (accounts_step h).kicks hs.up
    omega

end Sys2Proof.Machine
end

section
/-! PROOF. The reset values (10_state R45), the acceptance of a command (R41, 30_encoding R97), the placed word, the
acknowledge (R172) and upstream's fills (46_device_and_environment R201). -/

namespace Sys2Proof.Machine

/-! ## Reset (R45) -/

theorem State.pending_resetFor (c : Config) (r : Ring) (i : Nat) : (State.resetFor c).pending r i = none := by
  have h (n : Nat) : (List.replicate n (none : Option (Nat × DAddr))).getD i none = none := by
    by_cases hi : i < n
    · simp [hi]
    · simp [hi]
  cases r <;> exact h _

theorem State.buffer_resetFor (c : Config) (h : Nat) : (State.resetFor c).buffer h = ⟨.free, 0, none⟩ := by
  simp only [State.buffer, State.resetFor, List.getD_eq_getElem?_getD, List.getElem?_replicate]
  split <;> rfl

/-- Settles O15: the tables are constant lists, the rest of the reset state is read off its definition. -/
theorem resetValues : Obligations.ResetValues := by
  refine ⟨fun c => ?_, rfl⟩
  refine ⟨rfl, rfl, rfl, rfl, rfl, rfl, State.pending_resetFor c, fun h => ?_, rfl, rfl, rfl, rfl, rfl, rfl, rfl,
    fun k l hl => ?_, rfl, rfl, by simp [State.resetFor]⟩
  · simp [State.buffer_resetFor]
  · rw [← State.cont_of_lane hl, State.cont_resetFor]

/-! ## Acceptance (R41, R97) -/

/-- A command that starts, with a slice of 0, leaves its context at the operation's first micro-step. -/
theorem exec_start {i : Instr} {s s0 : State} {t : Task} (h : s.Ready i) (hs : s.slice = 0)
    (ha : acceptance i s = .start t s0) : exec i s = .next (s0.setCont s.cur (.running t)) := by
  simp only [exec_eq_issue, issue, h.wf, h.idle, h.legal, ha, hs, if_true, runFor]

theorem acceptPoll_of_up {s : State} (t : Task) (hup : s.life = .up) (hp : s.pollRunning = false) :
    acceptPoll s t = .start t { s with pollRunning := true } := by simp [acceptPoll, hup, hp]

/-- Settles O12: each command's acceptance is a start, and a slice of 0 adds no micro-step. -/
theorem acceptanceStartsOperation : Obligations.AcceptanceStartsOperation := by
  intro i s h hs
  cases i with
  | bringup => exact fun hd => exec_start h hs (if_pos hd)
  | irq => exact fun hu => exec_start h hs (if_pos hu)
  | refill => exact fun hu hp => exec_start h hs (acceptPoll_of_up _ hu hp)
  | drain b => exact fun hu hp => exec_start h hs (acceptPoll_of_up _ hu hp)
  | poll b => exact fun hu hp => exec_start h hs (acceptPoll_of_up _ hu hp)
  | _ => exact exec_start h hs rfl

/-! ## The decoder on a command's own word (R90 to R96) -/

theorem decode_encode {i : Instr} (h : i.wf = true) : decode (encode i) = .ok i := by
  obtain ⟨hop, hsel, hrsv, harg⟩ := Laws.Fields.fields_of i h
  have hring (r : Ring) (hr : Decode.sel (encode i) = r.sel) : Decode.ring (encode i) = r := by
    cases r <;> simp [Decode.ring, hr, Ring.sel]
  change Decode.op (encode i) = i.opcode at hop
  change Decode.sel (encode i) = i.selField at hsel
  change Decode.rsv (encode i) = 0 at hrsv
  change Decode.arg (encode i) = i.argField at harg
  simp only [decode, hrsv, ne_eq, not_true_eq_false, if_false, Decode.byOpcode, hop]
  cases i with
  | isFull r => simp [Instr.opcode, Decode.select, harg, Instr.argField, hring r hsel]
  | isEmpty r => simp [Instr.opcode, Decode.select, harg, Instr.argField, hring r hsel]
  | _ => simp [Instr.opcode, Decode.plain, Decode.operand, hsel, harg, Instr.selField, Instr.argField]

/-! ## The placed word (log entry 6) -/

theorem State.reset_wf : State.reset.cfg.wf = true := by decide

/-- Settles O9: the placed word waits first at its port, so the next step runs the command it decodes to (O7). -/
theorem placedWordRunsFirst : Obligations.PlacedWordRunsFirst := by
  intro i hi
  have hword : BitVec.ofNat 32 ((encode i).toNat % 2 ^ 32) = encode i := by
    rw [Nat.mod_eq_of_lt (encode i).isLt, BitVec.ofNat_toNat, BitVec.setWidth_eq]
  have hplace : State.reset.withFetchWord 32 (encode i).toNat
      = { State.reset.setLane (homeCtx i) ⟨.idle, [encode i]⟩ with script := [.run (homeCtx i) fetchSlice] } := by
    rw [State.withFetchWord, hword, placeWord, placeCtx, decode_encode hi]
    cases i <;> rfl
  rw [hplace, (stepRunsDecodedCommand _ (homeCtx i) fetchSlice [] (by simpa using State.reset_wf) rfl).1 (encode i) [] i
    (by cases i <;> rfl) (decode_encode hi)]
  generalize fetchSlice = n
  cases i <;> rfl

/-! ## Continuations of a running operation -/

theorem State.lane_of_task? {c : Ctx} {s : State} {t : Task} (h : s.task? c = some t) :
    ∃ q, s.lane? c = some ⟨.running t, q⟩ := by
  simp only [State.task?, State.cont] at h
  cases hl : s.lane? c with
  | none => simp [hl] at h
  | some l =>
    obtain ⟨_ | t' | _, q⟩ := l <;> simp [hl] at h
    exact ⟨q, by rw [h]⟩

/-- Settles O43: I7 is a write of the observed bits to `ISR`, which clears exactly those (R38). -/
theorem acknowledgeKeepsNewCauses : Obligations.AcknowledgeKeepsNewCauses := by
  intro s c v h
  obtain ⟨q, hl⟩ := State.lane_of_task? h
  have hm : microStep c s = { s with isr := s.isr &&& ~~~v }.setCont c (.running (.irq .i8)) := microStep_goto hl rfl
  refine ⟨hm, fun k hk => ?_⟩
  simp [hm, hk]

/-! ## Upstream's fills (R33, R201) -/

theorem step_fill {s : State} {rest : List Move} {k h off : Nat} {bytes : List Byte} (hw : s.cfg.wf = true)
    (hs : s.script = .fill k h off bytes :: rest) :
    step s = .next ({ s with script := rest }.upstreamFill k h off bytes) :=
  step_of_done hw (turn_of_script hs)

theorem bufByte_bufWrite_inside {s : State} {h o x : Nat} {bs : List Byte} {b : Byte} (hb : bs[x]? = some b) :
    (s.bufWrite h o bs).bufByte h (o + x) = b := by
  obtain ⟨hx, -⟩ := List.getElem?_eq_some_iff.mp hb
  have hsub : bufKey h (o + x) - bufKey h o = x := by simp only [bufKey]; omega
  rw [State.bufByte_bufWrite, if_pos (by simp only [bufKey]; omega), hsub, hb]
  rfl

theorem bufByte_bufWrite_outside {s : State} {h o x : Nat} (bs : List Byte) (hx : x < o ∨ o + bs.length ≤ x) :
    (s.bufWrite h o bs).bufByte h x = s.bufByte h x := by
  rw [State.bufByte_bufWrite, if_neg]
  simp only [bufKey]
  omega

/-- Settles O55: a fill upstream may make is one write inside the buffer's window of keys, any other is none. -/
theorem upstreamFills : Obligations.UpstreamFills := by
  intro s rest k h off bytes hw hs
  rw [step_fill hw hs]
  refine ⟨fun hk hh hown hlen => ?_, fun hno => ?_⟩
  · have hok : ({ s with script := rest } : State).handleOk h = true := by
      simp only [State.handleOk, Bool.and_eq_true, decide_eq_true_eq, beq_iff_eq]
      exact ⟨hh, hown⟩
    have hfit : off + bytes.length ≤ 2 ^ 16 := hlen.trans (s.buffer h).len.isLt.le
    refine ⟨_, rfl, ?_⟩
    rw [State.upstreamFill, if_pos ⟨hk, hok, hlen⟩]
    refine ⟨rfl, fun x b => bufByte_bufWrite_inside, fun g x hx hout => ?_⟩
    by_cases hg : g = h
    · subst hg
      exact bufByte_bufWrite_outside bytes (by omega)
    · exact State.bufByte_bufWrite_other _ bytes hg hx hfit
  · rw [State.upstreamFill, if_neg]
    rintro ⟨hk, hok, hlen⟩
    simp only [State.handleOk, Bool.and_eq_true, decide_eq_true_eq, beq_iff_eq] at hok
    obtain ⟨hh, hown⟩ := hok
    obtain hno | hno | hno | hno := hno
    · exact absurd hk hno.not_gt
    · exact absurd hh hno.not_gt
    · exact hno hown
    · exact absurd hlen hno.not_ge

end Sys2Proof.Machine
end

section
/-! PROOF. The arithmetic of the rings (10_state R24): windows as the head and the tail move. -/

namespace Sys2Proof.Machine

/-! ## Indices modulo `N` -/

theorem nextIndex_eq {i n : Nat} (h : i < n) : nextIndex i n = if i + 1 = n then 0 else i + 1 := by
  unfold nextIndex
  split
  · simp [*]
  · exact Nat.mod_eq_of_lt (by omega)

theorem nextIndex_lt {n : Nat} (i : Nat) (h : 0 < n) : nextIndex i n < n := Nat.mod_lt _ h

theorem subIndex_eq {x y n : Nat} (hx : x < n) (hy : y < n) :
    subIndex x y n = if y ≤ x then x - y else x + n - y := by
  unfold subIndex
  split
  · rw [show x + n - y = x - y + n by omega, Nat.add_mod_right, Nat.mod_eq_of_lt (by omega)]
  · exact Nat.mod_eq_of_lt (by omega)

theorem subIndex_cast {x y n : Nat} (hy : y < n) : (subIndex x y n : Int) = ((x : Int) - y) % n := by
  rw [subIndex, Int.natCast_mod, Nat.cast_sub (by omega), Nat.cast_add, add_sub_right_comm, Int.add_emod_right]

/-! ## Predicates -/

theorem State.full_iff (s : State) (r : Ring) :
    s.full r = true ↔ nextIndex (s.ring r).head (ringSize s.cfg r) = (s.ring r).tail := by simp [State.full]

theorem State.empty_iff (s : State) (r : Ring) : s.empty r = true ↔ (s.ring r).head = (s.ring r).tail := by
  simp [State.empty]

theorem State.inWindow_iff (s : State) (r : Ring) (i : Nat) :
    s.inWindow r i = true ↔ subIndex i (s.ring r).tail (ringSize s.cfg r) < s.count r := by simp [State.inWindow]

/-- Settles O29: each predicate is its definition, with differences modulo `N` in their closed form. -/
theorem ringPredicates : Obligations.RingPredicates := by
  intro s r hn hh ht
  have hcount : s.count r = if (s.ring r).tail ≤ (s.ring r).head then (s.ring r).head - (s.ring r).tail
      else (s.ring r).head + ringSize s.cfg r - (s.ring r).tail := subIndex_eq hh ht
  have hle : s.count r + 1 ≤ ringSize s.cfg r := Nat.mod_lt _ (by omega)
  refine ⟨s.full_iff r, s.empty_iff r, subIndex_cast ht, ?_, fun i _ => ?_, ?_, ?_⟩
  · rw [State.freeSlots]
    omega
  · rw [State.inWindow_iff, ← subIndex_cast ht, Int.ofNat_lt]
  · rw [State.full_iff, nextIndex_eq hh, hcount]
    split <;> split <;> omega
  · rw [State.empty_iff, hcount]
    split <;> omega

end Sys2Proof.Machine
end

section
/-! PROOF. What a micro-step can do, said once: one constructor per branch of the rules (R111, R113, R126 to R130, R140,
R141, R155, R156, R170, R173, R185 to R187). The invariants are proved by cases on these relations. -/

namespace Sys2Proof.Machine

/-! ## The engines' micro-steps -/

/-- REFILL goes on from one label to another (R140, and R128 inside F4). -/
inductive RefillMicro (s : State) : RefillPc → State → RefillPc → Prop
  | full {n : Nat} (h : s.full .rx = true) : RefillMicro s (.f1 n) s (.f9 n)
  | room {n : Nat} (h : s.full .rx = false) : RefillMicro s (.f1 n) s (.f2 n)
  | acquired {n h : Nat} (hf : s.lowestFree = some h) :
      RefillMicro s (.f2 n) (s.setBuffer h ⟨.eng, BitVec.ofNat 16 s.cfg.bufSize, none⟩) (.f3 n h)
  | exhausted {n : Nat} : RefillMicro s (.f2 n) s (.f9 n)
  | mapped {n h : Nat} : RefillMicro s (.f3 n h)
      (s.drawMapOk.2.setBuffer h { s.buffer h with map := some .inbound }) (.f4 n h (xlateOf s.cfg h) .p1)
  | mapFailed {n h : Nat} : RefillMicro s (.f3 n h)
      (s.drawMapOk.2.setBuffer h { s.buffer h with own := .free }) (.f9 n)
  | address {n h : Nat} {a : DAddr} : RefillMicro s (.f4 n h a .p1)
      (s.descWrite64 (bufferAddr s.cfg .rx s.rx.head) a) (.f4 n h a (.p2 s.rx.head))
  | length {n h i : Nat} {a : DAddr} : RefillMicro s (.f4 n h a (.p2 i))
      (s.descWrite32 (lengthAddr s.cfg .rx i) (BitVec.ofNat 32 s.cfg.bufSize)) (.f4 n h a (.p3 i))
  | barrier {n h i : Nat} {a : DAddr} : RefillMicro s (.f4 n h a (.p3 i)) s (.f4 n h a (.p4 i))
  | status {n h i : Nat} {a : DAddr} : RefillMicro s (.f4 n h a (.p4 i))
      (s.descWrite32 (statusAddr s.cfg .rx i) rxArmedStatus) (.f5 n h a i)
  | recorded {n h i : Nat} {a : DAddr} :
      RefillMicro s (.f5 n h a i) (s.setPending .rx i (some (h, a))) (.f6 n i)
  | advanced {n i : Nat} : RefillMicro s (.f6 n i) (s.setHead .rx (nextIndex i s.cfg.nRx)) (.f7 n)
  | again {n : Nat} : RefillMicro s (.f7 n) s (.f1 (n + 1))

/-- DRAIN goes on from one label to another (R141, and R129 inside G2). -/
inductive DrainMicro (s : State) : DrainPc → State → DrainPc → Prop
  | spent {w : Nat} : DrainMicro s (.g1 w) s (.g9 w)
  | peek {w : Nat} : DrainMicro s (.g1 w) s (.g2 w .k1)
  | nothing {w : Nat} : DrainMicro s (.g2 w .k1) s (.g9 w)
  | statusRead {w : Nat} (he : s.empty .rx = false)
      (ho : ownBit (s.descRead32 (statusAddr s.cfg .rx s.rx.tail)) = false) :
      DrainMicro s (.g2 w .k1) s (.g2 w (.k2 s.rx.tail (s.descRead32 (statusAddr s.cfg .rx s.rx.tail))))
  | lengthRead {w i : Nat} {st : Word} :
      DrainMicro s (.g2 w (.k2 i st)) s (.g3 w st (s.descRead32 (lengthAddr s.cfg .rx i)))
  | entry {w h : Nat} {st len : Word} {a : DAddr} (hp : s.pending .rx s.rx.tail = some (h, a)) :
      DrainMicro s (.g3 w st len) s (.g4 w st len s.rx.tail h)
  | noEntry {w : Nat} {st len : Word} (hp : s.pending .rx s.rx.tail = none) :
      DrainMicro s (.g3 w st len) (s.raise .pendEmpty) (.g9 w)
  | unmapped {w i h : Nat} {st len : Word} :
      DrainMicro s (.g4 w st len i h) (s.setBuffer h { s.buffer h with map := none }) (.g5 w st len i h)
  | dropped {w i h : Nat} {st len : Word} : DrainMicro s (.g5 w st len i h)
      ({ s with rxErr := bump s.rxErr }.setBuffer h { s.buffer h with own := .free }) (.g6 w i)
  | delivered {w i h : Nat} {st len : Word} (hlen : s.tooLong len = false) : DrainMicro s (.g5 w st len i h)
      ((s.setBuffer h { s.buffer h with len := len.setWidth 16, own := .up }).emit
        (.deliver h (s.bufBytes h len.toNat))) (.g6 w i)
  | cleared {w i : Nat} : DrainMicro s (.g6 w i) (s.setPending .rx i none) (.g7 w)
  | advanced {w : Nat} : DrainMicro s (.g7 w) (s.setTail .rx (nextIndex s.rx.tail s.cfg.nRx)) (.g8 w)
  | again {w : Nat} : DrainMicro s (.g8 w) s (.g1 (w + 1))

/-- RECLAIM on context `c` goes on from one label to another (R156, and R129 inside Y3). -/
inductive ReclaimMicro (c : Ctx) (s : State) : ReclaimPc → State → ReclaimPc → Prop
  | locked (hl : s.txLock = none) : ReclaimMicro c s .y1 (s.lock c) .y2
  | entered (hu : s.life = .up) : ReclaimMicro c s .y2 s (.y3 (s.full .tx) 0 .k1)
  | nothing {f : Bool} {n : Nat} : ReclaimMicro c s (.y3 f n .k1) s (.y8 f n)
  | statusRead {f : Bool} {n : Nat} (he : s.empty .tx = false)
      (ho : ownBit (s.descRead32 (statusAddr s.cfg .tx s.tx.tail)) = false) :
      ReclaimMicro c s (.y3 f n .k1) s (.y3 f n (.k2 s.tx.tail (s.descRead32 (statusAddr s.cfg .tx s.tx.tail))))
  | lengthRead {f : Bool} {n i : Nat} {st : Word} : ReclaimMicro c s (.y3 f n (.k2 i st)) s (.y4 f n st)
  | entry {f : Bool} {n h : Nat} {st : Word} {a : DAddr} (hp : s.pending .tx s.tx.tail = some (h, a)) :
      ReclaimMicro c s (.y4 f n st) s (.y5 f n st s.tx.tail h)
  | noEntry {f : Bool} {n : Nat} {st : Word} (hp : s.pending .tx s.tx.tail = none) :
      ReclaimMicro c s (.y4 f n st) (s.raise .pendEmpty) (.y8 f n)
  | freed {f : Bool} {n i h : Nat} {st e : Word} : ReclaimMicro c s (.y5 f n st i h)
      ({ s with txErr := e }.setBuffer h { s.buffer h with own := .free, map := none }) (.y6 f n i)
  | cleared {f : Bool} {n i : Nat} : ReclaimMicro c s (.y6 f n i) (s.setPending .tx i none) (.y7 f n)
  | advanced {f : Bool} {n : Nat} :
      ReclaimMicro c s (.y7 f n) (s.setTail .tx (nextIndex s.tx.tail s.cfg.nTx)) (.y3 f (n + 1) .k1)
  | woken {f : Bool} {n : Nat} : ReclaimMicro c s (.y8 f n) (s.wakeIf f n) (.y9 n)

/-! ## Where the engines run -/

/-- REFILL as a command, inside POLL, and inside BRINGUP. -/
inductive Fills : (RefillPc → Task) → Prop
  | refill : Fills .refill
  | poll (b w : Nat) : Fills fun p => .poll b (.l2 w p)
  | bringup : Fills fun p => .bringup (.b4 p)

/-- DRAIN as a command, and inside POLL. -/
inductive Drains : Nat → (DrainPc → Task) → Prop
  | drain (b : Nat) : Drains b (.drain b)
  | poll (b : Nat) : Drains b fun p => .poll b (.l1 p)

/-- RECLAIM as a command, and inside IRQ. -/
inductive Reclaims : (ReclaimPc → Task) → Prop
  | reclaim : Reclaims .reclaim
  | irq (v : Word) : Reclaims fun p => .irq (.i4r v p)

/-- What an engine's caller goes on with when REFILL has returned. -/
inductive AfterFill (s : State) (n : Nat) : (RefillPc → Task) → State → Cont → Prop
  | refill : AfterFill s n .refill { s with pollRunning := false } .idle
  | poll (b w : Nat) : AfterFill s n (fun p => .poll b (.l2 w p)) s (.running (.poll b (.l3 w)))
  | bringup : AfterFill s n (fun p => .bringup (.b4 p)) s (.running (.bringup (.b5 n)))

/-- The same when DRAIN has returned. -/
inductive AfterDrain (s : State) (w : Nat) : (DrainPc → Task) → State → Cont → Prop
  | drain (b : Nat) : AfterDrain s w (.drain b) { s with pollRunning := false } .idle
  | poll (b : Nat) : AfterDrain s w (fun p => .poll b (.l1 p)) s (.running (.poll b (.l2 w (.f1 0))))

/-- The same when RECLAIM has returned, having released the lock. -/
inductive AfterReclaim : (ReclaimPc → Task) → Cont → Prop
  | reclaim : AfterReclaim .reclaim .idle
  | irq (v : Word) : AfterReclaim (fun p => .irq (.i4r v p)) (.running (.irq (.i5 v)))

/-! ## A micro-step -/

/-- The buffer can be mapped or released: it is one of the pool's, held and not mapped (R112, R114). -/
def State.holds (s : State) (h : Nat) : Prop := h < s.cfg.poolSize ∧ (s.buffer h).own ≠ .free ∧ (s.buffer h).map = none

/-- The buffer can be unmapped from `d` and then released (R112, R115). -/
def State.holdsMapped (s : State) (h : Nat) (d : Dir) : Prop :=
  h < s.cfg.poolSize ∧ (s.buffer h).own ≠ .free ∧ (s.buffer h).map = some d

/-- REFILL is about to use its buffer wrongly: `F_POOL` (R114). -/
def RefillPc.misuses (s : State) : RefillPc → Prop
  | .f3 _ h => ¬ s.holds h
  | _ => False

/-- The same of DRAIN (R112, R115). -/
def DrainPc.misuses (s : State) : DrainPc → Prop
  | .g4 _ _ _ _ h => ¬ (h < s.cfg.poolSize ∧ (s.buffer h).map = some .inbound)
  | .g5 _ _ _ _ h => ¬ s.holds h
  | _ => False

/-- The same of RECLAIM. -/
def ReclaimPc.misuses (s : State) : ReclaimPc → Prop
  | .y5 _ _ _ _ h => ¬ s.holdsMapped h .outbound
  | _ => False

/-- The same of any operation. -/
def Task.misuses (s : State) : Task → Prop
  | .refill p => p.misuses s
  | .poll _ (.l2 _ p) => p.misuses s
  | .bringup (.b4 p) => p.misuses s
  | .drain _ p => p.misuses s
  | .poll _ (.l1 p) => p.misuses s
  | .reclaim p => p.misuses s
  | .irq (.i4r _ p) => p.misuses s
  | .release h => s.handleOk h = true ∧ ¬ s.holds h
  | .submit h .x5 => ¬ s.holds h
  | .teardown (.t4 r i _) => ∃ h a, s.pending r i = some (h, a) ∧ ¬ s.holdsMapped h (ringDir r)
  | _ => False

/-- What an operation that stops leaves as it was. -/
structure StopFrame (s u : State) : Prop where
  frame : u = { s with pool := u.pool, fault := u.fault, rxErr := u.rxErr, txErr := u.txErr }
  pool : u.pool.length = s.pool.length

/-- A micro-step of context `c` whose operation is `t`: the state it leaves and the context's continuation. -/
inductive Micro (c : Ctx) (s : State) : Task → State → Cont → Prop
  | stop {t : Task} {u : State} (h : t.misuses s) (hf : StopFrame s u) : Micro c s t u .stopped
  -- S1 of ACQUIRE, RELEASE, IS_FULL, IS_EMPTY
  | acquired {size h : Nat} (hs : size ≤ s.cfg.bufSize) (hf : s.lowestFree = some h) :
      Micro c s (.acquire size) (s.setBuffer h ⟨.up, BitVec.ofNat 16 size, none⟩) .idle
  | allocFailed {size : Nat} : Micro c s (.acquire size) s .idle
  | released {h : Nat} (hh : s.handleOk h = true) :
      Micro c s (.release h) (s.setBuffer h { s.buffer h with own := .free }) .idle
  | releaseRefused {h : Nat} : Micro c s (.release h) s .idle
  | isFull {r : Ring} : Micro c s (.isFull r) s .idle
  | isEmpty {r : Ring} : Micro c s (.isEmpty r) s .idle
  -- the engines
  | fill {W : RefillPc → Task} {p p' : RefillPc} {u : State} (hW : Fills W) (h : RefillMicro s p u p') :
      Micro c s (W p) u (.running (W p'))
  | filled {W : RefillPc → Task} {n : Nat} {u : State} {k : Cont} (h : AfterFill s n W u k) :
      Micro c s (W (.f9 n)) u k
  | drain {b : Nat} {W : DrainPc → Task} {p p' : DrainPc} {u : State} (hW : Drains b W) (h : DrainMicro s p u p') :
      Micro c s (W p) u (.running (W p'))
  | drained {W : DrainPc → Task} {w : Nat} {u : State} {k : Cont} (h : AfterDrain s w W u k) :
      Micro c s (W (.g9 w)) u k
  | reclaim {W : ReclaimPc → Task} {p p' : ReclaimPc} {u : State} (hW : Reclaims W) (h : ReclaimMicro c s p u p') :
      Micro c s (W p) u (.running (W p'))
  | reclaimRefused {W : ReclaimPc → Task} {k : Cont} (hd : s.life ≠ .up) (h : AfterReclaim W k) :
      Micro c s (W .y2) s.unlock k
  | reclaimed {W : ReclaimPc → Task} {n : Nat} {k : Cont} (h : AfterReclaim W k) : Micro c s (W (.y9 n)) s.unlock k
  -- SUBMIT (R155)
  | submitLocked {h : Nat} (hl : s.txLock = none) : Micro c s (.submit h .x1) (s.lock c) (.running (.submit h .x2))
  | submitUp {h : Nat} (hu : s.life = .up) : Micro c s (.submit h .x2) s (.running (.submit h .x3))
  | submitDown {h : Nat} : Micro c s (.submit h .x2) s.unlock .idle
  | submitBusy {h : Nat} (hf : s.full .tx = true) : Micro c s (.submit h .x3) { s with txStopped := true }.unlock .idle
  | submitRoom {h : Nat} (hf : s.full .tx = false) : Micro c s (.submit h .x3) s (.running (.submit h .x4))
  | submitTaken {h : Nat} (hh : s.handleOk h = true) :
      Micro c s (.submit h .x4) (s.setBuffer h { s.buffer h with own := .eng }) (.running (.submit h .x5))
  | submitBadHandle {h : Nat} : Micro c s (.submit h .x4) s.unlock .idle
  | submitMapped {h : Nat} : Micro c s (.submit h .x5)
      (s.drawMapOk.2.setBuffer h { s.buffer h with map := some .outbound })
      (.running (.submit h (.x6 (xlateOf s.cfg h) .p1)))
  | submitMapFailed {h : Nat} : Micro c s (.submit h .x5)
      (s.drawMapOk.2.setBuffer h { s.buffer h with own := .free }).unlock .idle
  | submitAddress {h : Nat} {a : DAddr} : Micro c s (.submit h (.x6 a .p1))
      (s.descWrite64 (bufferAddr s.cfg .tx s.tx.head) a) (.running (.submit h (.x6 a (.p2 s.tx.head))))
  | submitLength {h i : Nat} {a : DAddr} : Micro c s (.submit h (.x6 a (.p2 i)))
      (s.descWrite32 (lengthAddr s.cfg .tx i) ((s.buffer h).len.setWidth 32)) (.running (.submit h (.x6 a (.p3 i))))
  | submitBarrier {h i : Nat} {a : DAddr} :
      Micro c s (.submit h (.x6 a (.p3 i))) s (.running (.submit h (.x6 a (.p4 i))))
  | submitStatus {h i : Nat} {a : DAddr} : Micro c s (.submit h (.x6 a (.p4 i)))
      (s.descWrite32 (statusAddr s.cfg .tx i) txArmedStatus) (.running (.submit h (.x7 a i)))
  | submitRecorded {h i : Nat} {a : DAddr} : Micro c s (.submit h (.x7 a i))
      (s.setPending .tx i (some (h, a))) (.running (.submit h (.x8 i)))
  | submitAdvanced {h i : Nat} : Micro c s (.submit h (.x8 i))
      (s.setHead .tx (nextIndex i s.cfg.nTx)) (.running (.submit h .x9))
  | submitKicked {h : Nat} : Micro c s (.submit h .x9) s.kickTransmit (.running (.submit h .x10))
  | submitted {h : Nat} : Micro c s (.submit h .x10) s.unlock .idle
  -- IRQ (R170)
  | irqRead : Micro c s (.irq .i1) { s with isrLatch := s.regRead32 .isr } (.running (.irq (.i2 (s.regRead32 .isr))))
  | irqNotMine {v : Word} : Micro c s (.irq (.i2 v)) s .idle
  | irqMine {v : Word} : Micro c s (.irq (.i2 v)) s (.running (.irq (.i3 v)))
  | irqSchedule {v : Word} : Micro c s (.irq (.i3 v)) (s.schedulePoll v) (.running (.irq (.i4 v)))
  | irqReclaim {v : Word} : Micro c s (.irq (.i4 v)) s (.running (.irq (.i4r v .y1)))
  | irqNoReclaim {v : Word} : Micro c s (.irq (.i4 v)) s (.running (.irq (.i5 v)))
  | irqLink {v : Word} {b : Bool} : Micro c s (.irq (.i5 v)) (s.reportIf b .link) (.running (.irq (.i6 v)))
  | irqErr {v : Word} {b : Bool} : Micro c s (.irq (.i6 v)) (s.reportIf b .err) (.running (.irq (.i7 v)))
  | irqAck {v : Word} : Micro c s (.irq (.i7 v)) (s.regWrite32 .isr v) (.running (.irq .i8))
  | irqDone : Micro c s (.irq .i8) s .idle
  -- POLL (R173)
  | pollRearm {b w : Nat} {x : Bool} :
      Micro c s (.poll b (.l3 w)) { s with pollSched := x } (.running (.poll b (.l4 w)))
  | polled {b w : Nat} : Micro c s (.poll b (.l4 w)) { s with pollRunning := false } .idle
  -- BRINGUP (R185, R186)
  | resetAsked : Micro c s (.bringup .h1) (s.regWrite32 .reset 1) (.running (.bringup (.h3 0)))
  | resetPending {k : Nat} (ha : s.answerReset.rst.getLsbD 0 = true) :
      Micro c s (.bringup (.h3 k)) s.answerReset (.running (.bringup (.h3 (k + 1))))
  | resetTimedOut {k : Nat} : Micro c s (.bringup (.h3 k)) s.answerReset .idle
  | resetAcked {k : Nat} (ha : s.answerReset.rst.getLsbD 0 = false) :
      Micro c s (.bringup (.h3 k)) s.answerReset (.running (.bringup (.b2 .rx 0 .addr)))
  | slotCleared {r : Ring} {i : Nat} {q : ClearPc} : Micro c s (.bringup (.b2 r i q)) (s.clearSlot r i q)
      (.running (.bringup (clearNext s.cfg r i q)))
  | latchesCleared : Micro c s (.bringup .b3) s.clearLatches (.running (.bringup (.b4 (.f1 0))))
  | broughtUp {n : Nat} : Micro c s (.bringup (.b5 n)) { s with life := .up } .idle
  -- TEARDOWN (R187)
  | alreadyDown : Micro c s (.teardown .t1) s .idle
  | teardownUp (hu : s.life = .up) : Micro c s (.teardown .t1) s (.running (.teardown .t2))
  | teardownLocked (hl : s.txLock = none) : Micro c s (.teardown .t2) (s.lock c) (.running (.teardown .t3))
  | tornDown (hp : s.pollRunning = false) : Micro c s (.teardown .t3) { s with life := .down, pollSched := false }
      (.running (.teardown (.t4 .rx 0 0)))
  | slotFreed {r : Ring} {i k h : Nat} {a : DAddr} (hp : s.pending r i = some (h, a)) :
      Micro c s (.teardown (.t4 r i k))
        ((s.setBuffer h { s.buffer h with own := .free, map := none }).setPending r i none)
        (.running (.teardown (drainNext s.cfg r i (k + 1))))
  | slotEmpty {r : Ring} {i k : Nat} (hp : s.pending r i = none) : Micro c s (.teardown (.t4 r i k)) s
      (.running (.teardown (drainNext s.cfg r i k)))
  | indicesZeroed {k : Nat} : Micro c s (.teardown (.t5 k)) { s.zeroIndices with txStopped := false }
      (.running (.teardown (.t6 k)))
  | toreDown {k : Nat} : Micro c s (.teardown (.t6 k)) s.unlock .idle

/-! ## The relations say what the functions do -/

/-- The outcome of an engine's micro-step, by the relation of its labels. -/
def Next.Meets {π ρ : Type} (s : State) (goes : State → π → Prop) (returns : State → ρ → Prop) (holds : Prop)
    (misuses : Prop) : State × Next π ρ → Prop
  | (u, .goto p) => goes u p
  | (u, .ret r) => returns u r
  | (_, .hold) => holds
  | (u, .stop) => misuses ∧ StopFrame s u

theorem stopFrame_raise (s : State) (f : Fault) : StopFrame s (s.raise f) := ⟨by cases f <;> rfl, by simp⟩

theorem State.mapBuffer_of_holds {s : State} {h : Nat} (d : Dir) (hh : s.holds h) :
    s.mapBuffer h d = if s.drawMapOk.1
      then .address (xlateOf s.cfg h) (s.drawMapOk.2.setBuffer h { s.buffer h with map := some d })
      else .failure s.drawMapOk.2 := if_pos hh

theorem State.mapBuffer_of_not_holds {s : State} {h : Nat} (d : Dir) (hh : ¬ s.holds h) :
    s.mapBuffer h d = .misuse := if_neg hh

theorem State.poolRelease_of_holds {s : State} {h : Nat} (hh : s.holds h) :
    s.poolRelease h = some (s.setBuffer h { s.buffer h with own := .free }) := if_pos hh

theorem State.poolRelease_of_not_holds {s : State} {h : Nat} (hh : ¬ s.holds h) : s.poolRelease h = none := if_neg hh

theorem State.drawMapOk_frame (s : State) :
    s.drawMapOk.2 = { s with draws := s.drawMapOk.2.draws, tick := s.drawMapOk.2.tick } := by
  unfold State.drawMapOk
  split <;> rfl

@[simp] theorem State.drawMapOk_cfg (s : State) : s.drawMapOk.2.cfg = s.cfg := by rw [State.drawMapOk_frame]

@[simp] theorem State.drawMapOk_pool (s : State) : s.drawMapOk.2.pool = s.pool := by rw [State.drawMapOk_frame]

@[simp] theorem State.drawMapOk_buffer (s : State) (h : Nat) : s.drawMapOk.2.buffer h = s.buffer h := by
  simp only [State.buffer, State.drawMapOk_pool]

@[simp] theorem State.drawMapOk_holds (s : State) (h : Nat) : s.drawMapOk.2.holds h ↔ s.holds h := by
  simp only [State.holds, State.drawMapOk_cfg, State.drawMapOk_buffer]

/-- Only the pool's buffers are held. -/
theorem State.lt_of_own {s : State} {h : Nat} (hh : (s.buffer h).own ≠ .free) : h < s.pool.length := by
  by_contra hlt
  exact hh (by simp [State.buffer, hlt])

/-- The state in which RECLAIM and TEARDOWN have unmapped a buffer. -/
theorem State.unmapBuffer_of_holdsMapped {s : State} {h : Nat} {d : Dir} (hh : s.holdsMapped h d) :
    s.unmapBuffer h d = some (s.setBuffer h { s.buffer h with map := none }) := if_pos ⟨hh.1, hh.2.2⟩

theorem State.holds_unmapped {s : State} {h : Nat} {d : Dir} (hh : s.holdsMapped h d) :
    (s.setBuffer h { s.buffer h with map := none }).holds h := by
  obtain ⟨hlt, hown, -⟩ := hh
  simp only [State.holds, State.setBuffer_cfg, s.buffer_setBuffer_same _ (State.lt_of_own hown)]
  exact ⟨hlt, hown, trivial⟩

/-- A buffer unmapped and then released. -/
theorem State.release_unmapped {s : State} {h : Nat} {d : Dir} (hh : s.holdsMapped h d) :
    (s.setBuffer h { s.buffer h with map := none }).poolRelease h
      = some (s.setBuffer h { s.buffer h with own := .free, map := none }) := by
  rw [State.poolRelease_of_holds (State.holds_unmapped hh), State.setBuffer_setBuffer,
    s.buffer_setBuffer_same _ (State.lt_of_own hh.2.1)]

/-- Where a buffer can be unmapped but not then released, it was not held and mapped. -/
theorem State.holdsMapped_of_holds {s u : State} {h : Nat} {d : Dir} (hu : s.unmapBuffer h d = some u)
    (hh : u.holds h) : s.holdsMapped h d := by
  obtain ⟨hlt, hmap, rfl⟩ := State.unmapBuffer_eq_some hu
  refine ⟨hlt, fun hown => hh.2.1 ?_, hmap⟩
  rw [State.buffer_setBuffer]
  split <;> exact hown

theorem stopFrame_unmapBuffer {s u : State} {h : Nat} {d : Dir} (hu : s.unmapBuffer h d = some u) (e : Word) :
    StopFrame s ({ u with txErr := e }.raise .pool) := by
  obtain ⟨-, -, rfl⟩ := State.unmapBuffer_eq_some hu
  exact ⟨rfl, by simp⟩

theorem orPoolFault_some {π ρ : Type} {s u : State} {o : Option State} (k : State → State × Next π ρ)
    (h : o = some u) : orPoolFault s o k = k u := by rw [h, orPoolFault]

theorem orPoolFault_none {π ρ : Type} {s : State} {o : Option State} (k : State → State × Next π ρ)
    (h : o = none) : orPoolFault s o k = (s.raise .pool, .stop) := by rw [h, orPoolFault]

/-- What Y5 does (R156). -/
theorem State.reclaimBuffer_meets (s : State) (st : Word) (h : Nat) (p : ReclaimPc) :
    (s.holdsMapped h .outbound ∧ ∃ e, s.reclaimBuffer st h (fun u => (u, .goto p))
        = ({ s with txErr := e }.setBuffer h { s.buffer h with own := .free, map := none }, .goto p))
      ∨ (¬ s.holdsMapped h .outbound ∧ ∃ u, StopFrame s u ∧ s.reclaimBuffer st h (fun u => (u, .goto p)) = (u, .stop)) := by
  have hcount (u : State) : (if errBit st then { u with txErr := bump u.txErr } else u)
      = { u with txErr := if errBit st then bump u.txErr else u.txErr } := by split <;> rfl
  simp only [State.reclaimBuffer, hcount]
  by_cases hh : s.holdsMapped h .outbound
  · refine .inl ⟨hh, if errBit st then bump s.txErr else s.txErr, ?_⟩
    rw [State.unmapBuffer_of_holdsMapped hh]
    have hr := State.release_unmapped (s := { s with txErr := if errBit st then bump s.txErr else s.txErr }) hh
    exact orPoolFault_some _ hr
  · refine .inr ⟨hh, ?_⟩
    cases hu : s.unmapBuffer h .outbound with
    | none => exact ⟨_, stopFrame_raise .., rfl⟩
    | some u =>
      have hr : State.poolRelease { u with txErr := if errBit st then bump u.txErr else u.txErr } h = none :=
        State.poolRelease_of_not_holds fun hu' => hh (State.holdsMapped_of_holds hu hu')
      exact ⟨_, stopFrame_unmapBuffer hu _, orPoolFault_none _ hr⟩

theorem refillStep_meets (p : RefillPc) (s : State) :
    Next.Meets s (RefillMicro s p) (fun u n => p = .f9 n ∧ u = s) False (p.misuses s) (refillStep p s) := by
  cases p with
  | f1 n =>
    simp only [refillStep]
    split
    · exact .full ‹_›
    · rename_i hf
      exact .room (Bool.not_eq_true _ ▸ hf)
  | f2 n =>
    simp only [refillStep]
    split
    · rename_i h u hu
      obtain ⟨-, hf, rfl⟩ := State.poolAcquire_eq_some hu
      exact .acquired hf
    · exact .exhausted
  | f3 n h =>
    simp only [refillStep]
    by_cases hh : s.holds h
    · rw [State.mapBuffer_of_holds _ hh]
      split
      · rename_i heq
        split at heq <;> cases heq
      · rename_i heq
        split at heq <;> cases heq
        rw [State.poolRelease_of_holds (by simpa using hh), State.drawMapOk_buffer]
        exact .mapFailed
      · rename_i heq
        split at heq <;> cases heq
        exact .mapped
    · rw [State.mapBuffer_of_not_holds _ hh]
      exact ⟨hh, stopFrame_raise ..⟩
  | f4 n h a q =>
    cases q with
    | p1 => exact .address
    | p2 i => exact .length
    | p3 i => exact .barrier
    | p4 i => exact .status
  | f5 n h a i => exact .recorded
  | f6 n i => exact .advanced
  | f7 n => exact .again
  | f9 n => exact ⟨rfl, rfl⟩

theorem drainStep_meets (b : Nat) (p : DrainPc) (s : State) :
    Next.Meets s (DrainMicro s p) (fun u w => p = .g9 w ∧ u = s) False (p.misuses s) (drainStep b p s) := by
  cases p with
  | g1 w =>
    simp only [drainStep]
    split
    · exact .spent
    · exact .peek
  | g2 w q =>
    cases q with
    | k1 =>
      simp only [drainStep, peekStep]
      cases he : s.empty .rx with
      | true => exact .nothing
      | false =>
        cases ho : ownBit (s.descRead32 (statusAddr s.cfg .rx (s.ring .rx).tail)) with
        | true => exact .nothing
        | false => exact .statusRead he ho
    | k2 i st => exact .lengthRead
  | g3 w st len =>
    simp only [drainStep]
    split
    · exact .entry ‹_›
    · exact .noEntry ‹_›
  | g4 w st len i h =>
    by_cases hh : h < s.cfg.poolSize ∧ (s.buffer h).map = some .inbound
    · rw [drainStep, State.unmapBuffer, if_pos hh]
      exact .unmapped
    · rw [drainStep, State.unmapBuffer, if_neg hh]
      exact ⟨hh, stopFrame_raise ..⟩
  | g5 w st len i h =>
    simp only [drainStep]
    cases he : errBit st || s.tooLong len with
    | true =>
      by_cases hh : s.holds h
      · rw [State.poolRelease_of_holds (s := { s with rxErr := bump s.rxErr }) hh]
        exact .dropped
      · rw [State.poolRelease_of_not_holds (s := { s with rxErr := bump s.rxErr }) hh]
        exact ⟨hh, rfl, rfl⟩
    | false =>
      simp only [Bool.or_eq_false_iff] at he
      exact .delivered he.2
  | g6 w i => exact .cleared
  | g7 w => exact .advanced
  | g8 w => exact .again
  | g9 w => exact ⟨rfl, rfl⟩

theorem reclaimStep_meets (c : Ctx) (p : ReclaimPc) (s : State) :
    Next.Meets s (ReclaimMicro c s p)
      (fun u n => u = s.unlock ∧ ((p = .y2 ∧ s.life ≠ .up) ∨ ∃ k, n = some k ∧ p = .y9 k)) True (p.misuses s)
      (reclaimStep c p s) := by
  cases p with
  | y1 =>
    rw [reclaimStep]
    split
    · rename_i hl
      exact .locked (Option.isNone_iff_eq_none.mp hl)
    · trivial
  | y2 =>
    rw [reclaimStep]
    split
    · exact .entered ‹_›
    · exact ⟨rfl, .inl ⟨rfl, ‹_›⟩⟩
  | y3 f n q =>
    cases q with
    | k1 =>
      simp only [reclaimStep, peekStep]
      cases he : s.empty .tx with
      | true => exact .nothing
      | false =>
        cases ho : ownBit (s.descRead32 (statusAddr s.cfg .tx (s.ring .tx).tail)) with
        | true => exact .nothing
        | false => exact .statusRead he ho
    | k2 i st => exact .lengthRead
  | y4 f n st =>
    simp only [reclaimStep]
    split
    · exact .entry ‹_›
    · exact .noEntry ‹_›
  | y5 f n st i h =>
    rw [reclaimStep]
    obtain ⟨-, e, hx⟩ | ⟨hh, u, hf, hx⟩ := s.reclaimBuffer_meets st h (.y6 f n i)
    · rw [hx]
      exact .freed
    · rw [hx]
      exact ⟨hh, hf⟩
  | y6 f n i => exact .cleared
  | y7 f n => exact .advanced
  | y8 f n => exact .woken
  | y9 n => exact ⟨rfl, .inr ⟨n, rfl, rfl⟩⟩

/-- A micro-step of the operation `t` on context `c` comes to `x`. -/
abbrev TaskMeets (c : Ctx) (s : State) (t : Task) (x : State × Next Task Resp) : Prop :=
  Next.Meets s (fun u t' => Micro c s t u (.running t')) (fun u _ => Micro c s t u .idle) True (t.misuses s) x

theorem poolTask_meets (c : Ctx) (s : State) :
    (∀ size, TaskMeets c s (.acquire size) (acquireStep size s)) ∧ ∀ h, TaskMeets c s (.release h) (releaseStep h s) := by
  constructor
  · intro size
    simp only [acquireStep]
    split
    · rename_i h u hu
      obtain ⟨hs, hf, rfl⟩ := State.poolAcquire_eq_some hu
      exact .acquired hs hf
    · exact .allocFailed
  · intro h
    rw [releaseStep]
    split
    · rename_i hh
      by_cases hr : s.holds h
      · rw [orPoolFault_some _ (State.poolRelease_of_holds hr)]
        exact .released hh
      · rw [orPoolFault_none _ (State.poolRelease_of_not_holds hr)]
        exact ⟨⟨hh, hr⟩, stopFrame_raise ..⟩
    · exact .releaseRefused

theorem refillTask_meets (c : Ctx) (p : RefillPc) (s : State) : TaskMeets c s (.refill p) (refillTask p s) := by
  have h := refillStep_meets p s
  rw [refillTask]
  rcases hx : refillStep p s with ⟨u, p' | n | _ | _⟩ <;> rw [hx] at h
  · exact .fill .refill h
  · obtain ⟨rfl, rfl⟩ := h
    exact .filled .refill
  · trivial
  · exact h

theorem drainTask_meets (c : Ctx) (b : Nat) (p : DrainPc) (s : State) :
    TaskMeets c s (.drain b p) (drainTask b p s) := by
  have h := drainStep_meets b p s
  rw [drainTask]
  rcases hx : drainStep b p s with ⟨u, p' | n | _ | _⟩ <;> rw [hx] at h
  · exact .drain (.drain b) h
  · obtain ⟨rfl, rfl⟩ := h
    exact .drained (.drain b)
  · trivial
  · exact h

theorem reclaimTask_meets (c : Ctx) (p : ReclaimPc) (s : State) :
    TaskMeets c s (.reclaim p) (reclaimTask c p s) := by
  have h := reclaimStep_meets c p s
  rw [reclaimTask]
  rcases hx : reclaimStep c p s with ⟨u, p' | (_ | n) | _ | _⟩ <;> rw [hx] at h
  · exact .reclaim .reclaim h
  · obtain ⟨rfl, ⟨rfl, hd⟩ | ⟨k, hk, -⟩⟩ := h
    · exact .reclaimRefused hd .reclaim
    · cases hk
  · obtain ⟨rfl, ⟨rfl, hd⟩ | ⟨k, -, rfl⟩⟩ := h
    · exact .reclaimRefused hd .reclaim
    · exact .reclaimed .reclaim
  · trivial
  · exact h

theorem submitTask_meets (c : Ctx) (h : Nat) (p : SubmitPc) (s : State) :
    TaskMeets c s (.submit h p) (submitTask c h p s) := by
  cases p with
  | x1 =>
    rw [submitTask]
    split
    · rename_i hl
      exact .submitLocked (Option.isNone_iff_eq_none.mp hl)
    · trivial
  | x2 =>
    rw [submitTask]
    split
    · exact .submitUp ‹_›
    · exact .submitDown
  | x3 =>
    rw [submitTask]
    split
    · exact .submitBusy ‹_›
    · rename_i hf
      exact .submitRoom (Bool.not_eq_true _ ▸ hf)
  | x4 =>
    rw [submitTask]
    split
    · exact .submitTaken ‹_›
    · exact .submitBadHandle
  | x5 =>
    rw [submitTask]
    by_cases hh : s.holds h
    · rw [State.mapBuffer_of_holds _ hh]
      split
      · rename_i heq
        split at heq <;> cases heq
      · rename_i heq
        split at heq <;> cases heq
        rw [State.poolRelease_of_holds (by simpa using hh), State.drawMapOk_buffer]
        exact .submitMapFailed
      · rename_i heq
        split at heq <;> cases heq
        exact .submitMapped
    · rw [State.mapBuffer_of_not_holds _ hh]
      exact ⟨hh, stopFrame_raise ..⟩
  | x6 a q =>
    cases q with
    | p1 => exact .submitAddress
    | p2 i => exact .submitLength
    | p3 i => exact .submitBarrier
    | p4 i => exact .submitStatus
  | x7 a i => exact .submitRecorded
  | x8 i => exact .submitAdvanced
  | x9 => exact .submitKicked
  | x10 => exact .submitted

theorem irqTask_meets (c : Ctx) (p : IrqPc) (s : State) : TaskMeets c s (.irq p) (irqTask c p s) := by
  cases p with
  | i1 => exact .irqRead
  | i2 v =>
    rw [irqTask]
    split
    · exact .irqNotMine
    · exact .irqMine
  | i3 v => exact .irqSchedule
  | i4 v =>
    rw [irqTask]
    split
    · exact .irqReclaim
    · exact .irqNoReclaim
  | i4r v q =>
    have h := reclaimStep_meets c q s
    rw [irqTask]
    rcases hx : reclaimStep c q s with ⟨u, p' | n | _ | _⟩ <;> rw [hx] at h
    · exact .reclaim (.irq v) h
    · obtain ⟨rfl, ⟨rfl, hd⟩ | ⟨k, -, rfl⟩⟩ := h
      · exact .reclaimRefused hd (.irq v)
      · exact .reclaimed (.irq v)
    · trivial
    · exact h
  | i5 v => exact .irqLink
  | i6 v => exact .irqErr
  | i7 v => exact .irqAck
  | i8 => exact .irqDone

theorem pollTask_meets (c : Ctx) (b : Nat) (p : PollPc) (s : State) : TaskMeets c s (.poll b p) (pollTask b p s) := by
  cases p with
  | l1 q =>
    have h := drainStep_meets b q s
    rw [pollTask]
    rcases hx : drainStep b q s with ⟨u, p' | n | _ | _⟩ <;> rw [hx] at h
    · exact .drain (.poll b) h
    · obtain ⟨rfl, rfl⟩ := h
      exact .drained (.poll b)
    · trivial
    · exact h
  | l2 w q =>
    have h := refillStep_meets q s
    rw [pollTask]
    rcases hx : refillStep q s with ⟨u, p' | n | _ | _⟩ <;> rw [hx] at h
    · exact .fill (.poll b w) h
    · obtain ⟨rfl, rfl⟩ := h
      exact .filled (.poll b w)
    · trivial
    · exact h
  | l3 w => exact .pollRearm
  | l4 w => exact .polled

theorem bringupTask_meets (c : Ctx) (p : BringupPc) (s : State) :
    TaskMeets c s (.bringup p) (bringupTask p s) := by
  cases p with
  | h1 => exact .resetAsked
  | h3 k =>
    rw [bringupTask]
    split
    · split
      · exact .resetTimedOut
      · exact .resetPending ‹_›
    · rename_i ha
      exact .resetAcked (Bool.not_eq_true _ ▸ ha)
  | b2 r i q => exact .slotCleared
  | b3 => exact .latchesCleared
  | b4 q =>
    have h := refillStep_meets q s
    rw [bringupTask]
    rcases hx : refillStep q s with ⟨u, p' | n | _ | _⟩ <;> rw [hx] at h
    · exact .fill .bringup h
    · obtain ⟨rfl, rfl⟩ := h
      exact .filled .bringup
    · trivial
    · exact h
  | b5 n => exact .broughtUp

theorem teardownTask_meets (c : Ctx) (p : TeardownPc) (s : State) :
    TaskMeets c s (.teardown p) (teardownTask c p s) := by
  cases p with
  | t1 =>
    rw [teardownTask]
    split
    · exact .alreadyDown
    · rename_i hd
      exact .teardownUp (by cases hl : s.life <;> simp_all)
  | t2 =>
    rw [teardownTask]
    split
    · rename_i hl
      exact .teardownLocked (Option.isNone_iff_eq_none.mp hl)
    · trivial
  | t3 =>
    rw [teardownTask]
    split
    · trivial
    · rename_i hp
      exact .tornDown (Bool.not_eq_true _ ▸ hp)
  | t4 r i k =>
    rw [teardownTask, teardownSlot]
    split
    · rename_i h a hp
      by_cases hh : s.holdsMapped h (ringDir r)
      · rw [orPoolFault_some _ (State.unmapBuffer_of_holdsMapped hh), orPoolFault_some _ (State.release_unmapped hh)]
        exact .slotFreed hp
      · have hm : Task.misuses s (.teardown (.t4 r i k)) := ⟨h, a, hp, hh⟩
        cases hu : s.unmapBuffer h (ringDir r) with
        | none => exact ⟨hm, stopFrame_raise ..⟩
        | some u =>
          rw [orPoolFault_some _ rfl,
            orPoolFault_none _ (State.poolRelease_of_not_holds fun hu' => hh (State.holdsMapped_of_holds hu hu'))]
          exact ⟨hm, stopFrame_unmapBuffer hu u.txErr⟩
    · exact .slotEmpty ‹_›
  | t5 k => exact .indicesZeroed
  | t6 k => exact .toreDown

theorem taskStep_meets (c : Ctx) (t : Task) (s : State) : TaskMeets c s t (taskStep c t s) := by
  cases t with
  | acquire size => exact (poolTask_meets c s).1 size
  | release h => exact (poolTask_meets c s).2 h
  | isFull r => exact .isFull
  | isEmpty r => exact .isEmpty
  | refill p => exact refillTask_meets c p s
  | drain b p => exact drainTask_meets c b p s
  | submit h p => exact submitTask_meets c h p s
  | reclaim p => exact reclaimTask_meets c p s
  | irq p => exact irqTask_meets c p s
  | poll b p => exact pollTask_meets c b p s
  | bringup p => exact bringupTask_meets c p s
  | teardown p => exact teardownTask_meets c p s

/-- What a context's micro-step can do. -/
theorem microStep_cases {c : Ctx} {s : State} {t : Task} {q : List Word} (hl : s.lane? c = some ⟨.running t, q⟩) :
    microStep c s = s ∨ ∃ u k, Micro c s t u k ∧ Keeps s u
      ∧ (microStep c s = u.setCont c k ∨ ∃ code n, microStep c s = (u.setCont c k).respond c code n) := by
  have h := taskStep_meets c t s
  have hk := keeps_taskStep c t s
  rcases hx : taskStep c t s with ⟨u, t' | ⟨code, n⟩ | _ | _⟩ <;> rw [hx] at h hk
  · exact .inr ⟨u, _, h, hk, .inl (microStep_goto hl hx)⟩
  · exact .inr ⟨u, _, h, hk, .inr ⟨code, n, microStep_ret hl hx⟩⟩
  · exact .inl (microStep_hold hl hx)
  · exact .inr ⟨u, _, .stop h.1 h.2, hk, .inl (microStep_stop hl hx)⟩

end Sys2Proof.Machine
end

section
/-! PROOF. An invariant of the machine is one that the atomic steps keep: a micro-step of a context, the acceptance of a
command, one access or move of the device or of upstream (00_scope R10). Slices, words and draws are outside it. -/

namespace Sys2Proof.Machine

/-! ## What no invariant speaks of -/

/-- `t` differs from `s` only in the waiting words, the events, the draws and the scheduling. -/
structure Unseen (s t : State) : Prop where
  frame : t = { s with
    lanes := t.lanes, hist := t.hist, lineEn := t.lineEn, script := t.script, draws := t.draws, tick := t.tick,
    cur := t.cur, slice := t.slice }
  up : t.lanes.up.length = s.lanes.up.length
  cont : ∀ c, t.cont c = s.cont c

theorem Unseen.trans {s t u : State} (h : Unseen s t) (g : Unseen t u) : Unseen s u := by
  refine ⟨g.frame.trans ?_, g.up.trans h.up, fun c => (g.cont c).trans (h.cont c)⟩
  rw [h.frame]

theorem unseen_of_lanes {s t : State} (hl : t.lanes = s.lanes)
    (h : t = { s with
      hist := t.hist, lineEn := t.lineEn, script := t.script, draws := t.draws, tick := t.tick, cur := t.cur,
      slice := t.slice }) : Unseen s t := by
  refine ⟨by rw [h], by rw [hl], fun c => State.cont_of_lane? (lane?_of_lanes_eq c hl)⟩

theorem unseen_respond (s : State) (c : Ctx) (k : Code) (n : Nat) : Unseen s (s.respond c k n) :=
  unseen_of_lanes rfl rfl

theorem unseen_nextMove (s : State) : Unseen s s.nextMove.2 := by
  unfold State.nextMove
  split <;> exact unseen_of_lanes rfl rfl

theorem unseen_scheduled (s : State) (c : Ctx) (n : Nat) : Unseen s { s with cur := c, slice := n } :=
  unseen_of_lanes rfl rfl

theorem unseen_draws (s : State) (d : Draws) : Unseen s { s with draws := d } := unseen_of_lanes rfl rfl

theorem unseen_line (s : State) (on : Bool) : Unseen s { s with lineEn := on } := unseen_of_lanes rfl rfl

theorem unseen_setQueue (s : State) (c : Ctx) (q : List Word) : Unseen s (s.setQueue c q) := by
  refine ⟨?_, s.up_length_setQueue c q, fun d => s.cont_setQueue c d q⟩
  unfold State.setQueue
  split
  · cases c <;> rfl
  · rfl

theorem unseen_offer (s : State) (c : Ctx) (w : Word) : Unseen s (s.offer c w) :=
  ⟨by rw [State.offer_eq_lanes], s.up_length_offer c w, fun d => s.cont_offer c d w⟩

/-! ## The atomic moves of the device and of upstream -/

/-- One access or move of the device, or one fill by upstream (46_device R195 to R201). -/
inductive DeviceMove (s : State) : State → Prop
  | rxStart (i : Nat) (len : Word) (err : Bool) (bytes : List Byte) : DeviceMove s (s.devRxStart i len err bytes)
  | txStart (i : Nat) (err : Bool) : DeviceMove s (s.devTxStart i err)
  | access (j : Nat) : DeviceMove s (s.devStep j)
  | raise (bits : Word) : DeviceMove s (s.devRaise bits)
  | resetAck (v : Word) : DeviceMove s (s.devResetAck v)
  | fill (k h off : Nat) (bytes : List Byte) : DeviceMove s (s.upstreamFill k h off bytes)

theorem DeviceMove.foreign {s t : State} (h : DeviceMove s t) : Foreign s t := by
  cases h with
  | rxStart i len err bytes => exact foreign_devRxStart ..
  | txStart i err => exact foreign_devTxStart ..
  | access j => exact foreign_devStep ..
  | raise bits => exact ⟨rfl, .of_eq rfl rfl⟩
  | resetAck v => exact foreign_devResetAck ..
  | fill k h off bytes => exact foreign_upstreamFill ..

/-! ## Invariants -/

/-- `P` is kept by every atomic step. -/
structure Invariant (P : State → Prop) : Prop where
  unseen : ∀ {s t : State}, Unseen s t → P s → P t
  accept : ∀ {s s0 : State} {c : Ctx} {i : Instr} {t : Task} {q : List Word}, P s → s.lane? c = some ⟨.idle, q⟩ →
    legalOn i c.port = true → acceptance i s = .start t s0 → P (s0.setCont c (.running t))
  micro : ∀ {s u : State} {c : Ctx} {t : Task} {q : List Word} {k : Cont}, P s → s.lane? c = some ⟨.running t, q⟩ →
    Micro c s t u k → Keeps s u → P (u.setCont c k)
  device : ∀ {s t : State}, P s → DeviceMove s t → P t

section
variable {P : State → Prop} (inv : Invariant P)
include inv

theorem Invariant.microStep {s : State} (c : Ctx) (h : P s) (hr : s.running c = true) : P (microStep c s) := by
  obtain ⟨t, q, hl⟩ := State.lane_of_running hr
  obtain hm | ⟨u, k, hm, hk, hs | ⟨code, n, hs⟩⟩ := microStep_cases hl
  · rwa [hm]
  · rw [hs]
    exact inv.micro h hl hm hk
  · rw [hs]
    exact inv.unseen (unseen_respond ..) (inv.micro h hl hm hk)

theorem Invariant.runFor (c : Ctx) (n : Nat) {s : State} (h : P s) : P (runFor c n s) := by
  induction n generalizing s with
  | zero => exact h
  | succ n ih =>
    cases hr : s.running c with
    | false => rwa [runFor_not_running _ hr]
    | true =>
      rw [runFor_succ_running n hr]
      exact ih (inv.microStep c h hr)

theorem Invariant.devRun (j n : Nat) {s : State} (h : P s) : P (devRun j n s) := by
  induction n generalizing s with
  | zero => exact h
  | succ n ih =>
    have hd : P (s.devStep j) := inv.device h (.access j)
    unfold Machine.devRun
    split
    · exact hd
    · exact ih hd

theorem Invariant.exec {i : Instr} {s t : State} (h : P s) (hx : exec i s = .next t) : P t := by
  rw [exec_eq_issue] at hx
  unfold issue at hx
  split at hx <;> [skip; cases hx]
  split at hx <;> [skip; (cases hx; exact inv.unseen (unseen_offer ..) h)]
  rename_i hi
  split at hx <;> [skip; (cases hx; exact inv.unseen (unseen_respond ..) h)]
  rename_i hlegal
  obtain ⟨q, hq⟩ := State.idle_lane hi
  cases ha : acceptance i s with
  | reject k =>
    rw [ha] at hx
    cases hx
    exact inv.unseen (unseen_respond ..) h
  | start t0 s0 =>
    rw [ha] at hx
    cases hx
    exact inv.runFor _ _ (inv.accept h hq hlegal ha)

theorem Invariant.contextTurn {c : Ctx} {more : Nat} {s t : State} (h : P s) (hx : contextTurn c more s = .done t) :
    P t := by
  obtain ⟨-, rfl⟩ | ⟨-, rfl | ⟨ws, rfl⟩⟩ := contextTurn_done hx
  · exact inv.runFor _ _ h
  · exact h
  · exact inv.unseen ((unseen_setQueue s c ws).trans (unseen_respond ..)) h

theorem Invariant.moveTurn {m : Move} {s t : State} (h : P s) (hx : moveTurn m s = .done t) : P t := by
  cases m with
  | run c more => exact inv.contextTurn (inv.unseen (unseen_scheduled s c more) h) hx
  | offer c w => cases hx; exact inv.unseen (unseen_offer ..) h
  | rxComplete i len err bytes => cases hx; exact inv.device h (.rxStart ..)
  | txComplete i err => cases hx; exact inv.device h (.txStart ..)
  | device j more => cases hx; exact inv.devRun _ _ h
  | raise bits => cases hx; exact inv.device h (.raise bits)
  | resetAck v => cases hx; exact inv.device h (.resetAck v)
  | fill k g off bytes => cases hx; exact inv.device h (.fill ..)
  | line on => cases hx; exact inv.unseen (unseen_line ..) h
  | _ => cases hx; exact inv.unseen (unseen_draws ..) h

/-- What every atomic step keeps, every step keeps. -/
theorem Invariant.step {s t : State} (h : P s) (hx : step s = .next t) : P t := by
  have hnext := inv.unseen (unseen_nextMove s) h
  obtain ⟨-, ⟨i, u, hu, hx⟩ | hd⟩ := step_eq_next hx
  · obtain ⟨c, more, -, hc⟩ := moveTurn_command hu
    obtain ⟨w, ws, -, -, rfl⟩ := contextTurn_command hc
    exact inv.exec (inv.unseen ((unseen_scheduled _ c more).trans (unseen_setQueue _ c ws)) hnext) hx
  · exact inv.moveTurn hnext hd

end

end Sys2Proof.Machine
end

section
/-! PROOF. The shape of the state is kept (10_state R22, R23, R29, R31, R38, R40). -/

namespace Sys2Proof.Machine

/-! ## Shape, by ring -/

theorem State.Shaped.pend {s : State} (h : s.Shaped) (r : Ring) : (s.ring r).pend.length = ringSize s.cfg r := by
  cases r
  · exact h.rxPend
  · exact h.txPend

theorem State.Shaped.head {s : State} (h : s.Shaped) (r : Ring) : (s.ring r).head < ringSize s.cfg r := by
  cases r
  · exact h.rxHead
  · exact h.txHead

theorem State.Shaped.tail {s : State} (h : s.Shaped) (r : Ring) : (s.ring r).tail < ringSize s.cfg r := by
  cases r
  · exact h.rxTail
  · exact h.txTail

theorem State.Shaped.size_pos {s : State} (h : s.Shaped) (r : Ring) : 0 < ringSize s.cfg r :=
  (Nat.zero_le _).trans_lt (h.head r)

/-! ## What the shape is about -/

/-- The part of the state whose shape is kept. -/
def State.shape (s : State) : Config × Nat × RingRegs × RingRegs × Nat × Memory × Memory × Word × Word :=
  (s.cfg, s.pool.length, s.rx, s.tx, s.lanes.up.length, s.desc, s.buf, s.isr, s.rst)

theorem State.Shaped.of_shape {s t : State} (h : s.Shaped) (hs : t.shape = s.shape) : t.Shaped := by
  simp only [State.shape, Prod.mk.injEq] at hs
  obtain ⟨hcfg, hpool, hrx, htx, hup, hdesc, hbuf, hisr, hrst⟩ := hs
  constructor
  · rw [hpool, hcfg, h.pool]
  · rw [hrx, hcfg, h.rxPend]
  · rw [htx, hcfg, h.txPend]
  · rw [hup, hcfg, h.up]
  · rw [hrx, hcfg]; exact h.rxHead
  · rw [hrx, hcfg]; exact h.rxTail
  · rw [htx, hcfg]; exact h.txHead
  · rw [htx, hcfg]; exact h.txTail
  · rw [hdesc]; exact h.desc
  · rw [hbuf]; exact h.buf
  · rw [hisr, hcfg]; exact h.isr
  · rw [hrst]; exact h.rst

section
variable {s : State} (h : s.Shaped)
include h

theorem State.Shaped.setCont (c : Ctx) (k : Cont) : (s.setCont c k).Shaped :=
  h.of_shape (by simp [State.shape, State.up_length_setCont])

theorem State.Shaped.setBuffer (j : Nat) (e : PoolEntry) : (s.setBuffer j e).Shaped :=
  h.of_shape (by simp [State.shape])

theorem State.Shaped.setRing (r : Ring) {x : RingRegs} (hp : x.pend.length = ringSize s.cfg r)
    (hh : x.head < ringSize s.cfg r) (ht : x.tail < ringSize s.cfg r) : (s.setRing r x).Shaped := by
  cases r
  · exact ⟨h.pool, hp, h.txPend, h.up, hh, ht, h.txHead, h.txTail, h.desc, h.buf, h.isr, h.rst⟩
  · exact ⟨h.pool, h.rxPend, hp, h.up, h.rxHead, h.rxTail, hh, ht, h.desc, h.buf, h.isr, h.rst⟩

theorem State.Shaped.setPending (r : Ring) (i : Nat) (e : Option (Nat × DAddr)) : (s.setPending r i e).Shaped :=
  h.setRing r (by simp [h.pend r]) (h.head r) (h.tail r)

theorem State.Shaped.setHead (r : Ring) {i : Nat} (hi : i < ringSize s.cfg r) : (s.setHead r i).Shaped :=
  h.setRing r (h.pend r) hi (h.tail r)

theorem State.Shaped.setTail (r : Ring) {i : Nat} (hi : i < ringSize s.cfg r) : (s.setTail r i).Shaped :=
  h.setRing r (h.pend r) (h.head r) hi

theorem State.Shaped.descWrite32 (a : Nat) (v : Word) : (s.descWrite32 a v).Shaped :=
  ⟨h.pool, h.rxPend, h.txPend, h.up, h.rxHead, h.rxTail, h.txHead, h.txTail, State.descWrite32_wf a v h.desc, h.buf,
    h.isr, h.rst⟩

theorem State.Shaped.descWrite64 (a : Nat) (v : DAddr) : (s.descWrite64 a v).Shaped :=
  ⟨h.pool, h.rxPend, h.txPend, h.up, h.rxHead, h.rxTail, h.txHead, h.txTail, State.descWrite64_wf a v h.desc, h.buf,
    h.isr, h.rst⟩

theorem State.Shaped.bufWrite (j o : Nat) (bs : List Byte) : (s.bufWrite j o bs).Shaped :=
  ⟨h.pool, h.rxPend, h.txPend, h.up, h.rxHead, h.rxTail, h.txHead, h.txTail, h.desc, State.bufWrite_wf j o bs h.buf,
    h.isr, h.rst⟩

theorem State.Shaped.setIsr {v : Word} (hv : v &&& ~~~recognized s.cfg = 0) : { s with isr := v }.Shaped :=
  ⟨h.pool, h.rxPend, h.txPend, h.up, h.rxHead, h.rxTail, h.txHead, h.txTail, h.desc, h.buf, hv, h.rst⟩

theorem State.Shaped.setRst {v : Word} (hv : v = 0 ∨ v = 1) : { s with rst := v }.Shaped :=
  ⟨h.pool, h.rxPend, h.txPend, h.up, h.rxHead, h.rxTail, h.txHead, h.txTail, h.desc, h.buf, h.isr, hv⟩

theorem State.Shaped.raise (f : Fault) : (s.raise f).Shaped := h.of_shape (by simp [State.shape])

theorem State.Shaped.drawMapOk : s.drawMapOk.2.Shaped := by
  rw [State.drawMapOk_frame]
  exact h.of_shape rfl

theorem State.Shaped.devResetAck (v : Word) : (s.devResetAck v).Shaped := by
  unfold State.devResetAck
  split
  · have hr : s.rst &&& ~~~1#32 = 0 ∨ s.rst &&& ~~~1#32 = 1 := by
      obtain hr | hr := h.rst <;> simp [hr]
    exact ((h.setRst hr).setIsr (v := v &&& recognized s.cfg) (by simp [BitVec.and_assoc])).of_shape rfl
  · exact h

end

theorem State.drawRstAck_frame (s : State) :
    s.drawRstAck.2 = { s with draws := s.drawRstAck.2.draws, tick := s.drawRstAck.2.tick } := by
  unfold State.drawRstAck
  split <;> rfl

theorem State.drawAckIsr_frame (s : State) :
    s.drawAckIsr.2 = { s with draws := s.drawAckIsr.2.draws, tick := s.drawAckIsr.2.tick } := by
  unfold State.drawAckIsr
  split <;> rfl

/-- H2's read finds no acknowledge, or it is the acknowledge of R199 (R186). -/
theorem State.answerReset_cases (s : State) :
    ∃ (d : Draws) (n : Nat), s.answerReset = { s with draws := d, tick := n }
      ∨ ∃ v, s.answerReset = State.devResetAck { s with draws := d, tick := n } v := by
  unfold State.answerReset
  split <;> [split; exact ⟨s.draws, s.tick, .inl rfl⟩]
  · rw [State.drawAckIsr_frame, State.drawRstAck_frame]
    exact ⟨_, _, .inr ⟨_, rfl⟩⟩
  · rw [State.drawRstAck_frame]
    exact ⟨_, _, .inl rfl⟩

theorem State.Shaped.answerReset {s : State} (h : s.Shaped) : s.answerReset.Shaped := by
  obtain ⟨d, n, hs | ⟨v, hs⟩⟩ := s.answerReset_cases <;> rw [hs]
  · exact h.of_shape rfl
  · exact State.Shaped.devResetAck (s := { s with draws := d, tick := n }) (h.of_shape rfl) v

/-! ## A micro-step -/

theorem shaped_refill {s u : State} {p p' : RefillPc} (h : s.Shaped) (hm : RefillMicro s p u p') : u.Shaped := by
  cases hm with
  | acquired hf => exact h.setBuffer ..
  | mapped => exact h.drawMapOk.setBuffer ..
  | mapFailed => exact h.drawMapOk.setBuffer ..
  | address => exact h.descWrite64 ..
  | length => exact h.descWrite32 ..
  | status => exact h.descWrite32 ..
  | recorded => exact h.setPending ..
  | advanced => exact h.setHead .rx (nextIndex_lt _ (h.size_pos .rx))
  | _ => exact h

theorem shaped_drain {s u : State} {p p' : DrainPc} (h : s.Shaped) (hm : DrainMicro s p u p') : u.Shaped := by
  cases hm with
  | noEntry hp => exact h.raise _
  | unmapped => exact h.setBuffer ..
  | dropped => exact (h.setBuffer ..).of_shape rfl
  | delivered hlen => exact (h.setBuffer ..).of_shape rfl
  | cleared => exact h.setPending ..
  | advanced => exact h.setTail .rx (nextIndex_lt _ (h.size_pos .rx))
  | _ => exact h

theorem shaped_reclaim {c : Ctx} {s u : State} {p p' : ReclaimPc} (h : s.Shaped) (hm : ReclaimMicro c s p u p') :
    u.Shaped := by
  cases hm with
  | locked hl => exact h.of_shape rfl
  | noEntry hp => exact h.raise _
  | freed => exact (h.setBuffer ..).of_shape rfl
  | cleared => exact h.setPending ..
  | advanced => exact h.setTail .tx (nextIndex_lt _ (h.size_pos .tx))
  | woken =>
    unfold State.wakeIf
    split
    · exact h.of_shape rfl
    · exact h
  | _ => exact h

theorem State.Shaped.clearSlot {s : State} (h : s.Shaped) (r : Ring) (i : Nat) (q : ClearPc) :
    (s.clearSlot r i q).Shaped := by
  cases q with
  | addr => exact h.descWrite64 ..
  | len => exact h.descWrite32 ..
  | status => exact (h.descWrite32 ..).setPending ..

theorem State.Shaped.zeroIndices {s : State} (h : s.Shaped) : s.zeroIndices.Shaped :=
  ⟨h.pool, h.rxPend, h.txPend, h.up, h.size_pos .rx, h.size_pos .rx, h.size_pos .tx, h.size_pos .tx, h.desc, h.buf,
    h.isr, h.rst⟩

theorem shaped_micro {c : Ctx} {s u : State} {t : Task} {k : Cont} (h : s.Shaped) (hm : Micro c s t u k) :
    u.Shaped := by
  cases hm with
  | stop hx hf =>
    refine h.of_shape ?_
    rw [hf.frame, State.shape, hf.pool]
    rfl
  | acquired hs hf => exact h.setBuffer ..
  | released hh => exact h.setBuffer ..
  | fill hW hx => exact shaped_refill h hx
  | filled hx => cases hx <;> exact h.of_shape rfl
  | drain hW hx => exact shaped_drain h hx
  | drained hx => cases hx <;> exact h.of_shape rfl
  | reclaim hW hx => exact shaped_reclaim h hx
  | submitTaken hh => exact h.setBuffer ..
  | submitMapped => exact h.drawMapOk.setBuffer ..
  | submitMapFailed => exact (h.drawMapOk.setBuffer ..).of_shape rfl
  | submitAddress => exact h.descWrite64 ..
  | submitLength => exact h.descWrite32 ..
  | submitStatus => exact h.descWrite32 ..
  | submitRecorded => exact h.setPending ..
  | submitAdvanced => exact h.setHead .tx (nextIndex_lt _ (h.size_pos .tx))
  | irqSchedule =>
    unfold State.schedulePoll
    split
    · exact h.of_shape rfl
    · exact h
  | irqLink =>
    unfold State.reportIf
    split
    · exact h.of_shape rfl
    · exact h
  | irqErr =>
    unfold State.reportIf
    split
    · exact h.of_shape rfl
    · exact h
  | irqAck =>
    refine h.setIsr ?_
    rw [BitVec.and_assoc, BitVec.and_comm (~~~_), ← BitVec.and_assoc, h.isr]
    exact BitVec.zero_and
  | resetAsked => exact h.setRst (.inr rfl)
  | resetPending ha => exact h.answerReset
  | resetTimedOut => exact h.answerReset
  | resetAcked ha => exact h.answerReset
  | slotCleared => exact h.clearSlot ..
  | latchesCleared => exact h.zeroIndices.of_shape rfl
  | slotFreed hp => exact (h.setBuffer ..).setPending ..
  | indicesZeroed => exact h.zeroIndices.of_shape rfl
  | _ => exact h.of_shape rfl

/-! ## The device and upstream -/

theorem State.Shaped.devMemWrite {s : State} (h : s.Shaped) (da : Nat) (v : Byte) : (s.devMemWrite da v).Shaped := by
  unfold State.devMemWrite
  split <;> [split; skip]
  · exact h.bufWrite ..
  · exact h.raise _
  · exact h.raise _

theorem shaped_devOpStep {s : State} (h : s.Shaped) (o : DevOp) : (devOpStep o s).1.Shaped := by
  cases o with
  | rx i len err bytes seed p =>
    cases p with
    | v2 st cap a k =>
      simp only [devOpStep, devRxStep]
      split
      · exact h.devMemWrite ..
      · exact h
    | v3 st => exact h.descWrite32 ..
    | v4 st => exact h.descWrite32 ..
    | _ => exact h
  | tx i err p =>
    cases p with
    | w2 st len a b =>
      simp only [devOpStep, devTxStep]
      split <;> [split; skip]
      · exact h
      · exact (h.raise .dmaUnmapped).of_shape rfl
      · exact h.of_shape rfl
    | w3 st => exact h.descWrite32 ..
    | _ => exact h

theorem State.Shaped.devStep {s : State} (h : s.Shaped) (j : Nat) : (s.devStep j).Shaped := by
  unfold State.devStep
  split <;> [split; exact h]
  · rename_i o _
    have ho := shaped_devOpStep h o
    split <;> rename_i hx <;> rw [hx] at ho <;> exact ho.of_shape rfl
  · exact h

theorem shaped_device {s t : State} (h : s.Shaped) (hd : DeviceMove s t) : t.Shaped := by
  cases hd with
  | rxStart i len err bytes =>
    unfold State.devRxStart
    split
    · exact h.of_shape rfl
    · exact h
  | txStart i err =>
    unfold State.devTxStart
    split
    · exact h.of_shape rfl
    · exact h
  | access j => exact h.devStep j
  | raise bits =>
    refine h.setIsr ?_
    rw [BitVec.and_comm, BitVec.and_or_distrib_left, BitVec.and_comm, h.isr]
    simp [BitVec.and_comm bits, ← BitVec.and_assoc]
  | resetAck v => exact h.devResetAck v
  | fill k g off bytes =>
    unfold State.upstreamFill
    split
    · exact h.bufWrite ..
    · exact h

theorem shaped_invariant : Invariant State.Shaped where
  unseen hu h := h.of_shape (by rw [State.shape, hu.up, hu.frame]; rfl)
  accept {s _ _ _ _ _} h _ _ ha := by
    obtain ⟨rfl, b, rfl⟩ := acceptance_start ha
    have h0 : State.Shaped { s with pollRunning := b } := h.of_shape rfl
    exact h0.setCont ..
  micro h _ hm _ := (shaped_micro h hm).setCont ..
  device := shaped_device

/-- Settles O16: every named update keeps the shape, so every atomic step does. -/
theorem shapeKept : Obligations.ShapeKept := fun _ _ => shaped_invariant.step

end Sys2Proof.Machine
end

section
/-! PROOF. Mutual exclusion is kept: `tx_lock`, `poll_running`, and what `life` an operation needs (10_state R34, R36,
20_memory R75, R76, 45_lifecycle R190, 60_exceptions R225). -/

namespace Sys2Proof.Machine

/-! ## Continuations after one was set -/

theorem State.cont_setCont_same (s : State) {c : Ctx} {l : Lane} (k : Cont) (h : s.lane? c = some l) :
    (s.setCont c k).cont c = k := State.cont_of_lane (s.lane?_setCont_same k h)

theorem State.cont_setCont_other (s : State) {c d : Ctx} (k : Cont) (h : d ≠ c) :
    (s.setCont c k).cont d = s.cont d := State.cont_of_lane? (s.lane?_setCont_other k h)

theorem State.task?_of_cont {s : State} {c : Ctx} {t : Task} : s.task? c = some t ↔ s.cont c = .running t := by
  simp only [State.task?]
  split <;> simp_all

/-! ## The resources that exclude -/

/-- What mutual exclusion is about, beside the contexts. -/
def State.resources (s : State) : Option Ctx × Bool × Life := (s.txLock, s.pollRunning, s.life)

/-- The port of an operation that only one port may issue (R94). -/
def Task.port? : Task → Option Port
  | .acquire _ | .release _ | .submit _ _ => some .up
  | .isFull _ | .isEmpty _ => none
  | .refill _ | .drain _ _ | .reclaim _ | .poll _ _ => some .poll
  | .irq _ => some .irq
  | .bringup _ | .teardown _ => some .drv

theorem Task.fits_iff (t : Task) (c : Ctx) : t.fits c = true ↔ ∀ p, t.port? = some p → c.port = p := by
  cases t <;> cases c <;> simp [Task.fits, Task.port?, Ctx.port]

/-- How an operation stands to them. -/
def Task.role (t : Task) : Option Port × Bool × Bool × Bool × Bool :=
  (t.port?, t.locked, t.polls, t.needsUp, t.needsDown)

theorem Task.fits_of_port {t t' : Task} {c : Ctx} (h : t'.port? = t.port?) (ht : t.fits c = true) : t'.fits c = true := by
  rw [Task.fits_iff] at ht ⊢
  rwa [h]

/-- The continuation is an operation in progress of which `p` holds. -/
def Cont.runs (p : Task → Bool) : Cont → Bool
  | .running t => p t
  | _ => false

theorem Cont.runs_iff {p : Task → Bool} {k : Cont} : k.runs p = true ↔ ∃ t, k = .running t ∧ p t = true := by
  cases k <;> simp [Cont.runs]

/-- How context `c`, going on from the continuation `k₀` to `k`, treats them: it keeps the lock and `poll_running` as it
keeps its claims to them, or takes one that is free, or gives one up; `life` changes at TEARDOWN's T3 and BRINGUP's B5. -/
structure Discipline (c : Ctx) (s : State) (k₀ : Cont) (u : State) (k : Cont) : Prop where
  fits : ∀ t', k = .running t' → t'.fits c = true
  lock : (u.txLock = s.txLock ∧ (k = .stopped ∨ k.runs Task.locked = k₀.runs Task.locked))
    ∨ (s.txLock = none ∧ u.txLock = some c ∧ k.runs Task.locked = true)
    ∨ (k₀.runs Task.locked = true ∧ u.txLock = none ∧ k.runs Task.locked = false)
  poll : (u.pollRunning = s.pollRunning ∧ (k = .stopped ∨ k.runs Task.polls = k₀.runs Task.polls))
    ∨ (s.pollRunning = false ∧ u.pollRunning = true ∧ k.runs Task.polls = true)
    ∨ (k₀.runs Task.polls = true ∧ u.pollRunning = false ∧ k.runs Task.polls = false)
  life : (u.life = s.life ∧ (k.runs Task.needsUp = true → s.life = .up) ∧ (k.runs Task.needsDown = true → s.life = .down))
    ∨ (k₀ = .running (.teardown .t3) ∧ s.pollRunning = false ∧ u.life = .down ∧ k.runs Task.needsUp = false)
    ∨ ((∃ n, k₀ = .running (.bringup (.b5 n))) ∧ u.life = .up ∧ k = .idle)

/-- What `Exclusive` says of the operation that takes the micro-step. -/
structure Task.Allowed (t : Task) (c : Ctx) (s : State) : Prop where
  fits : t.fits c = true
  up : t.needsUp = true → s.life = .up
  down : t.needsDown = true → s.life = .down

section
variable {c : Ctx} {s u : State} {t t' : Task} (ha : t.Allowed c s) (hr : u.resources = s.resources)
include ha hr

/-- The operation goes on in the role it has. -/
theorem discipline_role (h : t'.role = t.role) : Discipline c s (.running t) u (.running t') := by
  simp only [State.resources, Task.role, Prod.mk.injEq] at hr h
  obtain ⟨hlock, hpoll, hlife⟩ := hr
  obtain ⟨hf, hlocked, hpolls, hup, hdown⟩ := h
  refine ⟨fun t₂ h₂ => ?_, .inl ⟨hlock, .inr hlocked⟩, .inl ⟨hpoll, .inr hpolls⟩,
    .inl ⟨hlife, fun h => ha.up (hup ▸ h), fun h => ha.down (hdown ▸ h)⟩⟩
  cases h₂
  exact Task.fits_of_port hf ha.fits

/-- The operation goes on, and has seen `life` to be `UP`. -/
theorem discipline_up (hf : t'.port? = t.port?) (hl : t'.locked = t.locked) (hp : t'.polls = t.polls)
    (hd : t'.needsDown = false) (hu : s.life = .up) : Discipline c s (.running t) u (.running t') := by
  simp only [State.resources, Prod.mk.injEq] at hr
  obtain ⟨hlock, hpoll, hlife⟩ := hr
  refine ⟨fun t₂ h₂ => ?_, .inl ⟨hlock, .inr hl⟩, .inl ⟨hpoll, .inr hp⟩,
    .inl ⟨hlife, fun _ => hu, fun h => absurd (hd.symm.trans h) Bool.false_ne_true⟩⟩
  cases h₂
  exact Task.fits_of_port hf ha.fits

omit ha in
/-- The operation ends, having held nothing. -/
theorem discipline_end (hl : t.locked = false) (hp : t.polls = false) : Discipline c s (.running t) u .idle := by
  simp only [State.resources, Prod.mk.injEq] at hr
  obtain ⟨hlock, hpoll, hlife⟩ := hr
  exact ⟨nofun, .inl ⟨hlock, .inr hl.symm⟩, .inl ⟨hpoll, .inr hp.symm⟩, .inl ⟨hlife, nofun, nofun⟩⟩

omit ha in
/-- The operation stops, and keeps what it held. -/
theorem discipline_stop : Discipline c s (.running t) u .stopped := by
  simp only [State.resources, Prod.mk.injEq] at hr
  obtain ⟨hlock, hpoll, hlife⟩ := hr
  exact ⟨nofun, .inl ⟨hlock, .inl rfl⟩, .inl ⟨hpoll, .inl rfl⟩, .inl ⟨hlife, nofun, nofun⟩⟩

end

section
variable {c : Ctx} {s : State} {t t' : Task} (ha : t.Allowed c s)
include ha

/-- The operation takes the lock. -/
theorem discipline_lock (hn : s.txLock = none) (hl : t'.locked = true)
    (h : (t'.port?, t'.polls, t'.needsUp, t'.needsDown) = (t.port?, t.polls, t.needsUp, t.needsDown)) :
    Discipline c s (.running t) (s.lock c) (.running t') := by
  simp only [Prod.mk.injEq] at h
  obtain ⟨hf, hpolls, hup, hdown⟩ := h
  refine ⟨fun t₂ h₂ => ?_, .inr (.inl ⟨hn, rfl, hl⟩), .inl ⟨rfl, .inr hpolls⟩,
    .inl ⟨rfl, fun h => ha.up (hup ▸ h), fun h => ha.down (hdown ▸ h)⟩⟩
  cases h₂
  exact Task.fits_of_port hf ha.fits

/-- The operation releases the lock, and ends or goes on without needing anything. -/
theorem discipline_unlock {u : State} {k : Cont} (hl : t.locked = true) (hu : u.resources = s.unlock.resources)
    (hk : k = .idle ∨ ∃ t', k = .running t' ∧ t'.role = (t.port?, false, false, false, false)) (hp : t.polls = false) :
    Discipline c s (.running t) u k := by
  simp only [State.resources, Prod.mk.injEq] at hu
  obtain ⟨hlock, hpoll, hlife⟩ := hu
  obtain rfl | ⟨t', rfl, hr⟩ := hk
  · exact ⟨nofun, .inr (.inr ⟨hl, hlock, rfl⟩), .inl ⟨hpoll, .inr hp.symm⟩, .inl ⟨hlife, nofun, nofun⟩⟩
  · simp only [Task.role, Prod.mk.injEq] at hr
    obtain ⟨hf, hlocked, hpolls, hup, hdown⟩ := hr
    refine ⟨fun t₂ h₂ => ?_, .inr (.inr ⟨hl, hlock, hlocked⟩), .inl ⟨hpoll, .inr (hpolls.trans hp.symm)⟩,
      .inl ⟨hlife, fun h => ?_, fun h => ?_⟩⟩
    · cases h₂
      exact Task.fits_of_port hf ha.fits
    · rw [Cont.runs, hup] at h
      cases h
    · rw [Cont.runs, hdown] at h
      cases h

omit ha in
/-- A command of the poll context ends and clears `poll_running`. -/
theorem discipline_polled (hp : t.polls = true) (hl : t.locked = false) :
    Discipline c s (.running t) { s with pollRunning := false } .idle :=
  ⟨nofun, .inl ⟨rfl, .inr hl.symm⟩, .inr (.inr ⟨hp, rfl, rfl⟩), .inl ⟨rfl, nofun, nofun⟩⟩

end

/-! ## The engines hold what their callers hold -/

theorem Fills.role {W : RefillPc → Task} (hW : Fills W) (p p' : RefillPc) : (W p').role = (W p).role := by
  cases hW <;> rfl

theorem Drains.role {b : Nat} {W : DrainPc → Task} (hW : Drains b W) (p p' : DrainPc) : (W p').role = (W p).role := by
  cases hW <;> rfl

section
variable {W : ReclaimPc → Task} (hW : Reclaims W)
include hW

theorem Reclaims.port (p p' : ReclaimPc) : (W p').port? = (W p).port? := by cases hW <;> rfl
theorem Reclaims.locked (p : ReclaimPc) : (W p).locked = p.locked := by cases hW <;> rfl
theorem Reclaims.polls (p : ReclaimPc) : (W p).polls = false := by cases hW <;> rfl
theorem Reclaims.needsUp (p : ReclaimPc) : (W p).needsUp = p.live := by cases hW <;> rfl
theorem Reclaims.needsDown (p : ReclaimPc) : (W p).needsDown = false := by cases hW <;> rfl

theorem Reclaims.role {p p' : ReclaimPc} (hl : p'.locked = p.locked) (hv : p'.live = p.live) :
    (W p').role = (W p).role := by
  simp only [Task.role, hW.port p p', hW.locked, hW.polls, hW.needsUp, hW.needsDown, hl, hv]

end

theorem refill_resources {s u : State} {p p' : RefillPc} (h : RefillMicro s p u p') : u.resources = s.resources := by
  have hd : s.drawMapOk.2.resources = s.resources := by rw [State.drawMapOk_frame]; rfl
  cases h with
  | mapped => exact hd
  | mapFailed => exact hd
  | _ => rfl

theorem drain_resources {s u : State} {p p' : DrainPc} (h : DrainMicro s p u p') : u.resources = s.resources := by
  cases h <;> rfl

theorem discipline_reclaim {c : Ctx} {s u : State} {p p' : ReclaimPc} {W : ReclaimPc → Task} (hW : Reclaims W)
    (ha : (W p).Allowed c s) (h : ReclaimMicro c s p u p') : Discipline c s (.running (W p)) u (.running (W p')) := by
  cases h with
  | locked hn =>
    refine discipline_lock ha hn (hW.locked .y2) ?_
    simp only [hW.port .y1, hW.polls, hW.needsUp, hW.needsDown]
    rfl
  | entered hu =>
    exact discipline_up ha rfl (hW.port ..) ((hW.locked _).trans (hW.locked .y2).symm)
      ((hW.polls _).trans (hW.polls .y2).symm) (hW.needsDown _) hu
  | woken =>
    refine discipline_role ha ?_ (hW.role rfl rfl)
    unfold State.wakeIf
    split <;> rfl
  | _ => exact discipline_role ha rfl (hW.role rfl rfl)

theorem answerReset_resources (s : State) : s.answerReset.resources = s.resources := by
  obtain ⟨d, n, hs | ⟨v, hs⟩⟩ := s.answerReset_cases <;> rw [hs]
  · rfl
  · unfold State.devResetAck
    split <;> rfl

theorem clearSlot_resources (s : State) (r : Ring) (i : Nat) (q : ClearPc) :
    (s.clearSlot r i q).resources = s.resources := by cases q <;> cases r <;> rfl

theorem StopFrame.resources {s u : State} (h : StopFrame s u) : u.resources = s.resources := by rw [h.frame]; rfl

theorem clearNext_role (c : Config) (r : Ring) (i j : Nat) (q : ClearPc) :
    (Task.bringup (clearNext c r i q)).role = (Task.bringup (.b2 r j q)).role := by
  cases q with
  | status =>
    simp only [clearNext]
    split
    · rfl
    · cases r <;> rfl
  | _ => rfl

theorem drainNext_role (c : Config) (r : Ring) (i j k k' : Nat) :
    (Task.teardown (drainNext c r i k)).role = (Task.teardown (.t4 r j k')).role := by
  unfold drainNext
  split
  · rfl
  · cases r <;> rfl

/-- Every micro-step keeps the discipline. -/
theorem discipline_micro {c : Ctx} {s u : State} {t : Task} {k : Cont} (ha : t.Allowed c s) (hm : Micro c s t u k) :
    Discipline c s (.running t) u k := by
  cases hm with
  | stop hx hf => exact discipline_stop hf.resources
  | acquired hs hf => exact discipline_end rfl rfl rfl
  | allocFailed => exact discipline_end rfl rfl rfl
  | released hh => exact discipline_end rfl rfl rfl
  | releaseRefused => exact discipline_end rfl rfl rfl
  | isFull => exact discipline_end rfl rfl rfl
  | isEmpty => exact discipline_end rfl rfl rfl
  | fill hW hx => exact discipline_role ha (refill_resources hx) (hW.role _ _)
  | filled hx =>
    cases hx with
    | refill => exact discipline_polled rfl rfl
    | poll b w => exact discipline_role ha rfl rfl
    | bringup => exact discipline_role ha rfl rfl
  | drain hW hx => exact discipline_role ha (drain_resources hx) (hW.role _ _)
  | drained hx =>
    cases hx with
    | drain b => exact discipline_polled rfl rfl
    | poll b => exact discipline_role ha rfl rfl
  | reclaim hW hx => exact discipline_reclaim hW ha hx
  | reclaimRefused hd hx =>
    cases hx with
    | reclaim => exact discipline_unlock ha rfl rfl (.inl rfl) rfl
    | irq v => exact discipline_unlock ha rfl rfl (.inr ⟨_, rfl, rfl⟩) rfl
  | reclaimed hx =>
    cases hx with
    | reclaim => exact discipline_unlock ha rfl rfl (.inl rfl) rfl
    | irq v => exact discipline_unlock ha rfl rfl (.inr ⟨_, rfl, rfl⟩) rfl
  | submitLocked hl => exact discipline_lock ha hl rfl rfl
  | submitUp hu => exact discipline_up ha rfl rfl rfl rfl rfl hu
  | submitDown => exact discipline_unlock ha rfl rfl (.inl rfl) rfl
  | submitBusy hf => exact discipline_unlock ha rfl rfl (.inl rfl) rfl
  | submitBadHandle => exact discipline_unlock ha rfl rfl (.inl rfl) rfl
  | submitMapped =>
    refine discipline_role ha ?_ rfl
    rw [State.drawMapOk_frame]
    rfl
  | submitMapFailed =>
    refine discipline_unlock ha rfl ?_ (.inl rfl) rfl
    rw [State.drawMapOk_frame]
    rfl
  | submitted => exact discipline_unlock ha rfl rfl (.inl rfl) rfl
  | irqNotMine => exact discipline_end rfl rfl rfl
  | irqSchedule =>
    refine discipline_role ha ?_ rfl
    unfold State.schedulePoll
    split <;> rfl
  | irqLink =>
    refine discipline_role ha ?_ rfl
    unfold State.reportIf
    split <;> rfl
  | irqErr =>
    refine discipline_role ha ?_ rfl
    unfold State.reportIf
    split <;> rfl
  | irqDone => exact discipline_end rfl rfl rfl
  | polled => exact discipline_polled rfl rfl
  | resetPending hx => exact discipline_role ha (answerReset_resources s) rfl
  | resetTimedOut => exact discipline_end (answerReset_resources s) rfl rfl
  | resetAcked hx => exact discipline_role ha (answerReset_resources s) rfl
  | slotCleared => exact discipline_role ha (clearSlot_resources ..) (clearNext_role ..)
  | broughtUp => exact ⟨nofun, .inl ⟨rfl, .inr rfl⟩, .inl ⟨rfl, .inr rfl⟩, .inr (.inr ⟨⟨_, rfl⟩, rfl, rfl⟩)⟩
  | alreadyDown => exact discipline_end rfl rfl rfl
  | teardownUp hu => exact discipline_up ha rfl rfl rfl rfl rfl hu
  | teardownLocked hl => exact discipline_lock ha hl rfl rfl
  | tornDown hp =>
    refine ⟨fun t' h => ?_, .inl ⟨rfl, .inr rfl⟩, .inl ⟨rfl, .inr rfl⟩, .inr (.inl ⟨rfl, hp, rfl, rfl⟩)⟩
    cases h
    exact Task.fits_of_port (t := .teardown .t3) rfl ha.fits
  | slotFreed hp => exact discipline_role ha (by simp [State.resources]) (drainNext_role ..)
  | slotEmpty hp => exact discipline_role ha rfl (drainNext_role ..)
  | toreDown => exact discipline_unlock ha rfl rfl (.inl rfl) rfl
  | _ => exact discipline_role ha rfl rfl

/-! ## The invariant -/

/-- What `Exclusive` depends on. -/
theorem State.Exclusive.congr {s t : State} (h : s.Exclusive) (hr : t.resources = s.resources)
    (hc : ∀ c, t.cont c = s.cont c) : t.Exclusive := by
  simp only [State.resources, Prod.mk.injEq] at hr
  obtain ⟨hlock, hpoll, hlife⟩ := hr
  have ht (c : Ctx) : t.task? c = s.task? c := by simp only [State.task?, hc]
  obtain ⟨hfits, hholder, hheld, hpheld, hpruns, hup, hdown⟩ := h
  constructor
  · simpa only [ht] using hfits
  · simpa only [ht, hc, hlock] using hholder
  · simpa only [ht, hlock] using hheld
  · simpa only [ht, hc, hpoll] using hpheld
  · simpa only [ht, hpoll] using hpruns
  · simpa only [ht, hlife] using hup
  · simpa only [ht, hlife] using hdown

theorem State.Exclusive.allowed {s : State} (h : s.Exclusive) {c : Ctx} {t : Task} (ht : s.task? c = some t) :
    t.Allowed c s := ⟨h.fits c t ht, h.up c t ht, h.down c t ht⟩

/-- Only the poll context runs REFILL, DRAIN and POLL. -/
theorem Task.ctx_of_polls {t : Task} {c : Ctx} (hf : t.fits c = true) (hp : t.polls = true) : c = .poll := by
  cases t <;> cases c <;> simp_all [Task.polls, Task.fits]

/-- Only the driver's context runs what needs `DOWN`. -/
theorem Task.ctx_of_needsDown {t : Task} {c : Ctx} (hf : t.fits c = true) (hd : t.needsDown = true) : c = .drv := by
  cases t <;> cases c <;> simp_all [Task.needsDown, Task.fits]

/-- What needs `UP` holds the lock or `poll_running`, or is TEARDOWN before its T4. -/
theorem Task.of_needsUp {t : Task} {c : Ctx} (hf : t.fits c = true) (hu : t.needsUp = true) :
    t.locked = true ∨ t.polls = true ∨ c = .drv := by
  cases t with
  | submit h p => cases p <;> simp_all [Task.needsUp, Task.locked]
  | reclaim p => cases p <;> simp_all [Task.needsUp, Task.locked, ReclaimPc.live, ReclaimPc.locked]
  | irq p =>
    cases p with
    | i4r v p => cases p <;> simp_all [Task.needsUp, Task.locked, ReclaimPc.live, ReclaimPc.locked]
    | _ => simp_all [Task.needsUp, Task.polls]
  | teardown p => cases c <;> simp_all [Task.fits]
  | _ => simp_all [Task.needsUp, Task.polls]

/-- From `s` to `v` context `c` has gone on from `k₀` to `k`, and no other context has. -/
structure Turned (c : Ctx) (s : State) (k₀ : Cont) (v : State) (k : Cont) : Prop where
  old : s.cont c = k₀
  new : v.cont c = k
  other : ∀ d, d ≠ c → v.cont d = s.cont d

theorem turned_setCont {s u : State} {c : Ctx} {l : Lane} (k : Cont) (hl : s.lane? c = some l)
    (hu : u.lanes = s.lanes) : Turned c s l.cont (u.setCont c k) k := by
  have hul : u.lane? c = some l := (lane?_of_lanes_eq c hu).trans hl
  refine ⟨State.cont_of_lane hl, u.cont_setCont_same k hul, fun d hd => ?_⟩
  rw [u.cont_setCont_other k hd, State.cont_of_lane? (lane?_of_lanes_eq d hu)]

section
variable {c d : Ctx} {s v : State} {k₀ k : Cont} {t : Task}

theorem Turned.task_other (hT : Turned c s k₀ v k) (hd : d ≠ c) : v.task? d = s.task? d := by
  simp only [State.task?, hT.other d hd]

theorem Turned.runs_new (hT : Turned c s k₀ v k) {p : Task → Bool} (ht : v.task? c = some t) (hp : p t = true) :
    k.runs p = true := Cont.runs_iff.mpr ⟨t, hT.new ▸ State.task?_of_cont.mp ht, hp⟩

theorem Turned.task_new (hT : Turned c s k₀ v k) {p : Task → Bool} (hk : k.runs p = true) :
    ∃ t, v.task? c = some t ∧ p t = true := by
  obtain ⟨t, rfl, hp⟩ := Cont.runs_iff.mp hk
  exact ⟨t, State.task?_of_cont.mpr hT.new, hp⟩

theorem Turned.task_old (hT : Turned c s k₀ v k) {p : Task → Bool} (hk : k₀.runs p = true) :
    ∃ t, s.task? c = some t ∧ p t = true := by
  obtain ⟨t, rfl, hp⟩ := Cont.runs_iff.mp hk
  exact ⟨t, State.task?_of_cont.mpr hT.old, hp⟩

/-- A holder that has stopped, or whose operation still claims what it holds, holds it rightly. -/
theorem Turned.holder (hT : Turned c s k₀ v k) {p : Task → Bool} (hk₀ : k₀ ≠ .stopped)
    (hk : k = .stopped ∨ k.runs p = k₀.runs p) (d : Ctx)
    (h : s.cont d = .stopped ∨ ∃ t, s.task? d = some t ∧ p t = true) :
    v.cont d = .stopped ∨ ∃ t, v.task? d = some t ∧ p t = true := by
  by_cases hd : d = c
  · subst hd
    obtain hk | hk := hk
    · exact .inl (hT.new.trans hk)
    · obtain hst | ⟨t, ht, hp⟩ := h
      · exact absurd (hT.old.symm.trans hst) hk₀
      · refine .inr (hT.task_new (hk.trans (Cont.runs_iff.mpr ⟨t, ?_, hp⟩)))
        rw [← hT.old, State.task?_of_cont.mp ht]
  · rwa [hT.other d hd, hT.task_other hd]

variable (h : s.Exclusive) (hT : Turned c s k₀ v k) (hD : Discipline c s k₀ v k)
include h hT hD

theorem Discipline.fits_all : ∀ d t, v.task? d = some t → t.fits d = true := by
  intro d t ht
  by_cases hd : d = c
  · subst hd
    exact hD.fits t (hT.new ▸ State.task?_of_cont.mp ht)
  · exact h.fits d t (hT.task_other hd ▸ ht)

theorem Discipline.lockHolder (hk₀ : k₀ ≠ .stopped) (d : Ctx) (hlock : v.txLock = some d) :
    v.cont d = .stopped ∨ ∃ t, v.task? d = some t ∧ t.locked = true := by
  obtain ⟨hkeep, hk⟩ | ⟨-, htake, hk⟩ | ⟨-, hdrop, -⟩ := hD.lock
  · exact hT.holder hk₀ hk d (h.lockHolder d (hkeep ▸ hlock))
  · cases htake.symm.trans hlock
    exact .inr (hT.task_new hk)
  · cases hdrop.symm.trans hlock

theorem Discipline.lockHeld (d : Ctx) (t : Task) (ht : v.task? d = some t) (hlocked : t.locked = true) :
    v.txLock = some d := by
  by_cases hd : d = c
  · subst hd
    have hk' := hT.runs_new ht hlocked
    obtain ⟨hkeep, hk | hk⟩ | ⟨-, htake, -⟩ | ⟨-, -, hk⟩ := hD.lock
    · rw [hk] at hk'
      cases hk'
    · obtain ⟨t₀, ht₀, hl₀⟩ := hT.task_old (hk ▸ hk')
      rw [hkeep]
      exact h.lockHeld d t₀ ht₀ hl₀
    · exact htake
    · cases hk.symm.trans hk'
  · have hold := h.lockHeld d t (hT.task_other hd ▸ ht) hlocked
    obtain ⟨hkeep, -⟩ | ⟨hfree, -, -⟩ | ⟨hk₀, -, -⟩ := hD.lock
    · exact hkeep.trans hold
    · cases hfree.symm.trans hold
    · obtain ⟨t₀, ht₀, hl₀⟩ := hT.task_old hk₀
      cases hold.symm.trans (h.lockHeld c t₀ ht₀ hl₀)
      exact absurd rfl hd

omit h in
theorem Discipline.ctx_of_polls (hk : k.runs Task.polls = true) : c = .poll := by
  obtain ⟨t, rfl, hp⟩ := Cont.runs_iff.mp hk
  exact Task.ctx_of_polls (hD.fits t rfl) hp

theorem Discipline.pollHeld (hk₀ : k₀ ≠ .stopped) (hpoll : v.pollRunning = true) :
    v.cont .poll = .stopped ∨ ∃ t, v.task? .poll = some t ∧ t.polls = true := by
  obtain ⟨hkeep, hk⟩ | ⟨-, -, hk⟩ | ⟨-, hdrop, -⟩ := hD.poll
  · exact hT.holder hk₀ hk .poll (h.pollHeld (hkeep ▸ hpoll))
  · exact .inr (hD.ctx_of_polls hT hk ▸ hT.task_new hk)
  · cases hdrop.symm.trans hpoll

theorem Discipline.pollRuns (t : Task) (ht : v.task? .poll = some t) (hpolls : t.polls = true) :
    v.pollRunning = true := by
  by_cases hd : Ctx.poll = c
  · subst hd
    have hk' := hT.runs_new ht hpolls
    obtain ⟨hkeep, hk | hk⟩ | ⟨-, htake, -⟩ | ⟨-, -, hk⟩ := hD.poll
    · rw [hk] at hk'
      cases hk'
    · obtain ⟨t₀, ht₀, hp₀⟩ := hT.task_old (hk ▸ hk')
      exact hkeep.trans (h.pollRuns t₀ ht₀ hp₀)
    · exact htake
    · cases hk.symm.trans hk'
  · have hold := h.pollRuns t (hT.task_other hd ▸ ht) hpolls
    obtain ⟨hkeep, -⟩ | ⟨-, htake, -⟩ | ⟨hk₀, -, -⟩ := hD.poll
    · exact hkeep.trans hold
    · exact htake
    · obtain ⟨t₀, ht₀, hp₀⟩ := hT.task_old hk₀
      exact absurd (Task.ctx_of_polls (h.fits c t₀ ht₀) hp₀).symm hd

theorem Discipline.up (d : Ctx) (t : Task) (ht : v.task? d = some t) (hneeds : t.needsUp = true) : v.life = .up := by
  obtain ⟨hkeep, hk, -⟩ | ⟨rfl, hidle, -, hk⟩ | ⟨-, hup, -⟩ := hD.life
  · by_cases hd : d = c
    · subst hd
      exact hkeep.trans (hk (hT.runs_new ht hneeds))
    · exact hkeep.trans (h.up d t (hT.task_other hd ▸ ht) hneeds)
  · -- T3 has the lock and has seen no poll-context command
    by_cases hd : d = c
    · subst hd
      cases hk.symm.trans (hT.runs_new ht hneeds)
    · have ht' := hT.task_other hd ▸ ht
      have ht3 := State.task?_of_cont.mpr hT.old
      obtain hlocked | hpolls | hdrv := Task.of_needsUp (h.fits d t ht') hneeds
      · cases (h.lockHeld d t ht' hlocked).symm.trans (h.lockHeld c _ ht3 rfl)
        exact absurd rfl hd
      · cases Task.ctx_of_polls (h.fits d t ht') hpolls
        cases hidle.symm.trans (h.pollRuns t ht' hpolls)
      · have hport := (Task.fits_iff _ c).mp (h.fits c _ ht3) .drv rfl
        cases c <;> cases hport
        exact absurd hdrv hd
  · exact hup

theorem Discipline.down (d : Ctx) (t : Task) (ht : v.task? d = some t) (hneeds : t.needsDown = true) :
    v.life = .down := by
  obtain ⟨hkeep, -, hk⟩ | ⟨-, -, hdown, -⟩ | ⟨⟨n, rfl⟩, -, rfl⟩ := hD.life
  · by_cases hd : d = c
    · subst hd
      exact hkeep.trans (hk (hT.runs_new ht hneeds))
    · exact hkeep.trans (h.down d t (hT.task_other hd ▸ ht) hneeds)
  · exact hdown
  · have hdrv := Task.ctx_of_needsDown (hD.fits_all h hT d t ht) hneeds
    have hc := Task.ctx_of_needsDown (h.fits c _ (State.task?_of_cont.mpr hT.old)) rfl
    subst hdrv hc
    cases hT.new.symm.trans (State.task?_of_cont.mp ht)

/-- Exclusion is kept by a disciplined turn. -/
theorem Discipline.exclusive (hk₀ : k₀ ≠ .stopped) : v.Exclusive where
  fits := hD.fits_all h hT
  lockHolder := hD.lockHolder h hT hk₀
  lockHeld := hD.lockHeld h hT
  pollHeld := hD.pollHeld h hT hk₀
  pollRuns := hD.pollRuns h hT
  up := hD.up h hT
  down := hD.down h hT

end

/-! ## Acceptance -/

/-- What the acceptance of a command has checked and set (R94, R175, R190). -/
structure Started (s : State) (t : Task) (s0 : State) : Prop where
  locked : t.locked = false
  up : t.needsUp = true → s.life = .up
  down : t.needsDown = true → s.life = .down
  free : t.polls = true → s.pollRunning = false
  state : s0 = { s with pollRunning := s.pollRunning || t.polls }

theorem started_of_acceptance {i : Instr} {s s0 : State} {t : Task} (h : acceptance i s = .start t s0) :
    Started s t s0 := by
  have plain (t : Task) (hl : t.locked = false) (hp : t.polls = false) (hu : t.needsUp = false)
      (hd : t.needsDown = true → s.life = .down) : Started s t s :=
    ⟨hl, by simp [hu], hd, by simp [hp], by rw [hp, Bool.or_false]⟩
  have poll {t₀ : Task} (hl : t₀.locked = false) (hp : t₀.polls = true) (hd : t₀.needsDown = false)
      (h : acceptPoll s t₀ = .start t s0) : Started s t s0 := by
    unfold acceptPoll at h
    split at h <;> cases h
    rename_i hc
    exact ⟨hl, fun _ => hc.1, by simp [hd], fun _ => by simpa using hc.2, by rw [hp, Bool.or_true]⟩
  cases i with
  | bringup =>
    simp only [acceptance] at h
    split at h <;> cases h
    exact plain _ rfl rfl rfl fun _ => ‹_›
  | irq =>
    simp only [acceptance] at h
    split at h <;> cases h
    exact plain _ rfl rfl rfl nofun
  | refill => exact poll rfl rfl rfl h
  | drain b => exact poll rfl rfl rfl h
  | poll b => exact poll rfl rfl rfl h
  | _ => cases h; exact plain _ rfl rfl rfl nofun

theorem fits_firstTask {i : Instr} {c : Ctx} (h : legalOn i c.port = true) : (firstTask i).fits c = true := by
  rw [Task.fits_iff]
  cases i with
  | isFull r => nofun
  | isEmpty r => nofun
  | _ =>
    rintro p ⟨⟩
    exact eq_of_beq h

theorem discipline_accept {s s0 : State} {c : Ctx} {t : Task} (hf : t.fits c = true) (hs : Started s t s0) :
    Discipline c s .idle s0 (.running t) := by
  obtain ⟨hlocked, hup, hdown, hfree, rfl⟩ := hs
  refine ⟨fun t' h => ?_, .inl ⟨rfl, .inr hlocked⟩, ?_, .inl ⟨rfl, hup, hdown⟩⟩
  · cases h
    exact hf
  · cases hp : t.polls with
    | true => exact .inr (.inl ⟨hfree hp, Bool.or_true _, hp⟩)
    | false => exact .inl ⟨Bool.or_false _, .inr hp⟩

/-! ## The step -/

theorem Discipline.of_resources {c : Ctx} {s u v : State} {k₀ k : Cont} (h : Discipline c s k₀ u k)
    (hr : v.resources = u.resources) : Discipline c s k₀ v k := by
  simp only [State.resources, Prod.mk.injEq] at hr
  obtain ⟨hlock, hpoll, hlife⟩ := hr
  exact ⟨h.fits, hlock ▸ h.lock, hpoll ▸ h.poll, hlife ▸ h.life⟩

theorem State.resources_setCont (s : State) (c : Ctx) (k : Cont) : (s.setCont c k).resources = s.resources := by
  simp [State.resources]

theorem exclusive_accept {s s0 : State} {c : Ctx} {i : Instr} {t : Task} {q : List Word} (h : s.Exclusive)
    (hl : s.lane? c = some ⟨.idle, q⟩) (hlegal : legalOn i c.port = true) (ha : acceptance i s = .start t s0) :
    (s0.setCont c (.running t)).Exclusive := by
  obtain ⟨rfl, b, hb⟩ := acceptance_start ha
  have hD := (discipline_accept (fits_firstTask hlegal) (started_of_acceptance ha)).of_resources
    (s0.resources_setCont c (.running (firstTask i)))
  exact hD.exclusive h (turned_setCont _ hl (by rw [hb])) nofun

theorem exclusive_micro {s u : State} {c : Ctx} {t : Task} {q : List Word} {k : Cont} (h : s.Exclusive)
    (hl : s.lane? c = some ⟨.running t, q⟩) (hm : Micro c s t u k) (hk : Keeps s u) : (u.setCont c k).Exclusive := by
  have hD := (discipline_micro (h.allowed (State.task?_of_lane hl)) hm).of_resources (u.resources_setCont c k)
  exact hD.exclusive h (turned_setCont k hl hk.lanes) nofun

theorem Unseen.resources {s t : State} (h : Unseen s t) : t.resources = s.resources := by rw [h.frame]; rfl

theorem Foreign.resources {s t : State} (h : Foreign s t) : t.resources = s.resources := by rw [h.frame]; rfl

theorem Foreign.cont {s t : State} (h : Foreign s t) (c : Ctx) : t.cont c = s.cont c :=
  State.cont_of_lane? (lane?_of_lanes_eq c h.lanes)

theorem exclusive_invariant : Invariant State.Exclusive where
  unseen hu h := h.congr hu.resources hu.cont
  accept := exclusive_accept
  micro := exclusive_micro
  device h hd := h.congr hd.foreign.resources hd.foreign.cont

/-- Settles O17: every turn of a context is disciplined, and no other move touches what excludes. -/
theorem exclusionKept : Obligations.ExclusionKept := fun _ _ _ => exclusive_invariant.step

end Sys2Proof.Machine
end

section
/-! PROOF. Who writes the index registers and `life` (10_state R21 to R23, 41_descriptor_ring R131). -/

namespace Sys2Proof.Machine

theorem Fills.ok {W : RefillPc → Task} (hW : Fills W) (s : State) (p : RefillPc) : (W p).ok s ↔ p.ok s := by
  cases hW <;> exact .rfl

theorem Drains.ok {b : Nat} {W : DrainPc → Task} (hW : Drains b W) (s : State) (p : DrainPc) :
    (W p).ok s ↔ p.ok s := by cases hW <;> exact .rfl

theorem Reclaims.ok {W : ReclaimPc → Task} (hW : Reclaims W) (s : State) (p : ReclaimPc) : (W p).ok s ↔ p.ok s := by
  cases hW <;> exact .rfl

/-- The operation is BRINGUP or TEARDOWN. -/
def Task.Lifecycle (t : Task) : Prop := (∃ p, t = .bringup p) ∨ ∃ p, t = .teardown p

/-- Index `i` of a ring with `n` slots becomes `j`: it stays, or goes on by one in an operation of which `moves` holds,
or becomes 0 in a lifecycle operation. -/
def Task.Writes (t : Task) (moves : Prop) (i n j : Nat) : Prop :=
  j = i ∨ (j = (i + 1) % n ∧ moves) ∨ (j = 0 ∧ t.Lifecycle)

/-- What a micro-step of `t` does to the indices and to `life`. -/
structure IndexMoves (s : State) (t : Task) (u : State) : Prop where
  rxHead : t.Writes (∃ W p, Fills W ∧ t = W p) s.rx.head s.cfg.nRx u.rx.head
  rxTail : t.Writes (∃ b W p, Drains b W ∧ t = W p) s.rx.tail s.cfg.nRx u.rx.tail
  txHead : t.Writes (∃ h p, t = .submit h p) s.tx.head s.cfg.nTx u.tx.head
  txTail : t.Writes (∃ W p, Reclaims W ∧ t = W p) s.tx.tail s.cfg.nTx u.tx.tail
  life : u.life = s.life ∨ t.Lifecycle

/-- The four indices and `life`. -/
def State.indices (s : State) : (Nat × Nat × Nat × Nat) × Life :=
  ((s.rx.head, s.rx.tail, s.tx.head, s.tx.tail), s.life)

theorem indexMoves_of_eq {s u : State} {t : Task} (h : u.indices = s.indices) : IndexMoves s t u := by
  simp only [State.indices, Prod.mk.injEq] at h
  obtain ⟨⟨hrh, hrt, hth, htt⟩, hl⟩ := h
  exact ⟨.inl hrh, .inl hrt, .inl hth, .inl htt, .inl hl⟩

theorem State.drawMapOk_indices (s : State) : s.drawMapOk.2.indices = s.indices := by
  rw [State.drawMapOk_frame]
  rfl

theorem State.answerReset_indices (s : State) : s.answerReset.indices = s.indices := by
  obtain ⟨d, n, hs | ⟨v, hs⟩⟩ := s.answerReset_cases <;> rw [hs]
  · rfl
  · unfold State.devResetAck
    split <;> rfl

theorem State.setPending_indices (s : State) (r : Ring) (i : Nat) (e : Option (Nat × DAddr)) :
    (s.setPending r i e).indices = s.indices := by cases r <;> rfl

theorem State.clearSlot_indices (s : State) (r : Ring) (i : Nat) (q : ClearPc) :
    (s.clearSlot r i q).indices = s.indices := by
  cases q with
  | status => exact State.setPending_indices ..
  | _ => rfl

theorem indexMoves_refill {s u : State} {p p' : RefillPc} {W : RefillPc → Task} (hW : Fills W) (hok : p.ok s)
    (h : RefillMicro s p u p') : IndexMoves s (W p) u := by
  cases h with
  | mapped => exact indexMoves_of_eq s.drawMapOk_indices
  | mapFailed => exact indexMoves_of_eq s.drawMapOk_indices
  | advanced =>
    obtain ⟨-, rfl⟩ := hok
    exact ⟨.inr (.inl ⟨rfl, W, _, hW, rfl⟩), .inl rfl, .inl rfl, .inl rfl, .inl rfl⟩
  | _ => exact indexMoves_of_eq rfl

theorem indexMoves_drain {s u : State} {p p' : DrainPc} {b : Nat} {W : DrainPc → Task} (hW : Drains b W)
    (h : DrainMicro s p u p') : IndexMoves s (W p) u := by
  cases h with
  | advanced => exact ⟨.inl rfl, .inr (.inl ⟨rfl, b, W, _, hW, rfl⟩), .inl rfl, .inl rfl, .inl rfl⟩
  | _ => exact indexMoves_of_eq rfl

theorem indexMoves_reclaim {c : Ctx} {s u : State} {p p' : ReclaimPc} {W : ReclaimPc → Task} (hW : Reclaims W)
    (h : ReclaimMicro c s p u p') : IndexMoves s (W p) u := by
  cases h with
  | advanced => exact ⟨.inl rfl, .inl rfl, .inl rfl, .inr (.inl ⟨rfl, W, _, hW, rfl⟩), .inl rfl⟩
  | woken =>
    refine indexMoves_of_eq ?_
    unfold State.wakeIf
    split <;> rfl
  | _ => exact indexMoves_of_eq rfl

theorem indexMoves_micro {c : Ctx} {s u : State} {t : Task} {k : Cont} (hok : t.ok s) (h : Micro c s t u k) :
    IndexMoves s t u := by
  have bring {p : BringupPc} : Task.Lifecycle (.bringup p) := .inl ⟨p, rfl⟩
  have teardown {p : TeardownPc} : Task.Lifecycle (.teardown p) := .inr ⟨p, rfl⟩
  cases h with
  | stop hx hf =>
    refine indexMoves_of_eq ?_
    rw [hf.frame]
    rfl
  | fill hW hx => exact indexMoves_refill hW ((hW.ok s _).mp hok) hx
  | filled hx => cases hx <;> exact indexMoves_of_eq rfl
  | drain hW hx => exact indexMoves_drain hW hx
  | drained hx => cases hx <;> exact indexMoves_of_eq rfl
  | reclaim hW hx => exact indexMoves_reclaim hW hx
  | submitMapped => exact indexMoves_of_eq s.drawMapOk_indices
  | submitMapFailed => exact indexMoves_of_eq s.drawMapOk_indices
  | @submitAdvanced h i =>
    obtain ⟨-, rfl⟩ : s.full .tx = false ∧ i = s.tx.head := hok
    exact ⟨.inl rfl, .inl rfl, .inr (.inl ⟨rfl, h, _, rfl⟩), .inl rfl, .inl rfl⟩
  | irqSchedule =>
    refine indexMoves_of_eq ?_
    unfold State.schedulePoll
    split <;> rfl
  | irqLink =>
    refine indexMoves_of_eq ?_
    unfold State.reportIf
    split <;> rfl
  | irqErr =>
    refine indexMoves_of_eq ?_
    unfold State.reportIf
    split <;> rfl
  | resetPending ha => exact indexMoves_of_eq s.answerReset_indices
  | resetTimedOut => exact indexMoves_of_eq s.answerReset_indices
  | resetAcked ha => exact indexMoves_of_eq s.answerReset_indices
  | slotCleared => exact indexMoves_of_eq (s.clearSlot_indices ..)
  | latchesCleared => exact ⟨.inr (.inr ⟨rfl, bring⟩), .inr (.inr ⟨rfl, bring⟩), .inr (.inr ⟨rfl, bring⟩),
      .inr (.inr ⟨rfl, bring⟩), .inl rfl⟩
  | broughtUp => exact ⟨.inl rfl, .inl rfl, .inl rfl, .inl rfl, .inr bring⟩
  | tornDown hp => exact ⟨.inl rfl, .inl rfl, .inl rfl, .inl rfl, .inr teardown⟩
  | slotFreed hp => exact indexMoves_of_eq (State.setPending_indices ..)
  | indicesZeroed => exact ⟨.inr (.inr ⟨rfl, teardown⟩), .inr (.inr ⟨rfl, teardown⟩), .inr (.inr ⟨rfl, teardown⟩),
      .inr (.inr ⟨rfl, teardown⟩), .inl rfl⟩
  | _ => exact indexMoves_of_eq rfl

/-- An index that has moved, as the obligation says it. -/
theorem Task.Writes.moved {t : Task} {moves : Prop} {i n j : Nat} (h : t.Writes moves i n j) (hne : j ≠ i) :
    (j = (i + 1) % n ∧ moves) ∨ (j = 0 ∧ t.Lifecycle) := h.resolve_left hne

theorem microStep_not_running {c : Ctx} {s : State} (h : s.running c = false) : microStep c s = s := by
  unfold microStep
  split
  · rename_i hl
    rw [State.running_of_lane hl] at h
    cases h
  · rfl

theorem indexMoves_microStep {c : Ctx} {s : State} {t : Task} (ht : s.task? c = some t) (hok : t.ok s) :
    IndexMoves s t (microStep c s) := by
  obtain ⟨q, hl⟩ := State.lane_of_task? ht
  obtain hm | ⟨u, k, hm, -, hs⟩ := microStep_cases hl
  · rw [hm]
    exact indexMoves_of_eq rfl
  · have hi : (microStep c s).indices = u.indices := by
      obtain hs | ⟨code, n, hs⟩ := hs <;> rw [hs] <;> simp [State.indices]
    obtain ⟨hrh, hrt, hth, htt, hlife⟩ := indexMoves_micro hok hm
    simp only [State.indices, Prod.mk.injEq] at hi
    obtain ⟨⟨erh, ert, eth, ett⟩, el⟩ := hi
    exact ⟨erh ▸ hrh, ert ▸ hrt, eth ▸ hth, ett ▸ htt, el ▸ hlife⟩

/-- Settles O22: a micro-step's index moves, with the engines' callers named. -/
theorem indexWriters : Obligations.IndexWriters := by
  intro s c hok
  cases hr : s.running c with
  | false =>
    rw [microStep_not_running hr]
    exact ⟨fun h => absurd rfl h, fun h => absurd rfl h, fun h => absurd rfl h, fun h => absurd rfl h,
      fun h => absurd rfl h⟩
  | true =>
    obtain ⟨t, q, hl⟩ := State.lane_of_running hr
    have ht := State.task?_of_lane hl
    obtain ⟨hrh, hrt, hth, htt, hlife⟩ := indexMoves_microStep ht (hok t ht)
    simp only [ht, Option.some.injEq]
    have fills : (∃ W p, Fills W ∧ t = W p) →
        (∃ p, t = .refill p) ∨ (∃ b w p, t = .poll b (.l2 w p)) ∨ ∃ p, t = .bringup (.b4 p) := by
      rintro ⟨W, p, ⟨⟩ | ⟨b, w⟩ | ⟨⟩, rfl⟩
      · exact .inl ⟨p, rfl⟩
      · exact .inr (.inl ⟨b, w, p, rfl⟩)
      · exact .inr (.inr ⟨p, rfl⟩)
    have drains : (∃ b W p, Drains b W ∧ t = W p) → (∃ b p, t = .drain b p) ∨ ∃ b p, t = .poll b (.l1 p) := by
      rintro ⟨b, W, p, ⟨⟩ | ⟨⟩, rfl⟩
      · exact .inl ⟨b, p, rfl⟩
      · exact .inr ⟨b, p, rfl⟩
    have reclaims : (∃ W p, Reclaims W ∧ t = W p) → (∃ p, t = .reclaim p) ∨ ∃ v p, t = .irq (.i4r v p) := by
      rintro ⟨W, p, ⟨⟩ | ⟨v⟩, rfl⟩
      · exact .inl ⟨p, rfl⟩
      · exact .inr ⟨v, p, rfl⟩
    refine ⟨fun h => (hrh.moved h).imp_left (.imp_right fills), fun h => (hrt.moved h).imp_left (.imp_right drains),
      hth.moved, fun h => (htt.moved h).imp_left (.imp_right reclaims), hlife.resolve_left⟩

end Sys2Proof.Machine
end

section
/-! PROOF. The books of the host side (10_state R30, R32, 70_reset R261) over a list of operations: claims counted, slots
by the phase of the operation on their ring. The operation that takes a micro-step stands at the list's head. -/

namespace Sys2Proof.Machine

/-! ## Windows as their ends move -/

section
variable {h t n i : Nat} (hh : h < n) (ht : t < n) (hi : i < n)
include hh ht hi

theorem window_nextHead (hf : nextIndex h n ≠ t) :
    subIndex i t n < subIndex (nextIndex h n) t n ↔ subIndex i t n < subIndex h t n ∨ i = h := by
  have hn : nextIndex h n < n := nextIndex_lt h (by omega)
  rw [subIndex_eq hi ht, subIndex_eq hh ht, subIndex_eq hn ht]
  rw [nextIndex_eq hh] at hf ⊢
  split at hf <;> (split_ifs <;> omega)

theorem window_nextTail (he : h ≠ t) :
    subIndex i (nextIndex t n) n < subIndex h (nextIndex t n) n ↔ subIndex i t n < subIndex h t n ∧ i ≠ t := by
  have hn : nextIndex t n < n := nextIndex_lt t (by omega)
  rw [subIndex_eq hi ht, subIndex_eq hh ht, subIndex_eq hi hn, subIndex_eq hh hn, nextIndex_eq ht]
  split_ifs <;> omega

end

theorem window_tail {h t n : Nat} (hh : h < n) (ht : t < n) (he : h ≠ t) : subIndex t t n < subIndex h t n := by
  rw [subIndex_eq ht ht, subIndex_eq hh ht]
  split_ifs <;> omega

theorem State.inWindow_head (s : State) (r : Ring) : s.inWindow r (s.ring r).head = false := by simp [State.inWindow, State.count]

section
variable {s : State} (hs : s.Shaped) {r : Ring} {i : Nat}
include hs

theorem State.inWindow_tail (he : s.empty r = false) : s.inWindow r (s.ring r).tail = true := by
  rw [State.inWindow_iff]
  exact window_tail (hs.head r) (hs.tail r) (by simpa [State.empty] using he)

theorem State.inWindow_nextHead (hi : i < ringSize s.cfg r) (hf : s.full r = false) :
    (s.setHead r (nextIndex (s.ring r).head (ringSize s.cfg r))).inWindow r i
      = (s.inWindow r i || i == (s.ring r).head) := by
  rw [Bool.eq_iff_iff, State.inWindow_iff, Bool.or_eq_true, State.inWindow_iff, beq_iff_eq, State.count, State.count,
    State.ring_setHead_same, State.setHead_cfg]
  exact window_nextHead (hs.head r) (hs.tail r) hi (by simpa [State.full] using hf)

theorem State.inWindow_nextTail (hi : i < ringSize s.cfg r) (he : s.empty r = false) :
    (s.setTail r (nextIndex (s.ring r).tail (ringSize s.cfg r))).inWindow r i
      = (s.inWindow r i && !(i == (s.ring r).tail)) := by
  rw [Bool.eq_iff_iff, State.inWindow_iff, Bool.and_eq_true, State.inWindow_iff, Bool.not_eq_true', beq_eq_false_iff_ne,
    State.count, State.count, State.ring_setTail_same, State.setTail_cfg]
  exact window_nextTail (hs.head r) (hs.tail r) hi (by simpa [State.empty] using he)

end

/-! ## Which rings an operation works on -/

/-- The operation may be inside ring `r`: it runs while `DOWN`, or is the poll context's on RX, or holds the lock and
has seen `life = UP` on TX. -/
def Task.on (t : Task) (r : Ring) : Bool :=
  t.needsDown || match r with
    | .rx => t.polls
    | .tx => t.needsUp && t.locked

/-- No operation of the list is inside ring `r`. -/
def Off (O : List Task) (r : Ring) : Prop := ∀ t ∈ O, t.on r = false

/-- An operation that is not inside ring `r` has left no slot of it in between. -/
structure Task.Clear (t : Task) (r : Ring) : Prop where
  early : t.early r = false
  late : t.late r = false
  swept : ∀ i, t.swept r i = false
  stale : ∀ i, (r, i) ∉ t.stale
  handed : t.handed r = none
  consumes : t.consumes r = false
  cleared : ∀ i, t.cleared r i = false

theorem ReclaimPc.clear_of_not_live {p : ReclaimPc} (h : p.live = false) :
    p.early = false ∧ p.stale = [] ∧ p.consumes = false ∧ p.owesWake = false := by
  cases p with
  | y1 => exact ⟨rfl, rfl, rfl, rfl⟩
  | y2 => exact ⟨rfl, rfl, rfl, rfl⟩
  | _ => cases h

theorem ReclaimPc.live_eq_on (p : ReclaimPc) : (p.live && p.locked) = p.live := by cases p <;> rfl

theorem Task.clear_of_off {t : Task} {r : Ring} (h : t.on r = false) : t.Clear r := by
  cases t with
  | acquire n => exact ⟨rfl, rfl, fun _ => rfl, nofun, rfl, rfl, fun _ => rfl⟩
  | release n => exact ⟨rfl, rfl, fun _ => rfl, nofun, rfl, rfl, fun _ => rfl⟩
  | isFull q => exact ⟨rfl, rfl, fun _ => rfl, nofun, rfl, rfl, fun _ => rfl⟩
  | isEmpty q => exact ⟨rfl, rfl, fun _ => rfl, nofun, rfl, rfl, fun _ => rfl⟩
  | refill p =>
    cases r with
    | rx => cases h
    | tx => exact ⟨rfl, rfl, fun _ => rfl, nofun, rfl, rfl, fun _ => rfl⟩
  | drain b p =>
    cases r with
    | rx => cases h
    | tx =>
      refine ⟨rfl, rfl, fun _ => rfl, fun i => ?_, rfl, rfl, fun _ => rfl⟩
      cases p <;> simp [Task.stale, DrainPc.stale]
  | submit n p =>
    cases r with
    | rx => cases p <;> exact ⟨rfl, rfl, fun _ => rfl, nofun, rfl, rfl, fun _ => rfl⟩
    | tx =>
      cases p with
      | x1 => exact ⟨rfl, rfl, fun _ => rfl, nofun, rfl, rfl, fun _ => rfl⟩
      | x2 => exact ⟨rfl, rfl, fun _ => rfl, nofun, rfl, rfl, fun _ => rfl⟩
      | _ => cases h
  | reclaim p =>
    cases r with
    | rx =>
      refine ⟨rfl, rfl, fun _ => rfl, fun i => ?_, rfl, rfl, fun _ => rfl⟩
      cases p <;> simp [Task.stale, ReclaimPc.stale]
    | tx =>
      have hl : p.live = false := p.live_eq_on ▸ h
      obtain ⟨he, hs, hc, -⟩ := ReclaimPc.clear_of_not_live hl
      exact ⟨he, rfl, fun _ => rfl, fun i => by simp [Task.stale, hs], rfl, hc, fun _ => rfl⟩
  | irq p =>
    cases p with
    | i4r v p =>
      cases r with
      | rx =>
        refine ⟨rfl, rfl, fun _ => rfl, fun i => ?_, rfl, rfl, fun _ => rfl⟩
        cases p <;> simp [Task.stale, ReclaimPc.stale]
      | tx =>
        have hl : p.live = false := p.live_eq_on ▸ h
        obtain ⟨he, hs, hc, -⟩ := ReclaimPc.clear_of_not_live hl
        exact ⟨he, rfl, fun _ => rfl, fun i => by simp [Task.stale, hs], rfl, hc, fun _ => rfl⟩
    | _ => cases r <;> exact ⟨rfl, rfl, fun _ => rfl, nofun, rfl, rfl, fun _ => rfl⟩
  | poll b p =>
    cases r with
    | rx => cases h
    | tx =>
      cases p with
      | l1 p =>
        refine ⟨rfl, rfl, fun _ => rfl, fun i => ?_, rfl, rfl, fun _ => rfl⟩
        cases p <;> simp [Task.stale, DrainPc.stale]
      | _ => exact ⟨rfl, rfl, fun _ => rfl, nofun, rfl, rfl, fun _ => rfl⟩
  | bringup p => cases h
  | teardown p =>
    cases p with
    | t1 => cases r <;> exact ⟨rfl, rfl, fun _ => rfl, nofun, rfl, rfl, fun _ => rfl⟩
    | t2 => cases r <;> exact ⟨rfl, rfl, fun _ => rfl, nofun, rfl, rfl, fun _ => rfl⟩
    | t3 => cases r <;> exact ⟨rfl, rfl, fun _ => rfl, nofun, rfl, rfl, fun _ => rfl⟩
    | _ => cases h

theorem Task.needsUp_of_polls {t : Task} (h : t.polls = true) : t.needsUp = true := by
  cases t with
  | refill p => rfl
  | drain b p => rfl
  | poll b p => rfl
  | _ => cases h

theorem Task.owesWake_of_off {t : Task} (h : t.on .tx = false) : t.owesWake = false := by
  cases t with
  | reclaim p =>
    have hl : p.live = false := p.live_eq_on ▸ h
    obtain ⟨-, -, -, hwake⟩ := ReclaimPc.clear_of_not_live hl
    exact hwake
  | irq p =>
    cases p with
    | i4r v p =>
      have hl : p.live = false := p.live_eq_on ▸ h
      obtain ⟨-, -, -, hwake⟩ := ReclaimPc.clear_of_not_live hl
      exact hwake
    | _ => rfl
  | _ => rfl

section
variable {s : State} (h : s.Exclusive) {c d : Ctx} {t t' : Task} (ht : s.task? c = some t) (ht' : s.task? d = some t')
  (hd : d ≠ c)
include h ht ht' hd

theorem State.Exclusive.not_both_locked (hl : t.locked = true) : t'.locked = false := by
  by_contra hl'
  cases (h.lockHeld d t' ht' (by simpa using hl')).symm.trans (h.lockHeld c t ht hl)
  exact hd rfl

theorem State.Exclusive.not_both_poll (hp : t.polls = true) : t'.polls = false := by
  by_contra hp'
  exact hd ((Task.ctx_of_polls (h.fits d t' ht') (by simpa using hp')).trans
    (Task.ctx_of_polls (h.fits c t ht) hp).symm)

theorem State.Exclusive.not_both_down (hn : t.needsDown = true) : t'.needsDown = false := by
  by_contra hn'
  exact hd ((Task.ctx_of_needsDown (h.fits d t' ht') (by simpa using hn')).trans
    (Task.ctx_of_needsDown (h.fits c t ht) hn).symm)

omit ht hd in
theorem State.Exclusive.not_needsUp (hl : s.life = .down) : t'.needsUp = false := by
  by_contra hu
  cases hl.symm.trans (h.up d t' ht' (by simpa using hu))

omit ht hd in
theorem State.Exclusive.not_needsDown (hl : s.life = .up) : t'.needsDown = false := by
  by_contra hn
  cases hl.symm.trans (h.down d t' ht' (by simpa using hn))

/-- While one context is inside the TX ring's exclusive region no other is inside that ring (R76). -/
theorem State.Exclusive.off_of_locked (hl : t.locked = true) (hup : s.life = .up) : t'.on .tx = false := by
  simp [Task.on, h.not_both_locked ht ht' hd hl, h.not_needsDown ht' hup]

/-- A ring one operation is inside of is not one another operation is inside of. -/
theorem State.Exclusive.off {r : Ring} (hon : t.on r = true) : t'.on r = false := by
  cases hn : t.needsDown with
  | true =>
    have hu := h.not_needsUp ht' (h.down c t ht hn)
    have hp : t'.polls = false := by
      by_contra hp
      rw [Task.needsUp_of_polls (by simpa using hp)] at hu
      cases hu
    cases r <;> simp [Task.on, h.not_both_down ht ht' hd hn, hu, hp]
  | false =>
    cases r with
    | rx =>
      have hp : t.polls = true := by simpa [Task.on, hn] using hon
      have hup := h.up c t ht (Task.needsUp_of_polls hp)
      simp [Task.on, h.not_both_poll ht ht' hd hp, h.not_needsDown ht' hup]
    | tx =>
      obtain ⟨hu, hl⟩ : t.needsUp = true ∧ t.locked = true := by simpa [Task.on, hn] using hon
      exact h.off_of_locked ht ht' hd hl (h.up c t ht hu)

end

/-! ## The operations in progress, one of them first -/

/-- The operation of a continuation, if it has one. -/
def Cont.tasks : Cont → List Task
  | .running t => [t]
  | _ => []

/-- The operations of the contexts other than `c`. -/
def State.others (s : State) (c : Ctx) : List Task := (s.ctxs.erase c).filterMap s.task?

theorem State.task?_toList (s : State) (c : Ctx) : (s.task? c).toList = (s.cont c).tasks := by
  simp only [State.task?]
  cases s.cont c <;> rfl

theorem State.tasks_perm {s : State} {c : Ctx} (hc : c ∈ s.ctxs) : s.tasks.Perm ((s.cont c).tasks ++ s.others c) := by
  have h := (List.perm_cons_erase hc).filterMap s.task?
  rw [List.filterMap_cons] at h
  rw [← State.task?_toList]
  cases ht : s.task? c <;> rw [ht] at h <;> exact h

theorem State.mem_others {s : State} {c : Ctx} {t : Task} (h : t ∈ s.others c) : ∃ d, d ≠ c ∧ s.task? d = some t := by
  obtain ⟨d, hd, ht⟩ := List.mem_filterMap.mp h
  exact ⟨d, (s.ctxs_nodup.mem_erase_iff.mp hd).1, ht⟩

theorem Turned.others {c : Ctx} {s v : State} {k₀ k : Cont} (hT : Turned c s k₀ v k) (hcfg : v.cfg = s.cfg) :
    v.others c = s.others c := by
  simp only [State.others, State.ctxs, hcfg]
  refine List.filterMap_congr fun d hd => hT.task_other fun hdc => ?_
  subst hdc
  exact List.Nodup.not_mem_erase s.ctxs_nodup hd

end Sys2Proof.Machine
end

section
/-! PROOF. The host side's invariants as books over a list of operations, and how one operation's step moves them. -/

namespace Sys2Proof.Machine

/-! ## The books -/

/-- `State.expects` with the operations `L` in progress. -/
def State.expectsIn (s : State) (L : List Task) (r : Ring) (i : Nat) : Bool :=
  ((s.inWindow r i && !(L.any (·.early r) && i == (s.ring r).tail)) || (L.any (·.late r) && i == (s.ring r).head))
    && !L.any (·.swept r i)

/-- The claim of slot `i`'s live pending entry. -/
def State.slotClaim (s : State) (L : List Task) (r : Ring) (i : Nat) : Option Claim :=
  if (L.flatMap Task.stale).contains (r, i) then none else (s.pending r i).map fun e => (e.1, some (ringDir r))

/-- `State.claims` with the operations `L` in progress. -/
def State.claimsIn (s : State) (L : List Task) : List Claim :=
  L.flatMap Task.claims ++ ((List.range (ringSize s.cfg .rx)).filterMap (s.slotClaim L .rx)
    ++ (List.range (ringSize s.cfg .tx)).filterMap (s.slotClaim L .tx))

theorem State.expects_eq (s : State) : s.expects = s.expectsIn s.tasks := rfl

theorem State.claims_eq (s : State) : s.claims = s.claimsIn s.tasks := rfl

/-- How often a claim is to stand in the books: once if it is what the pool says of a buffer an engine holds. -/
def State.heldCount (s : State) (x : Claim) : Nat :=
  if (s.buffer x.1).own = .eng ∧ (s.buffer x.1).map = x.2 then 1 else 0

/-- What holds of every pool entry by itself. -/
structure PoolEntry.Ok (c : Config) (e : PoolEntry) : Prop where
  unmapped : e.own ≠ .eng → e.map = none
  length : e.own ≠ .free → e.len.toNat ≤ c.bufSize

/-- The invariants of the host side, but for shape and exclusion, with the operations `L` in progress. -/
structure Books (s : State) (L : List Task) : Prop where
  counted : ∀ x, (s.claimsIn L).count x = s.heldCount x
  entries : ∀ h, (s.buffer h).Ok s.cfg
  addresses : ∀ r i h a, s.pending r i = some (h, a) → a = xlateOf s.cfg h
  pending : ∀ r i, i < ringSize s.cfg r → (s.pending r i).isSome = s.expectsIn L r i
  locals : ∀ t, t ∈ L → t.ok s
  stopped : s.txStopped = true → s.full .tx = true ∨ L.any Task.owesWake = true
  downTx : s.life = .down → L.any Task.sweeps = false → s.tx.head = 0 ∧ s.tx.tail = 0
  downRx : s.life = .down → L.any Task.sweeps = false → L.any Task.prefills = false → s.rx.head = 0 ∧ s.rx.tail = 0
  noFault : s.fault.pool = false ∧ s.fault.pendEmpty = false

/-! ## The books are the invariants -/

theorem nodup_of_count_fst {L : List Claim} {f : Nat → Option (Option Dir)}
    (h : ∀ x ∈ L, f x.1 = some x.2 ∧ L.count x = 1) : (L.map Prod.fst).Nodup := by
  have hn : L.Nodup := List.nodup_iff_count_le_one.mpr fun x => by
    by_cases hx : x ∈ L
    · exact (h x hx).2.le
    · simp [List.count_eq_zero.mpr hx]
  refine hn.map_on fun x hx y hy hxy => Prod.ext hxy ?_
  have hx := (h x hx).1
  rw [hxy, (h y hy).1] at hx
  exact (Option.some.inj hx).symm

theorem Books.sound_of {s : State} (hwf : s.cfg.wf = true) (hsh : s.Shaped) (hex : s.Exclusive) (h : Books s s.tasks)
    (hgo : ∀ c, s.cont c ≠ .stopped) : s.Sound := by
  have hmem {x : Claim} (hx : x ∈ s.claims) : (s.buffer x.1).own = .eng ∧ (s.buffer x.1).map = x.2 := by
    have hc := h.counted x
    have hpos := List.count_pos_iff.mpr hx
    rw [State.claims_eq, hc, State.heldCount] at hpos
    by_contra hn
    rw [if_neg hn] at hpos
    exact hpos.false
  refine ⟨hwf, hsh, hex, ⟨?_, fun k m hk => ?_, fun k hk => ?_, fun k => (h.entries k).unmapped,
    fun k => (h.entries k).length, h.addresses⟩,
    ⟨h.pending, h.locals, h.stopped, h.downTx, h.downRx, hgo, h.noFault.1, h.noFault.2⟩⟩
  · refine nodup_of_count_fst (f := fun k => some (s.buffer k).map) fun x hx => ⟨by rw [(hmem hx).2], ?_⟩
    rw [State.claims_eq, h.counted x, State.heldCount, if_pos (hmem hx)]
  · obtain ⟨hown, hmap⟩ := hmem hk
    refine ⟨hsh.pool ▸ State.lt_of_own (by rw [hown]; decide), hown, hmap⟩
  · have hc := h.counted (k, (s.buffer k).map)
    rw [State.heldCount, if_pos ⟨hk, rfl⟩] at hc
    have hin : (k, (s.buffer k).map) ∈ s.claims :=
      List.count_pos_iff.mp (by rw [State.claims_eq, hc]; exact Nat.one_pos)
    exact List.mem_map_of_mem hin

theorem Books.of_sound {s : State} (h : s.Sound) : Books s s.tasks := by
  obtain ⟨-, -, -, hp, hr⟩ := h
  refine ⟨fun x => ?_, fun k => ⟨hp.unmapped k, hp.lengths k⟩, hp.addresses, hr.pending, hr.locals, hr.stopped,
    hr.downTx, hr.downRx, hr.noPool, hr.noPendEmpty⟩
  rw [← State.claims_eq, State.heldCount]
  have hnd : s.claims.Nodup := hp.once.of_map _
  split
  · rename_i hx
    obtain ⟨y, hy, hyx⟩ := List.mem_map.mp (hp.claimed x.1 hx.1)
    obtain ⟨-, -, hm⟩ := hp.held y.1 y.2 hy
    have : y = x := Prod.ext hyx (by rw [← hm, hyx, hx.2])
    exact List.count_eq_one_of_mem hnd (this ▸ hy)
  · rename_i hx
    refine List.count_eq_zero.mpr fun hm => hx ?_
    exact (hp.held x.1 x.2 hm).2

/-! ## The books do not depend on the operations' order, nor on what the ledger leaves out -/

theorem Books.perm {s : State} {L L' : List Task} (h : Books s L) (hp : L.Perm L') : Books s L' := by
  have hany (f : Task → Bool) : L'.any f = L.any f := hp.symm.any_eq
  have hstale (x : Ring × Nat) : (L'.flatMap Task.stale).contains x = (L.flatMap Task.stale).contains x :=
    (hp.symm.flatMap_right _).contains_eq
  have hslot (r : Ring) : s.slotClaim L' r = s.slotClaim L r := by
    funext i
    simp only [State.slotClaim, hstale]
  refine ⟨fun x => ?_, h.entries, h.addresses, fun r i hi => ?_, fun t ht => h.locals t (hp.mem_iff.mpr ht), ?_, ?_, ?_,
    h.noFault⟩
  · rw [← h.counted x, State.claimsIn, State.claimsIn, hslot, hslot]
    exact (((hp.flatMap_right _).append_right _).count_eq x).symm
  · rw [h.pending r i hi]
    simp only [State.expectsIn, hany]
  · rw [hany]; exact h.stopped
  · rw [hany]; exact h.downTx
  · rw [hany, hany]; exact h.downRx

/-- `u` differs from `s` only in what the books do not speak of. -/
def SameLedger (s u : State) : Prop :=
  u = { s with
    isrLatch := u.isrLatch, pollSched := u.pollSched, pollRunning := u.pollRunning, txLock := u.txLock, rxErr := u.rxErr,
    txErr := u.txErr, lanes := u.lanes, fault := ⟨u.fault.dmaUnmapped, s.fault.pendEmpty, s.fault.pool⟩, hist := u.hist,
    desc := u.desc, buf := u.buf, isr := u.isr, txctl := u.txctl, rst := u.rst, lineEn := u.lineEn, dev := u.dev,
    script := u.script, draws := u.draws, tick := u.tick, cur := u.cur, slice := u.slice }

theorem Books.congr {s u : State} {L : List Task} (h : Books s L) (hu : SameLedger s u) : Books u L := by
  rw [hu]
  exact ⟨h.counted, h.entries, h.addresses, h.pending, h.locals, h.stopped, h.downTx, h.downRx, h.noFault⟩

end Sys2Proof.Machine
end

section
/-! PROOF. What a valid parameter set says of the rings and the windows (00_scope R7), and the invariants at reset. -/

namespace Sys2Proof.Machine

/-! ## A valid parameter set -/

/-- The constraints of R7 that the invariants rest on. -/
structure ValidConfig (c : Config) : Prop where
  size : ∀ r, 2 ≤ ringSize c r
  bufSize : c.bufSize ≤ 65535
  xlate : c.xlate.length = c.poolSize
  rings : apart (ringBase c .rx) (16 * c.nRx) (ringBase c .tx) (16 * c.nTx) = true
  wraps : ∀ h, h < c.poolSize → (xlateOf c h).toNat + c.bufSize ≤ 2 ^ 64
  windows : ∀ h k, h < k → k < c.poolSize → apart (xlateOf c h).toNat c.bufSize (xlateOf c k).toNat c.bufSize = true

theorem Config.valid {c : Config} (h : c.wf = true) : ValidConfig c := by
  simp only [Config.wf, Config.sizesOk, Config.poolOk, Config.ringsOk, Config.windowsOk, Bool.and_eq_true,
    decide_eq_true_eq, List.all_eq_true, List.pairwise_iff_getElem] at h
  obtain ⟨⟨⟨⟨⟨⟨⟨⟨hrx, -⟩, htx⟩, -⟩, ⟨⟨⟨-, -⟩, -⟩, hbuf⟩, hx⟩, -, hrings⟩, hwin, hpair⟩, -⟩, -⟩ := h
  have hget (k : Nat) (hk : k < c.poolSize) : xlateOf c k = c.xlate[k]'(hx ▸ hk) := by
    simp [xlateOf, hx, hk]
  refine ⟨fun r => ?_, hbuf, hx, hrings, fun k hk => ?_, fun j k hjk hk => ?_⟩
  · cases r
    · exact hrx
    · exact htx
  · rw [hget k hk]
    exact (hwin _ (List.getElem_mem _)).1.1
  · rw [hget k hk, hget j (hjk.trans hk)]
    exact hpair j k _ _ hjk

/-! ## Reset (10_state R45) -/

theorem State.shaped_resetFor {c : Config} (h : c.wf = true) : (State.resetFor c).Shaped := by
  have hr := Config.valid h
  have hpos (r : Ring) : 0 < ringSize c r := Nat.lt_of_lt_of_le Nat.two_pos (hr.size r)
  exact ⟨List.length_replicate, List.length_replicate, List.length_replicate, List.length_replicate, hpos .rx, hpos .rx,
    hpos .tx, hpos .tx, rfl, rfl, BitVec.zero_and, .inl rfl⟩

theorem State.task?_resetFor (c : Config) (d : Ctx) : (State.resetFor c).task? d = none := by
  simp [State.task?, State.cont_resetFor]

theorem State.no_task_resetFor {c : Config} {d : Ctx} {t : Task} (h : (State.resetFor c).task? d = some t) : False := by
  cases (State.task?_resetFor c d).symm.trans h

theorem State.tasks_resetFor (c : Config) : (State.resetFor c).tasks = [] := by
  simp [State.tasks, State.task?_resetFor]

theorem State.exclusive_resetFor (c : Config) : (State.resetFor c).Exclusive where
  fits _ _ h := (State.no_task_resetFor h).elim
  lockHolder _ := nofun
  lockHeld _ _ h := (State.no_task_resetFor h).elim
  pollHeld := nofun
  pollRuns _ h := (State.no_task_resetFor h).elim
  up _ _ h := (State.no_task_resetFor h).elim
  down _ _ h := (State.no_task_resetFor h).elim

theorem State.books_resetFor (c : Config) : Books (State.resetFor c) [] where
  counted x := by
    have hnone (r : Ring) : (State.resetFor c).slotClaim [] r = fun _ => none := by
      funext i
      simp [State.slotClaim, State.pending_resetFor]
    simp [State.claimsIn, hnone, State.heldCount, State.buffer_resetFor]
  entries h := by rw [State.buffer_resetFor]; exact ⟨fun _ => rfl, fun hf => absurd rfl hf⟩
  addresses r i h a hp := by simp [State.pending_resetFor] at hp
  pending r i _ := by
    rw [State.pending_resetFor]
    cases r <;> simp [State.expectsIn, State.inWindow, State.count, State.ring, State.resetFor, subIndex]
  locals t ht := by cases ht
  stopped h := by cases h
  downTx _ _ := ⟨rfl, rfl⟩
  downRx _ _ _ := ⟨rfl, rfl⟩
  noFault := ⟨rfl, rfl⟩

theorem State.sound_resetFor {c : Config} (h : c.wf = true) : (State.resetFor c).Sound := by
  refine Books.sound_of h (State.shaped_resetFor h) (State.exclusive_resetFor c) ?_ fun d => ?_
  · rw [State.tasks_resetFor]
    exact State.books_resetFor c
  · rw [State.cont_resetFor]
    nofun

theorem State.devSound_resetFor (c : Config) : (State.resetFor c).DevSound := by
  have hany (p : Task → Bool) : (State.resetFor c).tasks.any p = false := by rw [State.tasks_resetFor]; rfl
  have hdown : (State.resetFor c).life ≠ .up := nofun
  constructor
  case slots => exact .nil
  case noDma => rfl
  case written => simp [State.tasks_resetFor]
  case addressed => simp [State.pending_resetFor]
  all_goals simp [hany, hdown]

/-- Settles O20: nothing is in progress, every buffer is free and every ring is empty. -/
theorem soundAtReset : Obligations.SoundAtReset :=
  ⟨fun c h => ⟨State.sound_resetFor h, State.devSound_resetFor c⟩,
    State.sound_resetFor State.reset_wf, State.devSound_resetFor Config.sample⟩

end Sys2Proof.Machine
end

section
/-! PROOF. Descriptor memory by slots (20_memory R60, R61): the descriptors of two slots share no byte. -/

namespace Sys2Proof.Machine

/-- What stands in one descriptor (10_state R25). -/
@[ext]
structure Descriptor where
  status : Word
  length : Word
  address : DAddr

/-- The descriptor of slot `i` of ring `r`. -/
def State.slotDesc (s : State) (r : Ring) (i : Nat) : Descriptor :=
  ⟨s.descRead32 (statusAddr s.cfg r i), s.descRead32 (lengthAddr s.cfg r i), s.descRead64 (bufferAddr s.cfg r i)⟩

theorem State.slotDesc_congr {s u : State} (hc : u.cfg = s.cfg) (hd : u.desc = s.desc) : u.slotDesc = s.slotDesc := by
  funext r i
  simp only [State.slotDesc, State.descRead32, State.descRead64, State.descByte, hc, hd]

theorem statusAddr_apart {c : Config} (hv : ValidConfig c) {r q : Ring} {i j : Nat} (hi : i < ringSize c r)
    (hj : j < ringSize c q) (hne : (r, i) ≠ (q, j)) :
    statusAddr c r i + 16 ≤ statusAddr c q j ∨ statusAddr c q j + 16 ≤ statusAddr c r i := by
  have hrings := hv.rings
  simp only [apart, Bool.or_eq_true, decide_eq_true_eq] at hrings
  simp only [statusAddr, Config.descSize]
  by_cases hrq : r = q
  · subst hrq
    have hij : i ≠ j := fun h => hne (by rw [h])
    omega
  · cases r <;> cases q <;> simp only [ringSize, not_true_eq_false, reduceCtorEq] at hi hj hrq <;> omega

section
variable {s : State} (hv : ValidConfig s.cfg) {r q : Ring} {i j : Nat} (hi : i < ringSize s.cfg r)
  (hj : j < ringSize s.cfg q) (hne : (r, i) ≠ (q, j))
include hv hi hj hne

/-- A 4-byte write inside one descriptor leaves every other descriptor alone. -/
theorem State.slotDesc_descWrite32_other {a : Nat} (v : Word) (ha : statusAddr s.cfg q j ≤ a)
    (ha' : a + 4 ≤ statusAddr s.cfg q j + 16) : (s.descWrite32 a v).slotDesc r i = s.slotDesc r i := by
  have h := statusAddr_apart hv hi hj hne
  simp only [State.slotDesc, State.descWrite32_cfg, lengthAddr, bufferAddr, Descriptor.mk.injEq]
  exact ⟨s.descRead32_descWrite32_apart v (by omega), s.descRead32_descWrite32_apart v (by omega),
    s.descRead64_descWrite32_apart v (by omega)⟩

theorem State.slotDesc_descWrite64_other {a : Nat} (v : DAddr) (ha : statusAddr s.cfg q j ≤ a)
    (ha' : a + 8 ≤ statusAddr s.cfg q j + 16) : (s.descWrite64 a v).slotDesc r i = s.slotDesc r i := by
  have h := statusAddr_apart hv hi hj hne
  simp only [State.slotDesc, State.descWrite64_cfg, lengthAddr, bufferAddr, Descriptor.mk.injEq]
  exact ⟨s.descRead32_descWrite64_apart v (by omega), s.descRead32_descWrite64_apart v (by omega),
    s.descRead64_descWrite64_apart v (by omega)⟩

end

section
variable (s : State) (r : Ring) (i : Nat)

theorem State.slotDesc_writeStatus_same (v : Word) :
    (s.descWrite32 (statusAddr s.cfg r i) v).slotDesc r i = { s.slotDesc r i with status := v } := by
  simp only [State.slotDesc, State.descWrite32_cfg, lengthAddr, bufferAddr, State.descRead32_descWrite32_same,
    Descriptor.mk.injEq, true_and]
  exact ⟨s.descRead32_descWrite32_apart v (by omega), s.descRead64_descWrite32_apart v (by omega)⟩

theorem State.slotDesc_writeLength_same (v : Word) :
    (s.descWrite32 (lengthAddr s.cfg r i) v).slotDesc r i = { s.slotDesc r i with length := v } := by
  simp only [State.slotDesc, State.descWrite32_cfg, lengthAddr, bufferAddr, State.descRead32_descWrite32_same,
    Descriptor.mk.injEq, true_and]
  exact ⟨s.descRead32_descWrite32_apart v (by omega), s.descRead64_descWrite32_apart v (by omega)⟩

theorem State.slotDesc_writeAddress_same (v : DAddr) :
    (s.descWrite64 (bufferAddr s.cfg r i) v).slotDesc r i = { s.slotDesc r i with address := v } := by
  simp only [State.slotDesc, State.descWrite64_cfg, lengthAddr, bufferAddr, State.descRead64_descWrite64_same,
    Descriptor.mk.injEq, and_true]
  exact ⟨s.descRead32_descWrite64_apart v (by omega), s.descRead32_descWrite64_apart v (by omega)⟩

end

/-- From `s` to `u` at most the descriptor of slot `j` of ring `q` has changed, and has become `d`. -/
structure DescriptorSet (s u : State) (q : Ring) (j : Nat) (d : Descriptor) : Prop where
  cfg : u.cfg = s.cfg
  same : u.slotDesc q j = d
  other : ∀ r i, i < ringSize s.cfg r → (r, i) ≠ (q, j) → u.slotDesc r i = s.slotDesc r i

section
variable {s : State} (hv : ValidConfig s.cfg) {q : Ring} {j : Nat} (hj : j < ringSize s.cfg q)
include hv hj

theorem descriptorSet_status (v : Word) :
    DescriptorSet s (s.descWrite32 (statusAddr s.cfg q j) v) q j { s.slotDesc q j with status := v } :=
  ⟨rfl, s.slotDesc_writeStatus_same q j v,
    fun _ _ hi hne => State.slotDesc_descWrite32_other hv hi hj hne v (by omega) (by omega)⟩

theorem descriptorSet_length (v : Word) :
    DescriptorSet s (s.descWrite32 (lengthAddr s.cfg q j) v) q j { s.slotDesc q j with length := v } :=
  ⟨rfl, s.slotDesc_writeLength_same q j v, fun _ _ hi hne =>
    State.slotDesc_descWrite32_other hv hi hj hne v (by simp only [lengthAddr]; omega) (by simp only [lengthAddr]; omega)⟩

theorem descriptorSet_address (v : DAddr) :
    DescriptorSet s (s.descWrite64 (bufferAddr s.cfg q j) v) q j { s.slotDesc q j with address := v } :=
  ⟨rfl, s.slotDesc_writeAddress_same q j v, fun _ _ hi hne =>
    State.slotDesc_descWrite64_other hv hi hj hne v (by simp only [bufferAddr]; omega) (by simp only [bufferAddr]; omega)⟩

end

end Sys2Proof.Machine
end

section
/-! PROOF. The slot cycle while the block is up (10_state R28, 42_receive_engine R142, 43_transmit_engine R157). -/

namespace Sys2Proof.Machine

/-! ## What a slot's state depends on -/

theorem State.inWindow_congr {s u : State} {r : Ring} (hc : u.cfg = s.cfg) (hh : (u.ring r).head = (s.ring r).head)
    (ht : (u.ring r).tail = (s.ring r).tail) (i : Nat) : u.inWindow r i = s.inWindow r i := by
  rw [Bool.eq_iff_iff, State.inWindow_iff, State.inWindow_iff]
  simp only [State.count, hc, hh, ht]

theorem State.slotState_eq (s : State) (r : Ring) (i : Nat) : s.slotState r i =
    if s.inWindow r i then (if ownBit (s.slotDesc r i).status then .armed else .completed) else .empty := rfl

theorem State.slotState_of_window {s u : State} {r : Ring} {i : Nat} (hw : u.inWindow r i = s.inWindow r i)
    (hd : s.inWindow r i = true → (u.slotDesc r i).status = (s.slotDesc r i).status) : u.slotState r i = s.slotState r i := by
  rw [State.slotState_eq, State.slotState_eq, hw]
  split
  · rw [hd ‹_›]
  · rfl

theorem State.slotState_empty_iff (s : State) (r : Ring) (i : Nat) : s.slotState r i = .empty ↔ s.inWindow r i = false := by
  rw [State.slotState_eq]
  cases s.inWindow r i with
  | false => simp
  | true => simp only [if_true]; split <;> simp

theorem State.slotDesc_setHead (s : State) (r : Ring) (i : Nat) : (s.setHead r i).slotDesc = s.slotDesc := by
  cases r <;> rfl

theorem State.slotDesc_setTail (s : State) (r : Ring) (i : Nat) : (s.setTail r i).slotDesc = s.slotDesc := by
  cases r <;> rfl

/-- The indices and descriptor memory. -/
def State.slots (s : State) : Config × (Nat × Nat) × (Nat × Nat) × Memory :=
  (s.cfg, (s.rx.head, s.rx.tail), (s.tx.head, s.tx.tail), s.desc)

theorem State.slotState_congr {s u : State} (h : u.slots = s.slots) (r : Ring) (i : Nat) :
    u.slotState r i = s.slotState r i := by
  simp only [State.slots, Prod.mk.injEq] at h
  obtain ⟨hc, ⟨hrh, hrt⟩, ⟨hth, htt⟩, hd⟩ := h
  refine State.slotState_of_window ?_ fun _ => by rw [State.slotDesc_congr hc hd]
  cases r
  · exact State.inWindow_congr (r := .rx) hc hrh hrt i
  · exact State.inWindow_congr (r := .tx) hc hth htt i

theorem State.setPending_slots (s : State) (r : Ring) (i : Nat) (e : Option (Nat × DAddr)) :
    (s.setPending r i e).slots = s.slots := by cases r <;> rfl

theorem State.drawMapOk_slots (s : State) : s.drawMapOk.2.slots = s.slots := by
  rw [State.drawMapOk_frame]
  rfl

/-! ## A micro-step -/

/-- Slot `i` of ring `r` moves from `s` to `u` as the operation `t` may move it. -/
def SlotMove (s : State) (t : Task) (u : State) (r : Ring) (i : Nat) : Prop :=
  u.slotState r i = s.slotState r i
    ∨ (s.slotState r i = .empty ∧ u.slotState r i ≠ .empty ∧ i = (s.ring r).head ∧ t.late r = true)
    ∨ (s.slotState r i = .completed ∧ u.slotState r i = .empty ∧ i = (s.ring r).tail ∧ t.consumes r = true)

theorem slotMove_of_slots {s u : State} {t : Task} (h : u.slots = s.slots) (r : Ring) (i : Nat) : SlotMove s t u r i :=
  .inl (State.slotState_congr h r i)

/-- A write inside the descriptor at the head moves no slot: the head is not in the window. -/
theorem slotMove_of_head {s u : State} {t : Task} {q : Ring} {d : Descriptor}
    (hd : DescriptorSet s u q (s.ring q).head d) (hr : ∀ r, u.ring r = s.ring r) (r : Ring) (i : Nat)
    (hi : i < ringSize s.cfg r) : SlotMove s t u r i := by
  refine .inl (State.slotState_of_window (State.inWindow_congr hd.cfg (by rw [hr]) (by rw [hr]) i) fun hw => ?_)
  rw [hd.other r i hi fun h => ?_]
  cases h
  rw [State.inWindow_head] at hw
  cases hw

theorem slotMove_of_advanceHead {s : State} (hs : s.Shaped) {t : Task} {q : Ring} (hl : t.late q = true)
    (hf : s.full q = false) (r : Ring) (i : Nat) (hi : i < ringSize s.cfg r) :
    SlotMove s t (s.setHead q (nextIndex (s.ring q).head (ringSize s.cfg q))) r i := by
  by_cases hrq : r = q
  · subst hrq
    by_cases hih : i = (s.ring r).head
    · refine .inr (.inl ⟨?_, ?_, hih, hl⟩)
      · rw [State.slotState_empty_iff, hih, State.inWindow_head]
      · rw [ne_eq, State.slotState_empty_iff, State.inWindow_nextHead hs hi hf, hih, beq_self_eq_true, Bool.or_true]
        nofun
    · refine .inl (State.slotState_of_window ?_ fun _ => ?_)
      · rw [State.inWindow_nextHead hs hi hf, beq_eq_false_iff_ne.mpr hih, Bool.or_false]
      · rw [State.slotDesc_setHead]
  · refine .inl (State.slotState_of_window ?_ fun _ => ?_)
    · exact State.inWindow_congr (by simp) (by rw [State.ring_setHead_other _ _ hrq]) (by rw [State.ring_setHead_other _ _ hrq]) i
    · rw [State.slotDesc_setHead]

theorem slotMove_of_advanceTail {s : State} (hs : s.Shaped) {t : Task} {q : Ring} (hc : t.consumes q = true)
    (he : s.empty q = false) (ho : ownBit (s.descRead32 (statusAddr s.cfg q (s.ring q).tail)) = false) (r : Ring) (i : Nat)
    (hi : i < ringSize s.cfg r) : SlotMove s t (s.setTail q (nextIndex (s.ring q).tail (ringSize s.cfg q))) r i := by
  by_cases hrq : r = q
  · subst hrq
    by_cases hit : i = (s.ring r).tail
    · refine .inr (.inr ⟨?_, ?_, hit, hc⟩)
      · rw [State.slotState, hit, State.inWindow_tail hs he, if_pos rfl, ho]
        rfl
      · rw [State.slotState_empty_iff, State.inWindow_nextTail hs hi he, hit, beq_self_eq_true, Bool.not_true,
          Bool.and_false]
    · refine .inl (State.slotState_of_window ?_ fun _ => ?_)
      · rw [State.inWindow_nextTail hs hi he, beq_eq_false_iff_ne.mpr hit, Bool.not_false, Bool.and_true]
      · rw [State.slotDesc_setTail]
  · refine .inl (State.slotState_of_window ?_ fun _ => ?_)
    · exact State.inWindow_congr (by simp) (by rw [State.ring_setTail_other _ _ hrq]) (by rw [State.ring_setTail_other _ _ hrq]) i
    · rw [State.slotDesc_setTail]

section
variable {s u : State} (hv : ValidConfig s.cfg) (hs : s.Shaped)
include hv hs

theorem slotMove_refill {W : RefillPc → Task} (hW : Fills W) {p p' : RefillPc} (hok : p.ok s) (hm : RefillMicro s p u p')
    (r : Ring) (i : Nat) (hi : i < ringSize s.cfg r) : SlotMove s (W p) u r i := by
  cases hm with
  | mapped => exact slotMove_of_slots s.drawMapOk_slots r i
  | mapFailed => exact slotMove_of_slots s.drawMapOk_slots r i
  | address => exact slotMove_of_head (descriptorSet_address hv (hs.head .rx) _) (fun _ => rfl) r i hi
  | length =>
    obtain ⟨-, -, hat⟩ := hok
    obtain rfl := beq_iff_eq.mp hat
    exact slotMove_of_head (descriptorSet_length hv (hs.head .rx) _) (fun _ => rfl) r i hi
  | status =>
    obtain ⟨-, -, hat⟩ := hok
    obtain rfl := beq_iff_eq.mp hat
    exact slotMove_of_head (descriptorSet_status hv (hs.head .rx) _) (fun _ => rfl) r i hi
  | recorded => exact slotMove_of_slots (s.setPending_slots ..) r i
  | @advanced n =>
    obtain ⟨hf, rfl⟩ := hok
    exact slotMove_of_advanceHead (q := .rx) hs (by cases hW <;> rfl) hf r i hi
  | _ => exact slotMove_of_slots rfl r i

omit hv in
theorem slotMove_drain {b : Nat} {W : DrainPc → Task} (hW : Drains b W) {p p' : DrainPc} (hok : p.ok s)
    (hown : (W p).consumes .rx = true → ownBit (s.descRead32 (statusAddr s.cfg .rx s.rx.tail)) = false)
    (hm : DrainMicro s p u p') (r : Ring) (i : Nat) (hi : i < ringSize s.cfg r) : SlotMove s (W p) u r i := by
  cases hm with
  | noEntry hp => exact slotMove_of_slots (by simp [State.slots]) r i
  | cleared => exact slotMove_of_slots (s.setPending_slots ..) r i
  | @advanced w =>
    have hc : (W (.g7 w)).consumes .rx = true := by cases hW <;> rfl
    exact slotMove_of_advanceTail (q := .rx) hs hc hok (hown hc) r i hi
  | _ => exact slotMove_of_slots rfl r i

omit hv in
theorem slotMove_reclaim {c : Ctx} {W : ReclaimPc → Task} (hW : Reclaims W) {p p' : ReclaimPc} (hok : p.ok s)
    (hown : (W p).consumes .tx = true → ownBit (s.descRead32 (statusAddr s.cfg .tx s.tx.tail)) = false)
    (hm : ReclaimMicro c s p u p') (r : Ring) (i : Nat) (hi : i < ringSize s.cfg r) : SlotMove s (W p) u r i := by
  cases hm with
  | noEntry hp => exact slotMove_of_slots (by simp [State.slots]) r i
  | cleared => exact slotMove_of_slots (s.setPending_slots ..) r i
  | @advanced f n =>
    have hc : (W (.y7 f n)).consumes .tx = true := by cases hW <;> rfl
    exact slotMove_of_advanceTail (q := .tx) hs hc hok.1 (hown hc) r i hi
  | woken =>
    refine slotMove_of_slots ?_ r i
    unfold State.wakeIf
    split <;> rfl
  | _ => exact slotMove_of_slots rfl r i

theorem slotMove_micro {c : Ctx} {t : Task} {k : Cont} (hok : t.ok s) (hdown : t.needsDown = false)
    (hown : ∀ q, t.consumes q = true → ownBit (s.descRead32 (statusAddr s.cfg q (s.ring q).tail)) = false)
    (hm : Micro c s t u k) (r : Ring) (i : Nat) (hi : i < ringSize s.cfg r) : SlotMove s t u r i := by
  cases hm with
  | stop hx hf =>
    refine slotMove_of_slots ?_ r i
    rw [hf.frame]
    rfl
  | fill hW h => exact slotMove_refill hv hs hW ((hW.ok s _).mp hok) h r i hi
  | filled h => cases h <;> exact slotMove_of_slots rfl r i
  | drain hW h => exact slotMove_drain hs hW ((hW.ok s _).mp hok) (hown .rx) h r i hi
  | drained h => cases h <;> exact slotMove_of_slots rfl r i
  | reclaim hW h => exact slotMove_reclaim hs hW ((hW.ok s _).mp hok) (hown .tx) h r i hi
  | submitMapped => exact slotMove_of_slots s.drawMapOk_slots r i
  | submitMapFailed => exact slotMove_of_slots s.drawMapOk_slots r i
  | submitAddress => exact slotMove_of_head (descriptorSet_address hv (hs.head .tx) _) (fun _ => rfl) r i hi
  | submitLength =>
    obtain ⟨-, -, hat⟩ := hok
    obtain rfl := beq_iff_eq.mp hat
    exact slotMove_of_head (descriptorSet_length hv (hs.head .tx) _) (fun _ => rfl) r i hi
  | submitStatus =>
    obtain ⟨-, -, hat⟩ := hok
    obtain rfl := beq_iff_eq.mp hat
    exact slotMove_of_head (descriptorSet_status hv (hs.head .tx) _) (fun _ => rfl) r i hi
  | submitRecorded => exact slotMove_of_slots (s.setPending_slots ..) r i
  | submitAdvanced =>
    obtain ⟨hf, rfl⟩ := hok
    exact slotMove_of_advanceHead (q := .tx) hs rfl hf r i hi
  | irqSchedule =>
    refine slotMove_of_slots ?_ r i
    unfold State.schedulePoll
    split <;> rfl
  | irqLink =>
    refine slotMove_of_slots ?_ r i
    unfold State.reportIf
    split <;> rfl
  | irqErr =>
    refine slotMove_of_slots ?_ r i
    unfold State.reportIf
    split <;> rfl
  | resetPending ha => cases hdown
  | resetTimedOut => cases hdown
  | resetAcked ha => cases hdown
  | slotCleared => cases hdown
  | latchesCleared => cases hdown
  | indicesZeroed => cases hdown
  | slotFreed hp => cases hdown
  | _ => exact slotMove_of_slots rfl r i

end

theorem State.mem_tasks {s : State} (hs : s.Shaped) {c : Ctx} {t : Task} (ht : s.task? c = some t) : t ∈ s.tasks := by
  obtain ⟨q, hl⟩ := State.lane_of_task? ht
  exact List.mem_filterMap.mpr ⟨c, State.mem_ctxs hs.up hl, ht⟩

theorem slotMove_microStep {s : State} (h : s.Sound) (hd : s.DevSound) (hup : s.life = .up) {c : Ctx} {t : Task}
    (ht : s.task? c = some t) (r : Ring) (i : Nat) (hi : i < ringSize s.cfg r) : SlotMove s t (microStep c s) r i := by
  have hmem := State.mem_tasks h.shaped ht
  obtain ⟨q, hl⟩ := State.lane_of_task? ht
  obtain hm | ⟨u, k, hm, -, hs⟩ := microStep_cases hl
  · rw [hm]
    exact .inl rfl
  · have hsl : (microStep c s).slots = u.slots := by
      obtain hs | ⟨code, n, hs⟩ := hs <;> rw [hs] <;> simp [State.slots]
    have hmove := slotMove_micro (Config.valid h.wf) h.shaped (h.ring.locals t hmem)
      (h.exclusive.not_needsDown ht hup) (fun q hq => hd.consumed q (List.any_eq_true.mpr ⟨t, hmem, hq⟩)) hm r i hi
    rwa [SlotMove, State.slotState_congr hsl]

/-! ## An access of the device -/

theorem ownBit_rxDoneStatus (st : Word) (e : Bool) : ownBit (rxDoneStatus st e) = false := by
  cases e <;> simp [ownBit, rxDoneStatus, errFlag, stOwn, stSop, stEop, stErr]

theorem ownBit_txDoneStatus (st : Word) (e : Bool) : ownBit (txDoneStatus st e) = false := by
  cases e <;> simp [ownBit, txDoneStatus, errFlag, stOwn, stErr]

/-- From `s` to `u` slot `(r, i)` stays, or the completion of `(q, j)` has handed it back. -/
def DeviceSlotMove (s u : State) (q : Ring) (j : Nat) (r : Ring) (i : Nat) : Prop :=
  u.slotState r i = s.slotState r i ∨ (s.slotState r i = .armed ∧ u.slotState r i = .completed ∧ (q, j) = (r, i))

theorem deviceSlotMove_of_set {s u : State} {q : Ring} {j : Nat} {d : Descriptor} (hd : DescriptorSet s u q j d)
    (hr : ∀ r, u.ring r = s.ring r) (hown : ownBit (s.slotDesc q j).status = true)
    (hst : d.status = (s.slotDesc q j).status ∨ ownBit d.status = false) {r : Ring} {i : Nat}
    (hi : i < ringSize s.cfg r) : DeviceSlotMove s u q j r i := by
  have hw : u.inWindow r i = s.inWindow r i := State.inWindow_congr hd.cfg (by rw [hr]) (by rw [hr]) i
  by_cases hne : (r, i) = (q, j)
  · cases hne
    obtain hst | hst := hst
    · exact .inl (State.slotState_of_window hw fun _ => by rw [hd.same, hst])
    · simp only [DeviceSlotMove, State.slotState_eq, hw, hd.same, hst, hown]
      cases s.inWindow q j <;> simp
  · exact .inl (State.slotState_of_window hw fun _ => by rw [hd.other r i hi hne])

theorem State.devMemWrite_slots (s : State) (a : Nat) (v : Byte) : (s.devMemWrite a v).slots = s.slots := by
  unfold State.devMemWrite
  split
  · split
    · rfl
    · simp [State.slots]
  · simp [State.slots]

theorem deviceSlotMove_op {s : State} (hv : ValidConfig s.cfg) {o : DevOp} (hok : o.ok s) {r : Ring} {i : Nat}
    (hi : i < ringSize s.cfg r) : DeviceSlotMove s (devOpStep o s).1 o.slot.1 o.slot.2 r i := by
  cases o with
  | rx j len err bytes seed p =>
    obtain ⟨hj, hown, -⟩ := hok
    cases p with
    | v1len st => exact .inl rfl
    | v1addr st cap => exact .inl rfl
    | v2 st cap a k =>
      refine .inl (State.slotState_congr ?_ r i)
      simp only [devOpStep, devRxStep]
      split
      · exact s.devMemWrite_slots ..
      · rfl
    | v3 st => exact deviceSlotMove_of_set (descriptorSet_length hv (q := .rx) hj len) (fun _ => rfl) hown (.inl rfl) hi
    | v4 st =>
      exact deviceSlotMove_of_set (descriptorSet_status hv (q := .rx) hj _) (fun _ => rfl) hown
        (.inr (ownBit_rxDoneStatus st err)) hi
  | tx j err p =>
    obtain ⟨hj, hown, -⟩ := hok
    cases p with
    | w1len st => exact .inl rfl
    | w1addr st len => exact .inl rfl
    | w2 st len a b =>
      refine .inl (State.slotState_congr ?_ r i)
      simp only [devOpStep, devTxStep]
      split
      · split
        · rfl
        · simp [State.slots]
      · rfl
    | w3 st =>
      exact deviceSlotMove_of_set (descriptorSet_status hv (q := .tx) hj _) (fun _ => rfl) hown
        (.inr (ownBit_txDoneStatus st err)) hi

/-- What is left of completion `j` goes back into its place. -/
def DevOp.putBack (l : List DevOp) (j : Nat) : Option DevOp → List DevOp
  | some o => l.set j o
  | none => l.eraseIdx j

/-- An access changes what its completion's step changes, and that completion. -/
theorem State.devStep_cases (s : State) (j : Nat) : s.devStep j = s ∨ ∃ o, s.life = .up ∧ s.dev[j]? = some o ∧
    s.devStep j = { (devOpStep o s).1 with dev := DevOp.putBack (devOpStep o s).1.dev j (devOpStep o s).2 } := by
  unfold State.devStep
  split
  · rename_i hup
    cases ho : s.dev[j]? with
    | none => exact .inl rfl
    | some o =>
      refine .inr ⟨o, hup, rfl, ?_⟩
      rcases hx : devOpStep o s with ⟨u, _ | o'⟩ <;> simp only [hx, DevOp.putBack]
  · exact .inl rfl

theorem deviceSlotMove_devStep {s : State} (h : s.Sound) (hd : s.DevSound) (j : Nat) {r : Ring} {i : Nat}
    (hi : i < ringSize s.cfg r) : (s.devStep j).slotState r i = s.slotState r i
      ∨ (s.slotState r i = .armed ∧ (s.devStep j).slotState r i = .completed ∧ ∃ o, s.dev[j]? = some o ∧ o.slot = (r, i)) := by
  obtain hj | ⟨o, hup, ho, hj⟩ := s.devStep_cases j
  · rw [hj]
    exact .inl rfl
  · have hok := hd.ops hup o (List.mem_of_getElem? ho)
    have hsl : (s.devStep j).slots = (devOpStep o s).1.slots := by rw [hj]; rfl
    rw [State.slotState_congr hsl]
    obtain hm | ⟨ha, hc, hs⟩ := deviceSlotMove_op (Config.valid h.wf) hok hi
    · exact .inl hm
    · exact .inr ⟨ha, hc, o, ho, hs⟩

/-! ## The other moves -/

theorem Unseen.slots {s t : State} (h : Unseen s t) : t.slots = s.slots := by
  rw [h.frame]
  rfl

theorem slots_moveTurn {m : Move} {s t : State} (hr : ∀ c k, m ≠ .run c k) (hd : ∀ j k, m ≠ .device j k)
    (hx : moveTurn m s = .done t) : t.slots = s.slots := by
  cases m with
  | run c more => exact absurd rfl (hr c more)
  | device j more => exact absurd rfl (hd j more)
  | offer c w => cases hx; exact (unseen_offer ..).slots
  | rxComplete i len err bytes => cases hx; unfold State.devRxStart; split <;> rfl
  | txComplete i err => cases hx; unfold State.devTxStart; split <;> rfl
  | resetAck v => cases hx; unfold State.devResetAck; split <;> rfl
  | fill k g off bytes => cases hx; unfold State.upstreamFill; split <;> rfl
  | _ => cases hx; rfl

theorem slots_exec {i : Instr} {s t : State} (hs : s.slice = 0) (hx : exec i s = .next t) : t.slots = s.slots := by
  rw [exec_eq_issue] at hx
  unfold issue at hx
  split at hx <;> [skip; cases hx]
  split at hx <;> [skip; (cases hx; exact (unseen_offer ..).slots)]
  split at hx <;> [skip; (cases hx; rfl)]
  cases ha : acceptance i s with
  | reject k =>
    rw [ha] at hx
    cases hx
    rfl
  | start t0 s0 =>
    obtain ⟨-, b, rfl⟩ := acceptance_start ha
    rw [ha, hs] at hx
    cases hx
    simp [State.slots, runFor]

/-- Settles O23: only head and tail advances move the window, only the device clears `OWN` in it. -/
theorem slotCycle : Obligations.SlotCycle := by
  intro s h hd hup
  refine ⟨fun c r i hi => ?_, fun j r i hi => deviceSlotMove_devStep h hd j hi,
    fun m t hr hdev hx r i => State.slotState_congr (slots_moveTurn hr hdev hx) r i,
    fun i t hs hx r k => State.slotState_congr (slots_exec hs hx) r k⟩
  cases hr : s.running c with
  | false => exact .inl (by rw [microStep_not_running hr])
  | true =>
    obtain ⟨t, q, hl⟩ := State.lane_of_running hr
    have ht := State.task?_of_lane hl
    obtain hm | ⟨he, hne, hi', hl'⟩ | ⟨hc, he, hi', hc'⟩ := slotMove_microStep h hd hup ht r i hi
    · exact .inl hm
    · exact .inr (.inl ⟨he, hne, hi', t, ht, hl'⟩)
    · exact .inr (.inr ⟨hc, he, hi', t, ht, hc'⟩)

end Sys2Proof.Machine
end

section
/-! PROOF. How one operation's step moves the books: what an operation adds to them, and the rules for a step that
leaves both rings as they are and for a step on one ring. -/

namespace Sys2Proof.Machine

/-! ## What an operation adds to the books -/

/-- Where an operation stands on one ring. -/
structure Phase where
  early : Bool
  late : Bool
  swept : Nat → Bool
  stale : Nat → Bool

/-- No slot of the ring is in between. -/
@[simp] def Phase.clear : Phase := ⟨false, false, fun _ => false, fun _ => false⟩

/-- The slot at the head is recorded and the head not yet advanced. -/
@[simp] def Phase.recorded : Phase := ⟨false, true, fun _ => false, fun _ => false⟩

/-- The entry of slot `i` no longer stands for a buffer. -/
@[simp] def Phase.taken (i : Nat) : Phase := ⟨false, false, fun _ => false, fun j => j == i⟩

/-- The slot at the tail is cleared and the tail not yet advanced. -/
@[simp] def Phase.emptied : Phase := ⟨true, false, fun _ => false, fun _ => false⟩

def Task.phase (t : Task) (r : Ring) : Phase := ⟨t.early r, t.late r, t.swept r, fun i => t.stale.contains (r, i)⟩

theorem Task.phase_of_off {t : Task} {r : Ring} (h : t.on r = false) : t.phase r = .clear := by
  have hc := Task.clear_of_off h
  simp only [Task.phase, Phase.clear, Phase.mk.injEq]
  exact ⟨hc.early, hc.late, funext hc.swept, funext fun i => by simpa using hc.stale i⟩

section
variable {s u : State} {t t' : Task} {O : List Task} {r : Ring} {i : Nat}

theorem State.expectsIn_cons : s.expectsIn (t :: O) r i
    = (((s.inWindow r i && !(((t.phase r).early || O.any (·.early r)) && i == (s.ring r).tail))
        || (((t.phase r).late || O.any (·.late r)) && i == (s.ring r).head))
      && !((t.phase r).swept i || O.any (·.swept r i))) := rfl

theorem State.slotClaim_cons : s.slotClaim (t :: O) r i
    = if (t.phase r).stale i = true ∨ (r, i) ∈ O.flatMap Task.stale then none
      else (s.pending r i).map fun e => (e.1, some (ringDir r)) := by
  simp only [State.slotClaim, Task.phase, List.flatMap_cons, List.contains_iff_mem, List.mem_append]

theorem State.expectsIn_congr (hc : u.cfg = s.cfg) (hr : u.ring r = s.ring r) (hp : t'.phase r = t.phase r) :
    u.expectsIn (t' :: O) r i = s.expectsIn (t :: O) r i := by
  rw [State.expectsIn_cons, State.expectsIn_cons, hp, hr, State.inWindow_congr hc (by rw [hr]) (by rw [hr])]

theorem State.slotClaim_congr (hpend : (u.ring r).pend = (s.ring r).pend) (hp : (t'.phase r).stale = (t.phase r).stale) :
    u.slotClaim (t' :: O) r = s.slotClaim (t :: O) r := by
  funext i
  rw [State.slotClaim_cons, State.slotClaim_cons, hp, State.pending, State.pending, hpend]

/-- Only the operation inside a ring matters to what its slots are to hold. -/
theorem State.expectsIn_off (hO : Off O r) : s.expectsIn (t :: O) r i
    = (((s.inWindow r i && !((t.phase r).early && i == (s.ring r).tail)) || ((t.phase r).late && i == (s.ring r).head))
      && !(t.phase r).swept i) := by
  have hno (f : Task → Bool) (hf : ∀ t ∈ O, f t = false) : O.any f = false := by simpa using hf
  rw [State.expectsIn_cons, hno _ fun t ht => (Task.clear_of_off (hO t ht)).early,
    hno _ fun t ht => (Task.clear_of_off (hO t ht)).late, hno _ fun t ht => (Task.clear_of_off (hO t ht)).swept i,
    Bool.or_false, Bool.or_false, Bool.or_false]

theorem State.slotClaim_off (hO : Off O r) : s.slotClaim (t :: O) r i
    = if (t.phase r).stale i = true then none else (s.pending r i).map fun e => (e.1, some (ringDir r)) := by
  have hno : (r, i) ∉ O.flatMap Task.stale := by
    rw [List.mem_flatMap]
    rintro ⟨t, ht, hi⟩
    exact (Task.clear_of_off (hO t ht)).stale i hi
  rw [State.slotClaim_cons]
  simp only [hno, or_false]

end

/-! ## Counting claims -/

/-- How often a ring's slots make the claim `x`. -/
def State.slotCount (s : State) (L : List Task) (r : Ring) (x : Claim) : Nat :=
  (List.range (ringSize s.cfg r)).countP fun i => s.slotClaim L r i == some x

theorem State.count_claimsIn (s : State) (L : List Task) (x : Claim) :
    (s.claimsIn L).count x = (L.flatMap Task.claims).count x + (s.slotCount L .rx x + s.slotCount L .tx x) := by
  simp only [State.claimsIn, List.count_append, List.count_filterMap, State.slotCount]

theorem State.slotCount_congr {s u : State} {L L' : List Task} {r : Ring} (hc : u.cfg = s.cfg)
    (h : u.slotClaim L' r = s.slotClaim L r) (x : Claim) : u.slotCount L' r x = s.slotCount L r x := by
  rw [State.slotCount, State.slotCount, hc, h]

/-- When one slot's claim changes, the count changes by it. -/
theorem State.slotCount_update {s u : State} {L L' : List Task} {r : Ring} {i : Nat} (hc : u.cfg = s.cfg)
    (hi : i < ringSize s.cfg r) (h : ∀ j, j ≠ i → u.slotClaim L' r j = s.slotClaim L r j) (x : Claim) :
    u.slotCount L' r x + (s.slotClaim L r i).toList.count x = s.slotCount L r x + (u.slotClaim L' r i).toList.count x := by
  have hcount (o : Option Claim) : o.toList.count x = (o == some x).toNat := by
    cases o with
    | none => rfl
    | some y =>
      by_cases hy : y = x
      · simp [hy]
      · simp [hy, beq_eq_false_iff_ne.mpr hy]
  have hu := countP_update (p := fun j => s.slotClaim L r j == some x) (q := fun j => u.slotClaim L' r j == some x)
    (List.nodup_range (n := ringSize s.cfg r)) (List.mem_range.mpr hi) fun j hj => by rw [h j hj]
  rw [State.slotCount, State.slotCount, hc, hcount, hcount]
  exact hu

/-- The claim that stands behind a pool entry, if an engine holds the buffer. -/
def PoolEntry.claim (h : Nat) (e : PoolEntry) : List Claim := if e.own = .eng then [(h, e.map)] else []

theorem State.heldCount_eq (s : State) (x : Claim) : s.heldCount x = ((s.buffer x.1).claim x.1).count x := by
  simp only [State.heldCount, PoolEntry.claim]
  by_cases ho : (s.buffer x.1).own = .eng
  · by_cases hm : (s.buffer x.1).map = x.2
    · simp [ho, hm]
    · have : (x.1, (s.buffer x.1).map) ≠ x := fun h => hm (congrArg Prod.snd h)
      simp [ho, hm, this]
  · simp [ho]

theorem State.heldCount_setBuffer {s : State} {h : Nat} (e : PoolEntry) (hl : h < s.pool.length) (x : Claim) :
    (s.setBuffer h e).heldCount x + ((s.buffer h).claim h).count x = s.heldCount x + (e.claim h).count x := by
  rw [State.heldCount_eq, State.heldCount_eq]
  by_cases hx : x.1 = h
  · rw [hx, s.buffer_setBuffer_same e hl]
    exact Nat.add_comm ..
  · have hzero (f : PoolEntry) : (f.claim h).count x = 0 := by
      refine List.count_eq_zero.mpr fun hm => hx ?_
      unfold PoolEntry.claim at hm
      split at hm
      · exact congrArg Prod.fst (List.mem_singleton.mp hm)
      · cases hm
    rw [s.buffer_setBuffer_other e hx, hzero, hzero]

/-! ## What stands in the books is so -/

theorem Books.held {L : List Task} (h : Books s L) {x : Claim} (hx : x ∈ s.claimsIn L) :
    (s.buffer x.1).own = .eng ∧ (s.buffer x.1).map = x.2 := by
  have hpos := List.count_pos_iff.mpr hx
  rw [h.counted x, State.heldCount] at hpos
  by_contra hn
  rw [if_neg hn] at hpos
  exact hpos.false

theorem State.lt_pend_of_pending {s : State} {r : Ring} {i k : Nat} {a : DAddr} (hp : s.pending r i = some (k, a)) :
    i < (s.ring r).pend.length := by
  by_contra hn
  simp [State.pending, Nat.le_of_not_lt hn] at hp

theorem State.Shaped.lt_of_pending {s : State} {r : Ring} {i k : Nat} {a : DAddr} (hs : s.Shaped)
    (hp : s.pending r i = some (k, a)) : i < ringSize s.cfg r :=
  hs.pend r ▸ State.lt_pend_of_pending hp

section
variable {s : State} {t : Task} {O : List Task} (h : Books s (t :: O))
include h

theorem Books.held_of_claim {x : Claim} (hx : x ∈ t.claims) : (s.buffer x.1).own = .eng ∧ (s.buffer x.1).map = x.2 := by
  refine h.held ?_
  simp only [State.claimsIn, List.flatMap_cons, List.mem_append]
  exact .inl (.inl hx)

theorem Books.held_of_pending {r : Ring} {i k : Nat} {a : DAddr} (hs : s.Shaped) (hO : Off O r)
    (hst : (t.phase r).stale i = false) (hp : s.pending r i = some (k, a)) :
    (s.buffer k).own = .eng ∧ (s.buffer k).map = some (ringDir r) := by
  have hi := hs.lt_of_pending hp
  have hc : s.slotClaim (t :: O) r i = some (k, some (ringDir r)) := by
    rw [State.slotClaim_off hO, hst, hp]
    rfl
  refine h.held (x := (k, some (ringDir r))) ?_
  have hmem : (k, some (ringDir r)) ∈ (List.range (ringSize s.cfg r)).filterMap (s.slotClaim (t :: O) r) :=
    List.mem_filterMap.mpr ⟨i, List.mem_range.mpr hi, hc⟩
  simp only [State.claimsIn, List.mem_append]
  cases r
  · exact .inr (.inl hmem)
  · exact .inr (.inr hmem)

end

end Sys2Proof.Machine
end

section
/-! PROOF. The rule for one operation's step in the books. -/

namespace Sys2Proof.Machine

/-! ## The operations beside it -/

theorem State.full_congr {s u : State} {r : Ring} (hc : u.cfg = s.cfg) (hr : u.ring r = s.ring r) : u.full r = s.full r := by
  simp only [State.full, hc, hr]

theorem State.empty_congr {s u : State} {r : Ring} (hr : u.ring r = s.ring r) : u.empty r = s.empty r := by
  simp only [State.empty, hr]

theorem State.pending_congr {s u : State} {r : Ring} (hr : u.ring r = s.ring r) : u.pending r = s.pending r := by
  funext i
  simp only [State.pending, hr]

theorem State.atTail_congr {s u : State} {r : Ring} (hr : u.ring r = s.ring r) (i h : Nat) :
    u.atTail r i h ↔ s.atTail r i h := by
  rw [State.atTail, State.atTail, State.empty_congr hr, State.pending_congr hr, hr]

section
variable {s u : State} (hc : u.cfg = s.cfg)
include hc

theorem RefillPc.ok_congr (hr : u.ring .rx = s.ring .rx) (p : RefillPc) : p.ok u ↔ p.ok s := by
  have hh : u.rx.head = s.rx.head := congrArg RingRegs.head hr
  cases p <;> simp only [RefillPc.ok, State.full_congr hc hr, hh, hc]

omit hc in
theorem PeekPc.ok_congr {r : Ring} (hr : u.ring r = s.ring r) (p : PeekPc) : p.ok u r ↔ p.ok s r := by
  cases p <;> simp only [PeekPc.ok, State.empty_congr hr, hr]

omit hc in
theorem DrainPc.ok_congr (hr : u.ring .rx = s.ring .rx) (p : DrainPc) : p.ok u ↔ p.ok s := by
  have ht : u.rx.tail = s.rx.tail := congrArg RingRegs.tail hr
  cases p <;> simp only [DrainPc.ok, State.empty_congr hr, PeekPc.ok_congr hr, State.atTail_congr hr, ht]

theorem SubmitPc.ok_congr (hr : u.ring .tx = s.ring .tx) (h : Nat) (p : SubmitPc) : p.ok u h ↔ p.ok s h := by
  have hh : u.tx.head = s.tx.head := congrArg RingRegs.head hr
  cases p <;> simp only [SubmitPc.ok, State.full_congr hc hr, hh, hc]

theorem ReclaimPc.ok_congr (hr : u.ring .tx = s.ring .tx) (hst : u.txStopped = s.txStopped) (p : ReclaimPc) :
    p.ok u ↔ p.ok s := by
  have ht : u.tx.tail = s.tx.tail := congrArg RingRegs.tail hr
  cases p <;> simp only [ReclaimPc.ok, State.wakeOwed, State.empty_congr hr, State.full_congr hc hr, PeekPc.ok_congr hr,
    State.atTail_congr hr, ht, hst]

/-- An operation's locals go on agreeing with the rings when the rings it is inside of stay as they are. -/
theorem Task.ok_congr {t : Task} (hrx : t.on .rx = true → u.ring .rx = s.ring .rx)
    (htx : t.on .tx = true → u.ring .tx = s.ring .tx ∧ u.txStopped = s.txStopped) (h : t.ok s) : t.ok u := by
  have reclaims (p : ReclaimPc) (hlive : p.live = true → u.ring .tx = s.ring .tx ∧ u.txStopped = s.txStopped)
      (h : p.ok s) : p.ok u := by
    cases p with
    | y1 => trivial
    | y2 => trivial
    | _ => exact (ReclaimPc.ok_congr hc (hlive rfl).1 (hlive rfl).2 _).mpr h
  have submits (k : Nat) (p : SubmitPc) (hon : (Task.submit k p).on .tx = true → u.ring .tx = s.ring .tx)
      (h : p.ok s k) : p.ok u k := by
    cases p with
    | x1 => trivial
    | x2 => trivial
    | _ => exact (SubmitPc.ok_congr hc (hon rfl) k _).mpr h
  cases t with
  | refill p => exact (RefillPc.ok_congr hc (hrx rfl) p).mpr h
  | drain b p => exact (DrainPc.ok_congr (hrx rfl) p).mpr h
  | submit k p => exact submits k p (fun hon => (htx hon).1) h
  | reclaim p => exact reclaims p (fun hl => htx (p.live_eq_on.trans hl)) h
  | irq p =>
    cases p with
    | i4r v p => exact reclaims p (fun hl => htx (p.live_eq_on.trans hl)) h
    | _ => trivial
  | poll b p =>
    cases p with
    | l1 p => exact (DrainPc.ok_congr (hrx rfl) p).mpr h
    | l2 w p => exact (RefillPc.ok_congr hc (hrx rfl) p).mpr h
    | _ => trivial
  | bringup p =>
    cases p with
    | b4 p => exact (RefillPc.ok_congr hc (hrx rfl) p).mpr h
    | _ => trivial
  | _ => trivial

end

/-! ## The rule -/

/-- Ring `r` and what the operation has left in between there stay as they are. -/
structure RingStays (s u : State) (t t' : Task) (r : Ring) : Prop where
  ring : u.ring r = s.ring r
  phase : t'.phase r = t.phase r
  stopped : r = .tx → u.txStopped = s.txStopped

/-- Ring `r`, which no other operation is inside of, is in order after the step. -/
structure RingMoves (O : List Task) (u : State) (t' : Task) (r : Ring) : Prop where
  off : Off O r
  pending : ∀ i, i < ringSize u.cfg r → (u.pending r i).isSome = u.expectsIn (t' :: O) r i
  addresses : ∀ i h a, u.pending r i = some (h, a) → a = xlateOf u.cfg h

/-- The claims of both rings' slots. -/
def State.slotTotal (s : State) (L : List Task) (x : Claim) : Nat := s.slotCount L .rx x + s.slotCount L .tx x

/-- A stopped queue is full or a wake is on its way (R159). -/
def State.heldBack (s : State) (L : List Task) : Prop :=
  s.txStopped = true → s.full .tx = true ∨ L.any Task.owesWake = true

/-- The rings are empty while `DOWN`, but for BRINGUP's filling and TEARDOWN's emptying (R190). -/
def State.rested (s : State) (L : List Task) : Prop :=
  s.life = .down → L.any Task.sweeps = false →
    (s.tx.head = 0 ∧ s.tx.tail = 0) ∧ (L.any Task.prefills = false → s.rx.head = 0 ∧ s.rx.tail = 0)

section
variable {s u : State} {t t' : Task} {O : List Task}

theorem Books.rested (h : Books s O) : s.rested O := fun hl hs => ⟨h.downTx hl hs, h.downRx hl hs⟩

/-- The books after one operation's step. -/
theorem Books.step (h : Books s (t :: O)) (hc : u.cfg = s.cfg)
    (hfault : u.fault.pool = s.fault.pool ∧ u.fault.pendEmpty = s.fault.pendEmpty)
    (hring : ∀ r, RingStays s u t t' r ∨ RingMoves O u t' r)
    (hcount : ∀ x, u.heldCount x + (t.claims.count x + s.slotTotal (t :: O) x)
      = s.heldCount x + (t'.claims.count x + u.slotTotal (t' :: O) x))
    (hent : ∀ k, (u.buffer k).Ok s.cfg) (hok : t'.ok u) (hstop : u.heldBack (t' :: O)) (hrest : u.rested (t' :: O)) :
    Books u (t' :: O) where
  counted x := by
    have hold := h.counted x
    have hnew := hcount x
    rw [State.count_claimsIn, List.flatMap_cons, List.count_append] at hold ⊢
    simp only [State.slotTotal] at hnew
    omega
  entries k := hc ▸ hent k
  addresses r i k a hp := by
    obtain hr | hr := hring r
    · rw [State.pending_congr hr.ring] at hp
      rw [hc]
      exact h.addresses r i k a hp
    · exact hr.addresses i k a hp
  pending r i hi := by
    obtain hr | hr := hring r
    · rw [State.pending_congr hr.ring, State.expectsIn_congr hc hr.ring hr.phase]
      exact h.pending r i (hc ▸ hi)
    · exact hr.pending i hi
  locals t₁ ht₁ := by
    obtain rfl | ht₁ := List.mem_cons.mp ht₁
    · exact hok
    · refine Task.ok_congr hc (fun hon => ?_) (fun hon => ?_) (h.locals t₁ (List.mem_cons_of_mem _ ht₁))
      · obtain hr | hr := hring .rx
        · exact hr.ring
        · cases hon.symm.trans (hr.off t₁ ht₁)
      · obtain hr | hr := hring .tx
        · exact ⟨hr.ring, hr.stopped rfl⟩
        · cases hon.symm.trans (hr.off t₁ ht₁)
  stopped := hstop
  downTx hl hs := (hrest hl hs).1
  downRx hl hs := (hrest hl hs).2
  noFault := ⟨hfault.1.trans h.noFault.1, hfault.2.trans h.noFault.2⟩

/-! ## Its premises in the usual cases -/

theorem RingStays.slotCount {r : Ring} (h : RingStays s u t t' r) (hc : u.cfg = s.cfg) (x : Claim) :
    u.slotCount (t' :: O) r x = s.slotCount (t :: O) r x :=
  State.slotCount_congr hc (State.slotClaim_congr (congrArg RingRegs.pend h.ring) (congrArg Phase.stale h.phase)) x

/-- The claims of the slots change at one slot. -/
theorem State.slotTotal_update {L L' : List Task} {r : Ring} {i : Nat} (hc : u.cfg = s.cfg) (hi : i < ringSize s.cfg r)
    (h : ∀ q j, (q, j) ≠ (r, i) → u.slotClaim L' q j = s.slotClaim L q j) (x : Claim) :
    u.slotTotal L' x + (s.slotClaim L r i).toList.count x = s.slotTotal L x + (u.slotClaim L' r i).toList.count x := by
  have hr := State.slotCount_update hc hi (fun j hj => h r j fun he => hj (congrArg Prod.snd he)) x
  have hq (q : Ring) (hq : q ≠ r) : u.slotCount L' q x = s.slotCount L q x :=
    State.slotCount_congr hc (funext fun j => h q j fun he => hq (congrArg Prod.fst he)) x
  simp only [State.slotTotal]
  cases r with
  | rx => rw [hq .tx nofun]; omega
  | tx => rw [hq .rx nofun]; omega

theorem Books.heldBack_of_same (h : Books s (t :: O)) (hst : u.txStopped = s.txStopped) (hf : u.full .tx = s.full .tx)
    (ho : t'.owesWake = t.owesWake) : u.heldBack (t' :: O) := by
  intro hu
  rw [hf, List.any_cons, ho]
  exact h.stopped (hst ▸ hu)

theorem State.rested_of_up {L : List Task} (h : u.life = .up) : u.rested L := by
  intro hd
  cases h.symm.trans hd

theorem State.rested_of_sweeps (h : t'.sweeps = true) : u.rested (t' :: O) := by
  intro _ hs
  simp [h] at hs

/-- What BRINGUP does to the RX ring leaves the rest of the block resting. -/
theorem Books.rested_of_prefills (h : Books s (t :: O)) (hl : u.life = s.life) (htx : u.ring .tx = s.ring .tx)
    (hs : t'.sweeps = t.sweeps) (hp : t'.prefills = true) : u.rested (t' :: O) := by
  intro hd hsw
  rw [List.any_cons, hs] at hsw
  have hh : u.tx = s.tx := htx
  rw [hh]
  exact ⟨h.downTx (hl ▸ hd) hsw, fun hn => by simp [hp] at hn⟩

theorem Books.rested_of_same (h : Books s (t :: O)) (hl : u.life = s.life)
    (hr : ∀ r, (u.ring r).head = (s.ring r).head ∧ (u.ring r).tail = (s.ring r).tail)
    (hs : t'.sweeps = t.sweeps) (hp : t'.prefills = t.prefills) : u.rested (t' :: O) := by
  intro hd hsw
  obtain ⟨hrh, hrt⟩ : u.rx.head = s.rx.head ∧ u.rx.tail = s.rx.tail := hr .rx
  obtain ⟨hth, htt⟩ : u.tx.head = s.tx.head ∧ u.tx.tail = s.tx.tail := hr .tx
  rw [List.any_cons, hs] at hsw
  rw [List.any_cons, hp, hrh, hrt, hth, htt]
  exact ⟨h.downTx (hl ▸ hd) hsw, fun hn => h.downRx (hl ▸ hd) hsw hn⟩

/-- What the operation owes beside its phases (R159, R190). -/
def Task.duties (t : Task) : Bool × Bool × Bool := (t.owesWake, t.sweeps, t.prefills)

/-- From `s` to `u` the books see at most the pool change. -/
structure SameRings (s u : State) : Prop where
  cfg : u.cfg = s.cfg
  ring : ∀ r, u.ring r = s.ring r
  life : u.life = s.life
  stopped : u.txStopped = s.txStopped
  fault : u.fault.pool = s.fault.pool ∧ u.fault.pendEmpty = s.fault.pendEmpty

/-- A step that touches at most the pool and leaves no slot in between that was not so before. -/
theorem Books.pool_step (h : Books s (t :: O)) (hu : SameRings s u) (hp : ∀ r, t'.phase r = t.phase r)
    (hd : t'.duties = t.duties)
    (hcount : ∀ x, u.heldCount x + t.claims.count x = s.heldCount x + t'.claims.count x)
    (hent : ∀ k, (u.buffer k).Ok s.cfg) (hok : t'.ok u) : Books u (t' :: O) := by
  have hstays (r : Ring) : RingStays s u t t' r := ⟨hu.ring r, hp r, fun _ => hu.stopped⟩
  simp only [Task.duties, Prod.mk.injEq] at hd
  obtain ⟨hwake, hsweeps, hprefills⟩ := hd
  refine h.step hu.cfg hu.fault (fun r => .inl (hstays r)) (fun x => ?_) hent hok
    (h.heldBack_of_same hu.stopped (State.full_congr hu.cfg (hu.ring .tx)) hwake)
    (h.rested_of_same hu.life (fun r => by rw [hu.ring r]; exact ⟨rfl, rfl⟩) hsweeps hprefills)
  have hx := hcount x
  rw [State.slotTotal, State.slotTotal, (hstays .rx).slotCount hu.cfg, (hstays .tx).slotCount hu.cfg]
  omega

/-- A step that the books do not see. -/
theorem Books.quiet_step (h : Books s (t :: O)) (hu : SameLedger s u) (hp : ∀ r, t'.phase r = t.phase r)
    (hd : t'.duties = t.duties) (hcl : t'.claims = t.claims) (hok : t'.ok u) : Books u (t' :: O) := by
  have hbuf (k : Nat) : u.buffer k = s.buffer k := by rw [hu]; rfl
  refine h.pool_step ⟨by rw [hu], fun r => by rw [hu]; cases r <;> rfl, by rw [hu], by rw [hu], by rw [hu]; exact ⟨rfl, rfl⟩⟩
    hp hd (fun x => ?_) (fun k => by rw [hbuf]; exact h.entries k) hok
  rw [State.heldCount_eq, State.heldCount_eq, hbuf, hcl]

/-- A step that sets one buffer's entry, and claims it as the entry says. -/
theorem Books.buffer_step (h : Books s (t :: O)) {k : Nat} {e : PoolEntry} (hl : k < s.pool.length)
    (hu : SameLedger (s.setBuffer k e) u) (hp : ∀ r, t'.phase r = t.phase r) (hd : t'.duties = t.duties)
    (hcl : t.claims = (s.buffer k).claim k) (hcl' : t'.claims = e.claim k) (he : e.Ok s.cfg) (hok : t'.ok u) :
    Books u (t' :: O) := by
  have hbuf (j : Nat) : u.buffer j = (s.setBuffer k e).buffer j := by rw [hu]; rfl
  refine h.pool_step ⟨by rw [hu]; rfl, fun r => by rw [hu]; cases r <;> rfl, by rw [hu]; rfl, by rw [hu]; rfl,
    by rw [hu]; exact ⟨rfl, rfl⟩⟩ hp hd (fun x => ?_) (fun j => ?_) hok
  · have hx := State.heldCount_setBuffer e hl x
    rw [State.heldCount_eq, hbuf, ← State.heldCount_eq, hcl, hcl']
    exact hx
  · rw [hbuf, State.buffer_setBuffer]
    split
    · exact he
    · exact h.entries j

/-- A step that sets at most `tx_stopped`, with no other operation inside the TX ring. -/
theorem Books.stopped_step (h : Books s (t :: O)) (hO : Off O .tx) {b : Bool}
    (hu : SameLedger { s with txStopped := b } u) (hp : ∀ r, t'.phase r = t.phase r)
    (hcl : t'.claims = t.claims) (hok : t'.ok u) (hstop : b = true → u.full .tx = true) (hrest : u.rested (t' :: O)) :
    Books u (t' :: O) := by
  have hcfg : u.cfg = s.cfg := by rw [hu]
  have hring (r : Ring) : u.ring r = s.ring r := by rw [hu]; cases r <;> rfl
  have hpend : u.pending = s.pending := funext fun r => State.pending_congr (hring r)
  have hbuf (k : Nat) : u.buffer k = s.buffer k := by rw [hu]; rfl
  refine h.step hcfg (by rw [hu]; exact ⟨rfl, rfl⟩) (fun r => ?_) (fun x => ?_) (fun k => by rw [hbuf]; exact h.entries k)
    hok (fun hst => .inl (hstop ?_)) hrest
  · cases r with
    | rx => exact .inl ⟨hring .rx, hp .rx, nofun⟩
    | tx =>
      refine .inr ⟨hO, fun i hi => ?_, fun i k a hk => ?_⟩
      · rw [hpend, State.expectsIn_congr hcfg (hring .tx) (hp .tx)]
        exact h.pending .tx i (hcfg ▸ hi)
      · rw [hcfg]
        exact h.addresses .tx i k a (hpend ▸ hk)
  · have hslot (r : Ring) : u.slotClaim (t' :: O) r = s.slotClaim (t :: O) r :=
      State.slotClaim_congr (by rw [hring r]) (by rw [hp r])
    rw [State.slotTotal, State.slotTotal, State.slotCount_congr hcfg (hslot .rx), State.slotCount_congr hcfg (hslot .tx),
      State.heldCount_eq, State.heldCount_eq, hbuf, hcl]
  · have hb : u.txStopped = b := by rw [hu]
    rw [← hb, hst]

/-- A step that sets `life`. -/
theorem Books.life_step (h : Books s (t :: O)) {l : Life} (hu : SameLedger { s with life := l } u)
    (hp : ∀ r, t'.phase r = t.phase r) (hw : t'.owesWake = t.owesWake) (hcl : t'.claims = t.claims) (hok : t'.ok u)
    (hrest : u.rested (t' :: O)) : Books u (t' :: O) := by
  have hcfg : u.cfg = s.cfg := by rw [hu]
  have hring (r : Ring) : u.ring r = s.ring r := by rw [hu]; cases r <;> rfl
  have hst : u.txStopped = s.txStopped := by rw [hu]
  have hbuf (k : Nat) : u.buffer k = s.buffer k := by rw [hu]; rfl
  have hstays (r : Ring) : RingStays s u t t' r := ⟨hring r, hp r, fun _ => hst⟩
  refine h.step hcfg (by rw [hu]; exact ⟨rfl, rfl⟩) (fun r => .inl (hstays r)) (fun x => ?_)
    (fun k => by rw [hbuf]; exact h.entries k) hok
    (h.heldBack_of_same hst (State.full_congr hcfg (hring .tx)) hw) hrest
  rw [State.slotTotal, State.slotTotal, (hstays .rx).slotCount hcfg, (hstays .tx).slotCount hcfg, State.heldCount_eq,
    State.heldCount_eq, hbuf, hcl]

end

end Sys2Proof.Machine
end

section
/-! PROOF. The books as a slot goes round the ring: recorded at the head, the head advanced over it, its buffer taken from
its entry at the tail, its entry cleared, the tail advanced over it (10_state R28, R30). -/

namespace Sys2Proof.Machine

theorem State.inWindow_setPending (s : State) (q r : Ring) (i j : Nat) (e : Option (Nat × DAddr)) :
    (s.setPending q i e).inWindow r j = s.inWindow r j :=
  State.inWindow_congr (by simp) (by cases q <;> cases r <;> rfl) (by cases q <;> cases r <;> rfl) j

theorem State.pending_setHead (s : State) (q : Ring) (i : Nat) : (s.setHead q i).pending = s.pending := by
  funext r j
  cases q <;> cases r <;> rfl

theorem State.pending_setTail (s : State) (q : Ring) (i : Nat) : (s.setTail q i).pending = s.pending := by
  funext r j
  cases q <;> cases r <;> rfl

section
variable {s u : State} {t t' : Task} {O : List Task} {r : Ring}

/-- When no slot comes into being or ceases to stand for a buffer the claims of the slots are the same. -/
theorem State.slotTotal_congr (hc : u.cfg = s.cfg) (hpend : u.pending = s.pending)
    (hst : ∀ q, (t'.phase q).stale = (t.phase q).stale) (x : Claim) :
    u.slotTotal (t' :: O) x = s.slotTotal (t :: O) x := by
  have h (q : Ring) := State.slotCount_congr (r := q) (s := s) (u := u) (L := t :: O) (L' := t' :: O) hc
    (funext fun j => by rw [State.slotClaim_cons, State.slotClaim_cons, hst, hpend]) x
  rw [State.slotTotal, State.slotTotal, h, h]

variable (h : Books s (t :: O)) (hs : s.Shaped) (hO : Off O r) (hq : ∀ q, q ≠ r → t'.phase q = t.phase q)
include h hs hO hq

/-- An engine's buffer is recorded at the head (R140 F5, R155 X7). -/
theorem Books.record_step {k : Nat} (hp : t.phase r = .clear) (hp' : t'.phase r = .recorded) (hd : t'.duties = t.duties)
    (hcl : t.claims = [(k, some (ringDir r))]) (hcl' : t'.claims = [])
    (hu : u = s.setPending r (s.ring r).head (some (k, xlateOf s.cfg k))) (hok : t'.ok u) : Books u (t' :: O) := by
  have hhead := hs.head r
  have hlen : (s.ring r).head < (s.ring r).pend.length := by rwa [hs.pend r]
  have hcfg : u.cfg = s.cfg := by rw [hu, State.setPending_cfg]
  have hpend (q : Ring) (j : Nat) : u.pending q j
      = if q = r ∧ j = (s.ring r).head then some (k, xlateOf s.cfg k) else s.pending q j := by
    rw [hu, State.pending_setPending]
    simp only [hlen, and_true]
  have hwin (q : Ring) (j : Nat) : u.inWindow q j = s.inWindow q j := by rw [hu, State.inWindow_setPending]
  have hidx (q : Ring) : (u.ring q).head = (s.ring q).head ∧ (u.ring q).tail = (s.ring q).tail := by
    rw [hu]
    cases r <;> cases q <;> exact ⟨rfl, rfl⟩
  have hnone : s.pending r (s.ring r).head = none := by
    have hold := h.pending r _ hhead
    rw [State.expectsIn_off hO, hp, State.inWindow_head] at hold
    simpa using hold
  have hst (q : Ring) : (t'.phase q).stale = (t.phase q).stale := by
    by_cases hqr : q = r
    · rw [hqr, hp, hp', Phase.clear, Phase.recorded]
    · rw [hq q hqr]
  simp only [Task.duties, Prod.mk.injEq] at hd
  obtain ⟨hwake, hsweeps, hprefills⟩ := hd
  refine h.step hcfg (by rw [hu]; simp) (fun q => ?_) (fun x => ?_) (fun j => by rw [hu]; simpa using h.entries j) hok
    (h.heldBack_of_same (by rw [hu]; simp) ?_ hwake) (h.rested_of_same (by rw [hu]; simp) hidx hsweeps hprefills)
  · by_cases hqr : q = r
    · subst hqr
      refine .inr ⟨hO, fun i hi => ?_, fun i m a hm => ?_⟩
      · have hold := h.pending q i (hcfg ▸ hi)
        rw [State.expectsIn_off hO, hp] at hold
        rw [State.expectsIn_off hO, hp', hpend, hwin, (hidx q).1]
        by_cases hih : i = (s.ring q).head
        · simp [hih]
        · simpa [hih, beq_eq_false_iff_ne.mpr hih] using hold
      · rw [hpend] at hm
        rw [hcfg]
        split at hm
        · cases hm
          rfl
        · exact h.addresses q i m a hm
    · exact .inl ⟨by rw [hu, State.ring_setPending_other s _ _ hqr], hq q hqr, fun _ => by rw [hu]; simp⟩
  · have hx := State.slotTotal_update (s := s) (u := u) (L := t :: O) (L' := t' :: O) hcfg hhead (fun q j hqj => ?_) x
    · rw [State.slotClaim_off hO, State.slotClaim_off hO, hp, hp', hpend, hnone] at hx
      have hheld : u.heldCount x = s.heldCount x := by rw [hu, State.heldCount_eq, State.heldCount_eq]; simp
      rw [hcl, hcl', hheld]
      simp only [and_self, if_true, Phase.clear, Phase.recorded, Bool.false_eq_true, if_false, Option.map_none,
        Option.map_some, Option.toList_none, Option.toList_some, List.count_nil] at hx ⊢
      omega
    · have hsame : u.pending q j = s.pending q j := by
        rw [hpend, if_neg]
        rintro ⟨rfl, rfl⟩
        exact hqj rfl
      rw [State.slotClaim_cons, State.slotClaim_cons, hst, hsame]
  · rw [State.full, State.full, (hidx .tx).1, (hidx .tx).2, hcfg]

/-- The head advances over the slot recorded there (R128 P5). -/
theorem Books.advanceHead_step (hf : s.full r = false) (hp : t.phase r = .recorded)
    (hp' : t'.phase r = .clear) (hcl : t'.claims = t.claims)
    (hu : u = s.setHead r (nextIndex (s.ring r).head (ringSize s.cfg r))) (hok : t'.ok u) (hstop : u.heldBack (t' :: O))
    (hrest : u.rested (t' :: O)) : Books u (t' :: O) := by
  have hcfg : u.cfg = s.cfg := by rw [hu, State.setHead_cfg]
  have hpend : u.pending = s.pending := by rw [hu, State.pending_setHead]
  have hst (q : Ring) : (t'.phase q).stale = (t.phase q).stale := by
    by_cases hqr : q = r
    · rw [hqr, hp, hp', Phase.clear, Phase.recorded]
    · rw [hq q hqr]
  refine h.step hcfg (by rw [hu]; simp) (fun q => ?_) (fun x => ?_) (fun j => by rw [hu]; simpa using h.entries j) hok
    hstop hrest
  · by_cases hqr : q = r
    · subst hqr
      refine .inr ⟨hO, fun i hi => ?_, fun i m a hm => ?_⟩
      · have hold := h.pending q i (hcfg ▸ hi)
        rw [State.expectsIn_off hO, hp] at hold
        rw [State.expectsIn_off hO, hp', hpend, hold, hu, State.inWindow_nextHead hs (hcfg ▸ hi) hf]
        simp
      · rw [hpend] at hm
        rw [hcfg]
        exact h.addresses q i m a hm
    · exact .inl ⟨by rw [hu, State.ring_setHead_other s _ hqr], hq q hqr, fun _ => by rw [hu]; simp⟩
  · have hheld : u.heldCount x = s.heldCount x := by rw [hu, State.heldCount_eq, State.heldCount_eq]; simp
    rw [State.slotTotal_congr hcfg hpend hst, hcl, hheld]

/-- The buffer of the entry at the tail is taken from it (R141 G4, R156 Y5). -/
theorem Books.take_step {k : Nat} {a : DAddr} {e : PoolEntry} (hp : t.phase r = .clear)
    (hp' : t'.phase r = .taken (s.ring r).tail) (hd : t'.duties = t.duties)
    (hpend : s.pending r (s.ring r).tail = some (k, a)) (hcl : t.claims = []) (hcl' : t'.claims = e.claim k)
    (he : e.Ok s.cfg) (hu : SameLedger (s.setBuffer k e) u) (hok : t'.ok u) : Books u (t' :: O) := by
  have hcfg : u.cfg = s.cfg := by rw [hu]; rfl
  have hring (q : Ring) : u.ring q = s.ring q := by rw [hu]; cases q <;> rfl
  have hbuf (j : Nat) : u.buffer j = (s.setBuffer k e).buffer j := by rw [hu]; rfl
  obtain ⟨hown, hmap⟩ := h.held_of_pending hs hO (by rw [hp, Phase.clear]) hpend
  have hl : k < s.pool.length := State.lt_of_own (by rw [hown]; nofun)
  simp only [Task.duties, Prod.mk.injEq] at hd
  obtain ⟨hwake, hsweeps, hprefills⟩ := hd
  refine h.step hcfg (by rw [hu]; exact ⟨rfl, rfl⟩) (fun q => ?_) (fun x => ?_) (fun j => ?_) hok
    (h.heldBack_of_same (by rw [hu]; rfl) (State.full_congr hcfg (hring .tx)) hwake)
    (h.rested_of_same (by rw [hu]; rfl) (fun q => by rw [hring q]; exact ⟨rfl, rfl⟩) hsweeps hprefills)
  · by_cases hqr : q = r
    · subst hqr
      refine .inr ⟨hO, fun i hi => ?_, fun i m b hm => ?_⟩
      · have hold := h.pending q i (hcfg ▸ hi)
        rw [State.expectsIn_off hO, hp] at hold
        rw [State.expectsIn_off hO, hp', State.pending_congr (hring q), hold, hring q,
          State.inWindow_congr hcfg (by rw [hring q]) (by rw [hring q])]
        rfl
      · rw [State.pending_congr (hring q)] at hm
        rw [hcfg]
        exact h.addresses q i m b hm
    · exact .inl ⟨hring q, hq q hqr, fun _ => by rw [hu]; rfl⟩
  · have hx := State.slotTotal_update (s := s) (u := u) (L := t :: O) (L' := t' :: O) hcfg (hs.tail r)
      (fun q j hqj => ?_) x
    · have hheld := State.heldCount_setBuffer (s := s) (h := k) e hl x
      have hclaim : (s.buffer k).claim k = [(k, some (ringDir r))] := by rw [PoolEntry.claim, if_pos hown, hmap]
      rw [State.slotClaim_off hO, State.slotClaim_off hO, hp, hp', hpend] at hx
      rw [hclaim] at hheld
      rw [State.heldCount_eq u, hbuf, ← State.heldCount_eq, hcl, hcl']
      simp only [if_true, Phase.clear, Phase.taken, beq_self_eq_true, Bool.false_eq_true, if_false, Option.map_some,
        Option.toList_none, Option.toList_some, List.count_nil] at hx ⊢
      omega
    · rw [State.slotClaim_cons, State.slotClaim_cons, State.pending_congr (hring q)]
      have hst : (t'.phase q).stale j = (t.phase q).stale j := by
        by_cases hqr : q = r
        · subst hqr
          have hj : j ≠ (s.ring q).tail := fun hj => hqj (by rw [hj])
          simp [hp, hp', hj]
        · rw [hq q hqr]
      rw [hst]
  · rw [hbuf, State.buffer_setBuffer]
    split
    · exact he
    · exact h.entries j

/-- The entry at the tail, no longer standing for a buffer, is cleared (R141 G6, R156 Y6). -/
theorem Books.clear_step (he : s.empty r = false) (hp : t.phase r = .taken (s.ring r).tail) (hp' : t'.phase r = .emptied)
    (hd : t'.duties = t.duties) (hcl : t'.claims = t.claims) (hu : u = s.setPending r (s.ring r).tail none)
    (hok : t'.ok u) : Books u (t' :: O) := by
  have htail := hs.tail r
  have hlen : (s.ring r).tail < (s.ring r).pend.length := by rwa [hs.pend r]
  have hcfg : u.cfg = s.cfg := by rw [hu, State.setPending_cfg]
  have hpend (q : Ring) (j : Nat) : u.pending q j = if q = r ∧ j = (s.ring r).tail then none else s.pending q j := by
    rw [hu, State.pending_setPending]
    simp only [hlen, and_true]
  have hwin (q : Ring) (j : Nat) : u.inWindow q j = s.inWindow q j := by rw [hu, State.inWindow_setPending]
  have hidx (q : Ring) : (u.ring q).head = (s.ring q).head ∧ (u.ring q).tail = (s.ring q).tail := by
    rw [hu]
    cases r <;> cases q <;> exact ⟨rfl, rfl⟩
  simp only [Task.duties, Prod.mk.injEq] at hd
  obtain ⟨hwake, hsweeps, hprefills⟩ := hd
  refine h.step hcfg (by rw [hu]; simp) (fun q => ?_) (fun x => ?_) (fun j => by rw [hu]; simpa using h.entries j) hok
    (h.heldBack_of_same (by rw [hu]; simp) ?_ hwake) (h.rested_of_same (by rw [hu]; simp) hidx hsweeps hprefills)
  · by_cases hqr : q = r
    · subst hqr
      refine .inr ⟨hO, fun i hi => ?_, fun i m a hm => ?_⟩
      · have hold := h.pending q i (hcfg ▸ hi)
        rw [State.expectsIn_off hO, hp] at hold
        rw [State.expectsIn_off hO, hp', hpend, hwin, (hidx q).2]
        by_cases hit : i = (s.ring q).tail
        · simp [hit]
        · simpa [hit, beq_eq_false_iff_ne.mpr hit] using hold
      · rw [hpend] at hm
        rw [hcfg]
        split at hm
        · cases hm
        · exact h.addresses q i m a hm
    · exact .inl ⟨by rw [hu, State.ring_setPending_other s _ _ hqr], hq q hqr, fun _ => by rw [hu]; simp⟩
  · have hslot (q : Ring) : u.slotClaim (t' :: O) q = s.slotClaim (t :: O) q := by
      funext j
      rw [State.slotClaim_cons, State.slotClaim_cons, hpend]
      by_cases hqr : q = r
      · subst hqr
        by_cases hj : j = (s.ring q).tail
        · simp [hp, hj]
        · simp [hp, hp', hj]
      · rw [hq q hqr, if_neg (c := q = r ∧ _) fun hc => hqr hc.1]
    have hheld : u.heldCount x = s.heldCount x := by rw [hu, State.heldCount_eq, State.heldCount_eq]; simp
    rw [State.slotTotal, State.slotTotal, State.slotCount_congr hcfg (hslot .rx), State.slotCount_congr hcfg (hslot .tx),
      hcl, hheld]
  · rw [State.full, State.full, (hidx .tx).1, (hidx .tx).2, hcfg]

/-- The tail advances over the cleared slot (R130). -/
theorem Books.advanceTail_step (he : s.empty r = false) (hp : t.phase r = .emptied) (hp' : t'.phase r = .clear)
    (hcl : t'.claims = t.claims) (hu : u = s.setTail r (nextIndex (s.ring r).tail (ringSize s.cfg r))) (hok : t'.ok u)
    (hstop : u.heldBack (t' :: O)) (hrest : u.rested (t' :: O)) : Books u (t' :: O) := by
  have hcfg : u.cfg = s.cfg := by rw [hu, State.setTail_cfg]
  have hpend : u.pending = s.pending := by rw [hu, State.pending_setTail]
  have hst (q : Ring) : (t'.phase q).stale = (t.phase q).stale := by
    by_cases hqr : q = r
    · rw [hqr, hp, hp', Phase.clear, Phase.emptied]
    · rw [hq q hqr]
  refine h.step hcfg (by rw [hu]; simp) (fun q => ?_) (fun x => ?_) (fun j => by rw [hu]; simpa using h.entries j) hok
    hstop hrest
  · by_cases hqr : q = r
    · subst hqr
      refine .inr ⟨hO, fun i hi => ?_, fun i m a hm => ?_⟩
      · have hold := h.pending q i (hcfg ▸ hi)
        rw [State.expectsIn_off hO, hp] at hold
        rw [State.expectsIn_off hO, hp', hpend, hold, hu, State.inWindow_nextTail hs (hcfg ▸ hi) he]
        simp
      · rw [hpend] at hm
        rw [hcfg]
        exact h.addresses q i m a hm
    · exact .inl ⟨by rw [hu, State.ring_setTail_other s _ hqr], hq q hqr, fun _ => by rw [hu]; simp⟩
  · have hheld : u.heldCount x = s.heldCount x := by rw [hu, State.heldCount_eq, State.heldCount_eq]; simp
    rw [State.slotTotal_congr hcfg hpend hst, hcl, hheld]

end

end Sys2Proof.Machine
end

section
/-! PROOF. The books through the micro-steps of REFILL, DRAIN and RECLAIM (R140, R141, R156). -/

namespace Sys2Proof.Machine

/-- Context `c`'s operation `t` is to take a step in a sound state in which the others are `O`. -/
structure Turning (c : Ctx) (s : State) (t : Task) (O : List Task) : Prop where
  valid : ValidConfig s.cfg
  shaped : s.Shaped
  allowed : t.Allowed c s
  off : ∀ r, t.on r = true → Off O r
  alone : t.locked = true → s.life = .up → Off O .tx
  books : Books s (t :: O)

section
variable {c : Ctx} {s : State} {t : Task} {O : List Task} (h : Turning c s t O)
include h

theorem Turning.ok : t.ok s := h.books.locals t (List.mem_cons_self ..)

/-- A buffer the operation claims, not mapped, can be mapped or released. -/
theorem Turning.holds {k : Nat} (hk : (k, none) ∈ t.claims) : s.holds k := by
  obtain ⟨hown, hmap⟩ := h.books.held_of_claim hk
  have hne : (s.buffer k).own ≠ .free := by rw [hown]; nofun
  exact ⟨h.shaped.pool ▸ State.lt_of_own hne, hne, hmap⟩

/-- The buffer of an entry that stands for one can be unmapped and released. -/
theorem Turning.holdsMapped {r : Ring} {i k : Nat} {a : DAddr} (hO : Off O r) (hst : (t.phase r).stale i = false)
    (hp : s.pending r i = some (k, a)) : s.holdsMapped k (ringDir r) := by
  obtain ⟨hown, hmap⟩ := h.books.held_of_pending h.shaped hO hst hp
  have hne : (s.buffer k).own ≠ .free := by rw [hown]; nofun
  exact ⟨h.shaped.pool ▸ State.lt_of_own hne, hne, hmap⟩

/-- The slot at the tail of a ring that is not empty has its entry. -/
theorem Turning.entry_at_tail {r : Ring} (hO : Off O r) (hp : t.phase r = .clear) (he : s.empty r = false) :
    s.pending r (s.ring r).tail ≠ none := by
  have hold := h.books.pending r _ (h.shaped.tail r)
  rw [State.expectsIn_off hO, hp, State.inWindow_tail h.shaped he] at hold
  intro hn
  rw [hn] at hold
  simp at hold

end

/-- A buffer of the engine's own, of the configured size. -/
theorem PoolEntry.ok_acquired {c : Config} {o : Own} {n : Nat} (hn : n ≤ c.bufSize) :
    PoolEntry.Ok c ⟨o, BitVec.ofNat 16 n, none⟩ :=
  ⟨fun _ => rfl, fun _ => by
    rw [BitVec.toNat_ofNat]
    exact (Nat.mod_le ..).trans hn⟩

theorem PoolEntry.claim_of_eng {k : Nat} {e : PoolEntry} {m : Option Dir} (ho : e.own = .eng) (hm : e.map = m) :
    e.claim k = [(k, m)] := by rw [PoolEntry.claim, if_pos ho, hm]

theorem PoolEntry.claim_of_not_eng {k : Nat} {e : PoolEntry} (ho : e.own ≠ .eng) : e.claim k = [] := if_neg ho

theorem SameLedger.rfl {s : State} : SameLedger s s := Eq.refl s

theorem sameLedger_drawMapOk (s : State) (k : Nat) (e : PoolEntry) :
    SameLedger (s.setBuffer k e) (s.drawMapOk.2.setBuffer k e) := by
  rw [State.drawMapOk_frame]
  exact Eq.refl _

/-! ## REFILL -/

theorem Fills.claims {W : RefillPc → Task} (hW : Fills W) (p : RefillPc) : (W p).claims = p.claims := by
  cases hW <;> rfl

theorem Fills.phase {W : RefillPc → Task} (hW : Fills W) (p : RefillPc) (r : Ring) :
    (W p).phase r = match r with
      | .rx => ⟨false, p.late, fun _ => false, fun _ => false⟩
      | .tx => .clear := by cases hW <;> cases r <;> rfl

theorem Fills.duties {W : RefillPc → Task} (hW : Fills W) (p p' : RefillPc) : (W p').duties = (W p).duties := by
  cases hW <;> rfl

theorem Fills.on {W : RefillPc → Task} (hW : Fills W) (p : RefillPc) : (W p).on .rx = true := by
  cases hW <;> rfl

theorem Fills.up_or_prefills {c : Ctx} {s : State} {W : RefillPc → Task} {p : RefillPc} (hW : Fills W)
    (ha : (W p).Allowed c s) : s.life = .up ∨ ∀ q, (W q).prefills = true := by
  cases hW with
  | refill => exact .inl (ha.up rfl)
  | poll b w => exact .inl (ha.up rfl)
  | bringup => exact .inr fun _ => rfl

section
variable {c : Ctx} {s u : State} {W : RefillPc → Task} {p p' : RefillPc} {O : List Task} (hW : Fills W)
  (h : Turning c s (W p) O)
include hW h

omit h in
/-- REFILL neither records a slot nor advances over one. -/
theorem Fills.phase_eq (hl : p'.late = p.late) (r : Ring) : (W p').phase r = (W p).phase r := by
  rw [hW.phase, hW.phase, hl]

theorem Fills.quiet_step (hl : p'.late = p.late) (hcl : p'.claims = p.claims) (hu : SameLedger s u) (hok : p'.ok u) :
    Books u (W p' :: O) :=
  h.books.quiet_step hu (hW.phase_eq hl) (hW.duties p p') (by rw [hW.claims, hW.claims, hcl]) ((hW.ok u p').mpr hok)

theorem Fills.buffer_step {k : Nat} {e : PoolEntry} (hlt : k < s.pool.length) (hl : p'.late = p.late)
    (hcl : p.claims = (s.buffer k).claim k) (hcl' : p'.claims = e.claim k) (he : e.Ok s.cfg)
    (hu : SameLedger (s.setBuffer k e) u) (hok : p'.ok u) : Books u (W p' :: O) :=
  h.books.buffer_step hlt hu (hW.phase_eq hl) (hW.duties p p') ((hW.claims p).trans hcl) ((hW.claims p').trans hcl') he
    ((hW.ok u p').mpr hok)

omit h in
theorem Fills.phase_other (q : Ring) (hq : q ≠ .rx) : (W p').phase q = (W p).phase q := by
  cases q with
  | rx => exact absurd rfl hq
  | tx => rw [hW.phase, hW.phase]

theorem Fills.held {k : Nat} {m : Option Dir} (hk : (k, m) ∈ p.claims) :
    (s.buffer k).own = .eng ∧ (s.buffer k).map = m ∧ k < s.pool.length := by
  obtain ⟨hown, hmap⟩ := h.books.held_of_claim (x := (k, m)) ((hW.claims p).symm ▸ hk)
  exact ⟨hown, hmap, State.lt_of_own (by rw [hown]; nofun)⟩

theorem not_misuses_refill : ¬ p.misuses s := by
  cases p with
  | f3 n k => exact fun hm => hm (h.holds (by rw [hW.claims]; exact List.mem_singleton.mpr rfl))
  | _ => exact id

theorem books_refill (hm : RefillMicro s p u p') : Books u (W p' :: O) := by
  have hO := h.off .rx (hW.on p)
  have hok := (hW.ok s p).mp h.ok
  cases hm with
  | full hf => exact hW.quiet_step h rfl rfl .rfl trivial
  | room hf => exact hW.quiet_step h rfl rfl .rfl hf
  | @acquired n k hf =>
    obtain ⟨hk, hfree, -⟩ := State.lowestFree_eq_some.mp hf
    exact hW.buffer_step h (e := ⟨.eng, BitVec.ofNat 16 s.cfg.bufSize, none⟩) (h.shaped.pool ▸ hk) rfl (PoolEntry.claim_of_not_eng (by rw [hfree]; nofun)).symm
      rfl (PoolEntry.ok_acquired le_rfl) .rfl hok
  | exhausted => exact hW.quiet_step h rfl rfl .rfl trivial
  | @mapped n k =>
    obtain ⟨hown, hmap, hlt⟩ := hW.held h (List.mem_singleton.mpr rfl)
    have hent := h.books.entries k
    refine hW.buffer_step h (e := { s.buffer k with map := some .inbound }) hlt rfl
      (PoolEntry.claim_of_eng hown hmap).symm (if_pos hown).symm
      ⟨fun hne => absurd hown hne, hent.length⟩ (sameLedger_drawMapOk ..) ?_
    rw [State.drawMapOk_frame]
    exact ⟨hok, rfl, rfl⟩
  | @mapFailed n k =>
    obtain ⟨hown, hmap, hlt⟩ := hW.held h (List.mem_singleton.mpr rfl)
    exact hW.buffer_step h (e := { s.buffer k with own := .free }) hlt rfl (PoolEntry.claim_of_eng hown hmap).symm
      (PoolEntry.claim_of_not_eng (by nofun)).symm ⟨fun _ => hmap, fun hne => absurd rfl hne⟩ (sameLedger_drawMapOk ..) trivial
  | address =>
    obtain ⟨hf, ha, -⟩ := hok
    exact hW.quiet_step h rfl rfl .rfl ⟨hf, ha, beq_self_eq_true _⟩
  | length => exact hW.quiet_step h rfl rfl .rfl hok
  | barrier => exact hW.quiet_step h rfl rfl .rfl hok
  | status =>
    obtain ⟨hf, ha, hat⟩ := hok
    exact hW.quiet_step h rfl rfl .rfl ⟨hf, ha, beq_iff_eq.mp hat⟩
  | @recorded n k i a =>
    obtain ⟨hf, rfl, rfl⟩ := hok
    exact h.books.record_step h.shaped hO (hW.phase_other) (hW.phase ..) (hW.phase ..) (hW.duties ..) (hW.claims ..)
      (hW.claims ..) rfl ((hW.ok ..).mpr ⟨hf, rfl⟩)
  | @advanced n i =>
    obtain ⟨hf, rfl⟩ := hok
    have hd := hW.duties (.f6 n s.rx.head) (.f7 n)
    simp only [Task.duties, Prod.mk.injEq] at hd
    obtain ⟨hwake, hsweeps, -⟩ := hd
    refine h.books.advanceHead_step h.shaped hO (hW.phase_other) hf (hW.phase ..) (hW.phase ..)
      ((hW.claims _).trans (hW.claims (.f6 n s.rx.head)).symm) rfl ((hW.ok ..).mpr trivial) (h.books.heldBack_of_same rfl rfl hwake) ?_
    obtain hup | hpre := hW.up_or_prefills h.allowed
    · exact State.rested_of_up hup
    · exact h.books.rested_of_prefills rfl rfl hsweeps (hpre _)
  | again => exact hW.quiet_step h rfl rfl .rfl trivial

end

/-! ## DRAIN -/

theorem contains_slot (r : Ring) (i j : Nat) : [(r, i)].contains (r, j) = (j == i) := by
  rw [Bool.eq_iff_iff]
  simp

section
variable {b : Nat} {W : DrainPc → Task} (hW : Drains b W)
include hW

theorem Drains.claims (p : DrainPc) : (W p).claims = p.claims := by cases hW <;> rfl

theorem Drains.phase_rx (p : DrainPc) :
    (W p).phase .rx = ⟨p.early, false, fun _ => false, fun i => p.stale.contains (.rx, i)⟩ := by cases hW <;> rfl

theorem Drains.phase_tx (p : DrainPc) : (W p).phase .tx = .clear := Task.phase_of_off (by cases hW <;> rfl)

theorem Drains.phase_taken {p : DrainPc} {i : Nat} (he : p.early = false) (hs : p.stale = [(.rx, i)]) :
    (W p).phase .rx = .taken i := by
  simp only [hW.phase_rx, he, hs, contains_slot, Phase.taken]

theorem Drains.duties (p : DrainPc) : (W p).duties = (false, false, false) := by cases hW <;> rfl

theorem Drains.on (p : DrainPc) : (W p).on .rx = true := by cases hW <;> rfl

theorem Drains.up {c : Ctx} {s : State} {p : DrainPc} (ha : (W p).Allowed c s) : s.life = .up := by
  cases hW <;> exact ha.up rfl

theorem Drains.phase_other (p p' : DrainPc) (q : Ring) (hq : q ≠ .rx) : (W p').phase q = (W p).phase q := by
  cases q with
  | rx => exact absurd rfl hq
  | tx => rw [hW.phase_tx, hW.phase_tx]

variable {c : Ctx} {s u : State} {p p' : DrainPc} {O : List Task} (h : Turning c s (W p) O)

theorem Drains.phase_eq (he : p'.early = p.early) (hs : p'.stale = p.stale) (r : Ring) : (W p').phase r = (W p).phase r := by
  cases r with
  | rx => rw [hW.phase_rx, hW.phase_rx, he, hs]
  | tx => rw [hW.phase_tx, hW.phase_tx]

include h

theorem Drains.quiet_step (he : p'.early = p.early) (hs : p'.stale = p.stale) (hcl : p'.claims = p.claims)
    (hu : SameLedger s u) (hok : p'.ok u) : Books u (W p' :: O) :=
  h.books.quiet_step hu (hW.phase_eq he hs) ((hW.duties p').trans (hW.duties p).symm)
    (by rw [hW.claims, hW.claims, hcl]) ((hW.ok u p').mpr hok)

theorem Drains.held {k : Nat} {m : Option Dir} (hk : (k, m) ∈ p.claims) :
    (s.buffer k).own = .eng ∧ (s.buffer k).map = m ∧ k < s.pool.length := by
  obtain ⟨hown, hmap⟩ := h.books.held_of_claim (x := (k, m)) ((hW.claims p).symm ▸ hk)
  exact ⟨hown, hmap, State.lt_of_own (by rw [hown]; nofun)⟩

omit h in
/-- G5 passes the buffer on: to the pool or to upstream. -/
theorem Drains.pass_step {w i k : Nat} {st len : Word} {e : PoolEntry} (h : Turning c s (W (.g5 w st len i k)) O)
    (hown : e.own ≠ .eng) (he : e.Ok s.cfg) (hu : SameLedger (s.setBuffer k e) u) (hok : (DrainPc.g6 w i).ok u) :
    Books u (W (.g6 w i) :: O) := by
  obtain ⟨hown₀, hmap, hlt⟩ := hW.held h (List.mem_singleton.mpr rfl)
  exact h.books.buffer_step hlt hu (hW.phase_eq rfl rfl) ((hW.duties _).trans (hW.duties _).symm)
    ((hW.claims _).trans (PoolEntry.claim_of_eng hown₀ hmap).symm)
    ((hW.claims _).trans (PoolEntry.claim_of_not_eng hown).symm) he ((hW.ok ..).mpr hok)

theorem not_misuses_drain : ¬ p.misuses s := by
  have hO := h.off .rx (hW.on p)
  have hok := (hW.ok s p).mp h.ok
  cases p with
  | g4 w st len i k =>
    obtain ⟨-, -, a, hp⟩ := hok
    obtain ⟨hlt, -, hmap⟩ := h.holdsMapped hO (by rw [hW.phase_rx]; rfl) hp
    exact fun hm => hm ⟨hlt, hmap⟩
  | g5 w st len i k => exact fun hm => hm (h.holds (by rw [hW.claims]; exact List.mem_singleton.mpr rfl))
  | _ => exact id

theorem books_drain (hm : DrainMicro s p u p') : Books u (W p' :: O) := by
  have hO := h.off .rx (hW.on p)
  have hok := (hW.ok s p).mp h.ok
  cases hm with
  | spent => exact hW.quiet_step h rfl rfl rfl .rfl trivial
  | peek => exact hW.quiet_step h rfl rfl rfl .rfl trivial
  | nothing => exact hW.quiet_step h rfl rfl rfl .rfl trivial
  | statusRead he ho => exact hW.quiet_step h rfl rfl rfl .rfl ⟨he, rfl⟩
  | lengthRead => exact hW.quiet_step h rfl rfl rfl .rfl hok.1
  | entry hp => exact hW.quiet_step h rfl rfl rfl .rfl ⟨hok, rfl, _, hp⟩
  | noEntry hp => exact absurd hp (h.entry_at_tail hO (hW.phase_rx _) hok)
  | @unmapped w i k st len =>
    obtain ⟨he, rfl, a, hp⟩ := hok
    obtain ⟨hown, hmap⟩ := h.books.held_of_pending h.shaped hO (by rw [hW.phase_rx]; rfl) hp
    have hent := h.books.entries k
    exact h.books.take_step (e := { s.buffer k with map := none }) h.shaped hO (hW.phase_other _ _) (hW.phase_rx _)
      (hW.phase_taken rfl rfl)
      ((hW.duties _).trans (hW.duties _).symm) hp (hW.claims _) ((hW.claims _).trans (if_pos hown).symm)
      ⟨fun _ => rfl, hent.length⟩ .rfl ((hW.ok ..).mpr ⟨he, rfl, a, hp⟩)
  | @dropped w i k st len =>
    obtain ⟨he, hi, -⟩ := hok
    obtain ⟨-, hmap, -⟩ := hW.held h (List.mem_singleton.mpr rfl)
    exact hW.pass_step h (e := { s.buffer k with own := .free }) (by nofun) ⟨fun _ => hmap, fun hne => absurd rfl hne⟩
      (Eq.refl _) ⟨he, hi⟩
  | @delivered w i k st len hlen =>
    obtain ⟨he, hi, -⟩ := hok
    obtain ⟨-, hmap, -⟩ := hW.held h (List.mem_singleton.mpr rfl)
    refine hW.pass_step h (e := { s.buffer k with len := len.setWidth 16, own := .up }) (by nofun)
      ⟨fun _ => hmap, fun _ => ?_⟩ (Eq.refl _) ⟨he, hi⟩
    rw [BitVec.toNat_setWidth]
    refine (Nat.mod_le ..).trans ?_
    simpa [State.tooLong] using hlen
  | cleared =>
    obtain ⟨he, rfl⟩ := hok
    exact h.books.clear_step h.shaped hO (hW.phase_other _ _) he (hW.phase_taken rfl rfl) (hW.phase_rx _)
      ((hW.duties _).trans (hW.duties _).symm) ((hW.claims _).trans (hW.claims (.g6 ..)).symm) rfl ((hW.ok ..).mpr he)
  | @advanced w =>
    have hup : s.life = .up := hW.up h.allowed
    exact h.books.advanceTail_step h.shaped hO (hW.phase_other _ _) hok (hW.phase_rx _) (hW.phase_rx _)
      ((hW.claims _).trans (hW.claims (.g7 w)).symm) rfl ((hW.ok ..).mpr trivial)
      (h.books.heldBack_of_same rfl rfl (congrArg Prod.fst ((hW.duties _).trans (hW.duties _).symm)))
      (State.rested_of_up hup)
  | again => exact hW.quiet_step h rfl rfl rfl .rfl trivial

end

/-! ## RECLAIM -/

/-- Y8 leaves the queue stopped only where it is full (R159). -/
theorem State.full_of_wakeIf {s : State} {f : Bool} {n : Nat} (hw : s.wakeOwed f n)
    (hst : (s.wakeIf f n).txStopped = true) : s.full .tx = true := by
  obtain ⟨hzero, hfull⟩ := hw
  unfold State.wakeIf at hst
  split at hst
  · cases hst
  · rename_i hc
    have hf := hfull hst
    rw [← hzero (by by_contra hn; exact hc ⟨by omega, hf⟩), hf]

section
variable {W : ReclaimPc → Task} (hW : Reclaims W)
include hW

theorem Reclaims.claims (p : ReclaimPc) : (W p).claims = [] := by cases hW <;> rfl

theorem Reclaims.phase_tx (p : ReclaimPc) :
    (W p).phase .tx = ⟨p.early, false, fun _ => false, fun i => p.stale.contains (.tx, i)⟩ := by cases hW <;> rfl

theorem Reclaims.phase_rx (p : ReclaimPc) : (W p).phase .rx = .clear := Task.phase_of_off (by cases hW <;> rfl)

theorem Reclaims.phase_taken {p : ReclaimPc} {i : Nat} (he : p.early = false) (hs : p.stale = [(.tx, i)]) :
    (W p).phase .tx = .taken i := by
  simp only [hW.phase_tx, he, hs, contains_slot, Phase.taken]

theorem Reclaims.duties (p : ReclaimPc) : (W p).duties = (p.owesWake, false, false) := by cases hW <;> rfl

theorem Reclaims.on {p : ReclaimPc} (hl : p.live = true) : (W p).on .tx = true := by
  cases hW <;> exact p.live_eq_on.trans hl

theorem Reclaims.up {c : Ctx} {s : State} {p : ReclaimPc} (ha : (W p).Allowed c s) (hl : p.live = true) :
    s.life = .up := by
  cases hW <;> exact ha.up hl

theorem Reclaims.phase_other (p p' : ReclaimPc) (q : Ring) (hq : q ≠ .tx) : (W p').phase q = (W p).phase q := by
  cases q with
  | rx => rw [hW.phase_rx, hW.phase_rx]
  | tx => exact absurd rfl hq

variable {c : Ctx} {s u : State} {p p' : ReclaimPc} {O : List Task} (h : Turning c s (W p) O)

theorem Reclaims.phase_eq (he : p'.early = p.early) (hs : p'.stale = p.stale) (r : Ring) :
    (W p').phase r = (W p).phase r := by
  cases r with
  | rx => rw [hW.phase_rx, hW.phase_rx]
  | tx => rw [hW.phase_tx, hW.phase_tx, he, hs]

theorem Reclaims.duties_eq (hw : p'.owesWake = p.owesWake) : (W p').duties = (W p).duties := by
  rw [hW.duties, hW.duties, hw]

include h

theorem Reclaims.quiet_step (he : p'.early = p.early) (hs : p'.stale = p.stale) (hw : p'.owesWake = p.owesWake)
    (hu : SameLedger s u) (hok : p'.ok u) : Books u (W p' :: O) :=
  h.books.quiet_step hu (hW.phase_eq he hs) (hW.duties_eq hw) (by rw [hW.claims, hW.claims]) ((hW.ok u p').mpr hok)

theorem not_misuses_reclaim : ¬ p.misuses s := by
  have hok := (hW.ok s p).mp h.ok
  cases p with
  | y5 f n st i k =>
    obtain ⟨⟨-, -, a, hp⟩, -⟩ := hok
    exact fun hm => hm (h.holdsMapped (h.off .tx (hW.on rfl)) (by rw [hW.phase_tx]; rfl) hp)
  | _ => exact id

omit h in
/-- On entry a stopped queue is full, for no other operation owes it a wake. -/
theorem Reclaims.wakeOwed_entry (h : Turning c s (W .y2) O) (hup : s.life = .up) : s.wakeOwed (s.full .tx) 0 := by
  have hO : Off O .tx := h.alone (by cases hW <;> rfl) hup
  refine ⟨fun _ => rfl, fun hst => (h.books.stopped hst).resolve_right fun hw => ?_⟩
  obtain ⟨t, ht, hw⟩ := List.any_eq_true.mp hw
  obtain rfl | ht := List.mem_cons.mp ht
  · have hd := congrArg Prod.fst (hW.duties .y2)
    cases hd.symm.trans hw
  · cases (Task.owesWake_of_off (hO t ht)).symm.trans hw

theorem books_reclaim (hm : ReclaimMicro c s p u p') : Books u (W p' :: O) := by
  have hok := (hW.ok s p).mp h.ok
  have hO (hl : p.live = true) := h.off .tx (hW.on hl)
  cases hm with
  | locked hl => exact hW.quiet_step h rfl rfl rfl (Eq.refl _) trivial
  | entered hu => exact hW.quiet_step h rfl rfl (Bool.and_false _) .rfl ⟨trivial, hW.wakeOwed_entry h hu⟩
  | nothing => exact hW.quiet_step h rfl rfl rfl .rfl hok.2
  | statusRead he ho => exact hW.quiet_step h rfl rfl rfl .rfl ⟨⟨he, rfl⟩, hok.2⟩
  | lengthRead => exact hW.quiet_step h rfl rfl rfl .rfl ⟨hok.1.1, hok.2⟩
  | entry hp => exact hW.quiet_step h rfl rfl rfl .rfl ⟨⟨hok.1, rfl, _, hp⟩, hok.2⟩
  | noEntry hp => exact absurd hp (h.entry_at_tail (hO rfl) (hW.phase_tx _) hok.1)
  | @freed f n i k st e =>
    obtain ⟨⟨he, rfl, a, hp⟩, hw⟩ := hok
    exact h.books.take_step (e := { s.buffer k with own := .free, map := none }) h.shaped (hO rfl) (hW.phase_other _ _)
      (hW.phase_tx _) (hW.phase_taken rfl rfl) (hW.duties_eq rfl) hp (hW.claims _) (hW.claims _)
      ⟨fun _ => rfl, fun hne => absurd rfl hne⟩ (Eq.refl _) ((hW.ok ..).mpr ⟨he, rfl, hw⟩)
  | cleared =>
    obtain ⟨he, rfl, hw⟩ := hok
    exact h.books.clear_step h.shaped (hO rfl) (hW.phase_other _ _) he (hW.phase_taken rfl rfl) (hW.phase_tx _)
      (hW.duties_eq rfl) ((hW.claims _).trans (hW.claims _).symm) rfl ((hW.ok ..).mpr ⟨he, hw⟩)
  | @advanced f n =>
    obtain ⟨he, -, hfull⟩ := hok
    have hup : s.life = .up := hW.up h.allowed rfl
    refine h.books.advanceTail_step h.shaped (hO rfl) (hW.phase_other _ _) he (hW.phase_tx _) (hW.phase_tx _)
      ((hW.claims _).trans (hW.claims _).symm) rfl ((hW.ok ..).mpr ⟨trivial, nofun, hfull⟩) (fun hst => .inr ?_)
      (State.rested_of_up hup)
    have hwake : (W (.y3 f (n + 1) .k1)).owesWake = (f && decide (1 ≤ n + 1)) := congrArg Prod.fst (hW.duties _)
    rw [List.any_cons, hwake, hfull hst]
    simp
  | @woken f n =>
    have hup : s.life = .up := hW.up h.allowed rfl
    have hu : SameLedger { s with txStopped := (s.wakeIf f n).txStopped } (s.wakeIf f n) := by
      unfold State.wakeIf
      split <;> exact Eq.refl _
    have hfull (hst : (s.wakeIf f n).txStopped = true) : (s.wakeIf f n).full .tx = true := by
      rw [State.full_congr (s := s) (by rw [hu]) (by rw [hu]; rfl)]
      exact State.full_of_wakeIf hok hst
    exact h.books.stopped_step (hO rfl) hu (hW.phase_eq rfl rfl) ((hW.claims _).trans (hW.claims _).symm)
      ((hW.ok ..).mpr hfull) hfull (State.rested_of_up (by rw [hu]; exact hup))

end

end Sys2Proof.Machine
end

section
/-! PROOF. The books through SUBMIT, IRQ, POLL, BRINGUP and TEARDOWN, and so through every micro-step (R155, R170, R173,
R185 to R187). -/

namespace Sys2Proof.Machine

theorem State.handleOk_iff {s : State} {h : Nat} :
    s.handleOk h = true ↔ h < s.cfg.poolSize ∧ (s.buffer h).own = .up := by
  simp only [State.handleOk, Bool.and_eq_true, decide_eq_true_eq, beq_iff_eq]

/-- The operation a context goes on with; when it has none, one that stands for no place in any rule. -/
def Cont.task : Cont → Task
  | .running t => t
  | _ => .isFull .rx

section
variable {c : Ctx} {s u : State} {O : List Task}

/-! ## SUBMIT (R155) -/

/-- Upstream's buffer, which upstream may use, is not mapped. -/
theorem Turning.handle {t : Task} (h : Turning c s t O) {k : Nat} (hk : s.handleOk k = true) :
    k < s.pool.length ∧ (s.buffer k).own = .up ∧ (s.buffer k).map = none := by
  obtain ⟨hlt, hown⟩ := State.handleOk_iff.mp hk
  exact ⟨h.shaped.pool ▸ hlt, hown, (h.books.entries k).unmapped (by rw [hown]; nofun)⟩

theorem Turning.held {t : Task} (h : Turning c s t O) {k : Nat} {m : Option Dir} (hk : (k, m) ∈ t.claims) :
    (s.buffer k).own = .eng ∧ (s.buffer k).map = m ∧ k < s.pool.length := by
  obtain ⟨hown, hmap⟩ := h.books.held_of_claim hk
  exact ⟨hown, hmap, State.lt_of_own (by rw [hown]; nofun)⟩

theorem phase_submit {k : Nat} {p p' : SubmitPc} (h : (Task.submit k p').late .tx = (Task.submit k p).late .tx) (r : Ring) :
    (Task.submit k p').phase r = (Task.submit k p).phase r := by
  cases r with
  | rx => rw [Task.phase_of_off (t := .submit k p) rfl, Task.phase_of_off (t := .submit k p') rfl]
  | tx =>
    simp only [Task.phase, h]
    rfl

theorem phase_submit_other (k : Nat) (p p' : SubmitPc) (q : Ring) (hq : q ≠ .tx) :
    (Task.submit k p').phase q = (Task.submit k p).phase q := by
  cases q with
  | rx => rw [Task.phase_of_off (t := .submit k p) rfl, Task.phase_of_off (t := .submit k p') rfl]
  | tx => exact absurd rfl hq

theorem phase_submitted {k : Nat} {p : SubmitPc} (h : (Task.submit k p).late .tx = false) (r : Ring) :
    (Task.isFull .rx).phase r = (Task.submit k p).phase r := by
  cases r with
  | rx => rw [Task.phase_of_off (t := .submit k p) rfl, Task.phase_of_off (t := .isFull .rx) rfl]
  | tx =>
    simp only [Task.phase, h]
    rfl

theorem books_submitTaken {k : Nat} (h : Turning c s (.submit k .x4) O) (hh : s.handleOk k = true) :
    Books (s.setBuffer k { s.buffer k with own := .eng }) (.submit k .x5 :: O) := by
  obtain ⟨hlt, hown, hmap⟩ := h.handle hh
  have hent := h.books.entries k
  exact h.books.buffer_step (e := { s.buffer k with own := .eng }) hlt .rfl (phase_submit rfl) rfl
    (PoolEntry.claim_of_not_eng (by rw [hown]; nofun)).symm (PoolEntry.claim_of_eng (e := { s.buffer k with own := .eng }) rfl hmap).symm
    ⟨fun _ => hmap, fun _ => hent.length (by rw [hown]; nofun)⟩ h.ok

theorem books_submitMapped {k : Nat} (h : Turning c s (.submit k .x5) O) :
    Books (s.drawMapOk.2.setBuffer k { s.buffer k with map := some .outbound })
      (.submit k (.x6 (xlateOf s.cfg k) .p1) :: O) := by
  obtain ⟨hown, hmap, hlt⟩ := h.held (List.mem_singleton.mpr rfl)
  have hent := h.books.entries k
  refine h.books.buffer_step (e := { s.buffer k with map := some .outbound }) hlt (sameLedger_drawMapOk ..)
    (phase_submit rfl) rfl (PoolEntry.claim_of_eng hown hmap).symm (if_pos hown).symm
    ⟨fun hne => absurd hown hne, hent.length⟩ ?_
  rw [State.drawMapOk_frame]
  exact ⟨h.ok, rfl, rfl⟩

theorem books_submitMapFailed {k : Nat} (h : Turning c s (.submit k .x5) O) :
    Books (s.drawMapOk.2.setBuffer k { s.buffer k with own := .free }).unlock (.isFull .rx :: O) := by
  obtain ⟨hown, hmap, hlt⟩ := h.held (List.mem_singleton.mpr rfl)
  refine h.books.buffer_step (e := { s.buffer k with own := .free }) hlt ?_ (phase_submitted rfl) rfl
    (PoolEntry.claim_of_eng hown hmap).symm (PoolEntry.claim_of_not_eng (by nofun)).symm
    ⟨fun _ => hmap, fun hne => absurd rfl hne⟩ trivial
  rw [State.drawMapOk_frame]
  exact Eq.refl _

theorem books_submitRecorded {k i : Nat} {a : DAddr} (h : Turning c s (.submit k (.x7 a i)) O) :
    Books (s.setPending .tx i (some (k, a))) (.submit k (.x8 i) :: O) := by
  obtain ⟨hf, rfl, rfl⟩ := h.ok
  exact h.books.record_step h.shaped (h.off .tx rfl) (phase_submit_other _ _ _) rfl rfl rfl rfl rfl rfl ⟨hf, rfl⟩

theorem books_submitAdvanced {k i : Nat} (h : Turning c s (.submit k (.x8 i)) O) :
    Books (s.setHead .tx (nextIndex i s.cfg.nTx)) (.submit k .x9 :: O) := by
  obtain ⟨hf, rfl⟩ := h.ok
  have hup : s.life = .up := h.allowed.up rfl
  refine h.books.advanceHead_step h.shaped (h.off .tx rfl) (phase_submit_other _ _ _) hf rfl rfl rfl rfl trivial
    (fun hst => .inr ?_) (State.rested_of_up hup)
  exact (h.books.stopped hst).resolve_left (by rw [hf]; nofun)

/-! ## BRINGUP (R185, R186) -/

theorem sameLedger_devResetAck (s : State) (v : Word) : SameLedger s (s.devResetAck v) := by
  unfold State.devResetAck
  split
  · exact Eq.refl _
  · exact .rfl

theorem sameLedger_answerReset (s : State) : SameLedger s s.answerReset := by
  obtain ⟨d, n, hs | ⟨v, hs⟩⟩ := s.answerReset_cases <;> rw [hs]
  · exact Eq.refl _
  · exact sameLedger_devResetAck { s with draws := d, tick := n } v

/-- BRINGUP's `B2` and `B3` as labels. -/
def BringupPc.clears : BringupPc → Bool
  | .b2 .. => true
  | .b3 => true
  | _ => false

theorem clearNext_clears (c : Config) (r : Ring) (i : Nat) (q : ClearPc) : (clearNext c r i q).clears = true := by
  cases q with
  | status =>
    simp only [clearNext]
    split
    · rfl
    · cases r <;> rfl
  | _ => rfl

/-- An operation that has nothing of the rings in between. -/
structure Task.Blank (t : Task) : Prop where
  phase : ∀ r, t.phase r = .clear
  duties : t.duties = (false, false, false)
  claims : t.claims = []
  ok : ∀ s, t.ok s

theorem Task.Blank.sweeps {t : Task} (h : t.Blank) : t.sweeps = false := congrArg (·.2.1) h.duties

theorem Task.Blank.prefills {t : Task} (h : t.Blank) : t.prefills = false := congrArg (·.2.2) h.duties

theorem BringupPc.blank_of_clears {p : BringupPc} (h : p.clears = true) : (Task.bringup p).Blank := by
  cases p with
  | b2 r i p => exact ⟨fun r => by cases r <;> rfl, rfl, rfl, fun _ => trivial⟩
  | b3 => exact ⟨fun r => by cases r <;> rfl, rfl, rfl, fun _ => trivial⟩
  | _ => cases h

theorem Task.Blank.step {t t' : Task} (hb : t.Blank) (hb' : t'.Blank) (h : Books s (t :: O)) (hu : SameLedger s u) :
    Books u (t' :: O) :=
  h.quiet_step hu (fun r => (hb'.phase r).trans (hb.phase r).symm) (hb'.duties.trans hb.duties.symm)
    (hb'.claims.trans hb.claims.symm) (hb'.ok u)

theorem Task.blank_isFull (r : Ring) : (Task.isFull r).Blank := ⟨fun q => by cases q <;> rfl, rfl, rfl, fun _ => trivial⟩

/-- While `DOWN`, outside BRINGUP's filling and TEARDOWN's emptying, the rings are empty and no entry is pending. -/
theorem Turning.resting {t : Task} (h : Turning c s t O) (hb : t.Blank) (hd : t.needsDown = true) :
    ((s.tx.head = 0 ∧ s.tx.tail = 0) ∧ s.rx.head = 0 ∧ s.rx.tail = 0)
      ∧ ∀ r i, i < ringSize s.cfg r → s.pending r i = none := by
  have hon (r : Ring) : t.on r = true := by simp [Task.on, hd]
  have hno (f : Task → Bool) (hf : ∀ t, f t = true → t.needsDown = true) : O.any f = false := by
    rw [List.any_eq_false]
    intro t₁ ht₁ hft
    have hoff := h.off .rx (hon .rx) t₁ ht₁
    simp [Task.on, hf t₁ hft] at hoff
  have hsweeps : (t :: O).any Task.sweeps = false := by
    rw [List.any_cons, hb.sweeps, hno _ fun t ht => ?_]
    · rfl
    · cases t with
      | teardown p =>
        cases p with
        | t1 => cases ht
        | t2 => cases ht
        | t3 => cases ht
        | _ => rfl
      | _ => cases ht
  have hprefills : (t :: O).any Task.prefills = false := by
    rw [List.any_cons, hb.prefills, hno _ fun t ht => ?_]
    · rfl
    · cases t with
      | bringup p => rfl
      | _ => cases ht
  have hdown := h.allowed.down hd
  have htx := h.books.downTx hdown hsweeps
  have hrx := h.books.downRx hdown hsweeps hprefills
  refine ⟨⟨htx, hrx⟩, fun r i hi => ?_⟩
  have hzero : (s.ring r).head = (s.ring r).tail := by
    cases r
    · exact hrx.1.trans hrx.2.symm
    · exact htx.1.trans htx.2.symm
  have hold := h.books.pending r i hi
  rw [State.expectsIn_off (h.off r (hon r)), hb.phase] at hold
  have hwin : s.inWindow r i = false := by
    simp [State.inWindow, State.count, hzero, subIndex]
  rw [hwin] at hold
  simpa using hold

theorem State.setPending_self {s : State} {r : Ring} {i : Nat} {e : Option (Nat × DAddr)}
    (h : i < (s.ring r).pend.length → s.pending r i = e) : s.setPending r i e = s := by
  have hset : (s.ring r).pend.set i e = (s.ring r).pend := by
    refine List.ext_getElem? fun j => ?_
    rw [List.getElem?_set]
    split
    · rename_i hij
      subst hij
      split
      · rename_i hi
        have hp := h hi
        rw [State.pending, List.getD_eq_getElem?_getD, List.getElem?_eq_getElem hi] at hp
        rw [List.getElem?_eq_getElem hi, ← hp]
        rfl
      · rename_i hi
        exact (List.getElem?_eq_none (Nat.le_of_not_lt hi)).symm
    · rfl
  cases r <;> simp only [State.setPending, hset] <;> rfl

theorem books_slotCleared {r : Ring} {i : Nat} {q : ClearPc} (h : Turning c s (.bringup (.b2 r i q)) O) :
    Books (s.clearSlot r i q) (.bringup (clearNext s.cfg r i q) :: O) := by
  have hb : (Task.bringup (.b2 r i q)).Blank := BringupPc.blank_of_clears rfl
  refine hb.step (BringupPc.blank_of_clears (clearNext_clears ..)) h.books ?_
  cases q with
  | addr => exact Eq.refl _
  | len => exact Eq.refl _
  | status =>
    obtain ⟨-, hpend⟩ := h.resting hb rfl
    have hset : (s.descWrite32 (statusAddr s.cfg r i) 0).setPending r i none = s.descWrite32 (statusAddr s.cfg r i) 0 :=
      State.setPending_self fun hi => hpend r i (by rw [← h.shaped.pend r]; exact hi)
    rw [State.clearSlot, hset]
    exact Eq.refl _

theorem books_latchesCleared (h : Turning c s (.bringup .b3) O) : Books s.clearLatches (.bringup (.b4 (.f1 0)) :: O) := by
  obtain ⟨⟨⟨hth, htt⟩, hrh, hrt⟩, -⟩ := h.resting (BringupPc.blank_of_clears rfl) rfl
  have hzero : s.zeroIndices = s := by
    obtain ⟨cfg, life, ⟨rh, rt, rp⟩, ⟨th, tt, tp⟩⟩ := s
    cases hth; cases htt; cases hrh; cases hrt
    rfl
  have hu : SameLedger { s with txStopped := false } s.clearLatches := by
    rw [State.clearLatches, hzero]
    exact Eq.refl _
  have hlife : s.clearLatches.life = s.life := by rw [hu]
  refine h.books.stopped_step (h.off .tx rfl) hu (fun r => by cases r <;> rfl) rfl trivial nofun ?_
  exact h.books.rested_of_prefills hlife (by rw [hu]; rfl) rfl rfl

/-! ## TEARDOWN (R187) -/

theorem Task.phase_sweeping (p : TeardownPc) (r : Ring) :
    (Task.teardown p).phase r = ⟨false, false, p.swept r, fun _ => false⟩ := by cases r <;> rfl

/-- T4 goes on when slot `i` is done. -/
theorem drainNext_swept {c : Config} {r q : Ring} {i j : Nat} (k k' : Nat) (hj : j < ringSize c q) :
    (drainNext c r i k').swept q j = ((TeardownPc.t4 r i k).swept q j || decide ((q, j) = (r, i))) := by
  rw [Bool.eq_iff_iff, Bool.or_eq_true, decide_eq_true_eq]
  unfold drainNext
  split
  · cases r <;> cases q <;> simp [TeardownPc.swept] <;> omega
  · cases r <;> cases q <;> simp [TeardownPc.swept] <;> simp only [ringSize] at * <;> omega

theorem drainNext_sweeps (c : Config) (r : Ring) (i k : Nat) : (Task.teardown (drainNext c r i k)).duties
    = (Task.teardown (.t4 r i k)).duties := by
  unfold drainNext
  split
  · rfl
  · cases r <;> rfl

theorem drainNext_claims (c : Config) (r : Ring) (i k : Nat) : (Task.teardown (drainNext c r i k)).claims = [] := rfl

/-- The rings are in order when T4 has done with slot `i` and its entry, if it had one, is cleared. -/
theorem Turning.sweep_moves {r : Ring} {i k k' : Nat} (h : Turning c s (.teardown (.t4 r i k)) O) (hc : u.cfg = s.cfg)
    (hpend : ∀ q j, u.pending q j = if (q, j) = (r, i) then none else s.pending q j)
    (hidx : ∀ q, (u.ring q).head = (s.ring q).head ∧ (u.ring q).tail = (s.ring q).tail) (q : Ring) :
    RingMoves O u (.teardown (drainNext s.cfg r i k')) q := by
  have hO : Off O q := h.off q (by cases q <;> rfl)
  refine ⟨hO, fun j hj => ?_, fun j m a hm => ?_⟩
  · have hold := h.books.pending q j (hc ▸ hj)
    rw [State.expectsIn_off hO, Task.phase_sweeping] at hold
    rw [State.expectsIn_off hO, Task.phase_sweeping, State.inWindow_congr hc (hidx q).1 (hidx q).2, hpend]
    simp only [drainNext_swept k k' (hc ▸ hj), Bool.false_and, Bool.not_false, Bool.and_true, Bool.or_false] at hold ⊢
    by_cases hqj : (q, j) = (r, i)
    · simp [hqj]
    · simpa [hqj] using hold
  · rw [hpend] at hm
    rw [hc]
    split at hm
    · cases hm
    · exact h.books.addresses q j m a hm

theorem books_slotEmpty {r : Ring} {i k : Nat} (h : Turning c s (.teardown (.t4 r i k)) O) (hp : s.pending r i = none) :
    Books s (.teardown (drainNext s.cfg r i k) :: O) := by
  have hd := drainNext_sweeps s.cfg r i k
  have hmoves := h.sweep_moves (u := s) (k' := k) rfl
    (fun q j => by
      split
      · rename_i hqj
        cases hqj
        exact hp
      · rfl)
    fun q => ⟨rfl, rfl⟩
  refine h.books.step rfl ⟨rfl, rfl⟩ (fun q => .inr (hmoves q)) (fun x => ?_) h.books.entries trivial
    (h.books.heldBack_of_same rfl rfl (congrArg Prod.fst hd)) (State.rested_of_sweeps (congrArg (·.2.1) hd))
  have hst (q : Ring) : ((Task.teardown (drainNext s.cfg r i k)).phase q).stale
      = ((Task.teardown (.t4 r i k)).phase q).stale := by simp only [Task.phase_sweeping]
  rw [State.slotTotal_congr rfl rfl hst]
  rfl

theorem books_slotFreed {r : Ring} {i k m : Nat} {a : DAddr} (h : Turning c s (.teardown (.t4 r i k)) O)
    (hp : s.pending r i = some (m, a)) :
    Books ((s.setBuffer m { s.buffer m with own := .free, map := none }).setPending r i none)
      (.teardown (drainNext s.cfg r i (k + 1)) :: O) := by
  set e : PoolEntry := { s.buffer m with own := .free, map := none } with he
  set u := (s.setBuffer m e).setPending r i none with hu
  have hi := State.lt_pend_of_pending hp
  have hO (q : Ring) : Off O q := h.off q (by cases q <;> rfl)
  have hd := drainNext_sweeps s.cfg r i (k + 1)
  have hcfg : u.cfg = s.cfg := by simp [hu]
  have hpend (q : Ring) (j : Nat) : u.pending q j = if (q, j) = (r, i) then none else s.pending q j := by
    rw [hu, State.pending_setPending]
    simp [hi]
  have hbuf (j : Nat) : u.buffer j = (s.setBuffer m e).buffer j := by simp [hu]
  have hidx (q : Ring) : (u.ring q).head = (s.ring q).head ∧ (u.ring q).tail = (s.ring q).tail := by
    rw [hu]
    cases r <;> cases q <;> exact ⟨rfl, rfl⟩
  obtain ⟨hown, hmap⟩ := h.books.held_of_pending h.shaped (hO r) (by rw [Task.phase_sweeping]) hp
  refine h.books.step hcfg (by simp [hu]) (fun q => .inr (h.sweep_moves hcfg hpend hidx q)) (fun x => ?_) (fun j => ?_)
    trivial (h.books.heldBack_of_same (by simp [hu]) ?_ (congrArg Prod.fst hd))
    (State.rested_of_sweeps (congrArg (·.2.1) hd))
  · have hx := State.slotTotal_update (s := s) (u := u) (L := .teardown (.t4 r i k) :: O)
      (L' := .teardown (drainNext s.cfg r i (k + 1)) :: O) hcfg (h.shaped.pend r ▸ hi) (fun q j hqj => ?_) x
    · have hheld := State.heldCount_setBuffer (s := s) (h := m) e (State.lt_of_own (by rw [hown]; nofun)) x
      have hclaim : (s.buffer m).claim m = [(m, some (ringDir r))] := by rw [PoolEntry.claim, if_pos hown, hmap]
      have hfree : e.claim m = [] := PoolEntry.claim_of_not_eng (by rw [he]; nofun)
      rw [State.slotClaim_off (hO r), State.slotClaim_off (hO r), Task.phase_sweeping, Task.phase_sweeping, hpend, hp] at hx
      rw [hclaim, hfree] at hheld
      rw [State.heldCount_eq u, hbuf, ← State.heldCount_eq, drainNext_claims]
      simp only [if_true, Bool.false_eq_true, if_false, Option.map_some, Option.map_none, Option.toList_none,
        Option.toList_some, List.count_nil, Task.claims] at hx hheld ⊢
      omega
    · rw [State.slotClaim_cons, State.slotClaim_cons, Task.phase_sweeping, Task.phase_sweeping, hpend, if_neg hqj]
  · rw [hbuf, State.buffer_setBuffer]
    split
    · exact ⟨fun _ => rfl, fun hne => absurd rfl hne⟩
    · exact h.books.entries j
  · rw [State.full, State.full, (hidx .tx).1, (hidx .tx).2, hcfg]

theorem State.pending_zeroed (s : State) : State.pending { s.zeroIndices with txStopped := false } = s.pending := by
  funext r i
  cases r <;> rfl

theorem books_indicesZeroed {k : Nat} (h : Turning c s (.teardown (.t5 k)) O) :
    Books { s.zeroIndices with txStopped := false } (.teardown (.t6 k) :: O) := by
  have hO (q : Ring) : Off O q := h.off q (by cases q <;> rfl)
  have hst (q : Ring) : ((Task.teardown (.t6 k)).phase q).stale = ((Task.teardown (.t5 k)).phase q).stale := by
    simp only [Task.phase_sweeping]
  refine h.books.step rfl ⟨rfl, rfl⟩ (fun q => .inr ⟨hO q, fun i hi => ?_, fun i m a hm => ?_⟩) (fun x => ?_)
    h.books.entries trivial nofun (fun _ _ => ⟨⟨rfl, rfl⟩, fun _ => ⟨rfl, rfl⟩⟩)
  · have hold := h.books.pending q i hi
    rw [State.expectsIn_off (hO q), Task.phase_sweeping] at hold
    have hnone : (State.pending { s.zeroIndices with txStopped := false } q i).isSome = false := by
      rw [s.pending_zeroed]
      cases q <;> simpa [TeardownPc.swept] using hold
    rw [hnone, State.expectsIn_off (hO q), Task.phase_sweeping]
    cases q <;> simp [State.inWindow, State.count, State.ring, State.zeroIndices, State.setHead, State.setTail,
      State.setRing, subIndex]
  · refine h.books.addresses q i m a ?_
    rw [← s.pending_zeroed]
    exact hm
  · rw [State.slotTotal_congr (s := s) (u := { s.zeroIndices with txStopped := false }) rfl s.pending_zeroed hst]
    rfl

theorem books_tornDown (h : Turning c s (.teardown .t3) O) :
    Books { s with life := .down, pollSched := false } (.teardown (.t4 .rx 0 0) :: O) := by
  refine h.books.life_step (l := .down) (Eq.refl _) (fun r => ?_) rfl rfl trivial (State.rested_of_sweeps rfl)
  simp only [Task.phase_sweeping, Phase.mk.injEq, true_and, and_true]
  funext i
  cases r <;> simp [TeardownPc.swept]

/-! ## Every micro-step -/

/-- In a sound state no operation misuses a buffer (R112, R114, R115). -/
theorem Turning.not_misuses {t : Task} (h : Turning c s t O) : ¬ t.misuses s := by
  cases t with
  | refill p => exact not_misuses_refill .refill h
  | drain b p => exact not_misuses_drain (.drain b) h
  | reclaim p => exact not_misuses_reclaim .reclaim h
  | release k =>
    rintro ⟨hk, hno⟩
    obtain ⟨hlt, hown, hmap⟩ := h.handle hk
    exact hno ⟨h.shaped.pool ▸ hlt, by rw [hown]; nofun, hmap⟩
  | submit k p =>
    cases p with
    | x5 => exact fun hm => hm (h.holds (List.mem_singleton.mpr rfl))
    | _ => exact id
  | irq p =>
    cases p with
    | i4r v p => exact not_misuses_reclaim (.irq v) h
    | _ => exact id
  | poll b p =>
    cases p with
    | l1 p => exact not_misuses_drain (.poll b) h
    | l2 w p => exact not_misuses_refill (.poll b w) h
    | _ => exact id
  | bringup p =>
    cases p with
    | b4 p => exact not_misuses_refill .bringup h
    | _ => exact id
  | teardown p =>
    cases p with
    | t4 r i k =>
      rintro ⟨m, a, hp, hno⟩
      exact hno (h.holdsMapped (h.off r (by cases r <;> rfl)) (by rw [Task.phase_sweeping]) hp)
    | _ => exact id
  | _ => exact id

theorem books_filled {W : RefillPc → Task} {n : Nat} {κ : Cont} (h : Turning c s (W (.f9 n)) O)
    (hx : AfterFill s n W u κ) : Books u (κ.task :: O) := by
  cases hx <;> exact h.books.quiet_step (Eq.refl _) (fun r => by cases r <;> rfl) rfl rfl trivial

theorem books_drained {W : DrainPc → Task} {w : Nat} {κ : Cont} (h : Turning c s (W (.g9 w)) O)
    (hx : AfterDrain s w W u κ) : Books u (κ.task :: O) := by
  cases hx <;> exact h.books.quiet_step (Eq.refl _) (fun r => by cases r <;> rfl) rfl rfl trivial

theorem books_reclaimed {W : ReclaimPc → Task} {p : ReclaimPc} {κ : Cont} (h : Turning c s (W p) O)
    (hx : AfterReclaim W κ) (he : p.early = false) (hs : p.stale = []) (hw : p.owesWake = false) :
    Books s.unlock (κ.task :: O) := by
  have phase (r : Ring) (t : Task) (ht : ∀ r, t.phase r = .clear) (W : ReclaimPc → Task) (hW : Reclaims W) :
      t.phase r = (W p).phase r := by
    cases r with
    | rx => rw [ht, hW.phase_rx]
    | tx => rw [ht, hW.phase_tx, he, hs]; rfl
  cases hx with
  | reclaim =>
    exact h.books.quiet_step (t' := .isFull .rx) (Eq.refl _)
      (fun r => phase r _ (Task.blank_isFull .rx).phase _ .reclaim) (by rw [Reclaims.reclaim.duties, hw]; rfl) rfl trivial
  | irq v =>
    exact h.books.quiet_step (t' := .irq (.i5 v)) (Eq.refl _) (fun r => phase r _ (fun r => by cases r <;> rfl) _ (.irq v))
      (by rw [(Reclaims.irq v).duties, hw]; rfl) rfl trivial

theorem books_micro {t : Task} {κ : Cont} (h : Turning c s t O) (hm : Micro c s t u κ) :
    κ ≠ .stopped ∧ Books u (κ.task :: O) := by
  cases hm with
  | stop hx hf => exact absurd hx h.not_misuses
  | @acquired size k hs hf =>
    obtain ⟨hk, hfree, -⟩ := State.lowestFree_eq_some.mp hf
    exact ⟨nofun, h.books.buffer_step (e := ⟨.up, BitVec.ofNat 16 size, none⟩) (h.shaped.pool ▸ hk) .rfl
      (fun r => by cases r <;> rfl) rfl (PoolEntry.claim_of_not_eng (by rw [hfree]; nofun)).symm rfl
      (PoolEntry.ok_acquired hs) trivial⟩
  | @released k hh =>
    obtain ⟨hlt, hown, hmap⟩ := h.handle hh
    exact ⟨nofun, h.books.buffer_step (e := { s.buffer k with own := .free }) hlt .rfl (fun r => by cases r <;> rfl) rfl
      (PoolEntry.claim_of_not_eng (by rw [hown]; nofun)).symm rfl ⟨fun _ => hmap, fun hne => absurd rfl hne⟩ trivial⟩
  | fill hW hx => exact ⟨nofun, books_refill hW h hx⟩
  | filled hx => exact ⟨by cases hx <;> nofun, books_filled h hx⟩
  | drain hW hx => exact ⟨nofun, books_drain hW h hx⟩
  | drained hx => exact ⟨by cases hx <;> nofun, books_drained h hx⟩
  | reclaim hW hx => exact ⟨nofun, books_reclaim hW h hx⟩
  | reclaimRefused hd hx => exact ⟨by cases hx <;> nofun, books_reclaimed h hx rfl rfl rfl⟩
  | reclaimed hx => exact ⟨by cases hx <;> nofun, books_reclaimed h hx rfl rfl rfl⟩
  | submitLocked hl => exact ⟨nofun, h.books.quiet_step (Eq.refl _) (phase_submit rfl) rfl rfl trivial⟩
  | submitUp hu => exact ⟨nofun, h.books.quiet_step .rfl (phase_submit rfl) rfl rfl trivial⟩
  | submitDown => exact ⟨nofun, h.books.quiet_step (Eq.refl _) (phase_submitted rfl) rfl rfl trivial⟩
  | submitBusy hf =>
    have hup : s.life = .up := h.allowed.up rfl
    exact ⟨nofun, h.books.stopped_step (b := true) (h.off .tx rfl) (Eq.refl _) (phase_submitted rfl) rfl trivial
      (fun _ => hf) (State.rested_of_up hup)⟩
  | submitRoom hf => exact ⟨nofun, h.books.quiet_step .rfl (phase_submit rfl) rfl rfl hf⟩
  | submitTaken hh => exact ⟨nofun, books_submitTaken h hh⟩
  | submitBadHandle => exact ⟨nofun, h.books.quiet_step (Eq.refl _) (phase_submitted rfl) rfl rfl trivial⟩
  | submitMapped => exact ⟨nofun, books_submitMapped h⟩
  | submitMapFailed => exact ⟨nofun, books_submitMapFailed h⟩
  | submitAddress =>
    obtain ⟨hf, ha, -⟩ := h.ok
    exact ⟨nofun, h.books.quiet_step (Eq.refl _) (phase_submit rfl) rfl rfl ⟨hf, ha, beq_self_eq_true _⟩⟩
  | submitLength => exact ⟨nofun, h.books.quiet_step (Eq.refl _) (phase_submit rfl) rfl rfl h.ok⟩
  | submitBarrier => exact ⟨nofun, h.books.quiet_step .rfl (phase_submit rfl) rfl rfl h.ok⟩
  | submitStatus =>
    obtain ⟨hf, ha, hat⟩ := h.ok
    exact ⟨nofun, h.books.quiet_step (Eq.refl _) (phase_submit rfl) rfl rfl ⟨hf, ha, beq_iff_eq.mp hat⟩⟩
  | submitRecorded => exact ⟨nofun, books_submitRecorded h⟩
  | submitAdvanced => exact ⟨nofun, books_submitAdvanced h⟩
  | submitKicked => exact ⟨nofun, h.books.quiet_step (Eq.refl _) (phase_submit rfl) rfl rfl trivial⟩
  | submitted => exact ⟨nofun, h.books.quiet_step (Eq.refl _) (phase_submitted rfl) rfl rfl trivial⟩
  | irqSchedule =>
    refine ⟨nofun, h.books.quiet_step ?_ (fun r => by cases r <;> rfl) rfl rfl trivial⟩
    unfold State.schedulePoll
    split <;> exact Eq.refl _
  | irqLink =>
    refine ⟨nofun, h.books.quiet_step ?_ (fun r => by cases r <;> rfl) rfl rfl trivial⟩
    unfold State.reportIf
    split <;> exact Eq.refl _
  | irqErr =>
    refine ⟨nofun, h.books.quiet_step ?_ (fun r => by cases r <;> rfl) rfl rfl trivial⟩
    unfold State.reportIf
    split <;> exact Eq.refl _
  | resetPending ha =>
    exact ⟨nofun, h.books.quiet_step (sameLedger_answerReset s) (fun r => by cases r <;> rfl) rfl rfl trivial⟩
  | resetTimedOut =>
    exact ⟨nofun, h.books.quiet_step (sameLedger_answerReset s) (fun r => by cases r <;> rfl) rfl rfl trivial⟩
  | resetAcked ha =>
    exact ⟨nofun, h.books.quiet_step (sameLedger_answerReset s) (fun r => by cases r <;> rfl) rfl rfl trivial⟩
  | slotCleared => exact ⟨nofun, books_slotCleared h⟩
  | latchesCleared => exact ⟨nofun, books_latchesCleared h⟩
  | broughtUp =>
    exact ⟨nofun, h.books.life_step (l := .up) (t' := .isFull .rx) (Eq.refl _) (fun r => by cases r <;> rfl) rfl rfl trivial
      (State.rested_of_up rfl)⟩
  | tornDown hp => exact ⟨nofun, books_tornDown h⟩
  | slotFreed hp => exact ⟨nofun, books_slotFreed h hp⟩
  | slotEmpty hp => exact ⟨nofun, books_slotEmpty h hp⟩
  | indicesZeroed => exact ⟨nofun, books_indicesZeroed h⟩
  | _ => exact ⟨nofun, h.books.quiet_step (Eq.refl _) (fun r => by cases r <;> rfl) rfl rfl trivial⟩

end

end Sys2Proof.Machine
end

section
/-! PROOF. The host side's invariants are kept (10_state R30, R32, 70_reset R261). -/

namespace Sys2Proof.Machine

/-! ## An operation that begins or has ended -/

theorem any_cons_of_false {f : Task → Bool} {t : Task} {O : List Task} (hf : f t = false) : (t :: O).any f = O.any f := by
  rw [List.any_cons, hf, Bool.false_or]

section
variable {s : State} {t : Task} {O : List Task} (hb : t.Blank)
include hb

theorem Task.Blank.owesWake : t.owesWake = false := congrArg Prod.fst hb.duties

theorem Task.Blank.expectsIn (r : Ring) (i : Nat) : s.expectsIn (t :: O) r i = s.expectsIn O r i := by
  rw [State.expectsIn_cons, hb.phase]
  rfl

theorem Task.Blank.claimsIn : s.claimsIn (t :: O) = s.claimsIn O := by
  have hslot (r : Ring) : s.slotClaim (t :: O) r = s.slotClaim O r := by
    funext i
    rw [State.slotClaim_cons, hb.phase]
    simp [State.slotClaim]
  simp only [State.claimsIn, hslot, List.flatMap_cons, hb.claims, List.nil_append]

/-- Nothing in the books is about an operation that has nothing in between. -/
theorem Task.Blank.books_iff : Books s (t :: O) ↔ Books s O := by
  constructor
  · intro h
    refine ⟨fun x => ?_, h.entries, h.addresses, fun r i hi => ?_, fun t₁ ht₁ => h.locals t₁ (List.mem_cons_of_mem _ ht₁),
      fun hst => ?_, fun hd hs => ?_, fun hd hs hp => ?_, h.noFault⟩
    · rw [← hb.claimsIn]
      exact h.counted x
    · rw [← hb.expectsIn]
      exact h.pending r i hi
    · rw [← any_cons_of_false hb.owesWake]
      exact h.stopped hst
    · exact h.downTx hd (by rwa [any_cons_of_false hb.sweeps])
    · exact h.downRx hd (by rwa [any_cons_of_false hb.sweeps]) (by rwa [any_cons_of_false hb.prefills])
  · intro h
    refine ⟨fun x => ?_, h.entries, h.addresses, fun r i hi => ?_, fun t₁ ht₁ => ?_, fun hst => ?_, fun hd hs => ?_,
      fun hd hs hp => ?_, h.noFault⟩
    · rw [hb.claimsIn]
      exact h.counted x
    · rw [hb.expectsIn]
      exact h.pending r i hi
    · obtain rfl | ht₁ := List.mem_cons.mp ht₁
      · exact hb.ok s
      · exact h.locals t₁ ht₁
    · rw [any_cons_of_false hb.owesWake]
      exact h.stopped hst
    · exact h.downTx hd (by rwa [← any_cons_of_false hb.sweeps])
    · exact h.downRx hd (by rwa [← any_cons_of_false hb.sweeps]) (by rwa [← any_cons_of_false hb.prefills])

end

theorem Task.blank_firstTask (i : Instr) : (firstTask i).Blank := by
  cases i <;> exact ⟨fun r => by cases r <;> rfl, rfl, rfl, fun _ => trivial⟩

/-! ## The moves outside the block -/

theorem State.tasks_congr {s t : State} (hc : t.cfg = s.cfg) (h : ∀ c, t.cont c = s.cont c) : t.tasks = s.tasks := by
  have htask : t.task? = s.task? := funext fun c => by simp only [State.task?, h]
  simp only [State.tasks, State.ctxs, hc, htask]

/-- What the books do not speak of makes no difference to a sound state. -/
theorem State.Sound.congr {s t : State} (h : s.Sound) (hu : SameLedger s t) (hc : ∀ c, t.cont c = s.cont c)
    (hsh : t.Shaped) (hex : t.Exclusive) : t.Sound := by
  have hcfg : t.cfg = s.cfg := by rw [hu]
  refine Books.sound_of (hcfg ▸ h.wf) hsh hex ?_ fun c => hc c ▸ h.ring.going c
  rw [State.tasks_congr hcfg hc]
  exact (Books.of_sound h).congr hu

theorem Unseen.sameLedger {s t : State} (h : Unseen s t) : SameLedger s t := by
  rw [h.frame]
  exact Eq.refl _

theorem sameLedger_devMemWrite (s : State) (a : Nat) (v : Byte) : SameLedger s (s.devMemWrite a v) := by
  unfold State.devMemWrite
  split
  · split <;> exact Eq.refl _
  · exact Eq.refl _

theorem sameLedger_devOpStep (o : DevOp) (s : State) : SameLedger s (devOpStep o s).1 := by
  cases o with
  | rx i len err bytes seed p =>
    cases p with
    | v2 st cap a k =>
      simp only [devOpStep, devRxStep]
      split
      · exact sameLedger_devMemWrite ..
      · exact .rfl
    | _ => exact Eq.refl _
  | tx i err p =>
    cases p with
    | w2 st len a b =>
      simp only [devOpStep, devTxStep]
      split
      · split <;> exact Eq.refl _
      · exact Eq.refl _
    | _ => exact Eq.refl _

theorem DeviceMove.sameLedger {s t : State} (h : DeviceMove s t) : SameLedger s t := by
  cases h with
  | rxStart i len err bytes => unfold State.devRxStart; split <;> exact Eq.refl _
  | txStart i err => unfold State.devTxStart; split <;> exact Eq.refl _
  | access j =>
    obtain hj | ⟨o, -, -, hj⟩ := s.devStep_cases j
    · rw [hj]
      exact .rfl
    · have ho := sameLedger_devOpStep o s
      rw [hj, ho]
      exact Eq.refl _
  | raise bits => exact Eq.refl _
  | resetAck v => exact sameLedger_devResetAck s v
  | fill k h off bytes => unfold State.upstreamFill; split <;> exact Eq.refl _

/-! ## A turn of a context -/

/-- A context's operation in a sound state, the other contexts' operations beside it. -/
theorem State.Sound.turning {s : State} (h : s.Sound) {c : Ctx} {t : Task} {q : List Word}
    (hl : s.lane? c = some ⟨.running t, q⟩) : Turning c s t (s.others c) := by
  have ht := State.task?_of_lane hl
  have hperm := State.tasks_perm (State.mem_ctxs h.shaped.up hl)
  rw [State.cont_of_lane hl] at hperm
  refine ⟨Config.valid h.wf, h.shaped, h.exclusive.allowed ht, fun r hr t' ht' => ?_, fun hlock hup t' ht' => ?_,
    (Books.of_sound h).perm hperm⟩
  · obtain ⟨d, hd, hdt⟩ := State.mem_others ht'
    exact h.exclusive.off ht hdt hd hr
  · obtain ⟨d, hd, hdt⟩ := State.mem_others ht'
    exact h.exclusive.off_of_locked ht hdt hd hlock hup

/-- The books of the state in which context `c` has gone on to `κ`. -/
theorem State.sound_of_turned {s u : State} {c : Ctx} {κ₀ κ : Cont} {l : Lane} (h : s.Sound) (hl : s.lane? c = some l)
    (hT : Turned c s κ₀ (u.setCont c κ) κ) (hcfg : u.cfg = s.cfg) (hne : κ ≠ .stopped)
    (hB : Books u (κ.tasks ++ s.others c)) (hsh : (u.setCont c κ).Shaped) (hex : (u.setCont c κ).Exclusive) :
    (u.setCont c κ).Sound := by
  have hvcfg : (u.setCont c κ).cfg = s.cfg := by rw [State.setCont_cfg, hcfg]
  have hu : SameLedger u (u.setCont c κ) := by
    rw [State.setCont_eq_lanes]
    exact Eq.refl _
  refine Books.sound_of (hvcfg ▸ h.wf) hsh hex ?_ fun d => ?_
  · have hc : c ∈ (u.setCont c κ).ctxs := by
      have := State.mem_ctxs h.shaped.up hl
      rwa [State.ctxs, hvcfg]
    have hperm := State.tasks_perm hc
    rw [hT.new, hT.others hvcfg] at hperm
    exact (hB.congr hu).perm hperm.symm
  · by_cases hd : d = c
    · rw [hd, hT.new]
      exact hne
    · rw [hT.other d hd]
      exact h.ring.going d

theorem sound_micro {s u : State} {c : Ctx} {t : Task} {q : List Word} {κ : Cont} (h : s.Sound)
    (hl : s.lane? c = some ⟨.running t, q⟩) (hm : Micro c s t u κ) (hk : Keeps s u) : (u.setCont c κ).Sound := by
  obtain ⟨hne, hB⟩ := books_micro (h.turning hl) hm
  refine State.sound_of_turned h hl (turned_setCont κ hl hk.lanes) hk.cfg hne ?_ (shaped_invariant.micro h.shaped hl hm hk)
    (exclusive_invariant.micro h.exclusive hl hm hk)
  cases κ with
  | idle => exact (Task.blank_isFull .rx).books_iff.mp hB
  | running t' => exact hB
  | stopped => exact absurd rfl hne

theorem sound_accept {s s0 : State} {c : Ctx} {i : Instr} {t : Task} {q : List Word} (h : s.Sound)
    (hl : s.lane? c = some ⟨.idle, q⟩) (hlegal : legalOn i c.port = true) (ha : acceptance i s = .start t s0) :
    (s0.setCont c (.running t)).Sound := by
  have hsh := shaped_invariant.accept h.shaped hl hlegal ha
  have hex := exclusive_invariant.accept h.exclusive hl hlegal ha
  obtain ⟨rfl, b, rfl⟩ := acceptance_start ha
  refine State.sound_of_turned h hl (turned_setCont _ hl rfl) rfl nofun ?_ hsh hex
  have hperm := State.tasks_perm (State.mem_ctxs h.shaped.up hl)
  rw [State.cont_of_lane hl] at hperm
  have hB : Books { s with pollRunning := b } (s.others c) := ((Books.of_sound h).perm hperm).congr (Eq.refl _)
  exact (Task.blank_firstTask i).books_iff.mpr hB

theorem sound_invariant : Invariant State.Sound where
  unseen hu h := h.congr hu.sameLedger hu.cont (shaped_invariant.unseen hu h.shaped)
    (exclusive_invariant.unseen hu h.exclusive)
  accept := sound_accept
  micro := sound_micro
  device h hd := h.congr hd.sameLedger hd.foreign.cont (shaped_invariant.device h.shaped hd)
    (exclusive_invariant.device h.exclusive hd)

/-- Settles O18: every micro-step keeps the books of the operations in progress balanced, and no other atomic step
touches what stands in them. -/
theorem soundKept : Obligations.SoundKept := fun _ _ => sound_invariant.step

end Sys2Proof.Machine
end

section
/-! PROOF. The device side's invariants over a list of operations (10_state R30, 46_device R195, 20_memory R68). What they
say of the pool follows from the host side's books. -/

namespace Sys2Proof.Machine

/-! ## The device's books -/

/-- Slot `i` stands for a buffer: by its entry, or an operation has handed it over and is about to record it. -/
def State.Backed (s : State) (L : List Task) (r : Ring) (i : Nat) : Prop :=
  (s.pending r i).isSome = true ∨ ∃ t ∈ L, ∃ h, t.handed r = some (i, h)

/-- The device owns slot `i`. -/
def State.owned (s : State) (r : Ring) (i : Nat) : Bool := ownBit (s.slotDesc r i).status

/-- The length in the descriptor lies in a buffer, or is the one the device has put there. -/
def State.lengthOk (s : State) (r : Ring) (i : Nat) : Prop :=
  (s.slotDesc r i).length.toNat ≤ s.cfg.bufSize ∨ s.dev.any (·.lengthWritten r i) = true

/-- `State.DevSound` with the operations `L` in progress, without what it says of the pool. -/
structure Device (s : State) (L : List Task) : Prop where
  armed : s.life = .up ∨ L.any Task.prefills = true → ∀ r i, i < ringSize s.cfg r → s.owned r i = true →
    s.Backed L r i ∧ s.lengthOk r i
  ops : s.life = .up → ∀ o, o ∈ s.dev → o.ok s
  slots : (s.dev.map DevOp.slot).Nodup
  addressed : ∀ r i h a, s.pending r i = some (h, a) → (s.slotDesc r i).address = a
  asked : L.any Task.asks = true → s.rst.getLsbD 0 = true ∨ s.dev = []
  forgotten : L.any Task.acked = true → s.dev = []
  answered : s.life = .up ∨ L.any Task.acked = true → s.rst.getLsbD 0 = false
  cleared : ∀ r i, i < ringSize s.cfg r → L.any (·.cleared r i) = true → s.owned r i = false
  consumed : ∀ r, L.any (·.consumes r) = true → s.owned r (s.ring r).tail = false
  written : ∀ t, t ∈ L → t.written s
  noDma : s.fault.dmaUnmapped = false

theorem Device.of_devSound {s : State} (h : s.DevSound) : Device s s.tasks where
  armed hl r i hi ho := by
    obtain ⟨k, hk, -, -, -, hlen⟩ := h.armed hl r i hi ho
    refine ⟨?_, hlen⟩
    obtain ⟨a, ha⟩ | ⟨t, ht, hh⟩ := hk
    · exact .inl (by rw [ha]; rfl)
    · exact .inr ⟨t, ht, k, hh⟩
  ops := h.ops
  slots := h.slots
  addressed := h.addressed
  asked := h.asked
  forgotten := h.forgotten
  answered := h.answered
  cleared := h.cleared
  consumed := h.consumed
  written := h.written
  noDma := h.noDma

/-- An operation whose entry no longer stands for a buffer is consuming the slot at the tail. -/
theorem Task.consumes_of_stale {s : State} {t : Task} {r : Ring} {i : Nat} (hok : t.ok s) (h : (r, i) ∈ t.stale) :
    t.consumes r = true ∧ i = (s.ring r).tail := by
  have drains (p : DrainPc) (hok : p.ok s) (h : (r, i) ∈ p.stale) : r = .rx ∧ p.consumes = true ∧ i = s.rx.tail := by
    cases p with
    | g5 w st len j k =>
      obtain ⟨-, hj, -⟩ := hok
      cases List.mem_singleton.mp h
      exact ⟨rfl, rfl, hj⟩
    | g6 w j =>
      cases List.mem_singleton.mp h
      exact ⟨rfl, rfl, hok.2⟩
    | _ => cases h
  have reclaims (p : ReclaimPc) (hok : p.ok s) (h : (r, i) ∈ p.stale) : r = .tx ∧ p.consumes = true ∧ i = s.tx.tail := by
    cases p with
    | y6 f n j =>
      obtain ⟨-, hj, -⟩ := hok
      cases List.mem_singleton.mp h
      exact ⟨rfl, rfl, hj⟩
    | _ => cases h
  cases t with
  | drain b p =>
    obtain ⟨rfl, hc, hi⟩ := drains p hok h
    exact ⟨hc, hi⟩
  | reclaim p =>
    obtain ⟨rfl, hc, hi⟩ := reclaims p hok h
    exact ⟨hc, hi⟩
  | irq p =>
    cases p with
    | i4r v p =>
      obtain ⟨rfl, hc, hi⟩ := reclaims p hok h
      exact ⟨hc, hi⟩
    | _ => cases h
  | poll b p =>
    cases p with
    | l1 p =>
      obtain ⟨rfl, hc, hi⟩ := drains p hok h
      exact ⟨hc, hi⟩
    | _ => cases h
  | _ => cases h

/-- The buffer of a slot handed over is the engine's own, mapped, and its address stands in the descriptor. -/
theorem Task.of_handed {s : State} {t : Task} {r : Ring} {i h : Nat} (hok : t.ok s) (hw : t.written s)
    (hh : t.handed r = some (i, h)) :
    (h, some (ringDir r)) ∈ t.claims ∧ (s.slotDesc r i).address = xlateOf s.cfg h ∧ i = (s.ring r).head := by
  have fills (p : RefillPc) (hok : p.ok s) (hw : p.written s) (hh : p.handed = some (i, h)) :
      (h, some .inbound) ∈ p.claims ∧ (s.slotDesc .rx i).address = xlateOf s.cfg h ∧ i = s.rx.head := by
    cases p with
    | f5 n k a j =>
      cases hh
      obtain ⟨-, rfl, hi⟩ := hok
      exact ⟨List.mem_singleton.mpr rfl, hw, hi⟩
    | _ => cases hh
  cases t with
  | refill p =>
    cases r with
    | rx => exact fills p hok hw hh
    | tx => cases hh
  | submit k p =>
    cases r with
    | rx => cases p <;> cases hh
    | tx =>
      cases p with
      | x7 a j =>
        cases hh
        obtain ⟨-, rfl, hi⟩ := hok
        exact ⟨List.mem_singleton.mpr rfl, hw, hi⟩
      | _ => cases hh
  | poll b p =>
    cases p with
    | l2 w p =>
      cases r with
      | rx => exact fills p hok hw hh
      | tx => cases hh
    | _ => cases r <;> cases hh
  | bringup p =>
    cases p with
    | b4 p =>
      cases r with
      | rx => exact fills p hok hw hh
      | tx => cases hh
    | _ => cases r <;> cases hh
  | _ => cases r <;> cases hh

theorem Device.devSound_of {s : State} (hs : s.Sound) (h : Device s s.tasks) : s.DevSound where
  armed hl r i hi ho := by
    have hB := Books.of_sound hs
    have held {x : Claim} (hx : x ∈ s.claimsIn s.tasks) : (s.buffer x.1).map = x.2 ∧ x.1 < s.cfg.poolSize := by
      obtain ⟨hown, hmap⟩ := hB.held hx
      exact ⟨hmap, hs.shaped.pool ▸ State.lt_of_own (by rw [hown]; nofun)⟩
    obtain ⟨hback, hlen⟩ := h.armed hl r i hi ho
    obtain hp | ⟨t, ht, k, hh⟩ := hback
    · obtain ⟨⟨k, a⟩, hp⟩ := Option.isSome_iff_exists.mp hp
      have hstale : (r, i) ∉ s.tasks.flatMap Task.stale := by
        rw [List.mem_flatMap]
        rintro ⟨t, ht, hst⟩
        obtain ⟨hc, rfl⟩ := Task.consumes_of_stale (hB.locals t ht) hst
        have hno := h.consumed r (List.any_eq_true.mpr ⟨t, ht, hc⟩)
        cases hno.symm.trans ho
      have hclaim : s.slotClaim s.tasks r i = some (k, some (ringDir r)) := by
        rw [State.slotClaim, if_neg (by rwa [List.contains_iff_mem]), hp]
        rfl
      have hmem : (k, some (ringDir r)) ∈ (List.range (ringSize s.cfg r)).filterMap (s.slotClaim s.tasks r) :=
        List.mem_filterMap.mpr ⟨i, List.mem_range.mpr hi, hclaim⟩
      obtain ⟨hmap, hlt⟩ := held (x := (k, some (ringDir r))) (by
        simp only [State.claimsIn, List.mem_append]
        cases r
        · exact .inr (.inl hmem)
        · exact .inr (.inr hmem))
      exact ⟨k, .inl ⟨a, hp⟩, hmap, hlt, (h.addressed r i k a hp).trans (hB.addresses r i k a hp), hlen⟩
    · obtain ⟨hclaim, haddr, -⟩ := Task.of_handed (hB.locals t ht) (h.written t ht) hh
      obtain ⟨hmap, hlt⟩ := held (x := (k, some (ringDir r)))
        (List.mem_append_left _ (List.mem_flatMap.mpr ⟨t, ht, hclaim⟩))
      exact ⟨k, .inr ⟨t, ht, hh⟩, hmap, hlt, haddr, hlen⟩
  ops := h.ops
  slots := h.slots
  addressed := h.addressed
  asked := h.asked
  forgotten := h.forgotten
  answered := h.answered
  cleared := h.cleared
  consumed := h.consumed
  written := h.written
  noDma := h.noDma

theorem State.Backed.mono {s : State} {L L' : List Task} {r : Ring} {i : Nat} (h : s.Backed L r i) (hL : ∀ t ∈ L, t ∈ L') :
    s.Backed L' r i := h.imp_right fun ⟨t, ht, hh⟩ => ⟨t, hL t ht, hh⟩

theorem Device.perm {s : State} {L L' : List Task} (h : Device s L) (hp : L.Perm L') : Device s L' := by
  have hany (f : Task → Bool) : L'.any f = L.any f := hp.symm.any_eq
  refine ⟨fun hl r i hi ho => ?_, h.ops, h.slots, h.addressed, ?_, ?_, ?_, fun r i => ?_, fun r => ?_,
    fun t ht => h.written t (hp.mem_iff.mpr ht), h.noDma⟩
  · rw [hany] at hl
    exact (h.armed hl r i hi ho).imp_left fun hb => hb.mono fun t ht => hp.mem_iff.mp ht
  · rw [hany]; exact h.asked
  · rw [hany]; exact h.forgotten
  · rw [hany]; exact h.answered
  · rw [hany]; exact h.cleared r i
  · rw [hany]; exact h.consumed r

end Sys2Proof.Machine
end

section
/-! PROOF. The rules for one operation's step on the device's side: a step that writes no descriptor, and one that writes
the descriptor or the entry of one slot. -/

namespace Sys2Proof.Machine

/-! ## What completions and operations have read and written -/

theorem DevOp.ok_congr {s u : State} {o : DevOp} (hc : u.cfg = s.cfg)
    (hst : (u.slotDesc o.slot.1 o.slot.2).status = (s.slotDesc o.slot.1 o.slot.2).status)
    (ha : (u.slotDesc o.slot.1 o.slot.2).address = (s.slotDesc o.slot.1 o.slot.2).address) (h : o.ok s) : o.ok u := by
  cases o with
  | rx i len err bytes seed p =>
    replace hst : u.descRead32 (statusAddr u.cfg .rx i) = s.descRead32 (statusAddr s.cfg .rx i) := hst
    replace ha : u.descRead64 (bufferAddr u.cfg .rx i) = s.descRead64 (bufferAddr s.cfg .rx i) := ha
    simp only [DevOp.ok, hst, ha]
    rw [hc]
    exact h
  | tx i err p =>
    replace hst : u.descRead32 (statusAddr u.cfg .tx i) = s.descRead32 (statusAddr s.cfg .tx i) := hst
    replace ha : u.descRead64 (bufferAddr u.cfg .tx i) = s.descRead64 (bufferAddr s.cfg .tx i) := ha
    simp only [DevOp.ok, hst, ha]
    rw [hc]
    exact h

theorem DevOp.owned_of_ok {s : State} {o : DevOp} (h : o.ok s) :
    o.slot.2 < ringSize s.cfg o.slot.1 ∧ s.owned o.slot.1 o.slot.2 = true := by
  cases o with
  | rx i len err bytes seed p =>
    obtain ⟨hi, ho, -⟩ := h
    exact ⟨hi, ho⟩
  | tx i err p =>
    obtain ⟨hi, ho, -⟩ := h
    exact ⟨hi, ho⟩

/-- REFILL is between F4's writes. -/
def RefillPc.fills : RefillPc → Bool
  | .f4 .. => true
  | _ => false

/-- An operation is writing the descriptor at the head of ring `r` (P1 to P4). -/
def Task.fills : Task → Ring → Bool
  | .refill p, .rx => p.fills
  | .poll _ (.l2 _ p), .rx => p.fills
  | .bringup (.b4 p), .rx => p.fills
  | .submit _ (.x6 _ _), .tx => true
  | _, _ => false

theorem ProducePc.written_congr {s u : State} {r : Ring} {a : DAddr} {p : ProducePc} (hat : p.at (s.ring r).head = true)
    (hc : u.cfg = s.cfg) (ha : (u.slotDesc r (s.ring r).head).address = (s.slotDesc r (s.ring r).head).address)
    (hl : (u.slotDesc r (s.ring r).head).length = (s.slotDesc r (s.ring r).head).length) (h : p.written s r a) :
    p.written u r a := by
  cases p with
  | p1 => trivial
  | p2 i =>
    obtain rfl := beq_iff_eq.mp hat
    exact ha.trans h
  | p3 i =>
    obtain rfl := beq_iff_eq.mp hat
    obtain ⟨haddr, hle⟩ := h
    have hlen : (u.slotDesc r (s.ring r).head).length.toNat ≤ u.cfg.bufSize := by
      rw [hl, hc]
      exact hle
    exact ⟨ha.trans haddr, hlen⟩
  | p4 i =>
    obtain rfl := beq_iff_eq.mp hat
    obtain ⟨haddr, hle⟩ := h
    have hlen : (u.slotDesc r (s.ring r).head).length.toNat ≤ u.cfg.bufSize := by
      rw [hl, hc]
      exact hle
    exact ⟨ha.trans haddr, hlen⟩

/-- What an operation has written of the descriptor at the head stands, when nothing else writes there. -/
theorem Task.written_congr {s u : State} {t : Task} (hok : t.ok s) (hc : u.cfg = s.cfg)
    (ha : ∀ r, t.on r = true → (u.slotDesc r (s.ring r).head).address = (s.slotDesc r (s.ring r).head).address)
    (hl : ∀ r, t.on r = true → t.fills r = true →
      (u.slotDesc r (s.ring r).head).length = (s.slotDesc r (s.ring r).head).length)
    (h : t.written s) : t.written u := by
  have refills (p : RefillPc) (hok : p.ok s) (ha : (u.slotDesc .rx s.rx.head).address = (s.slotDesc .rx s.rx.head).address)
      (hl : p.fills = true → (u.slotDesc .rx s.rx.head).length = (s.slotDesc .rx s.rx.head).length) (h : p.written s) :
      p.written u := by
    cases p with
    | f4 n k a q =>
      obtain ⟨-, -, hat⟩ := hok
      exact ProducePc.written_congr (r := .rx) hat hc ha (hl rfl) h
    | f5 n k a i =>
      obtain ⟨-, -, rfl⟩ := hok
      exact ha.trans h
    | _ => trivial
  cases t with
  | refill p => exact refills p hok (ha .rx rfl) (hl .rx rfl) h
  | submit k p =>
    cases p with
    | x6 a q =>
      obtain ⟨-, -, hat⟩ := hok
      exact ProducePc.written_congr (r := .tx) hat hc (ha .tx rfl) (hl .tx rfl rfl) h
    | x7 a i =>
      obtain ⟨-, -, rfl⟩ := hok
      exact (ha .tx rfl).trans h
    | _ => trivial
  | poll b p =>
    cases p with
    | l2 w p => exact refills p hok (ha .rx rfl) (hl .rx rfl) h
    | _ => trivial
  | bringup p =>
    cases p with
    | b4 p => exact refills p hok (ha .rx rfl) (hl .rx rfl) h
    | _ => trivial
  | _ => trivial

/-! ## Profiles -/

/-- What the device's books note of an operation, but for its place on the rings. -/
def Task.stage (t : Task) : Bool × Bool × Bool := (t.prefills, t.asks, t.acked)

section
variable {s u : State} {t t' : Task} {O : List Task}

theorem any_stage {f : Task → Bool} (hf : f t' = f t) : (t' :: O).any f = (t :: O).any f := by
  rw [List.any_cons, List.any_cons, hf]

/-- A step that leaves descriptors, completions and `RESET` alone: what was noted of the operation stands, but that it may
have begun to consume the slot at the tail or ceased to, and a ring's tail may move when no operation consumes there. -/
theorem Device.quiet_step (h : Device s (t :: O)) (hc : u.cfg = s.cfg) (hlife : u.life = s.life)
    (hpend : u.pending = s.pending) (hdesc : u.desc = s.desc) (hdev : u.dev = s.dev) (hrst : u.rst = s.rst)
    (hdma : u.fault.dmaUnmapped = s.fault.dmaUnmapped)
    (htail : ∀ r, (u.ring r).tail = (s.ring r).tail ∨ (Off O r ∧ t'.consumes r = false))
    (hstage : t'.stage = t.stage) (hcl : t'.cleared = t.cleared) (hhand : ∀ r, t'.handed r = t.handed r)
    (hcons : ∀ r, t'.consumes r = true → t.consumes r = true ∨ s.owned r (s.ring r).tail = false)
    (hw : t'.written s) : Device u (t' :: O) := by
  have hsd : u.slotDesc = s.slotDesc := State.slotDesc_congr hc hdesc
  have howned : u.owned = s.owned := by funext r i; simp only [State.owned, hsd]
  have hwritten (t₁ : Task) : t₁.written u ↔ t₁.written s := by
    have hr32 (a : Nat) : u.descRead32 a = s.descRead32 a := by simp only [State.descRead32, State.descByte, hdesc]
    have hr64 (a : Nat) : u.descRead64 a = s.descRead64 a := by simp only [State.descRead64, hr32]
    have hprod (r : Ring) (a : DAddr) (q : ProducePc) : q.written u r a ↔ q.written s r a := by
      cases q <;> simp only [ProducePc.written, hr32, hr64, hc]
    have hfill (p : RefillPc) : p.written u ↔ p.written s := by
      cases p <;> simp only [RefillPc.written, hprod, hr64, hc]
    unfold Task.written
    split <;> simp only [hfill, hprod, hr64, hc]
  simp only [Task.stage, Prod.mk.injEq] at hstage
  obtain ⟨hpre, hasks, hacked⟩ := hstage
  refine ⟨fun hl r i hi ho => ?_, fun hl o ho => ?_, hdev ▸ h.slots, ?_, ?_, ?_, ?_, fun r i hi hc' => ?_, fun r hr => ?_,
    fun t₁ ht₁ => ?_, hdma.trans h.noDma⟩
  · rw [hlife, any_stage hpre] at hl
    rw [howned] at ho
    obtain ⟨hb, hlen⟩ := h.armed hl r i (hc ▸ hi) ho
    refine ⟨?_, ?_⟩
    · rw [State.Backed, hpend]
      refine hb.imp_right ?_
      rintro ⟨t₁, ht₁, k, hk⟩
      obtain rfl | ht₁ := List.mem_cons.mp ht₁
      · exact ⟨t', List.mem_cons_self .., k, (hhand r).trans hk⟩
      · exact ⟨t₁, List.mem_cons_of_mem _ ht₁, k, hk⟩
    · rw [State.lengthOk, hsd, hc, hdev]
      exact hlen
  · exact DevOp.ok_congr hc (by rw [hsd]) (by rw [hsd]) (h.ops (hlife ▸ hl) o (hdev ▸ ho))
  · rw [hpend, hsd]; exact h.addressed
  · rw [any_stage hasks, hrst, hdev]; exact h.asked
  · rw [any_stage hacked, hdev]; exact h.forgotten
  · rw [hlife, any_stage hacked, hrst]; exact h.answered
  · rw [howned]
    refine h.cleared r i (hc ▸ hi) ?_
    rw [← hc', List.any_cons, List.any_cons, hcl]
  · rw [howned]
    obtain ht | ⟨hO, hno⟩ := htail r
    · rw [ht]
      rw [List.any_cons, Bool.or_eq_true] at hr
      obtain hr | hr := hr
      · obtain hr | hr := hcons r hr
        · exact h.consumed r (by rw [List.any_cons, hr, Bool.true_or])
        · exact hr
      · exact h.consumed r (by rw [List.any_cons, hr, Bool.or_true])
    · exfalso
      obtain ⟨t₁, ht₁, hc₁⟩ := List.any_eq_true.mp hr
      obtain rfl | ht₁ := List.mem_cons.mp ht₁
      · cases hno.symm.trans hc₁
      · cases ((Task.clear_of_off (hO t₁ ht₁)).consumes).symm.trans hc₁
  · obtain rfl | ht₁ := List.mem_cons.mp ht₁
    · exact (hwritten _).mpr hw
    · exact (hwritten t₁).mpr (h.written t₁ (List.mem_cons_of_mem _ ht₁))

/-- A step that writes the descriptor or the entry of slot `j` of ring `r`, which no other operation is inside of. -/
theorem Device.slot_step {r : Ring} {j : Nat} {d : Descriptor} (h : Device s (t :: O)) (hb : Books s (t :: O))
    (hO : Off O r) (hd : DescriptorSet s u r j d) (hs : s.Shaped) (hlife : u.life = s.life) (hdev : u.dev = s.dev)
    (hrst : u.rst = s.rst) (hdma : u.fault.dmaUnmapped = s.fault.dmaUnmapped)
    (htail : ∀ q, (u.ring q).tail = (s.ring q).tail) (hpend : ∀ q i, (q, i) ≠ (r, j) → u.pending q i = s.pending q i)
    (hstage : t'.stage = t.stage) (hcl : t'.cleared = t.cleared) (hclr : ∀ i, t.cleared r i = false)
    (hhand : ∀ q i k, (q, i) ≠ (r, j) → t.handed q = some (i, k) → t'.handed q = some (i, k))
    (hcons : ∀ q, t'.consumes q = true → t.consumes q = true ∧ (q = r → u.owned r (s.ring r).tail = false))
    (harm : u.owned r j = true → (s.life = .up ∨ (t :: O).any Task.prefills = true) → u.Backed (t' :: O) r j ∧ u.lengthOk r j)
    (hops : ∀ o ∈ s.dev, s.life = .up → o.slot = (r, j) → o.ok u)
    (haddr : ∀ k a, u.pending r j = some (k, a) → d.address = a) (hw : t'.written u) : Device u (t' :: O) := by
  simp only [Task.stage, Prod.mk.injEq] at hstage
  obtain ⟨hpre, hasks, hacked⟩ := hstage
  have hc := hd.cfg
  have howned (q : Ring) (i : Nat) (hi : i < ringSize s.cfg q) (hne : (q, i) ≠ (r, j)) : u.owned q i = s.owned q i := by
    rw [State.owned, State.owned, hd.other q i hi hne]
  refine ⟨fun hl q i hi ho => ?_, fun hl o ho => ?_, hdev ▸ h.slots, fun q i k a hp => ?_, ?_, ?_, ?_,
    fun q i hi hcq => ?_, fun q hq => ?_, fun t₁ ht₁ => ?_, hdma.trans h.noDma⟩
  · rw [hlife, any_stage hpre] at hl
    by_cases hne : (q, i) = (r, j)
    · cases hne
      exact harm ho hl
    · rw [howned q i (hc ▸ hi) hne] at ho
      obtain ⟨hback, hlen⟩ := h.armed hl q i (hc ▸ hi) ho
      refine ⟨?_, ?_⟩
      · rw [State.Backed, hpend q i hne]
        refine hback.imp_right ?_
        rintro ⟨t₁, ht₁, k, hk⟩
        obtain rfl | ht₁ := List.mem_cons.mp ht₁
        · exact ⟨t', List.mem_cons_self .., k, hhand q i k hne hk⟩
        · exact ⟨t₁, List.mem_cons_of_mem _ ht₁, k, hk⟩
      · rw [State.lengthOk, hd.other q i (hc ▸ hi) hne, hc, hdev]
        exact hlen
  · rw [hdev] at ho
    have hok := h.ops (hlife ▸ hl) o ho
    by_cases hne : o.slot = (r, j)
    · exact hops o ho (hlife ▸ hl) hne
    · have hsame := hd.other o.slot.1 o.slot.2 (DevOp.owned_of_ok hok).1 hne
      exact DevOp.ok_congr hc (by rw [hsame]) (by rw [hsame]) hok
  · by_cases hne : (q, i) = (r, j)
    · cases hne
      rw [hd.same]
      exact haddr k a hp
    · rw [hpend q i hne] at hp
      rw [hd.other q i (hs.lt_of_pending hp) hne]
      exact h.addressed q i k a hp
  · rw [any_stage hasks, hrst, hdev]; exact h.asked
  · rw [any_stage hacked, hdev]; exact h.forgotten
  · rw [hlife, any_stage hacked, hrst]; exact h.answered
  · have hcs : (t :: O).any (·.cleared q i) = true := by rw [← hcq, List.any_cons, List.any_cons, hcl]
    have hne : q ≠ r := by
      rintro rfl
      obtain ⟨t₁, ht₁, hc₁⟩ := List.any_eq_true.mp hcs
      obtain rfl | ht₁ := List.mem_cons.mp ht₁
      · cases (hclr i).symm.trans hc₁
      · cases ((Task.clear_of_off (hO t₁ ht₁)).cleared i).symm.trans hc₁
    rw [howned q i (hc ▸ hi) fun he => hne (congrArg Prod.fst he)]
    exact h.cleared q i (hc ▸ hi) hcs
  · rw [htail]
    have hold : (t :: O).any (·.consumes q) = true ∧ (q = r → u.owned r (s.ring r).tail = false) := by
      obtain ⟨t₁, ht₁, hc₁⟩ := List.any_eq_true.mp hq
      obtain rfl | ht₁ := List.mem_cons.mp ht₁
      · obtain ⟨ht, hr⟩ := hcons q hc₁
        exact ⟨List.any_eq_true.mpr ⟨t, List.mem_cons_self .., ht⟩, hr⟩
      · refine ⟨List.any_eq_true.mpr ⟨t₁, List.mem_cons_of_mem _ ht₁, hc₁⟩, ?_⟩
        rintro rfl
        cases ((Task.clear_of_off (hO t₁ ht₁)).consumes).symm.trans hc₁
    obtain ⟨hany, hr⟩ := hold
    by_cases hqr : q = r
    · subst hqr
      exact hr rfl
    · rw [howned q _ (hs.tail q) fun he => hqr (congrArg Prod.fst he)]
      exact h.consumed q hany
  · obtain rfl | ht₁ := List.mem_cons.mp ht₁
    · exact hw
    · have hmem := List.mem_cons_of_mem t ht₁
      have hother (q : Ring) (hon : t₁.on q = true) : u.slotDesc q (s.ring q).head = s.slotDesc q (s.ring q).head := by
        refine hd.other q _ (hs.head q) fun he => ?_
        cases congrArg Prod.fst he
        cases (hO t₁ ht₁).symm.trans hon
      exact Task.written_congr (hb.locals t₁ hmem) hc (fun q hon => by rw [hother q hon])
        (fun q hon _ => by rw [hother q hon]) (h.written t₁ hmem)

end

end Sys2Proof.Machine
end

section
/-! PROOF. The device's books through PRODUCE, the record at the head and the clearing at the tail, and so through REFILL,
DRAIN and RECLAIM (R128, R140, R141, R156). -/

namespace Sys2Proof.Machine

/-- `u` differs from `s` only in what the device's books do not speak of. -/
def SameDevice (s u : State) : Prop :=
  u = { s with
    pool := u.pool, isrLatch := u.isrLatch, pollSched := u.pollSched, pollRunning := u.pollRunning,
    txStopped := u.txStopped, txLock := u.txLock, rxErr := u.rxErr, txErr := u.txErr, lanes := u.lanes,
    fault := ⟨s.fault.dmaUnmapped, u.fault.pendEmpty, u.fault.pool⟩, hist := u.hist, buf := u.buf, isr := u.isr,
    txctl := u.txctl, lineEn := u.lineEn, script := u.script, draws := u.draws, tick := u.tick, cur := u.cur,
    slice := u.slice }

theorem SameDevice.rfl {s : State} : SameDevice s s := Eq.refl s

theorem sameDevice_drawMapOk (s : State) (k : Nat) (e : PoolEntry) :
    SameDevice s (s.drawMapOk.2.setBuffer k e) := by
  rw [State.drawMapOk_frame]
  exact Eq.refl _

section
variable {s u : State} {t t' : Task} {O : List Task}

/-- A step that the device's books do not see, but that the operation may begin or cease to consume. -/
theorem Device.same_step (h : Device s (t :: O)) (hu : SameDevice s u) (hstage : t'.stage = t.stage)
    (hcl : t'.cleared = t.cleared) (hhand : ∀ r, t'.handed r = t.handed r)
    (hcons : ∀ r, t'.consumes r = true → t.consumes r = true ∨ s.owned r (s.ring r).tail = false)
    (hw : t'.written s) : Device u (t' :: O) := by
  have hring (r : Ring) : u.ring r = s.ring r := by rw [hu]; cases r <;> rfl
  exact h.quiet_step (by rw [hu]) (by rw [hu]) (funext fun r => State.pending_congr (hring r)) (by rw [hu]) (by rw [hu])
    (by rw [hu]) (by rw [hu]) (fun r => .inl (by rw [hring r])) hstage hcl hhand hcons hw

end

theorem descriptorSet_self {s u : State} (hc : u.cfg = s.cfg) (hd : u.desc = s.desc) (r : Ring) (j : Nat) :
    DescriptorSet s u r j (s.slotDesc r j) := by
  have hsame : u.slotDesc = s.slotDesc := State.slotDesc_congr hc hd
  exact ⟨hc, by rw [hsame], fun _ _ _ _ => by rw [hsame]⟩

/-! ## The head -/

/-- An operation inside PRODUCE on ring `r`. -/
structure Task.Writing (t : Task) (r : Ring) : Prop where
  on : t.on r = true
  phase : t.phase r = .clear
  handed : ∀ q, t.handed q = none
  consumes : ∀ q, t.consumes q = false
  cleared : t.cleared = fun _ _ => false
  up_or_prefills : t.needsUp = true ∨ t.prefills = true

theorem Task.writing_of_fills {t : Task} {r : Ring} (h : t.fills r = true) : t.Writing r := by
  have refills {W : RefillPc → Task} (hW : Fills W) {p : RefillPc} (hp : p.fills = true) : (W p).Writing .rx := by
    cases p with
    | f4 n k a q =>
      cases hW with
      | bringup => exact ⟨rfl, rfl, fun q => by cases q <;> rfl, fun q => by cases q <;> rfl, rfl, .inr rfl⟩
      | _ => exact ⟨rfl, rfl, fun q => by cases q <;> rfl, fun q => by cases q <;> rfl, rfl, .inl rfl⟩
    | _ => cases hp
  cases t with
  | refill p =>
    cases r with
    | rx => exact refills .refill h
    | tx => cases h
  | submit k p =>
    cases p with
    | x6 a q =>
      cases r with
      | rx => cases h
      | tx => exact ⟨rfl, rfl, fun q => by cases q <;> rfl, fun q => by cases q <;> rfl, rfl, .inl rfl⟩
    | _ => cases r <;> cases h
  | poll b p =>
    cases p with
    | l2 w p =>
      cases r with
      | rx => exact refills (.poll b w) h
      | tx => cases h
    | _ => cases r <;> cases h
  | bringup p =>
    cases p with
    | b4 p =>
      cases r with
      | rx => exact refills .bringup h
      | tx => cases h
    | _ => cases r <;> cases h
  | _ => cases r <;> cases h

section
variable {c : Ctx} {s u : State} {t t' : Task} {O : List Task} {r : Ring} (h : Turning c s t O) (hD : Device s (t :: O))
include h hD

omit hD in
/-- The slot at the head has no entry while it is being filled. -/
theorem Turning.head_none (hf : t.Writing r) : s.pending r (s.ring r).head = none := by
  have hold := h.books.pending r _ (h.shaped.head r)
  rw [State.expectsIn_off (h.off r hf.on), hf.phase, State.inWindow_head] at hold
  simpa using hold

/-- The device does not own the slot that is being filled. -/
theorem Turning.head_free (hf : t.Writing r) : s.owned r (s.ring r).head = false := by
  by_contra ho
  have hl : s.life = .up ∨ (t :: O).any Task.prefills = true :=
    hf.up_or_prefills.imp h.allowed.up fun hp => by rw [List.any_cons, hp, Bool.true_or]
  obtain ⟨hp | ⟨t₁, ht₁, k, hk⟩, -⟩ := hD.armed hl r _ (h.shaped.head r) (by simpa using ho)
  · rw [h.head_none hf] at hp
    cases hp
  · obtain rfl | ht₁ := List.mem_cons.mp ht₁
    · cases (hf.handed r).symm.trans hk
    · cases ((Task.clear_of_off (h.off r hf.on t₁ ht₁)).handed).symm.trans hk

/-- No completion is about the slot that is being filled. -/
theorem Turning.head_unused (hf : t.Writing r) (hup : s.life = .up) {o : DevOp} (ho : o ∈ s.dev) :
    o.slot ≠ (r, (s.ring r).head) := by
  intro he
  obtain ⟨-, hown⟩ := DevOp.owned_of_ok (hD.ops hup o ho)
  rw [he, h.head_free hD hf] at hown
  cases hown

/-- PRODUCE's writes to the descriptor at the head (P1, P2, P4). -/
theorem Device.produce_step {d : Descriptor} (hf : t.Writing r) (hd : DescriptorSet s u r (s.ring r).head d)
    (hu : SameDevice { s with desc := u.desc } u) (hstage : t'.stage = t.stage) (hcl : t'.cleared = t.cleared)
    (hcons : ∀ q, t'.consumes q = false)
    (harm : d.status = (s.slotDesc r (s.ring r).head).status
      ∨ (∃ k, t'.handed r = some ((s.ring r).head, k)) ∧ d.length.toNat ≤ s.cfg.bufSize)
    (hw : t'.written u) : Device u (t' :: O) := by
  have hring (q : Ring) : u.ring q = s.ring q := by rw [hu]; cases q <;> rfl
  have hpend (q : Ring) : u.pending q = s.pending q := State.pending_congr (hring q)
  refine hD.slot_step h.books (h.off r hf.on) hd h.shaped (by rw [hu]) (by rw [hu]) (by rw [hu]) (by rw [hu])
    (fun q => by rw [hring]) (fun q i _ => by rw [hpend]) hstage hcl (fun i => by rw [hf.cleared])
    (fun q i k _ hk => by cases (hf.handed q).symm.trans hk) (fun q hq => by cases (hcons q).symm.trans hq)
    (fun ho _ => ?_) (fun o ho hup he => absurd he (h.head_unused hD hf hup ho)) (fun k a hp => ?_) hw
  · rw [State.owned, hd.same] at ho
    obtain hst | ⟨⟨k, hk⟩, hlen⟩ := harm
    · rw [hst] at ho
      cases (h.head_free hD hf).symm.trans ho
    · refine ⟨.inr ⟨t', List.mem_cons_self .., k, hk⟩, .inl ?_⟩
      rwa [hd.same, hd.cfg]
  · rw [hpend, h.head_none hf] at hp
    cases hp

/-- The slot handed over is recorded (F5, X7). -/
theorem Device.record_step {k : Nat} (hon : t.on r = true) (hh : t.handed r = some ((s.ring r).head, k))
    (hhq : ∀ q, q ≠ r → t.handed q = none)
    (hu : u = s.setPending r (s.ring r).head (some (k, xlateOf s.cfg k))) (hstage : t'.stage = t.stage)
    (hcl : t'.cleared = t.cleared) (hclr : ∀ i, t.cleared r i = false) (hcons : ∀ q, t'.consumes q = false)
    (hw : t'.written u) : Device u (t' :: O) := by
  have hlen : (s.ring r).head < (s.ring r).pend.length := by
    rw [h.shaped.pend r]
    exact h.shaped.head r
  have hcfg : u.cfg = s.cfg := by rw [hu, State.setPending_cfg]
  have hdesc : u.desc = s.desc := by rw [hu, State.setPending_desc]
  have hpend (q : Ring) (i : Nat) : u.pending q i
      = if (q, i) = (r, (s.ring r).head) then some (k, xlateOf s.cfg k) else s.pending q i := by
    rw [hu, State.pending_setPending]
    simp [hlen]
  have hsame : u.slotDesc = s.slotDesc := State.slotDesc_congr hcfg hdesc
  obtain ⟨-, haddr, -⟩ := Task.of_handed h.ok (hD.written t (List.mem_cons_self ..)) hh
  refine hD.slot_step h.books (h.off r hon) (descriptorSet_self hcfg hdesc r (s.ring r).head) h.shaped (by rw [hu]; simp)
    (by rw [hu]; simp) (by rw [hu]; simp) (by rw [hu]; simp) (fun q => ?_) (fun q i hne => by rw [hpend, if_neg hne])
    hstage hcl hclr (fun q i m hne hm => ?_) (fun q hq => by cases (hcons q).symm.trans hq) (fun ho hl => ⟨.inl ?_, ?_⟩)
    (fun o ho hup _ => DevOp.ok_congr hcfg (by rw [hsame]) (by rw [hsame]) (hD.ops hup o ho)) (fun m a hp => ?_) hw
  · rw [hu]
    cases r <;> cases q <;> rfl
  · by_cases hqr : q = r
    · subst hqr
      cases hh.symm.trans hm
      exact absurd rfl hne
    · cases (hhq q hqr).symm.trans hm
  · rw [hpend, if_pos rfl]
    rfl
  · rw [State.owned, hsame] at ho
    obtain ⟨-, hlenOk⟩ := hD.armed hl r _ (h.shaped.head r) ho
    have hdev : u.dev = s.dev := by rw [hu]; simp
    rw [State.lengthOk, hsame, hcfg, hdev]
    exact hlenOk
  · rw [hpend, if_pos rfl] at hp
    cases hp
    exact haddr

/-- The entry at the tail is cleared (G6, Y6). -/
theorem Device.clear_step (hon : t.on r = true) (hcons : t.consumes r = true) (hhand : ∀ q, t.handed q = none)
    (hu : u = s.setPending r (s.ring r).tail none) (hstage : t'.stage = t.stage) (hcl : t'.cleared = t.cleared)
    (hclr : ∀ i, t.cleared r i = false) (hcons' : ∀ q, t'.consumes q = t.consumes q) (hw : t'.written u) :
    Device u (t' :: O) := by
  have hcfg : u.cfg = s.cfg := by rw [hu, State.setPending_cfg]
  have hdesc : u.desc = s.desc := by rw [hu, State.setPending_desc]
  have hpend (q : Ring) (i : Nat) (hne : (q, i) ≠ (r, (s.ring r).tail)) : u.pending q i = s.pending q i := by
    rw [hu, State.pending_setPending, if_neg]
    rintro ⟨rfl, rfl, -⟩
    exact hne rfl
  have hsame : u.slotDesc = s.slotDesc := State.slotDesc_congr hcfg hdesc
  have hfree : u.owned r (s.ring r).tail = false := by
    rw [State.owned, hsame]
    exact hD.consumed r (by rw [List.any_cons, hcons, Bool.true_or])
  refine hD.slot_step h.books (h.off r hon) (descriptorSet_self hcfg hdesc r (s.ring r).tail) h.shaped (by rw [hu]; simp)
    (by rw [hu]; simp) (by rw [hu]; simp) (by rw [hu]; simp) (fun q => ?_) hpend hstage hcl hclr
    (fun q i m _ hm => by cases (hhand q).symm.trans hm) (fun q hq => ⟨hcons' q ▸ hq, fun _ => hfree⟩)
    (fun ho _ => by cases hfree.symm.trans ho)
    (fun o ho hup _ => DevOp.ok_congr hcfg (by rw [hsame]) (by rw [hsame]) (hD.ops hup o ho)) (fun m a hp => ?_) hw
  · rw [hu]
    cases r <;> cases q <;> rfl
  · rw [hu, State.pending_setPending] at hp
    split at hp
    · cases hp
    · exact hD.addressed r _ m a hp

end

end Sys2Proof.Machine
end

section
/-! PROOF. The device's books through the micro-steps of the engines (R140, R141, R156). -/

namespace Sys2Proof.Machine

/-! ## REFILL -/

section
variable {W : RefillPc → Task} (hW : Fills W)
include hW

theorem Fills.handed (p : RefillPc) (r : Ring) : (W p).handed r = match r with
    | .rx => p.handed
    | .tx => none := by cases hW <;> cases r <;> rfl

theorem Fills.consumes (p : RefillPc) (r : Ring) : (W p).consumes r = false := by cases hW <;> cases r <;> rfl

theorem Fills.cleared (p : RefillPc) : (W p).cleared = fun _ _ => false := by cases hW <;> rfl

theorem Fills.stage (p p' : RefillPc) : (W p').stage = (W p).stage := by cases hW <;> rfl

theorem Fills.written (p : RefillPc) (s : State) : (W p).written s ↔ p.written s := by cases hW <;> exact .rfl

theorem Fills.writing {p : RefillPc} (hp : p.fills = true) : (W p).Writing .rx :=
  Task.writing_of_fills (by cases hW <;> exact hp)

variable {c : Ctx} {s u : State} {p p' : RefillPc} {O : List Task} (h : Turning c s (W p) O) (hD : Device s (W p :: O))

theorem Fills.device_step (hD : Device s (W p :: O)) (hu : SameDevice s u) (hh : p'.handed = p.handed) (hw : p'.written s) :
    Device u (W p' :: O) := by
  refine hD.same_step hu (hW.stage p p') (by rw [hW.cleared, hW.cleared]) (fun r => ?_) (fun r hr => ?_)
    ((hW.written p' s).mpr hw)
  · rw [hW.handed, hW.handed, hh]
  · rw [hW.consumes] at hr
    cases hr

include h hD

theorem device_refill (hm : RefillMicro s p u p') : Device u (W p' :: O) := by
  have hok := (hW.ok s p).mp h.ok
  have hwr := (hW.written p s).mp (hD.written _ (List.mem_cons_self ..))
  have hcl (p : RefillPc) : (W p').cleared = (W p).cleared := by rw [hW.cleared, hW.cleared]
  cases hm with
  | mapped => exact hW.device_step hD (sameDevice_drawMapOk ..) rfl trivial
  | mapFailed => exact hW.device_step hD (sameDevice_drawMapOk ..) rfl trivial
  | @address n k a =>
    have hd := descriptorSet_address h.valid (h.shaped.head .rx) a
    exact hD.produce_step h (hW.writing rfl) hd (Eq.refl _) (hW.stage _ _) (hcl _) (hW.consumes _) (.inl rfl)
      ((hW.written ..).mpr (congrArg Descriptor.address hd.same))
  | length =>
    obtain ⟨-, -, hat⟩ := hok
    obtain rfl := beq_iff_eq.mp hat
    have hd := descriptorSet_length h.valid (h.shaped.head .rx) (BitVec.ofNat 32 s.cfg.bufSize)
    refine hD.produce_step h (hW.writing rfl) hd (Eq.refl _) (hW.stage _ _) (hcl _) (hW.consumes _) (.inl rfl)
      ((hW.written ..).mpr ⟨(congrArg Descriptor.address hd.same).trans hwr, ?_⟩)
    refine (congrArg (BitVec.toNat ∘ Descriptor.length) hd.same).trans_le ?_
    simp only [Function.comp, BitVec.toNat_ofNat]
    exact Nat.mod_le ..
  | barrier => exact hW.device_step hD .rfl rfl hwr
  | status =>
    obtain ⟨-, -, hat⟩ := hok
    obtain rfl := beq_iff_eq.mp hat
    obtain ⟨haddr, hlen⟩ := hwr
    have hd := descriptorSet_status h.valid (h.shaped.head .rx) rxArmedStatus
    exact hD.produce_step h (hW.writing rfl) hd (Eq.refl _) (hW.stage _ _) (hcl _) (hW.consumes _)
      (.inr ⟨⟨_, hW.handed ..⟩, hlen⟩) ((hW.written ..).mpr ((congrArg Descriptor.address hd.same).trans haddr))
  | recorded =>
    obtain ⟨-, rfl, rfl⟩ := hok
    refine hD.record_step h (hW.on _) (hW.handed _ .rx) (fun q hq => ?_) rfl (hW.stage _ _) (hcl _)
      (fun i => by rw [hW.cleared]) (hW.consumes _) ((hW.written ..).mpr trivial)
    rw [hW.handed]
    cases q
    · exact absurd rfl hq
    · rfl
  | advanced =>
    refine hD.quiet_step rfl rfl (s.pending_setHead ..) rfl rfl rfl rfl (fun r => .inl ?_) (hW.stage _ _) (hcl _)
      (fun r => by rw [hW.handed, hW.handed]; rfl) (fun r hr => ?_) ((hW.written ..).mpr trivial)
    · cases r <;> rfl
    · rw [hW.consumes] at hr
      cases hr
  | _ => exact hW.device_step hD (Eq.refl _) rfl trivial

end

/-! ## DRAIN -/

section
variable {b : Nat} {W : DrainPc → Task} (hW : Drains b W)
include hW

theorem Drains.handed (p : DrainPc) (r : Ring) : (W p).handed r = none := by cases hW <;> cases r <;> rfl

theorem Drains.consumes (p : DrainPc) (r : Ring) : (W p).consumes r = match r with
    | .rx => p.consumes
    | .tx => false := by cases hW <;> cases r <;> rfl

theorem Drains.cleared (p : DrainPc) : (W p).cleared = fun _ _ => false := by cases hW <;> rfl

theorem Drains.stage (p : DrainPc) : (W p).stage = (false, false, false) := by cases hW <;> rfl

theorem Drains.written (p : DrainPc) (s : State) : (W p).written s := by cases hW <;> trivial

variable {c : Ctx} {s u : State} {p p' : DrainPc} {O : List Task} (h : Turning c s (W p) O) (hD : Device s (W p :: O))
include hD

theorem Drains.device_step (hu : SameDevice s u)
    (hc : p'.consumes = true → p.consumes = true ∨ s.owned .rx s.rx.tail = false) : Device u (W p' :: O) := by
  refine hD.same_step hu ((hW.stage _).trans (hW.stage _).symm) (by rw [hW.cleared, hW.cleared]) (fun r => ?_)
    (fun r hr => ?_) (hW.written p' s)
  · rw [hW.handed, hW.handed]
  · rw [hW.consumes] at hr ⊢
    cases r with
    | rx => exact hc hr
    | tx => cases hr

include h

theorem device_drain (hm : DrainMicro s p u p') : Device u (W p' :: O) := by
  have hok := (hW.ok s p).mp h.ok
  cases hm with
  | statusRead he ho => exact hW.device_step hD .rfl fun _ => .inr ho
  | noEntry hp => exact absurd hp (h.entry_at_tail (h.off .rx (hW.on _)) (hW.phase_rx _) hok)
  | cleared =>
    obtain ⟨-, rfl⟩ := hok
    refine hD.clear_step h (hW.on _) (hW.consumes _ .rx) (hW.handed _) rfl ((hW.stage _).trans (hW.stage _).symm)
      (by rw [hW.cleared, hW.cleared]) (fun i => by rw [hW.cleared]) (fun q => ?_) (hW.written _ _)
    rw [hW.consumes, hW.consumes]
    cases q <;> rfl
  | advanced =>
    refine hD.quiet_step rfl rfl (s.pending_setTail ..) rfl rfl rfl rfl (fun r => ?_)
      ((hW.stage _).trans (hW.stage _).symm) (by rw [hW.cleared, hW.cleared]) (fun r => by rw [hW.handed, hW.handed])
      (fun r hr => ?_) (hW.written _ _)
    · cases r with
      | rx => exact .inr ⟨h.off .rx (hW.on _), hW.consumes _ .rx⟩
      | tx => exact .inl rfl
    · rw [hW.consumes] at hr
      cases r <;> cases hr
  | lengthRead => exact hW.device_step hD (Eq.refl _) fun _ => .inl rfl
  | entry hp => exact hW.device_step hD (Eq.refl _) fun _ => .inl rfl
  | unmapped => exact hW.device_step hD (Eq.refl _) fun _ => .inl rfl
  | dropped => exact hW.device_step hD (Eq.refl _) fun _ => .inl rfl
  | delivered hlen => exact hW.device_step hD (Eq.refl _) fun _ => .inl rfl
  | _ => exact hW.device_step hD (Eq.refl _) nofun

end

/-! ## RECLAIM -/

section
variable {W : ReclaimPc → Task} (hW : Reclaims W)
include hW

theorem Reclaims.handed (p : ReclaimPc) (r : Ring) : (W p).handed r = none := by cases hW <;> cases r <;> rfl

theorem Reclaims.consumes (p : ReclaimPc) (r : Ring) : (W p).consumes r = match r with
    | .rx => false
    | .tx => p.consumes := by cases hW <;> cases r <;> rfl

theorem Reclaims.cleared (p : ReclaimPc) : (W p).cleared = fun _ _ => false := by cases hW <;> rfl

theorem Reclaims.stage (p : ReclaimPc) : (W p).stage = (false, false, false) := by cases hW <;> rfl

theorem Reclaims.written (p : ReclaimPc) (s : State) : (W p).written s := by cases hW <;> trivial

variable {c : Ctx} {s u : State} {p p' : ReclaimPc} {O : List Task} (h : Turning c s (W p) O) (hD : Device s (W p :: O))
include hD

theorem Reclaims.device_step (hu : SameDevice s u)
    (hc : p'.consumes = true → p.consumes = true ∨ s.owned .tx s.tx.tail = false) : Device u (W p' :: O) := by
  refine hD.same_step hu ((hW.stage _).trans (hW.stage _).symm) (by rw [hW.cleared, hW.cleared]) (fun r => ?_)
    (fun r hr => ?_) (hW.written p' s)
  · rw [hW.handed, hW.handed]
  · rw [hW.consumes] at hr ⊢
    cases r with
    | rx => cases hr
    | tx => exact hc hr

include h

theorem device_reclaim (hm : ReclaimMicro c s p u p') : Device u (W p' :: O) := by
  have hok := (hW.ok s p).mp h.ok
  cases hm with
  | statusRead he ho => exact hW.device_step hD .rfl fun _ => .inr ho
  | noEntry hp => exact absurd hp (h.entry_at_tail (h.off .tx (hW.on rfl)) (hW.phase_tx _) hok.1)
  | cleared =>
    obtain ⟨-, rfl, -⟩ := hok
    refine hD.clear_step h (hW.on rfl) (hW.consumes _ .tx) (hW.handed _) rfl ((hW.stage _).trans (hW.stage _).symm)
      (by rw [hW.cleared, hW.cleared]) (fun i => by rw [hW.cleared]) (fun q => ?_) (hW.written _ _)
    rw [hW.consumes, hW.consumes]
    cases q <;> rfl
  | advanced =>
    refine hD.quiet_step rfl rfl (s.pending_setTail ..) rfl rfl rfl rfl (fun r => ?_)
      ((hW.stage _).trans (hW.stage _).symm) (by rw [hW.cleared, hW.cleared]) (fun r => by rw [hW.handed, hW.handed])
      (fun r hr => ?_) (hW.written _ _)
    · cases r with
      | rx => exact .inl rfl
      | tx => exact .inr ⟨h.off .tx (hW.on rfl), hW.consumes _ .tx⟩
    · rw [hW.consumes] at hr
      cases r <;> cases hr
  | woken =>
    refine hW.device_step hD ?_ nofun
    unfold State.wakeIf
    split <;> exact Eq.refl _
  | lengthRead => exact hW.device_step hD (Eq.refl _) fun _ => .inl rfl
  | entry hp => exact hW.device_step hD (Eq.refl _) fun _ => .inl rfl
  | freed => exact hW.device_step hD (Eq.refl _) fun _ => .inl rfl
  | _ => exact hW.device_step hD (Eq.refl _) nofun

end

end Sys2Proof.Machine
end

section
/-! PROOF. The device's books through SUBMIT and the lifecycle, and so through every micro-step (R155, R185 to R187). -/

namespace Sys2Proof.Machine

/-! ## An operation alone on both rings -/

theorem Task.needsDown_of_stage {t : Task} (h : t.prefills = true ∨ t.asks = true ∨ t.acked = true) :
    t.needsDown = true := by
  cases t with
  | bringup p => rfl
  | _ => obtain h | h | h := h <;> cases h

theorem Task.not_stage_of_off {t : Task} {r : Ring} (h : t.on r = false) :
    t.prefills = false ∧ t.asks = false ∧ t.acked = false := by
  have hd : t.needsDown = false := by
    simp only [Task.on, Bool.or_eq_false_iff] at h
    exact h.1
  have hno (b : Bool) (hb : b = true → t.needsDown = true) : b = false := by
    by_contra hn
    cases hd.symm.trans (hb (by simpa using hn))
  exact ⟨hno _ fun hp => Task.needsDown_of_stage (.inl hp), hno _ fun hp => Task.needsDown_of_stage (.inr (.inl hp)),
    hno _ fun hp => Task.needsDown_of_stage (.inr (.inr hp))⟩

theorem Task.written_of_off {t : Task} (s : State) (h : ∀ r, t.on r = false) : t.written s := by
  cases t with
  | refill p => cases h .rx
  | submit k p =>
    cases p with
    | x6 a q => cases h .tx
    | x7 a i => cases h .tx
    | _ => trivial
  | poll b p => cases h .rx
  | bringup p => cases h .rx
  | _ => trivial

section
variable {s u : State} {t t' : Task} {O : List Task}

/-- Where no other operation is inside a ring only the one matters. -/
theorem any_alone {r : Ring} (hO : Off O r) (f : Task → Bool) (hf : ∀ t, t.on r = false → f t = false) :
    (t :: O).any f = f t := by
  have hno : O.any f = false := by
    rw [List.any_eq_false]
    intro t₁ ht₁ hft
    cases (hf t₁ (hO t₁ ht₁)).symm.trans hft
  rw [List.any_cons, hno, Bool.or_false]

theorem any_prefills_alone {r : Ring} (hO : Off O r) : (t :: O).any Task.prefills = t.prefills :=
  any_alone hO _ fun _ h => (Task.not_stage_of_off h).1

theorem any_asks_alone {r : Ring} (hO : Off O r) : (t :: O).any Task.asks = t.asks :=
  any_alone hO _ fun _ h => (Task.not_stage_of_off h).2.1

theorem any_acked_alone {r : Ring} (hO : Off O r) : (t :: O).any Task.acked = t.acked :=
  any_alone hO _ fun _ h => (Task.not_stage_of_off h).2.2

theorem any_cleared_alone {r : Ring} (hO : Off O r) (i : Nat) : (t :: O).any (·.cleared r i) = t.cleared r i :=
  any_alone hO _ fun _ h => (Task.clear_of_off h).cleared i

theorem any_consumes_alone {r : Ring} (hO : Off O r) : (t :: O).any (·.consumes r) = t.consumes r :=
  any_alone hO _ fun _ h => (Task.clear_of_off h).consumes

/-- While the rings rest, only BRINGUP's account with the device stands. -/
theorem device_resting (hO : ∀ r, Off O r) (hl : u.life = .down) (hp : t'.prefills = false)
    (hcons : ∀ r, t'.consumes r = false) (hw : t'.written u) (slots : (u.dev.map DevOp.slot).Nodup)
    (addressed : ∀ r i h a, u.pending r i = some (h, a) → (u.slotDesc r i).address = a)
    (asked : t'.asks = true → u.rst.getLsbD 0 = true ∨ u.dev = []) (forgotten : t'.acked = true → u.dev = [])
    (answered : t'.acked = true → u.rst.getLsbD 0 = false)
    (cleared : ∀ r i, i < ringSize u.cfg r → t'.cleared r i = true → u.owned r i = false)
    (noDma : u.fault.dmaUnmapped = false) : Device u (t' :: O) where
  armed h := by
    rw [hl, any_prefills_alone (hO .rx), hp] at h
    obtain h | h := h <;> cases h
  ops h := by cases hl.symm.trans h
  slots := slots
  addressed := addressed
  asked := by rwa [any_asks_alone (hO .rx)]
  forgotten := by rwa [any_acked_alone (hO .rx)]
  answered h := by
    rw [hl, any_acked_alone (hO .rx)] at h
    exact answered (h.resolve_left nofun)
  cleared r i hi h := cleared r i hi (by rwa [any_cleared_alone (hO r)] at h)
  consumed r h := by
    rw [any_consumes_alone (hO r), hcons] at h
    cases h
  written t₁ ht₁ := by
    obtain rfl | ht₁ := List.mem_cons.mp ht₁
    · exact hw
    · exact Task.written_of_off u fun r => hO r t₁ ht₁
  noDma := noDma

end

/-! ## SUBMIT (R155) -/

section
variable {c : Ctx} {s u : State} {O : List Task}

theorem device_submitAddress {k : Nat} {a : DAddr} (h : Turning c s (.submit k (.x6 a .p1)) O)
    (hD : Device s (.submit k (.x6 a .p1) :: O)) :
    Device (s.descWrite64 (bufferAddr s.cfg .tx s.tx.head) a) (.submit k (.x6 a (.p2 s.tx.head)) :: O) := by
  have hd := descriptorSet_address h.valid (h.shaped.head .tx) a
  exact hD.produce_step h (Task.writing_of_fills rfl) hd (Eq.refl _) rfl rfl (fun q => by cases q <;> rfl) (.inl rfl)
    (congrArg Descriptor.address hd.same)

theorem device_submitLength {k i : Nat} {a : DAddr} (h : Turning c s (.submit k (.x6 a (.p2 i))) O)
    (hD : Device s (.submit k (.x6 a (.p2 i)) :: O)) :
    Device (s.descWrite32 (lengthAddr s.cfg .tx i) ((s.buffer k).len.setWidth 32)) (.submit k (.x6 a (.p3 i)) :: O) := by
  obtain ⟨-, -, hat⟩ := h.ok
  obtain rfl := beq_iff_eq.mp hat
  obtain ⟨hown, -, -⟩ := h.held (List.mem_singleton.mpr rfl)
  have hent := h.books.entries k
  have hd := descriptorSet_length h.valid (h.shaped.head .tx) ((s.buffer k).len.setWidth 32)
  have hlen : ((s.buffer k).len.setWidth 32).toNat ≤ s.cfg.bufSize := by
    rw [BitVec.toNat_setWidth]
    exact (Nat.mod_le ..).trans (hent.length (by rw [hown]; nofun))
  exact hD.produce_step h (Task.writing_of_fills rfl) hd (Eq.refl _) rfl rfl (fun q => by cases q <;> rfl) (.inl rfl)
    ⟨(congrArg Descriptor.address hd.same).trans (hD.written _ (List.mem_cons_self ..)),
      (congrArg (BitVec.toNat ∘ Descriptor.length) hd.same).trans_le hlen⟩

theorem device_submitStatus {k i : Nat} {a : DAddr} (h : Turning c s (.submit k (.x6 a (.p4 i))) O)
    (hD : Device s (.submit k (.x6 a (.p4 i)) :: O)) :
    Device (s.descWrite32 (statusAddr s.cfg .tx i) txArmedStatus) (.submit k (.x7 a i) :: O) := by
  obtain ⟨-, -, hat⟩ := h.ok
  obtain rfl := beq_iff_eq.mp hat
  obtain ⟨haddr, hlen⟩ := hD.written _ (List.mem_cons_self ..)
  have hd := descriptorSet_status h.valid (h.shaped.head .tx) txArmedStatus
  exact hD.produce_step h (Task.writing_of_fills rfl) hd (Eq.refl _) rfl rfl (fun q => by cases q <;> rfl)
    (.inr ⟨⟨k, rfl⟩, hlen⟩) ((congrArg Descriptor.address hd.same).trans haddr)

theorem device_submitRecorded {k i : Nat} {a : DAddr} (h : Turning c s (.submit k (.x7 a i)) O)
    (hD : Device s (.submit k (.x7 a i) :: O)) :
    Device (s.setPending .tx i (some (k, a))) (.submit k (.x8 i) :: O) := by
  obtain ⟨-, rfl, rfl⟩ := h.ok
  refine hD.record_step h rfl rfl (fun q hq => ?_) rfl rfl rfl (fun _ => rfl) (fun q => by cases q <;> rfl) trivial
  cases q
  · rfl
  · exact absurd rfl hq

theorem device_submitAdvanced {k i : Nat} (hD : Device s (.submit k (.x8 i) :: O)) :
    Device (s.setHead .tx (nextIndex i s.cfg.nTx)) (.submit k .x9 :: O) :=
  hD.quiet_step rfl rfl (s.pending_setHead ..) rfl rfl rfl rfl (fun r => .inl (by cases r <;> rfl)) rfl rfl
    (fun r => by cases r <;> rfl) (fun r hr => by cases r <;> cases hr) trivial

/-! ## BRINGUP (R185, R186) -/

/-- At an acknowledge `RESET` and the completions go; else they stay (R199). -/
def Acknowledges (s u : State) : Prop :=
  SameDevice { s with rst := u.rst, dev := u.dev } u
    ∧ ((u.rst = s.rst ∧ u.dev = s.dev) ∨ (u.rst.getLsbD 0 = false ∧ u.dev = []))

theorem acknowledges_devResetAck (s : State) (v : Word) : Acknowledges s (s.devResetAck v) := by
  unfold State.devResetAck
  split
  · exact ⟨Eq.refl _, .inr ⟨by simp, rfl⟩⟩
  · exact ⟨Eq.refl _, .inl ⟨rfl, rfl⟩⟩

theorem acknowledges_answerReset (s : State) : Acknowledges s s.answerReset := by
  obtain ⟨d, n, hs | ⟨v, hs⟩⟩ := s.answerReset_cases <;> rw [hs]
  · exact ⟨Eq.refl _, .inl ⟨rfl, rfl⟩⟩
  · have h := acknowledges_devResetAck { s with draws := d, tick := n } v
    exact ⟨h.1, h.2⟩

/-- The device's answer to a read of `RESET`, when BRINGUP goes on so. -/
theorem device_answered {n : Nat} {t' : Task} (h : Turning c s (.bringup (.h3 n)) O)
    (hD : Device s (.bringup (.h3 n) :: O)) (hp : t'.prefills = false) (hcons : ∀ r, t'.consumes r = false)
    (hcl : ∀ r i, t'.cleared r i = false) (hw : ∀ s, t'.written s)
    (hasks : t'.asks = true → s.answerReset.rst.getLsbD 0 = true)
    (hacked : t'.acked = true → s.answerReset.rst.getLsbD 0 = false) : Device s.answerReset (t' :: O) := by
  have hO (r : Ring) : Off O r := h.off r (by cases r <;> rfl)
  obtain ⟨hu, hans⟩ := acknowledges_answerReset s
  have hpend : s.answerReset.pending = s.pending := funext fun r => State.pending_congr (by rw [hu]; cases r <;> rfl)
  have hsd : s.answerReset.slotDesc = s.slotDesc := State.slotDesc_congr (by rw [hu]) (by rw [hu])
  have hasked := hD.asked (by rw [any_asks_alone (hO .rx)]; rfl)
  refine device_resting hO ?_ hp hcons (hw _) ?_ ?_ (fun ha => .inl (hasks ha)) (fun ha => ?_) hacked
    (fun r i _ hc => by cases (hcl r i).symm.trans hc) ?_
  · rw [hu]
    exact h.allowed.down rfl
  · obtain ⟨-, hdev⟩ | ⟨-, hdev⟩ := hans <;> rw [hdev]
    · exact hD.slots
    · exact .nil
  · rw [hpend, hsd]
    exact hD.addressed
  · obtain ⟨hrst, hdev⟩ | ⟨-, hdev⟩ := hans
    · rw [hdev]
      refine hasked.resolve_left fun hb => ?_
      rw [← hrst, hacked ha] at hb
      cases hb
    · exact hdev
  · rw [hu]
    exact hD.noDma

theorem device_resetAsked (h : Turning c s (.bringup .h1) O) (hD : Device s (.bringup .h1 :: O)) :
    Device (s.regWrite32 .reset 1) (.bringup (.h3 0) :: O) := by
  have hO (r : Ring) : Off O r := h.off r (by cases r <;> rfl)
  exact device_resting hO (h.allowed.down rfl) rfl (fun r => by cases r <;> rfl) trivial hD.slots hD.addressed
    (fun _ => .inl (by simp [State.regWrite32])) nofun nofun nofun hD.noDma

/-- `OWN` is the top bit of a status word's last byte. -/
theorem ownBit_descRead32 (s : State) (a : Nat) : ownBit (s.descRead32 a) = (s.descByte (a + 3)).getLsbD 7 := by
  simp only [ownBit, State.descRead32, BitVec.getLsbD_append, Nat.reduceLT, Nat.reduceSub, if_false]

theorem getLsbD_zeroByte {l : List Byte} (hl : ∀ b ∈ l, b = 0) (i j : Nat) : (l[i]?.getD 0).getLsbD j = false := by
  have hz : l[i]?.getD 0 = 0 := by
    cases hb : l[i]? with
    | none => rfl
    | some b => exact hl b (List.mem_of_getElem? hb)
  rw [hz]
  simp

/-- Writing zeros hands no descriptor over. -/
theorem ownBit_zero32 {s : State} {a b : Nat} (h : ownBit (s.descRead32 b) = false) :
    ownBit ((s.descWrite32 a 0).descRead32 b) = false := by
  rw [ownBit_descRead32] at h ⊢
  rw [State.descByte_descWrite32]
  split
  · exact getLsbD_zeroByte (by decide) _ _
  · exact h

theorem ownBit_zero64 {s : State} {a b : Nat} (h : ownBit (s.descRead32 b) = false) :
    ownBit ((s.descWrite64 a 0).descRead32 b) = false := by
  rw [ownBit_descRead32] at h ⊢
  rw [State.descByte_descWrite64]
  split
  · exact getLsbD_zeroByte (by decide) _ _
  · exact h

theorem State.owned_clearSlot {s : State} {r q : Ring} {i j : Nat} (p : ClearPc)
    (h : s.owned q j = false ∨ (p = .status ∧ (q, j) = (r, i))) : (s.clearSlot r i p).owned q j = false := by
  cases p with
  | addr => exact ownBit_zero64 (h.resolve_right nofun)
  | len => exact ownBit_zero32 (h.resolve_right nofun)
  | status =>
    have hsd : (s.clearSlot r i .status).slotDesc = (s.descWrite32 (statusAddr s.cfg r i) 0).slotDesc :=
      State.slotDesc_congr (by simp [State.clearSlot]) (by simp [State.clearSlot])
    rw [State.owned, hsd]
    obtain h | ⟨-, h⟩ := h
    · exact ownBit_zero32 h
    · cases h
      exact (congrArg ownBit (s.descRead32_descWrite32_same _ 0)).trans (by decide)

/-- B2 goes on when slot `i` is done. -/
theorem clearNext_cleared {c : Config} {r q : Ring} {i j : Nat} {p : ClearPc} (hj : j < ringSize c q)
    (h : (clearNext c r i p).cleared q j = true) :
    (BringupPc.b2 r i p).cleared q j = true ∨ (p = .status ∧ (q, j) = (r, i)) := by
  cases p with
  | addr => cases r <;> cases q <;> exact .inl h
  | len => cases r <;> cases q <;> exact .inl h
  | status =>
    simp only [clearNext] at h
    split at h
    · cases r <;> cases q <;> simp [BringupPc.cleared] at h ⊢ <;> omega
    · cases r <;> cases q <;> simp [BringupPc.cleared] at h ⊢ <;> simp only [ringSize] at * <;> omega

theorem Task.written_of_clears {s : State} {p : BringupPc} (h : p.clears = true) : (Task.bringup p).written s := by
  cases p <;> trivial

theorem Turning.no_pending {t : Task} (h : Turning c s t O) (hb : t.Blank) (hd : t.needsDown = true) (r : Ring) (i : Nat) :
    s.pending r i = none := by
  obtain ⟨-, hnone⟩ := h.resting hb hd
  by_contra hn
  obtain ⟨⟨k, a⟩, hp⟩ := Option.ne_none_iff_exists'.mp hn
  cases hp.symm.trans (hnone r i (h.shaped.lt_of_pending hp))

theorem State.clearSlot_frame (s : State) (r : Ring) (i : Nat) (p : ClearPc) :
    (s.clearSlot r i p).life = s.life ∧ (s.clearSlot r i p).dev = s.dev ∧ (s.clearSlot r i p).rst = s.rst
      ∧ (s.clearSlot r i p).fault = s.fault ∧ (s.clearSlot r i p).cfg = s.cfg := by
  cases p <;> simp [State.clearSlot]

theorem State.pending_clearSlot {s : State} (h : ∀ r i, s.pending r i = none) (r : Ring) (i : Nat) (p : ClearPc) (q : Ring)
    (j : Nat) : (s.clearSlot r i p).pending q j = none := by
  have hw (a : Nat) : (s.descWrite32 a 0).pending q j = none := h q j
  cases p with
  | addr => exact h q j
  | len => exact h q j
  | status =>
    rw [State.clearSlot, State.pending_setPending, hw]
    split <;> rfl

theorem BringupPc.not_asks_of_clears {p : BringupPc} (h : p.clears = true) : (Task.bringup p).asks = false := by
  cases p with
  | b2 r i p => rfl
  | b3 => rfl
  | _ => cases h

theorem device_slotCleared {r : Ring} {i : Nat} {p : ClearPc} (h : Turning c s (.bringup (.b2 r i p)) O)
    (hD : Device s (.bringup (.b2 r i p) :: O)) :
    Device (s.clearSlot r i p) (.bringup (clearNext s.cfg r i p) :: O) := by
  have hO (r : Ring) : Off O r := h.off r (by cases r <;> rfl)
  obtain ⟨hlife, hdev, hrst, hfault, hcfg⟩ := s.clearSlot_frame r i p
  have hnone := State.pending_clearSlot (h.no_pending (BringupPc.blank_of_clears rfl) rfl) r i p
  have hacked : (Task.bringup (.b2 r i p) :: O).any Task.acked = true := rfl
  have hclears := clearNext_clears s.cfg r i p
  have hp := (BringupPc.blank_of_clears hclears).prefills
  have ha := BringupPc.not_asks_of_clears hclears
  refine device_resting hO (hlife.trans (h.allowed.down rfl)) hp (fun q => by cases q <;> rfl)
    (Task.written_of_clears hclears) (hdev ▸ hD.slots) (fun q j k a hk => ?_)
    (fun hask => by cases ha.symm.trans hask) (fun _ => hdev.trans (hD.forgotten hacked))
    (fun _ => hrst ▸ hD.answered (.inr hacked)) (fun q j hj hc => ?_) (hfault ▸ hD.noDma)
  · cases (hnone q j).symm.trans hk
  · rw [hcfg] at hj
    refine State.owned_clearSlot p ((clearNext_cleared hj hc).imp_left fun hold => ?_)
    exact hD.cleared q j hj (by rw [any_cleared_alone (hO q)]; exact hold)

theorem device_latchesCleared (h : Turning c s (.bringup .b3) O) (hD : Device s (.bringup .b3 :: O)) :
    Device s.clearLatches (.bringup (.b4 (.f1 0)) :: O) := by
  have hO (r : Ring) : Off O r := h.off r (by cases r <;> rfl)
  have hdown : s.life = .down := h.allowed.down rfl
  have hacked : (Task.bringup .b3 :: O).any Task.acked = true := rfl
  have hpend : s.clearLatches.pending = s.pending := by
    funext r i
    cases r <;> rfl
  refine ⟨fun _ r i hi ho => ?_, fun hup => ?_, hD.slots, ?_, fun ha => ?_, fun _ => hD.forgotten hacked,
    fun _ => hD.answered (.inr hacked), fun r i _ hc => ?_, fun r hc => ?_, fun t₁ ht₁ => ?_, hD.noDma⟩
  · have hno := hD.cleared r i hi (by rw [any_cleared_alone (hO r)]; cases r <;> rfl)
    cases hno.symm.trans ho
  · cases hdown.symm.trans hup
  · rw [hpend]
    exact hD.addressed
  · rw [any_asks_alone (hO .rx)] at ha
    cases ha
  · rw [any_cleared_alone (hO r)] at hc
    cases r <;> cases hc
  · rw [any_consumes_alone (hO r)] at hc
    cases r <;> cases hc
  · obtain rfl | ht₁ := List.mem_cons.mp ht₁
    · trivial
    · exact Task.written_of_off _ fun r => hO r t₁ ht₁

theorem device_broughtUp {n : Nat} (h : Turning c s (.bringup (.b5 n)) O) (hD : Device s (.bringup (.b5 n) :: O)) :
    Device { s with life := .up } (.isFull .rx :: O) := by
  have hO (r : Ring) : Off O r := h.off r (by cases r <;> rfl)
  have hacked : (Task.bringup (.b5 n) :: O).any Task.acked = true := rfl
  have hdev := hD.forgotten hacked
  have hrst := hD.answered (.inr hacked)
  refine ⟨fun _ r i hi ho => ?_, fun _ o ho => ?_, hD.slots, hD.addressed, fun _ => .inr hdev, fun _ => hdev,
    fun _ => hrst, fun r i _ hc => ?_, fun r hc => ?_, fun t₁ ht₁ => ?_, hD.noDma⟩
  · obtain ⟨hback, hlen⟩ := hD.armed (.inr rfl) r i hi ho
    refine ⟨hback.imp_right ?_, hlen⟩
    rintro ⟨t₁, ht₁, k, hk⟩
    obtain rfl | ht₁ := List.mem_cons.mp ht₁
    · cases r <;> cases hk
    · exact ⟨t₁, List.mem_cons_of_mem _ ht₁, k, hk⟩
  · rw [show State.dev { s with life := .up } = [] from hdev] at ho
    cases ho
  · rw [any_cleared_alone (hO r)] at hc
    cases r <;> cases hc
  · rw [any_consumes_alone (hO r)] at hc
    cases r <;> cases hc
  · obtain rfl | ht₁ := List.mem_cons.mp ht₁
    · trivial
    · exact Task.written_of_off _ fun r => hO r t₁ ht₁

/-! ## TEARDOWN (R187) -/

theorem device_tornDown (h : Turning c s (.teardown .t3) O) (hD : Device s (.teardown .t3 :: O)) :
    Device { s with life := .down, pollSched := false } (.teardown (.t4 .rx 0 0) :: O) := by
  have hO : Off O .tx := h.off .tx rfl
  refine ⟨fun hl => ?_, nofun, hD.slots, hD.addressed, fun ha => ?_, fun ha => ?_, fun ha => ?_, fun r i hi hc => ?_,
    fun r hc => ?_, fun t₁ ht₁ => ?_, hD.noDma⟩
  · rw [any_prefills_alone hO] at hl
    obtain hl | hl := hl <;> cases hl
  · rw [any_asks_alone hO] at ha
    cases ha
  · rw [any_acked_alone hO] at ha
    cases ha
  · rw [any_acked_alone hO] at ha
    obtain ha | ha := ha <;> cases ha
  · exact hD.cleared r i hi hc
  · refine hD.consumed r ?_
    cases r <;> exact hc
  · obtain rfl | ht₁ := List.mem_cons.mp ht₁
    · trivial
    · exact hD.written t₁ (List.mem_cons_of_mem _ ht₁)

theorem drainNext_stage (c : Config) (r : Ring) (i k : Nat) :
    (Task.teardown (drainNext c r i k)).prefills = false ∧ (∀ q, (Task.teardown (drainNext c r i k)).consumes q = false)
      ∧ ∀ q j, (Task.teardown (drainNext c r i k)).cleared q j = false :=
  ⟨rfl, fun q => by cases q <;> rfl, fun q j => by cases q <;> rfl⟩

theorem device_slotFreed {r : Ring} {i k m : Nat} (e : PoolEntry) (h : Turning c s (.teardown (.t4 r i k)) O)
    (hD : Device s (.teardown (.t4 r i k) :: O)) :
    Device ((s.setBuffer m e).setPending r i none) (.teardown (drainNext s.cfg r i (k + 1)) :: O) := by
  have hO (q : Ring) : Off O q := h.off q (by cases q <;> rfl)
  obtain ⟨hpre, hcons, hcl⟩ := drainNext_stage s.cfg r i (k + 1)
  have hsd : ((s.setBuffer m e).setPending r i none).slotDesc = s.slotDesc :=
    State.slotDesc_congr (by simp) (by simp)
  refine device_resting hO ?_ hpre hcons trivial ?_ (fun q j x a hx => ?_) nofun nofun nofun
    (fun q j _ hc => by cases (hcl q j).symm.trans hc) ?_
  · rw [State.setPending_life]
    exact h.allowed.down rfl
  · rw [State.setPending_dev]
    exact hD.slots
  · rw [State.pending_setPending] at hx
    rw [hsd]
    split at hx
    · cases hx
    · exact hD.addressed q j x a hx
  · rw [State.setPending_fault]
    exact hD.noDma

theorem device_indicesZeroed {k : Nat} (h : Turning c s (.teardown (.t5 k)) O) (hD : Device s (.teardown (.t5 k) :: O)) :
    Device { s.zeroIndices with txStopped := false } (.teardown (.t6 k) :: O) := by
  have hO (q : Ring) : Off O q := h.off q (by cases q <;> rfl)
  refine device_resting hO (h.allowed.down rfl) rfl (fun q => by cases q <;> rfl) trivial hD.slots ?_ nofun nofun nofun
    (fun q j _ hc => by cases q <;> cases hc) hD.noDma
  rw [s.pending_zeroed]
  exact hD.addressed

/-! ## Every micro-step -/

theorem device_filled {W : RefillPc → Task} {n : Nat} {κ : Cont} (hD : Device s (W (.f9 n) :: O))
    (hx : AfterFill s n W u κ) : Device u (κ.task :: O) := by
  cases hx <;> exact hD.same_step (Eq.refl _) rfl rfl (fun r => by cases r <;> rfl) (fun r hr => by cases r <;> cases hr) trivial

theorem device_drained {W : DrainPc → Task} {w : Nat} {κ : Cont} (hD : Device s (W (.g9 w) :: O))
    (hx : AfterDrain s w W u κ) : Device u (κ.task :: O) := by
  cases hx <;> exact hD.same_step (Eq.refl _) rfl rfl (fun r => by cases r <;> rfl) (fun r hr => by cases r <;> cases hr) trivial

theorem device_reclaimed {W : ReclaimPc → Task} {p : ReclaimPc} {κ : Cont} (hD : Device s (W p :: O))
    (hx : AfterReclaim W κ) : Device s.unlock (κ.task :: O) := by
  cases hx <;> exact hD.same_step (Eq.refl _) rfl rfl (fun r => by cases r <;> rfl) (fun r hr => by cases r <;> cases hr) trivial

theorem device_micro {t : Task} {κ : Cont} (h : Turning c s t O) (hD : Device s (t :: O)) (hm : Micro c s t u κ) :
    Device u (κ.task :: O) := by
  have same {t t' : Task} (hD : Device s (t :: O)) (hu : SameDevice s u) (hstage : t'.stage = t.stage)
      (hcl : t'.cleared = t.cleared) (hhand : ∀ r, t'.handed r = t.handed r) (hcons : ∀ r, t'.consumes r = false)
      (hw : t'.written s) : Device u (t' :: O) :=
    hD.same_step hu hstage hcl hhand (fun r hr => by cases (hcons r).symm.trans hr) hw
  cases hm with
  | stop hx hf => exact absurd hx h.not_misuses
  | fill hW hx => exact device_refill hW h hD hx
  | filled hx => exact device_filled hD hx
  | drain hW hx => exact device_drain hW h hD hx
  | drained hx => exact device_drained hD hx
  | reclaim hW hx => exact device_reclaim hW h hD hx
  | reclaimRefused hd hx => exact device_reclaimed hD hx
  | reclaimed hx => exact device_reclaimed hD hx
  | submitMapped =>
    exact same hD (sameDevice_drawMapOk ..) rfl rfl (fun r => by cases r <;> rfl) (fun r => by cases r <;> rfl) trivial
  | submitMapFailed =>
    refine same hD ?_ rfl rfl (fun r => by cases r <;> rfl) (fun r => by cases r <;> rfl) trivial
    rw [State.drawMapOk_frame]
    exact Eq.refl _
  | submitAddress => exact device_submitAddress h hD
  | submitLength => exact device_submitLength h hD
  | @submitBarrier k i a =>
    exact same (t := .submit k (.x6 a (.p3 i))) (t' := .submit k (.x6 a (.p4 i))) hD .rfl rfl rfl (fun r => by cases r <;> rfl) (fun r => by cases r <;> rfl)
      (hD.written (.submit k (.x6 a (.p3 i))) (List.mem_cons_self ..))
  | submitStatus => exact device_submitStatus h hD
  | submitRecorded => exact device_submitRecorded h hD
  | submitAdvanced => exact device_submitAdvanced hD
  | irqSchedule =>
    refine same hD ?_ rfl rfl (fun r => by cases r <;> rfl) (fun r => by cases r <;> rfl) trivial
    unfold State.schedulePoll
    split <;> exact Eq.refl _
  | irqLink =>
    refine same hD ?_ rfl rfl (fun r => by cases r <;> rfl) (fun r => by cases r <;> rfl) trivial
    unfold State.reportIf
    split <;> exact Eq.refl _
  | irqErr =>
    refine same hD ?_ rfl rfl (fun r => by cases r <;> rfl) (fun r => by cases r <;> rfl) trivial
    unfold State.reportIf
    split <;> exact Eq.refl _
  | resetAsked => exact device_resetAsked h hD
  | resetPending ha =>
    exact device_answered h hD rfl (fun r => by cases r <;> rfl) (fun _ _ => rfl) (fun _ => trivial) (fun _ => ha) nofun
  | resetTimedOut =>
    exact device_answered h hD rfl (fun r => by cases r <;> rfl) (fun _ _ => rfl) (fun _ => trivial) nofun nofun
  | resetAcked ha =>
    refine device_answered h hD rfl (fun r => by cases r <;> rfl) (fun r i => ?_) (fun _ => trivial) nofun (fun _ => ha)
    cases r <;> simp [Cont.task, Task.cleared, BringupPc.cleared]
  | slotCleared => exact device_slotCleared h hD
  | latchesCleared => exact device_latchesCleared h hD
  | broughtUp => exact device_broughtUp h hD
  | tornDown hp => exact device_tornDown h hD
  | slotFreed hp => exact device_slotFreed _ h hD
  | slotEmpty hp =>
    exact same hD .rfl rfl rfl (fun r => by cases r <;> rfl) (fun r => by cases r <;> rfl) trivial
  | indicesZeroed => exact device_indicesZeroed h hD
  | _ => exact same hD (Eq.refl _) rfl rfl (fun r => by cases r <;> rfl) (fun r => by cases r <;> rfl) trivial

end

end Sys2Proof.Machine
end

section
/-! PROOF. The device's accesses (46_device R195 to R199): they agree with their descriptors and stay inside mappings
(20_memory R68). -/

namespace Sys2Proof.Machine

/-! ## Windows (R67, R68) -/

/-- An address inside a mapped buffer's window lies in no other. -/
theorem State.window?_eq {s : State} (hv : ValidConfig s.cfg) {h k : Nat} (hlt : h < s.cfg.poolSize)
    (hmap : (s.buffer h).map.isSome = true) (hk : k < s.cfg.bufSize) :
    s.window? ((xlateOf s.cfg h).toNat + k) 1 = some h := by
  simp only [State.window?, List.find?_range_eq_some, List.mem_range, Bool.and_eq_true, decide_eq_true_eq, hmap,
    true_and, Bool.not_eq_true', Bool.and_eq_false_iff, decide_eq_false_iff_not]
  refine ⟨⟨by omega, by omega⟩, hlt, fun j hj => ?_⟩
  have hapart := hv.windows j h hj hlt
  simp only [apart, Bool.or_eq_true, decide_eq_true_eq] at hapart
  by_cases hle : (xlateOf s.cfg j).toNat ≤ (xlateOf s.cfg h).toNat + k
  · exact .inr (by omega)
  · exact .inl (.inr hle)

section
variable {s : State} (hv : ValidConfig s.cfg) {h k : Nat} (hlt : h < s.cfg.poolSize) (hk : k < s.cfg.bufSize)
include hv hlt hk

theorem State.devMemWrite_mapped (hmap : (s.buffer h).map = some .inbound) (v : Byte) :
    ∃ o, s.devMemWrite ((xlateOf s.cfg h).toNat + k) v = s.bufWrite h o [v] := by
  rw [State.devMemWrite, State.window?_eq hv hlt (by rw [hmap]; rfl) hk]
  exact ⟨_, if_pos hmap⟩

theorem State.devMemRead_mapped (hmap : (s.buffer h).map = some .outbound) :
    ∃ x, s.devMemRead ((xlateOf s.cfg h).toNat + k) = some x := by
  rw [State.devMemRead, State.window?_eq hv hlt (by rw [hmap]; rfl) hk]
  exact ⟨_, if_pos hmap⟩

end

/-! ## What an access does -/

/-- The access of completion `o` in state `s` leaves the state `v` and `x` of the completion. -/
structure Accesses (s : State) (o : DevOp) (v : State) (x : Option DevOp) (d : Descriptor) : Prop where
  frame : SameDevice { s with desc := v.desc } v
  set : DescriptorSet s v o.slot.1 o.slot.2 d
  address : d.address = (s.slotDesc o.slot.1 o.slot.2).address
  status : d.status = (s.slotDesc o.slot.1 o.slot.2).status ∨ ownBit d.status = false
  goesOn : ∀ o', x = some o' → o'.slot = o.slot ∧ o'.ok v
  length : ownBit d.status = true → d.length.toNat ≤ s.cfg.bufSize ∨ ∃ o', x = some o' ∧ o'.lengthWritten o.slot.1 o.slot.2 = true

/-- The descriptor of a completion in progress, as the device finds it. -/
structure Claimed (s : State) (o : DevOp) : Prop where
  slot : o.slot.2 < ringSize s.cfg o.slot.1
  mapped : ∃ h, h < s.cfg.poolSize ∧ (s.buffer h).map = some (ringDir o.slot.1)
    ∧ (s.slotDesc o.slot.1 o.slot.2).address = xlateOf s.cfg h
  length : o.lengthWritten o.slot.1 o.slot.2 = false → (s.slotDesc o.slot.1 o.slot.2).length.toNat ≤ s.cfg.bufSize

theorem DevOp.slot_of_lengthWritten {o : DevOp} {r : Ring} {i : Nat} (h : o.lengthWritten r i = true) : o.slot = (r, i) := by
  cases o with
  | rx j len err bytes seed p =>
    cases r with
    | rx =>
      cases p with
      | v4 st => exact Prod.ext rfl (beq_iff_eq.mp h).symm
      | _ => cases h
    | tx => cases p <;> cases h
  | tx j err p => cases h

theorem claimed_of_devSound {s : State} (hd : s.DevSound) (hup : s.life = .up) {o : DevOp} (ho : o ∈ s.dev) :
    Claimed s o := by
  obtain ⟨hi, hown⟩ := DevOp.owned_of_ok (hd.ops hup o ho)
  obtain ⟨h, -, hmap, hlt, haddr, hlen⟩ := hd.armed (.inl hup) _ _ hi hown
  refine ⟨hi, ⟨h, hlt, hmap, haddr⟩, fun hno => hlen.resolve_right fun hw => ?_⟩
  obtain ⟨o', ho', hw⟩ := List.any_eq_true.mp hw
  have hsame : o' = o := List.inj_on_of_nodup_map hd.slots ho' ho (DevOp.slot_of_lengthWritten hw)
  rw [hsame, hno] at hw
  cases hw

section
variable {s : State} (hv : ValidConfig s.cfg)

/-- An access that reads, or moves a byte of the buffer, leaves the descriptor as it is. -/
theorem Accesses.of_same {o o' : DevOp} {v : State} (hc : Claimed s o) (hfresh : o.lengthWritten o.slot.1 o.slot.2 = false)
    (hu : SameDevice s v) (hslot : o'.slot = o.slot) (hok : o'.ok s) :
    Accesses s o v (some o') (s.slotDesc o.slot.1 o.slot.2) := by
  have hcfg : v.cfg = s.cfg := by rw [hu]
  have hdesc : v.desc = s.desc := by rw [hu]
  have hsd : v.slotDesc = s.slotDesc := State.slotDesc_congr hcfg hdesc
  refine ⟨by rw [hu]; exact Eq.refl _, descriptorSet_self hcfg hdesc _ _, rfl, .inl rfl, fun o₁ ho₁ => ?_,
    fun _ => .inl (hc.length hfresh)⟩
  cases ho₁
  exact ⟨hslot, DevOp.ok_congr hcfg (by rw [hsd]) (by rw [hsd]) hok⟩

include hv

theorem accesses_rx {i seed : Nat} {len : Word} {err : Bool} {bytes : List Byte} {p : RxPc}
    (hok : DevOp.ok s (.rx i len err bytes seed p)) (hc : Claimed s (.rx i len err bytes seed p)) :
    ∃ d, Accesses s (.rx i len err bytes seed p) (devRxStep i len err bytes seed p s).1
      ((devRxStep i len err bytes seed p s).2.map (.rx i len err bytes seed)) d := by
  obtain ⟨hi, hown, hp⟩ := hok
  cases p with
  | v1len st => exact ⟨_, .of_same hc rfl .rfl rfl ⟨hi, hown, hp, hc.length rfl⟩⟩
  | v1addr st cap =>
    obtain ⟨hst, hcap⟩ := hp
    exact ⟨_, .of_same hc rfl .rfl rfl ⟨hi, hown, hst, hcap, rfl⟩⟩
  | v2 st cap a k =>
    obtain ⟨hst, hcap, ha⟩ := hp
    obtain ⟨h, hlt, hmap, haddr⟩ := hc.mapped
    simp only [devRxStep]
    split
    · rename_i hk
      obtain rfl : a = xlateOf s.cfg h := ha.trans haddr
      obtain ⟨o, hw⟩ := State.devMemWrite_mapped hv hlt (k := k) (by omega) hmap (frameByte bytes seed k)
      rw [hw]
      exact ⟨_, .of_same hc rfl (Eq.refl _) rfl ⟨hi, hown, hst, hcap, haddr.symm⟩⟩
    · exact ⟨_, .of_same hc rfl .rfl rfl ⟨hi, hown, hst⟩⟩
  | v3 st =>
    have hd := descriptorSet_length hv (q := .rx) hi len
    have hst := congrArg Descriptor.status hd.same
    have ha := congrArg Descriptor.address hd.same
    refine ⟨_, Eq.refl _, hd, rfl, .inl rfl, fun o' ho' => ?_, fun _ => .inr ⟨_, rfl, beq_self_eq_true _⟩⟩
    cases ho'
    exact ⟨rfl, DevOp.ok_congr (s := s) rfl hst ha ⟨hi, hown, hp⟩⟩
  | v4 st =>
    have hno := ownBit_rxDoneStatus st err
    exact ⟨_, Eq.refl _, descriptorSet_status hv (q := .rx) hi _, rfl, .inr hno, nofun,
      fun ho => by cases hno.symm.trans ho⟩

theorem accesses_tx {i : Nat} {err : Bool} {p : TxPc} (hok : DevOp.ok s (.tx i err p)) (hc : Claimed s (.tx i err p)) :
    ∃ d, Accesses s (.tx i err p) (devTxStep i err p s).1 ((devTxStep i err p s).2.map (.tx i err)) d := by
  obtain ⟨hi, hown, hp⟩ := hok
  cases p with
  | w1len st => exact ⟨_, .of_same hc rfl .rfl rfl ⟨hi, hown, hp, hc.length rfl⟩⟩
  | w1addr st len =>
    obtain ⟨hst, hlen⟩ := hp
    exact ⟨_, .of_same hc rfl .rfl rfl ⟨hi, hown, hst, hlen, rfl, Nat.zero_le _⟩⟩
  | w2 st len a b =>
    obtain ⟨hst, hlen, ha, hb⟩ := hp
    obtain ⟨h, hlt, hmap, haddr⟩ := hc.mapped
    simp only [devTxStep]
    split
    · rename_i hk
      obtain rfl : a = xlateOf s.cfg h := ha.trans haddr
      obtain ⟨x, hr⟩ := State.devMemRead_mapped hv hlt (k := b.length) (by omega) hmap
      rw [hr]
      refine ⟨_, .of_same hc rfl .rfl rfl ⟨hi, hown, hst, hlen, haddr.symm, ?_⟩⟩
      rw [List.length_append]
      exact hk
    · exact ⟨_, .of_same hc rfl (Eq.refl _) rfl ⟨hi, hown, hst⟩⟩
  | w3 st =>
    have hno := ownBit_txDoneStatus st err
    exact ⟨_, Eq.refl _, descriptorSet_status hv (q := .tx) hi _, rfl, .inr hno, nofun,
      fun ho => by cases hno.symm.trans ho⟩

theorem accesses_devOpStep {o : DevOp} (hok : o.ok s) (hc : Claimed s o) :
    ∃ d, Accesses s o (devOpStep o s).1 (devOpStep o s).2 d := by
  cases o with
  | rx i len err bytes seed p => exact accesses_rx hv hok hc
  | tx i err p => exact accesses_tx hv hok hc

end

end Sys2Proof.Machine
end

section
/-! PROOF. The device side's invariants are kept (10_state R27, R30, 20_memory R68, 46_device R195, R199). -/

namespace Sys2Proof.Machine

/-! ## Operations that begin or have ended, and moves the device's books do not see -/

theorem Device.congr {s u : State} {L : List Task} (h : Device s L) (hu : SameDevice s u) : Device u L := by
  rw [hu]
  exact ⟨h.armed, h.ops, h.slots, h.addressed, h.asked, h.forgotten, h.answered, h.cleared, h.consumed, h.written, h.noDma⟩

/-- An operation that has nothing to do with the device. -/
structure Task.Offline (t : Task) : Prop where
  stage : t.stage = (false, false, false)
  cleared : ∀ r i, t.cleared r i = false
  handed : ∀ r, t.handed r = none
  consumes : ∀ r, t.consumes r = false
  written : ∀ s, t.written s

theorem Task.offline_isFull (r : Ring) : (Task.isFull r).Offline :=
  ⟨rfl, fun q _ => by cases q <;> rfl, fun q => by cases q <;> rfl, fun q => by cases q <;> rfl, fun _ => trivial⟩

theorem Task.offline_firstTask (i : Instr) : (firstTask i).Offline := by
  cases i <;> exact ⟨rfl, fun q _ => by cases q <;> rfl, fun q => by cases q <;> rfl, fun q => by cases q <;> rfl,
    fun _ => trivial⟩

theorem Task.Offline.device_iff {s : State} {t : Task} {O : List Task} (ht : t.Offline) :
    Device s (t :: O) ↔ Device s O := by
  obtain ⟨hstage, hcl, hhand, hcons, hw⟩ := ht
  simp only [Task.stage, Prod.mk.injEq] at hstage
  obtain ⟨hp, ha, hk⟩ := hstage
  have hback (r : Ring) (i : Nat) : s.Backed (t :: O) r i ↔ s.Backed O r i := by
    simp [State.Backed, hhand]
  have hcl' (r : Ring) (i : Nat) : (t :: O).any (·.cleared r i) = O.any (·.cleared r i) := any_cons_of_false (hcl r i)
  have hcons' (r : Ring) : (t :: O).any (·.consumes r) = O.any (·.consumes r) := any_cons_of_false (hcons r)
  have hp' := any_cons_of_false (O := O) hp
  have ha' := any_cons_of_false (O := O) ha
  have hk' := any_cons_of_false (O := O) hk
  constructor
  · intro h
    refine ⟨fun hl r i hi ho => ?_, h.ops, h.slots, h.addressed, ha' ▸ h.asked, hk' ▸ h.forgotten, hk' ▸ h.answered,
      fun r i hi hc => h.cleared r i hi ((hcl' r i).trans hc), fun r hc => h.consumed r ((hcons' r).trans hc),
      fun t₁ ht₁ => h.written t₁ (List.mem_cons_of_mem _ ht₁), h.noDma⟩
    exact (h.armed (hp' ▸ hl) r i hi ho).imp_left (hback r i).mp
  · intro h
    refine ⟨fun hl r i hi ho => ?_, h.ops, h.slots, h.addressed, ha' ▸ h.asked, hk' ▸ h.forgotten, hk' ▸ h.answered,
      fun r i hi hc => h.cleared r i hi ((hcl' r i).symm.trans hc), fun r hc => h.consumed r ((hcons' r).symm.trans hc),
      fun t₁ ht₁ => ?_, h.noDma⟩
    · exact (h.armed (hp' ▸ hl) r i hi ho).imp_left (hback r i).mpr
    · obtain rfl | ht₁ := List.mem_cons.mp ht₁
      · exact hw s
      · exact h.written t₁ ht₁

/-! ## A change of the completions in progress -/

section
variable {s u : State}

theorem State.Sound.not_stage (h : s.Sound) (hup : s.life = .up) :
    s.tasks.any Task.asks = false ∧ s.tasks.any Task.acked = false := by
  have hno (f : Task → Bool) (hf : ∀ t, f t = true → t.needsDown = true) : s.tasks.any f = false := by
    rw [List.any_eq_false]
    intro t ht hft
    obtain ⟨c, -, hc⟩ := List.mem_filterMap.mp ht
    cases hup.symm.trans (h.exclusive.down c t hc (hf t hft))
  exact ⟨hno _ fun t ht => Task.needsDown_of_stage (.inr (.inl ht)),
    hno _ fun t ht => Task.needsDown_of_stage (.inr (.inr ht))⟩

/-- The operation inside PRODUCE writes a slot that the device does not own. -/
theorem State.Sound.fills_other (h : s.Sound) (hd : s.DevSound) {t : Task} (ht : t ∈ s.tasks) {r q : Ring} {j : Nat}
    (hf : t.fills r = true) (hown : s.owned q j = true) : (r, (s.ring r).head) ≠ (q, j) := by
  obtain ⟨c, hc, htask⟩ := List.mem_filterMap.mp ht
  obtain ⟨w, hl⟩ := State.lane_of_task? htask
  have hperm := State.tasks_perm hc
  rw [State.cont_of_lane hl] at hperm
  have hfree := (h.turning hl).head_free ((Device.of_devSound hd).perm hperm) (Task.writing_of_fills hf)
  intro he
  cases he
  cases hfree.symm.trans hown

/-- While `UP`, the device has changed its completion of slot `j` of ring `q`, which it owns, and has written at most that
slot's descriptor. -/
theorem Device.completion_step {q : Ring} {j : Nat} {d : Descriptor} (h : s.Sound) (hd : s.DevSound) (hup : s.life = .up)
    (hown : s.owned q j = true) (hu : SameDevice { s with desc := u.desc, dev := u.dev } u) (hset : DescriptorSet s u q j d)
    (haddr : d.address = (s.slotDesc q j).address)
    (hops : ∀ o ∈ u.dev, o.ok u)
    (hslots : (u.dev.map DevOp.slot).Nodup) (hkeep : ∀ o ∈ s.dev, o.slot ≠ (q, j) → o ∈ u.dev)
    (hlen : u.owned q j = true → u.lengthOk q j) : Device u s.tasks := by
  have hD := Device.of_devSound hd
  have hc := hset.cfg
  have hlife : u.life = .up := by
    rw [hu]
    exact hup
  obtain ⟨hasks, hacked⟩ := h.not_stage hup
  have hring (r : Ring) : u.ring r = s.ring r := by rw [hu]; cases r <;> rfl
  have hpend : u.pending = s.pending := funext fun r => State.pending_congr (hring r)
  have howned {r : Ring} {i : Nat} (hi : i < ringSize s.cfg r) (ho : u.owned r i = true) : s.owned r i = true := by
    by_cases hne : (r, i) = (q, j)
    · cases hne
      exact hown
    · rwa [State.owned, hset.other r i hi hne] at ho
  have haddress {r : Ring} {i : Nat} (hi : i < ringSize s.cfg r) :
      (u.slotDesc r i).address = (s.slotDesc r i).address := by
    by_cases hne : (r, i) = (q, j)
    · cases hne
      rw [hset.same, haddr]
    · rw [hset.other r i hi hne]
  have hfalse {r : Ring} {i : Nat} (hi : i < ringSize s.cfg r) (ho : s.owned r i = false) : u.owned r i = false := by
    by_contra hn
    cases ho.symm.trans (howned hi (by simpa using hn))
  refine ⟨fun _ r i hi ho => ?_, fun _ => hops, hslots, fun r i k a hp => ?_, fun ha => ?_, fun ha => ?_, fun _ => ?_,
    fun r i hi hcl => hfalse (hc ▸ hi) (hD.cleared r i (hc ▸ hi) hcl), fun r hr => ?_, fun t ht => ?_, ?_⟩
  · rw [hc] at hi
    obtain ⟨hback, hlenOld⟩ := hD.armed (.inl hup) r i hi (howned hi ho)
    rw [State.Backed, hpend]
    refine ⟨hback, ?_⟩
    by_cases hne : (r, i) = (q, j)
    · cases hne
      exact hlen ho
    · rw [State.lengthOk, hset.other r i hi hne, hc]
      refine hlenOld.imp_right fun hw => ?_
      obtain ⟨o, ho, hw⟩ := List.any_eq_true.mp hw
      exact List.any_eq_true.mpr ⟨o, hkeep o ho (by rw [DevOp.slot_of_lengthWritten hw]; exact hne), hw⟩
  · rw [hpend] at hp
    rw [haddress (h.shaped.lt_of_pending hp)]
    exact hD.addressed r i k a hp
  · cases hasks.symm.trans ha
  · cases hacked.symm.trans ha
  · rw [hu]
    exact hD.answered (.inl hup)
  · rw [hring]
    exact hfalse (h.shaped.tail r) (hD.consumed r hr)
  · refine Task.written_congr (h.ring.locals t ht) hc (fun r _ => haddress (h.shaped.head r)) (fun r _ hf => ?_)
      (hD.written t ht)
    rw [hset.other r _ (h.shaped.head r) (h.fills_other hd ht hf hown)]
  · rw [hu]
    exact hD.noDma

/-! ## The device's moves -/

theorem State.mayComplete_iff {r : Ring} {i : Nat} (h : s.mayComplete r i = true) :
    s.life = .up ∧ i < ringSize s.cfg r ∧ s.owned r i = true ∧ ∀ o ∈ s.dev, o.slot ≠ (r, i) := by
  simp only [State.mayComplete, Bool.and_eq_true, beq_iff_eq, decide_eq_true_eq, Bool.not_eq_true', List.any_eq_false] at h
  obtain ⟨⟨⟨hup, hi⟩, hown⟩, hno⟩ := h
  exact ⟨hup, hi, hown, hno⟩

/-- A completion begins. -/
theorem device_begun {o : DevOp} {n : Nat} (h : s.Sound) (hd : s.DevSound)
    (hm : s.mayComplete o.slot.1 o.slot.2 = true) (hok : o.ok s) :
    Device { s with dev := s.dev ++ [o], tick := n } s.tasks := by
  obtain ⟨hup, hi, hown, hno⟩ := State.mayComplete_iff hm
  have hlen := ((Device.of_devSound hd).armed (.inl hup) _ _ hi hown).2
  have hsd : State.slotDesc { s with dev := s.dev ++ [o], tick := n } = s.slotDesc := State.slotDesc_congr rfl rfl
  have hok' {o' : DevOp} (ho' : o'.ok s) : o'.ok { s with dev := s.dev ++ [o], tick := n } :=
    DevOp.ok_congr rfl (by rw [hsd]) (by rw [hsd]) ho'
  refine Device.completion_step (u := { s with dev := s.dev ++ [o], tick := n }) h hd hup hown (Eq.refl _)
    (descriptorSet_self (s := s) (u := { s with dev := s.dev ++ [o], tick := n }) rfl rfl _ _) rfl (fun o' ho' => ?_) ?_
    (fun o' ho' _ => List.mem_append_left _ ho') (fun _ => hlen.imp_right fun hw => ?_)
  · obtain ho' | ho' := List.mem_append.mp ho'
    · exact hok' (hd.ops hup o' ho')
    · rw [List.mem_singleton.mp ho']
      exact hok' hok
  · rw [List.map_append, List.nodup_append]
    refine ⟨hd.slots, List.nodup_singleton _, fun a ha b hb => ?_⟩
    obtain ⟨o', ho', rfl⟩ := List.mem_map.mp ha
    rw [List.mem_singleton.mp hb]
    exact hno o' ho'
  · rw [List.any_append, hw, Bool.true_or]

/-- A list with its `j`-th completion put back is the list with that completion's place filled anew or closed. -/
theorem DevOp.putBack_eq {l : List DevOp} {j : Nat} {o : DevOp} (h : l[j]? = some o) (x : Option DevOp) :
    ∃ l₁ l₂, l = l₁ ++ o :: l₂ ∧ DevOp.putBack l j x = l₁ ++ (x.toList ++ l₂) := by
  obtain ⟨hj, rfl⟩ := List.getElem?_eq_some_iff.mp h
  refine ⟨l.take j, l.drop (j + 1), ?_, ?_⟩
  · rw [List.getElem_cons_drop, List.take_append_drop]
  · cases x with
    | none => exact List.eraseIdx_eq_take_drop_succ ..
    | some o' =>
      rw [DevOp.putBack, List.set_eq_take_append_cons_drop, if_pos hj]
      rfl

/-- The other completions are about other slots. -/
theorem DevOp.nodup_of_middle {l₁ l₂ : List DevOp} {o : DevOp} (h : ((l₁ ++ o :: l₂).map slot).Nodup) :
    o.slot ∉ (l₁ ++ l₂).map slot ∧ ((l₁ ++ l₂).map slot).Nodup := by
  rw [List.map_append, List.map_cons, List.nodup_middle, List.nodup_cons] at h
  rwa [List.map_append]

/-- A completion gives way to at most one of its own slot. -/
theorem DevOp.nodup_refilled {l₁ l₂ : List DevOp} {o : DevOp} {x : Option DevOp} (hnew : o.slot ∉ (l₁ ++ l₂).map slot)
    (hrest : ((l₁ ++ l₂).map slot).Nodup) (hx : ∀ o' ∈ x, o'.slot = o.slot) :
    ((l₁ ++ (x.toList ++ l₂)).map slot).Nodup := by
  rw [List.map_append] at hnew hrest
  cases x with
  | none => rwa [Option.toList_none, List.nil_append, List.map_append]
  | some o' =>
    rw [Option.toList_some, List.singleton_append, List.map_append, List.map_cons, List.nodup_middle, List.nodup_cons,
      hx o' rfl]
    exact ⟨hnew, hrest⟩

/-- A completion makes its next access (R196, R197). -/
theorem device_accessed (h : s.Sound) (hd : s.DevSound) (j : Nat) : Device (s.devStep j) s.tasks := by
  obtain hj | ⟨o, hup, ho, hj⟩ := s.devStep_cases j
  · rw [hj]
    exact Device.of_devSound hd
  · have hmem := List.mem_of_getElem? ho
    have hok := hd.ops hup o hmem
    obtain ⟨hi, hown⟩ := DevOp.owned_of_ok hok
    obtain ⟨d, hframe, hset, haddr, -, hgoes, hlen⟩ :=
      accesses_devOpStep (Config.valid h.wf) hok (claimed_of_devSound hd hup hmem)
    generalize hv : (devOpStep o s).1 = v at *
    generalize hx : (devOpStep o s).2 = x at *
    have hvdev : v.dev = s.dev := by rw [hframe]
    obtain ⟨l₁, l₂, hl, hput⟩ := DevOp.putBack_eq ho x
    set u := s.devStep j
    have hu : SameDevice { s with desc := u.desc, dev := u.dev } u := by
      rw [hj, hframe]
      exact Eq.refl _
    have hudev : u.dev = l₁ ++ (x.toList ++ l₂) := by
      rw [hj]
      exact (congrArg (DevOp.putBack · j x) hvdev).trans hput
    have hsd : u.slotDesc = v.slotDesc := State.slotDesc_congr (by rw [hj]) (by rw [hj])
    have hset' : DescriptorSet s u o.slot.1 o.slot.2 d :=
      ⟨by rw [hj]; exact hset.cfg, by rw [hsd]; exact hset.same, fun r i hi hne => by rw [hsd]; exact hset.other r i hi hne⟩
    obtain ⟨hnew, hrest⟩ := DevOp.nodup_of_middle (hl ▸ hd.slots)
    have hother {o' : DevOp} (ho' : o' ∈ l₁ ++ l₂) : o' ∈ s.dev ∧ o'.slot ≠ o.slot := by
      refine ⟨?_, fun he => hnew ?_⟩
      · rw [hl]
        obtain h₁ | h₂ := List.mem_append.mp ho'
        · exact List.mem_append_left _ h₁
        · exact List.mem_append_right _ (List.mem_cons_of_mem _ h₂)
      · rw [← he]
        exact List.mem_map_of_mem ho'
    refine Device.completion_step h hd hup hown hu hset' haddr (fun o' ho' => ?_) ?_ (fun o' ho' hne => ?_)
      (fun ho' => ?_)
    · rw [hudev] at ho'
      have hcase : o' ∈ x.toList ∨ o' ∈ l₁ ++ l₂ := by
        simp only [List.mem_append] at ho' ⊢
        tauto
      obtain hx' | hl' := hcase
      · exact DevOp.ok_congr (s := v) (by rw [hj]) (by rw [hsd]) (by rw [hsd]) (hgoes o' (Option.mem_toList.mp hx')).2
      · obtain ⟨hm, hne⟩ := hother hl'
        have hokp := hd.ops hup o' hm
        have hsame := hset'.other _ _ (DevOp.owned_of_ok hokp).1 hne
        exact DevOp.ok_congr hset'.cfg (by rw [hsame]) (by rw [hsame]) hokp
    · rw [hudev]
      exact DevOp.nodup_refilled hnew hrest fun o' ho' => (hgoes o' ho').1
    · rw [hudev]
      rw [hl] at ho'
      simp only [List.mem_append, List.mem_cons] at ho' ⊢
      obtain h₁ | rfl | h₂ := ho'
      · exact .inl h₁
      · exact absurd rfl hne
      · exact .inr (.inr h₂)
    · rw [State.owned, hset'.same] at ho'
      rw [State.lengthOk, hset'.same, hset'.cfg]
      refine (hlen ho').imp_right ?_
      rintro ⟨o', rfl, hw⟩
      rw [hudev, List.any_append, List.any_append]
      simp [hw]

/-- The device acknowledges a reset (R199). -/
theorem device_acknowledged (h : Device s s.tasks) (v : Word) : Device (s.devResetAck v) s.tasks := by
  have hprefills (hp : s.tasks.any Task.prefills = true) : s.tasks.any Task.acked = true := by
    obtain ⟨t, ht, hp⟩ := List.any_eq_true.mp hp
    refine List.any_eq_true.mpr ⟨t, ht, ?_⟩
    cases t with
    | bringup p => cases p <;> trivial
    | _ => cases hp
  unfold State.devResetAck
  split
  · rename_i hr
    have hno : ¬ (s.life = .up ∨ s.tasks.any Task.acked = true) := fun hl => by cases (h.answered hl).symm.trans hr
    refine ⟨fun hl => absurd (hl.imp_right hprefills) hno, fun hl => absurd (.inl hl) hno, .nil, h.addressed,
      fun _ => .inr rfl, fun _ => rfl, fun hl => absurd hl hno, h.cleared, h.consumed, h.written, h.noDma⟩
  · exact h

theorem device_moved (h : s.Sound) (hd : s.DevSound) (hm : DeviceMove s u) : Device u s.tasks := by
  have hD := Device.of_devSound hd
  have hlen {r : Ring} {i : Nat} (h : s.mayComplete r i = true) := State.mayComplete_iff h
  cases hm with
  | rxStart i len err bytes =>
    unfold State.devRxStart
    split
    · rename_i hm
      obtain ⟨-, hi, hown, -⟩ := hlen hm
      exact device_begun h hd hm ⟨hi, hown, rfl⟩
    · exact hD
  | txStart i err =>
    unfold State.devTxStart
    split
    · rename_i hm
      obtain ⟨-, hi, hown, -⟩ := hlen hm
      exact device_begun (n := s.tick) h hd hm ⟨hi, hown, rfl⟩
    · exact hD
  | access j => exact device_accessed h hd j
  | raise bits => exact hD.congr (Eq.refl _)
  | resetAck v => exact device_acknowledged hD v
  | fill k g off bytes =>
    unfold State.upstreamFill
    split
    · exact hD.congr (Eq.refl _)
    · exact hD

end

/-! ## The step -/

/-- The host side's and the device side's invariants together. -/
def State.FullySound (s : State) : Prop := s.Sound ∧ s.DevSound

/-- A state sound for the host in which the device's books are in order. -/
theorem State.fullySound_of {s : State} (h : s.Sound) (hD : Device s s.tasks) : s.FullySound := ⟨h, hD.devSound_of h⟩

theorem Unseen.sameDevice {s t : State} (h : Unseen s t) : SameDevice s t := by
  rw [h.frame]
  exact Eq.refl _

theorem sameDevice_setCont (s : State) (c : Ctx) (κ : Cont) : SameDevice s (s.setCont c κ) := by
  rw [State.setCont_eq_lanes]
  exact Eq.refl _

/-- The device's books of the state in which context `c` has gone on to `κ`. -/
theorem device_of_turned {s u : State} {c : Ctx} {κ₀ κ : Cont} {l : Lane} (hs : s.Shaped) (hl : s.lane? c = some l)
    (hT : Turned c s κ₀ (u.setCont c κ) κ) (hcfg : u.cfg = s.cfg) (hD : Device u (κ.tasks ++ s.others c)) :
    Device (u.setCont c κ) (u.setCont c κ).tasks := by
  have hvcfg : (u.setCont c κ).cfg = s.cfg := by rw [State.setCont_cfg, hcfg]
  have hc : c ∈ (u.setCont c κ).ctxs := by
    have := State.mem_ctxs hs.up hl
    rwa [State.ctxs, hvcfg]
  have hperm := State.tasks_perm hc
  rw [hT.new, hT.others hvcfg] at hperm
  exact (hD.congr (sameDevice_setCont u c κ)).perm hperm.symm

theorem fullySound_micro {s u : State} {c : Ctx} {t : Task} {q : List Word} {κ : Cont} (h : s.FullySound)
    (hl : s.lane? c = some ⟨.running t, q⟩) (hm : Micro c s t u κ) (hk : Keeps s u) : (u.setCont c κ).FullySound := by
  obtain ⟨hs, hd⟩ := h
  have hT := hs.turning hl
  have hperm := State.tasks_perm (State.mem_ctxs hs.shaped.up hl)
  rw [State.cont_of_lane hl] at hperm
  have hD := device_micro hT ((Device.of_devSound hd).perm hperm) hm
  obtain ⟨hne, -⟩ := books_micro hT hm
  refine State.fullySound_of (sound_micro hs hl hm hk)
    (device_of_turned hs.shaped hl (turned_setCont κ hl hk.lanes) hk.cfg ?_)
  cases κ with
  | idle => exact (Task.offline_isFull .rx).device_iff.mp hD
  | running t' => exact hD
  | stopped => exact absurd rfl hne

theorem fullySound_accept {s s0 : State} {c : Ctx} {i : Instr} {t : Task} {q : List Word} (h : s.FullySound)
    (hl : s.lane? c = some ⟨.idle, q⟩) (hlegal : legalOn i c.port = true) (ha : acceptance i s = .start t s0) :
    (s0.setCont c (.running t)).FullySound := by
  obtain ⟨hs, hd⟩ := h
  have hnew := sound_accept hs hl hlegal ha
  obtain ⟨rfl, b, rfl⟩ := acceptance_start ha
  have hperm := State.tasks_perm (State.mem_ctxs hs.shaped.up hl)
  rw [State.cont_of_lane hl] at hperm
  have hD : Device { s with pollRunning := b } (s.others c) := ((Device.of_devSound hd).perm hperm).congr (Eq.refl _)
  exact State.fullySound_of hnew (device_of_turned hs.shaped hl (turned_setCont _ hl rfl) rfl
    ((Task.offline_firstTask i).device_iff.mpr hD))

theorem fullySound_invariant : Invariant State.FullySound where
  unseen {s t} hu h := by
    obtain ⟨hs, hd⟩ := h
    refine State.fullySound_of (sound_invariant.unseen hu hs) ?_
    rw [State.tasks_congr (by rw [hu.frame]) hu.cont]
    exact (Device.of_devSound hd).congr hu.sameDevice
  accept := fullySound_accept
  micro := fullySound_micro
  device {s t} h hm := by
    obtain ⟨hs, hd⟩ := h
    refine State.fullySound_of (sound_invariant.device hs hm) ?_
    rw [State.tasks_congr hm.foreign.cfg hm.foreign.cont]
    exact device_moved hs hd hm

/-- Settles O19: with the host side's invariants, every atomic step keeps the device's books in order, and what they say
of the pool follows. -/
theorem deviceSoundKept : Obligations.DeviceSoundKept := fun _ _ hs hd hx => (fullySound_invariant.step ⟨hs, hd⟩ hx).2

end Sys2Proof.Machine
end

section
/-! PROOF. PRODUCE and PEEK on one descriptor (20_memory R70, R71, 41_descriptor_ring R128, R129). -/

namespace Sys2Proof.Machine

theorem State.descriptor_eq_slotDesc (s : State) (r : Ring) (i : Nat) :
    s.descriptor r i = ((s.slotDesc r i).status, (s.slotDesc r i).length, (s.slotDesc r i).address) := rfl

section
variable (s : State) (r : Ring) (i : Nat)

theorem State.descriptor_writeStatus (v : Word) :
    (s.descWrite32 (statusAddr s.cfg r i) v).descriptor r i = (v, (s.descriptor r i).2) := by
  simp only [State.descriptor_eq_slotDesc, State.slotDesc_writeStatus_same]

theorem State.descriptor_writeLength (v : Word) :
    (s.descWrite32 (lengthAddr s.cfg r i) v).descriptor r i = ((s.descriptor r i).1, v, (s.descriptor r i).2.2) := by
  simp only [State.descriptor_eq_slotDesc, State.slotDesc_writeLength_same]

theorem State.descriptor_writeAddress (v : DAddr) :
    (s.descWrite64 (bufferAddr s.cfg r i) v).descriptor r i = ((s.descriptor r i).1, (s.descriptor r i).2.1, v) := by
  simp only [State.descriptor_eq_slotDesc, State.slotDesc_writeAddress_same]

end

/-- The state in which PRODUCE has made its two writes before the barrier (P1, P2). -/
def State.filled (s : State) (r : Ring) (i : Nat) (len : Word) (a : DAddr) : State :=
  (s.descWrite64 (bufferAddr s.cfg r i) a).descWrite32 (lengthAddr s.cfg r i) len

@[simp] theorem State.filled_cfg (s : State) (r : Ring) (i : Nat) (len : Word) (a : DAddr) :
    (s.filled r i len a).cfg = s.cfg := by simp [State.filled]

theorem State.descriptor_filled (s : State) (r : Ring) (i : Nat) (len : Word) (a : DAddr) :
    (s.filled r i len a).descriptor r i = ((s.descriptor r i).1, len, a) := by
  have h := (s.descWrite64 (bufferAddr s.cfg r i) a).descriptor_writeLength r i len
  rwa [State.descriptor_writeAddress] at h

/-- PRODUCE's writes change descriptor memory only. -/
theorem State.filled_writeStatus_frame (s : State) (r : Ring) (i : Nat) (st len : Word) (a : DAddr) :
    (s.filled r i len a).descWrite32 (statusAddr s.cfg r i) st
      = { s with desc := ((s.filled r i len a).descWrite32 (statusAddr s.cfg r i) st).desc } := by
  simp only [State.filled, State.descWrite32, State.descWrite64]

/-- P5 moves the head by one slot (R128). -/
theorem State.produceCommit_eq {s : State} {c : Config} (hc : s.cfg = c) (r : Ring) (i : Nat) :
    s.produceCommit r i = s.setHead r ((i + 1) % ringSize c r) := by
  rw [State.produceCommit, hc, nextIndex]

/-- PRODUCE's writes stay inside its descriptor. -/
theorem descByte_produce_outside {s : State} {r : Ring} {i x : Nat} (st len : Word) (a : DAddr)
    (hx : ¬ inDescriptor s.cfg r i x) :
    ((s.filled r i len a).descWrite32 (statusAddr s.cfg r i) st).descByte x = s.descByte x := by
  simp only [inDescriptor] at hx
  simp only [State.filled, lengthAddr, bufferAddr, statusAddr, Config.descSize]
  rw [State.descByte_descWrite32_outside _ _ (by omega), State.descByte_descWrite32_outside _ _ (by omega),
    State.descByte_descWrite64_outside _ _ (by omega)]

/-- K1 ends PEEK where there is no slot to look at or the device owns it (R129). -/
theorem peekStep_k1_none {s : State} {r : Ring}
    (h : (s.ring r).head = (s.ring r).tail ∨ (s.descriptor r (s.ring r).tail).1.getLsbD 31 = true) :
    peekStep r .k1 s = (s, .ret none) := by
  simp only [peekStep]
  split
  · rfl
  · rename_i hne
    exact if_pos (h.resolve_left fun he => hne (beq_iff_eq.mpr he))

theorem peekStep_k1_some {s : State} {r : Ring} (hne : (s.ring r).head ≠ (s.ring r).tail)
    (hown : (s.descriptor r (s.ring r).tail).1.getLsbD 31 = false) :
    peekStep r .k1 s = (s, .goto (.k2 (s.ring r).tail (s.descriptor r (s.ring r).tail).1)) := by
  have hempty : s.empty r = false := beq_eq_false_iff_ne.mpr hne
  have hdev : ownBit (s.descRead32 (statusAddr s.cfg r (s.ring r).tail)) = false := hown
  simp only [peekStep, hempty, hdev, Bool.false_eq_true, if_false]
  rfl

/-- Settles O30: PRODUCE is three writes of one descriptor with the barrier before the last, PEEK two reads. -/
theorem produceAndPeekOrder : Obligations.ProduceAndPeekOrder := by
  refine ⟨fun s r st len a => ?_, fun s r => ⟨fun he => peekStep_k1_none (.inl he),
    fun _ hown => peekStep_k1_none (.inr hown), fun hne hown => ⟨peekStep_k1_some hne hown, fun _ => rfl⟩⟩⟩
  intro i
  have hlast := (s.filled r i len a).descriptor_writeStatus r i st
  rw [State.descriptor_filled] at hlast
  have hcfg : ((s.filled r i len a).descWrite32 (statusAddr s.cfg r i) st).cfg = s.cfg := by simp
  exact ⟨s.descWrite64 (bufferAddr s.cfg r i) a, s.filled r i len a, s.filled r i len a,
    (s.filled r i len a).descWrite32 (statusAddr s.cfg r i) st, rfl, rfl, rfl, rfl, s.descriptor_writeAddress r i a,
    s.descriptor_filled r i len a, rfl, hlast, fun _ => descByte_produce_outside st len a,
    s.filled_writeStatus_frame r i st len a, State.produceCommit_eq hcfg r i⟩

end Sys2Proof.Machine
end

section
/-! PROOF. The hold at `lock(TX)` (20_memory R76). -/

namespace Sys2Proof.Machine

/-- The operations whose next micro-step is `lock(TX)`: X1, Y1 (also of the RECLAIM inside IRQ) and T2. -/
inductive WaitsForLock : Task → Prop where
  | submit (h : Nat) : WaitsForLock (.submit h .x1)
  | reclaim : WaitsForLock (.reclaim .y1)
  | irq (v : Word) : WaitsForLock (.irq (.i4r v .y1))
  | teardown : WaitsForLock (.teardown .t2)

/-- While the lock is held `lock(TX)` is not enabled. -/
theorem WaitsForLock.taskStep_eq_hold {c d : Ctx} {t : Task} {s : State} (ht : WaitsForLock t) (hd : s.txLock = some d) :
    taskStep c t s = (s, .hold) := by
  have hheld : s.txLock.isNone = false := by rw [hd]; rfl
  cases ht with
  | submit h => simp only [taskStep, submitTask, hheld, Bool.false_eq_true, if_false]
  | reclaim => simp only [taskStep, reclaimTask, reclaimStep, hheld, Bool.false_eq_true, if_false]
  | irq v => simp only [taskStep, irqTask, reclaimStep, hheld, Bool.false_eq_true, if_false]
  | teardown => simp only [taskStep, teardownTask, hheld, Bool.false_eq_true, if_false]

theorem taskRun_hold {c : Ctx} {t : Task} {s u : State} (n : Nat) (h : taskStep c t s = (u, .hold)) :
    taskRun c n t s = (s, .goto t) := by
  cases n with
  | zero => rfl
  | succ n => simp only [taskRun, h]

/-- A command whose operation comes to `lock(TX)` within its slice waits there, whatever is left of the slice. -/
theorem exec_waits {i : Instr} {s : State} {d : Ctx} {t t' : Task} {k : Nat} (h : s.Ready i) (hd : s.txLock = some d)
    (ha : acceptance i s = .start t s) (hrun : ∀ n, taskRun s.cur (n + k) t s = taskRun s.cur n t' s)
    (ht : WaitsForLock t') (hk : k ≤ s.slice) : exec i s = .next (s.setCont s.cur (.running t')) := by
  rw [exec_eq_issue, ha, issue_start h rfl, ← Nat.sub_add_cancel hk, hrun, taskRun_hold _ (ht.taskStep_eq_hold hd)]
  rfl

/-- Settles O39: `lock(TX)` is not enabled while the lock is held, and a slice of a context that holds changes nothing. -/
theorem lockHolds : Obligations.LockHolds := by
  intro s d hd
  refine ⟨fun h hr => exec_waits (k := 0) hr hd rfl (fun _ => rfl) (.submit h) (Nat.zero_le _),
    fun hr => exec_waits (k := 0) hr hd rfl (fun _ => rfl) .reclaim (Nat.zero_le _), fun hr hup hk => ?_, fun c n hc => ?_⟩
  · have ht1 : taskStep s.cur (.teardown .t1) s = (s, .goto (.teardown .t2)) := by
      simp [taskStep, teardownTask, hup]
    exact exec_waits hr hd rfl (fun _ => taskRun_goto ht1) .teardown hk
  · obtain ⟨t, ht, hwait⟩ : ∃ t, s.task? c = some t ∧ WaitsForLock t := by
      obtain ⟨h, hc⟩ | hc | ⟨v, hc⟩ | hc := hc
      · exact ⟨_, hc, .submit h⟩
      · exact ⟨_, hc, .reclaim⟩
      · exact ⟨_, hc, .irq v⟩
      · exact ⟨_, hc, .teardown⟩
    obtain ⟨q, hl⟩ := State.lane_of_task? ht
    exact runFor_hold n (microStep_hold hl (hwait.taskStep_eq_hold hd))

end Sys2Proof.Machine
end

section
/-! PROOF. The device's one-byte accesses: a mapping in their direction or `F_DMA_UNMAPPED` (20_memory R67, R68). -/

namespace Sys2Proof.Machine

/-- The window that holds an address is a mapped buffer's. -/
theorem State.window?_eq_some {s : State} {da h : Nat} (hw : s.window? da 1 = some h) :
    h < s.cfg.poolSize ∧ (s.buffer h).map.isSome = true ∧ (xlateOf s.cfg h).toNat ≤ da
      ∧ da < (xlateOf s.cfg h).toNat + s.cfg.bufSize := by
  have hlt := List.mem_of_find?_eq_some hw
  have hin := List.find?_some hw
  simp only [Bool.and_eq_true, decide_eq_true_eq] at hin
  obtain ⟨⟨hmap, hle⟩, hend⟩ := hin
  exact ⟨List.mem_range.mp hlt, hmap, hle, hend⟩

section
variable {s : State} (hv : ValidConfig s.cfg) {h k : Nat} (hlt : h < s.cfg.poolSize) (hk : k < s.cfg.bufSize)
include hv hlt hk

theorem State.devMemWrite_inbound (hmap : (s.buffer h).map = some .inbound) (v : Byte) :
    s.devMemWrite ((xlateOf s.cfg h).toNat + k) v = s.bufWrite h k [v] := by
  simp only [State.devMemWrite, State.window?_eq hv hlt (Option.isSome_of_eq_some hmap) hk, hmap, if_true,
    Nat.add_sub_cancel_left]

theorem State.devMemRead_outbound (hmap : (s.buffer h).map = some .outbound) :
    s.devMemRead ((xlateOf s.cfg h).toNat + k) = some (s.bufByte h k) := by
  simp only [State.devMemRead, State.window?_eq hv hlt (Option.isSome_of_eq_some hmap) hk, hmap, if_true,
    Nat.add_sub_cancel_left]

end

/-- No buffer mapped in direction `d` has the address in its window. -/
def State.unreached (s : State) (d : Dir) (da : Nat) : Prop :=
  ∀ h, h < s.cfg.poolSize → (xlateOf s.cfg h).toNat ≤ da → da < (xlateOf s.cfg h).toNat + s.cfg.bufSize →
    (s.buffer h).map ≠ some d

section
variable {s : State} {da : Nat}

theorem State.devMemWrite_unreached (h : s.unreached .inbound da) (v : Byte) :
    s.devMemWrite da v = s.raise .dmaUnmapped := by
  cases hw : s.window? da 1 with
  | none => simp only [State.devMemWrite, hw]
  | some j =>
    obtain ⟨hlt, -, hle, hend⟩ := State.window?_eq_some hw
    simp only [State.devMemWrite, hw, h j hlt hle hend, if_false]

theorem State.devMemRead_unreached (h : s.unreached .outbound da) : s.devMemRead da = none := by
  cases hw : s.window? da 1 with
  | none => simp only [State.devMemRead, hw]
  | some j =>
    obtain ⟨hlt, -, hle, hend⟩ := State.window?_eq_some hw
    simp only [State.devMemRead, hw, h j hlt hle hend, if_false]

end

/-- Settles O56: the windows are disjoint, so an address has at most one buffer, and its mapping decides. -/
theorem deviceAccessCheck : Obligations.DeviceAccessCheck := by
  intro s da v hwf
  refine ⟨fun h hlt hle hend => ?_, fun hno => State.devMemWrite_unreached hno v,
    fun hno => ⟨State.devMemRead_unreached hno, fun i err st len a b hda hb => ?_⟩⟩
  · obtain ⟨k, rfl⟩ := Nat.exists_eq_add_of_le hle
    have hk : k < s.cfg.bufSize := by omega
    rw [Nat.add_sub_cancel_left]
    exact ⟨fun hmap => State.devMemWrite_inbound (Config.valid hwf) hlt hk hmap v,
      State.devMemRead_outbound (Config.valid hwf) hlt hk⟩
  · refine ⟨Config.freeReadByte s.tick, ?_⟩
    simp only [devTxStep, hda, State.devMemRead_unreached hno, if_pos hb]

end Sys2Proof.Machine
end

section
/-! PROOF. An RX completion of the device, access by access: the bytes, then the length, then the status
(20_memory R71, 46_device_and_environment R196). -/

namespace Sys2Proof.Machine

/-! ## The frame's bytes in the buffer -/

theorem Memory.write_append (xs ys : List Byte) (m : Memory) (a : Nat) :
    Memory.write m a (xs ++ ys) = Memory.write (Memory.write m a xs) (a + xs.length) ys := by
  induction xs generalizing m a with
  | nil => rfl
  | cons x xs ih => rw [List.cons_append, Memory.write, ih, Memory.write, List.length_cons, Nat.add_right_comm,
      Nat.add_assoc]

/-- A buffer's bytes written one after the other are one write. -/
theorem State.bufWrite_bufWrite (s : State) (h : Nat) (xs ys : List Byte) :
    (s.bufWrite h 0 xs).bufWrite h xs.length ys = s.bufWrite h 0 (xs ++ ys) := by
  simp only [State.bufWrite, Memory.write_append, bufKey, Nat.add_zero]

/-- The first `k` bytes of the frame (R196 "Draws"). -/
def frameBytes (bytes : List Byte) (seed k : Nat) : List Byte := (List.range k).map (frameByte bytes seed)

theorem frameBytes_succ (bytes : List Byte) (seed k : Nat) :
    frameBytes bytes seed (k + 1) = frameBytes bytes seed k ++ [frameByte bytes seed k] := by
  simp [frameBytes, List.range_succ]

theorem length_frameBytes (bytes : List Byte) (seed k : Nat) : (frameBytes bytes seed k).length = k := by
  simp [frameBytes]

/-- The state in which the first `k` bytes of the frame are in buffer `h` (V2). -/
def State.received (s : State) (h : Nat) (bytes : List Byte) (seed k : Nat) : State :=
  s.bufWrite h 0 (frameBytes bytes seed k)

theorem State.received_zero (s : State) (h : Nat) (bytes : List Byte) (seed : Nat) : s.received h bytes seed 0 = s := rfl

theorem State.received_succ (s : State) (h : Nat) (bytes : List Byte) (seed k : Nat) :
    (s.received h bytes seed k).bufWrite h k [frameByte bytes seed k] = s.received h bytes seed (k + 1) := by
  have hw := s.bufWrite_bufWrite h (frameBytes bytes seed k) [frameByte bytes seed k]
  rwa [length_frameBytes, ← frameBytes_succ] at hw

/-! ## The turns of one completion -/

/-- `o` stands in the place of the `j`-th completion in progress. -/
def State.withOp (s : State) (j : Nat) (o : DevOp) : State := { s with dev := s.dev.set j o }

@[simp] theorem State.withOp_withOp (s : State) (j : Nat) (o o' : DevOp) : (s.withOp j o).withOp j o' = s.withOp j o' := by
  simp [State.withOp]

theorem State.withOp_self {s : State} {j : Nat} {o : DevOp} (h : s.dev[j]? = some o) : s.withOp j o = s := by
  obtain ⟨hj, rfl⟩ := List.getElem?_eq_some_iff.mp h
  simp only [State.withOp, List.set_getElem_self]

theorem State.devStep_goesOn {s u : State} {j : Nat} {o o' : DevOp} (hup : s.life = .up) (ho : s.dev[j]? = some o)
    (hstep : devOpStep o s = (u, some o')) : s.devStep j = u.withOp j o' := by
  simp only [State.devStep, hup, ho, hstep, if_true, State.withOp]

theorem State.devStep_done {s u : State} {j : Nat} {o : DevOp} (hup : s.life = .up) (ho : s.dev[j]? = some o)
    (hstep : devOpStep o s = (u, none)) : s.devStep j = { u with dev := u.dev.eraseIdx j } := by
  simp only [State.devStep, hup, ho, hstep, if_true]

section
variable {s u : State} {j : Nat} {o o' : DevOp} (hup : s.life = .up) (hj : j < s.dev.length) (hu : u.dev = s.dev)
include hup hj hu

/-- A turn that leaves something of the completion to do. -/
theorem devRun_goesOn {m : Nat} (hstep : devOpStep o (s.withOp j o) = (u.withOp j o, some o')) :
    devRun j (m + 1) (s.withOp j o) = devRun j m (u.withOp j o') := by
  have hturn : (s.withOp j o).devStep j = u.withOp j o' := by
    rw [State.devStep_goesOn (s := s.withOp j o) hup (by simp [State.withOp, hj]) hstep, State.withOp_withOp]
  rw [devRun, hturn, if_neg (by simp [State.withOp, hu])]

/-- The completion's last turn. -/
theorem devRun_done {m : Nat} (hstep : devOpStep o (s.withOp j o) = (u.withOp j o, none)) :
    devRun j (m + 1) (s.withOp j o) = { u with dev := s.dev.eraseIdx j } := by
  have hturn : (s.withOp j o).devStep j = { u with dev := s.dev.eraseIdx j } := by
    rw [State.devStep_done (s := s.withOp j o) hup (by simp [State.withOp, hj]) hstep]
    simp only [State.withOp, hu, List.eraseIdx_set_eq]
  have hshort : (s.dev.eraseIdx j).length < (s.withOp j o).dev.length := by
    simp only [State.withOp, List.length_set, List.length_eraseIdx_of_lt hj]
    omega
  rw [devRun, hturn, if_pos hshort]

end

theorem devOpStep_rx {i seed : Nat} {len : Word} {err : Bool} {bytes : List Byte} {p : RxPc} {s u : State}
    {x : Option RxPc} (h : devRxStep i len err bytes seed p s = (u, x)) :
    devOpStep (.rx i len err bytes seed p) s = (u, x.map (.rx i len err bytes seed)) := by
  rw [devOpStep, h]

/-! ## The accesses of an RX completion -/

theorem rxDoneStatus_eq (st : Word) (err : Bool) :
    rxDoneStatus st err = (st &&& ~~~0x80000000) ||| 0x60000000 ||| if err then 0x08000000 else 0 := by
  rw [rxDoneStatus, BitVec.or_assoc (st &&& ~~~stOwn) stSop stEop]
  rfl

/-- The `j`-th completion in progress is an RX completion just begun (R196): it will put `n` bytes into the mapped
buffer `h` its descriptor refers to. -/
structure BegunRx (s : State) (j i h seed n : Nat) (len st : Word) (err : Bool) (bytes : List Byte) : Prop where
  valid : ValidConfig s.cfg
  up : s.life = .up
  op : s.dev[j]? = some (.rx i len err bytes seed (.v1len st))
  handle : h < s.cfg.poolSize
  mapped : (s.buffer h).map = some .inbound
  address : (s.descriptor .rx i).2.2 = xlateOf s.cfg h
  capacity : (s.descriptor .rx i).2.1.toNat ≤ s.cfg.bufSize
  count : n = min len.toNat (s.descriptor .rx i).2.1.toNat

section
variable {s : State} {j i h seed n : Nat} {len st : Word} {err : Bool} {bytes : List Byte}
  (hb : BegunRx s j i h seed n len st err bytes)
include hb

theorem BegunRx.lt : j < s.dev.length := (List.getElem?_eq_some_iff.mp hb.op).1

/-- The bytes of the frame fit the buffer, so each is written to it (R68). -/
theorem BegunRx.devMemWrite {k : Nat} (hk : k < n) (o : DevOp) (v : Byte) :
    ((s.received h bytes seed k).withOp j o).devMemWrite ((xlateOf s.cfg h).toNat + k) v
      = ((s.received h bytes seed k).withOp j o).bufWrite h k [v] := by
  have hin : k < s.cfg.bufSize := by
    have hcap := hb.capacity
    have hn := hb.count
    omega
  exact State.devMemWrite_inbound (s := (s.received h bytes seed k).withOp j o) hb.valid hb.handle hin hb.mapped v

/-- After V1's read of `length`. -/
theorem BegunRx.devRun_lengthRead (m : Nat) :
    devRun j (m + 1) s = devRun j m (s.withOp j (.rx i len err bytes seed (.v1addr st (s.descriptor .rx i).2.1))) := by
  have hturn := devRun_goesOn (o := .rx i len err bytes seed (.v1len st)) (m := m) hb.up hb.lt (by rfl) (by rfl)
  rwa [State.withOp_self hb.op] at hturn

/-- After V1's read of `buffer_address`. -/
theorem BegunRx.devRun_addressRead (m : Nat) :
    devRun j (m + 2) s
      = devRun j m (s.withOp j (.rx i len err bytes seed (.v2 st (s.descriptor .rx i).2.1 (xlateOf s.cfg h) 0))) := by
  rw [hb.devRun_lengthRead (m + 1), ← hb.address]
  exact devRun_goesOn hb.up hb.lt (by rfl) (by rfl)

/-- After `k` of the frame's bytes (V2). -/
theorem BegunRx.devRun_bytes {k : Nat} (hk : k ≤ n) (m : Nat) :
    devRun j (k + 2 + m) s = devRun j m ((s.received h bytes seed k).withOp j
      (.rx i len err bytes seed (.v2 st (s.descriptor .rx i).2.1 (xlateOf s.cfg h) k))) := by
  induction k generalizing m with
  | zero =>
    rw [Nat.zero_add, Nat.add_comm, State.received_zero]
    exact hb.devRun_addressRead m
  | succ k ih =>
    have hlt : k < n := Nat.lt_of_succ_le hk
    rw [show k + 1 + 2 + m = k + 2 + (m + 1) by omega, ih hlt.le, ← State.received_succ]
    refine devRun_goesOn (s := s.received h bytes seed k) hb.up hb.lt (by rfl) (devOpStep_rx (x := some _) ?_)
    rw [devRxStep, ← hb.count, if_pos hlt, hb.devMemWrite hlt]
    rfl

/-- After the end of V2 (log entry 20). -/
theorem BegunRx.devRun_received (m : Nat) :
    devRun j (n + 3 + m) s
      = devRun j m ((s.received h bytes seed n).withOp j (.rx i len err bytes seed (.v3 st))) := by
  rw [show n + 3 + m = n + 2 + (m + 1) by omega, hb.devRun_bytes (Nat.le_refl n)]
  refine devRun_goesOn (s := s.received h bytes seed n) hb.up hb.lt (by rfl) (devOpStep_rx (x := some _) ?_)
  rw [devRxStep, ← hb.count, if_neg (Nat.lt_irrefl n)]

/-- After V3's write of `length`. -/
theorem BegunRx.devRun_lengthWritten (m : Nat) :
    devRun j (n + 4 + m) s
      = devRun j m (((s.received h bytes seed n).descWrite32 (lengthAddr s.cfg .rx i) len).withOp j
        (.rx i len err bytes seed (.v4 st))) := by
  rw [show n + 4 + m = n + 3 + (m + 1) by omega, hb.devRun_received]
  exact devRun_goesOn (s := s.received h bytes seed n) hb.up hb.lt (by rfl) (by rfl)

/-- After V4's write of `status` the completion is done. -/
theorem BegunRx.devRun_handedBack {k : Nat} (hk : n + 5 ≤ k) :
    devRun j k s
      = { ((s.received h bytes seed n).descWrite32 (lengthAddr s.cfg .rx i) len).descWrite32
          (statusAddr s.cfg .rx i) (rxDoneStatus st err) with dev := s.dev.eraseIdx j } := by
  obtain ⟨m, rfl⟩ := Nat.exists_eq_add_of_le hk
  rw [show n + 5 + m = n + 4 + (m + 1) by omega, hb.devRun_lengthWritten]
  exact devRun_done (s := (s.received h bytes seed n).descWrite32 (lengthAddr s.cfg .rx i) len) hb.up hb.lt (by rfl) (by rfl)

/-- Until V3 the descriptor stays as it was. -/
theorem BegunRx.desc_until_received {k : Nat} (hk : k ≤ n + 3) : (devRun j k s).desc = s.desc := by
  rcases k with _ | _ | k
  · rfl
  · rw [hb.devRun_lengthRead 0]
    rfl
  · rcases Nat.lt_or_ge n k with hlt | hle
    · obtain rfl : k = n + 1 := by omega
      rw [hb.devRun_received 0]
      rfl
    · rw [hb.devRun_bytes hle 0]
      rfl

/-- V3 writes the length only. -/
theorem BegunRx.desc_lengthWritten :
    (devRun j (n + 4) s).desc = (s.descWrite32 (lengthAddr s.cfg .rx i) len).desc := by
  rw [hb.devRun_lengthWritten 0]
  rfl

/-- From the frame's last byte to V3 the whole frame is in the buffer. -/
theorem BegunRx.buf_received {k : Nat} (hk : n + 2 ≤ k) (hk' : k ≤ n + 4) :
    (devRun j k s).buf = (s.received h bytes seed n).buf := by
  obtain rfl | rfl | rfl : k = n + 2 ∨ k = n + 3 ∨ k = n + 4 := by omega
  · rw [hb.devRun_bytes (Nat.le_refl n) 0]
    rfl
  · rw [hb.devRun_received 0]
    rfl
  · rw [hb.devRun_lengthWritten 0]
    rfl

end

/-- Settles O51: the state after each number of accesses is one write further; the last write hands the slot back. -/
theorem deviceCompletesRx : Obligations.DeviceCompletesRx := by
  intro s rest j more i h seed len st err bytes hwf hup hs hop _ hh hmap haddr hcap hmore n after
  have hb : BegunRx { s with script := rest } j i h seed n len st err bytes :=
    ⟨Config.valid hwf, hup, hop, hh, hmap, haddr, hcap, rfl⟩
  refine ⟨fun _ => hb.desc_until_received, fun _ => hb.buf_received, hb.desc_lengthWritten, ?_⟩
  have hdone := hb.devRun_handedBack hmore
  rw [rxDoneStatus_eq] at hdone
  exact (step_of_done hwf (turn_of_script hs)).trans (congrArg Host.Outcome.next hdone)

end Sys2Proof.Machine
end

section
/-! PROOF. The command word read both ways, the rows of the opcode table, and the response word (30_encoding R90 to
R96). -/

namespace Sys2Proof.Machine

/-! ## The fields of a word -/

/-- The four fields of `w` are those of the word of `i` (R90, R93). -/
structure Reads (w : Word) (i : Instr) : Prop where
  op : Decode.op w = i.opcode
  sel : Decode.sel w = i.selField
  rsv : Decode.rsv w = 0
  arg : Decode.arg w = i.argField

/-- A word is made of its four fields. -/
theorem toNat_eq_fields (w : Word) :
    w.toNat = Decode.op w * 2 ^ 24 + Decode.sel w * 2 ^ 23 + Decode.rsv w * 2 ^ 16 + Decode.arg w := by
  have hw := w.isLt
  simp only [Decode.op, Decode.sel, Decode.rsv, Decode.arg, slice]
  omega

theorem word_ext {v w : Word} (hop : Decode.op v = Decode.op w) (hsel : Decode.sel v = Decode.sel w)
    (hrsv : Decode.rsv v = Decode.rsv w) (harg : Decode.arg v = Decode.arg w) : v = w :=
  BitVec.eq_of_toNat_eq (by rw [toNat_eq_fields v, toNat_eq_fields w, hop, hsel, hrsv, harg])

theorem slice_lt (w : Word) (hi lo : Nat) : slice w hi lo < 2 ^ (hi - lo + 1) := Nat.mod_lt _ (by positivity)

theorem slice_and (v w : Word) (hi lo : Nat) : slice (v &&& w) hi lo = slice v hi lo &&& slice w hi lo := by
  simp only [slice, BitVec.toNat_and, Nat.and_div_two_pow, Nat.and_mod_two_pow]

theorem sel_ring (w : Word) : (Decode.ring w).sel = Decode.sel w := by
  have hlt : Decode.sel w < 2 := slice_lt w 23 23
  unfold Decode.ring
  split
  · exact Eq.symm ‹_›
  · simp only [Ring.sel]
    omega

/-- The fields hold every operand a command reads there. -/
theorem Reads.wf {w : Word} {i : Instr} (h : Reads w i) : i.wf = true := by
  have hlt : i.argField < 2 ^ 16 := h.arg ▸ slice_lt w 15 0
  cases i <;> simp_all [Instr.wf, Instr.argField]

theorem Reads.encode_eq {w : Word} {i : Instr} (h : Reads w i) : encode i = w := by
  obtain ⟨hop, hsel, hrsv, harg⟩ := Laws.Fields.fields_of i h.wf
  exact word_ext (hop.trans h.op.symm) (hsel.trans h.sel.symm) (hrsv.trans h.rsv.symm) (harg.trans h.arg.symm)

theorem Reads.decode_eq {w : Word} {i : Instr} (h : Reads w i) : decode w = .ok i := by
  rw [← h.encode_eq, decode_encode h.wf]

/-! ## What the decoder accepts (R93, R95, R96) -/

section
variable {w : Word} {j : Instr}

/-- A command without an operand is read with 0 in `sel` and `arg`. -/
theorem reads_plain {i : Instr} (h : Decode.plain w i = .ok j) (hrsv : Decode.rsv w = 0)
    (hop : Decode.op w = i.opcode) (hs : i.selField = 0) (ha : i.argField = 0) : Reads w j := by
  unfold Decode.plain at h
  split at h
  · cases h
  have hsel : Decode.sel w = 0 := not_not.mp ‹_›
  split at h <;> cases h
  have harg : Decode.arg w = 0 := not_not.mp ‹_›
  exact ⟨hop, hsel.trans hs.symm, hrsv, harg.trans ha.symm⟩

/-- A command with an operand is read with the operand in `arg` and 0 in `sel`. -/
theorem reads_operand {f : Nat → Instr} (h : Decode.operand w f = .ok j) (hrsv : Decode.rsv w = 0)
    (hop : ∀ n, Decode.op w = (f n).opcode) (hs : ∀ n, (f n).selField = 0) (ha : ∀ n, (f n).argField = n) :
    Reads w j := by
  unfold Decode.operand at h
  split at h <;> cases h
  have hsel : Decode.sel w = 0 := not_not.mp ‹_›
  exact ⟨hop _, hsel.trans (hs _).symm, hrsv, (ha _).symm⟩

/-- A ring query is read with its ring in `sel` and 0 in `arg`. -/
theorem reads_select {f : Ring → Instr} (h : Decode.select w f = .ok j) (hrsv : Decode.rsv w = 0)
    (hop : ∀ r, Decode.op w = (f r).opcode) (hs : ∀ r, (f r).selField = r.sel) (ha : ∀ r, (f r).argField = 0) :
    Reads w j := by
  unfold Decode.select at h
  split at h <;> cases h
  have harg : Decode.arg w = 0 := not_not.mp ‹_›
  exact ⟨hop _, (sel_ring w).symm.trans (hs _).symm, hrsv, harg.trans (ha _).symm⟩

end

theorem reads_of_decode {w : Word} {i : Instr} (h : decode w = .ok i) : Reads w i := by
  unfold decode at h
  split at h
  · cases h
  have hrsv : Decode.rsv w = 0 := not_not.mp ‹_›
  unfold Decode.byOpcode at h
  split at h
  case h_13 => cases h
  case h_1 hop | h_2 hop | h_7 hop | h_10 hop | h_11 hop => exact reads_plain h hrsv hop rfl rfl
  case h_5 hop | h_6 hop => exact reads_select h hrsv (fun _ => hop) (fun _ => rfl) (fun _ => rfl)
  all_goals
    rename_i hop
    exact reads_operand h hrsv (fun _ => hop) (fun _ => rfl) (fun _ => rfl)

/-- A word decodes to exactly the command whose fields it has. -/
theorem decode_eq_ok_iff {w : Word} {i : Instr} : decode w = .ok i ↔ Reads w i :=
  ⟨reads_of_decode, Reads.decode_eq⟩

/-- Settles O2: the word has the command's fields, and the decoder reads them. -/
theorem decodeOfEncode : Obligations.DecodeOfEncode := fun _ => decode_encode

/-- Settles O3: a decoded word has the command's fields, and they make up the whole word. -/
theorem encodeOfDecode : Obligations.EncodeOfDecode :=
  fun _ _ h => ⟨(reads_of_decode h).wf, (reads_of_decode h).encode_eq⟩

/-- Settles O1: the decoder runs on each of the words. -/
theorem specWordsDecode : Obligations.SpecWordsDecode := by
  unfold Obligations.SpecWordsDecode
  decide

/-! ## The rows of the opcode table (R93) -/

/-- What the rows' masks have in common: `op` and `rsv` are compared whole, `sel` and `arg` whole or not at all, and
only `op` is compared with something other than 0. -/
theorem mask_fields {row : OpRow} (h : row ∈ opRows) :
    Decode.op row.mask = 2 ^ 8 - 1 ∧ Decode.rsv row.mask = 2 ^ 7 - 1
      ∧ (Decode.sel row.mask = 0 ∨ Decode.sel row.mask = 2 ^ 1 - 1)
      ∧ (Decode.arg row.mask = 0 ∨ Decode.arg row.mask = 2 ^ 16 - 1)
      ∧ Decode.sel row.matchBits = 0 ∧ Decode.rsv row.matchBits = 0 ∧ Decode.arg row.matchBits = 0 := by
  revert row
  decide

/-- A row compares a field whole or not at all. -/
theorem and_mask_eq_zero_iff {n x m : Nat} (hx : x < 2 ^ n) (hm : m = 0 ∨ m = 2 ^ n - 1) :
    x &&& m = 0 ↔ (m ≠ 0 → x = 0) := by
  obtain rfl | rfl := hm
  · simp
  · rw [Nat.and_two_pow_sub_one_of_lt_two_pow hx]
    refine ⟨fun h _ => h, fun h => ?_⟩
    by_contra hne
    exact hne (h (by omega))

/-- A word selects a row when it has the row's `op`, and 0 in every other field the row compares. -/
theorem selects_iff {row : OpRow} (h : row ∈ opRows) (w : Word) :
    row.selects w = true ↔ Decode.op w = Decode.op row.matchBits ∧ Decode.rsv w = 0
      ∧ (Decode.sel row.mask ≠ 0 → Decode.sel w = 0) ∧ (Decode.arg row.mask ≠ 0 → Decode.arg w = 0) := by
  obtain ⟨hmop, hmrsv, hmsel, hmarg, hsel, hrsv, harg⟩ := mask_fields h
  have hop' : Decode.op (w &&& row.mask) = Decode.op w := by
    rw [Decode.op, slice_and, ← Decode.op, ← Decode.op, hmop]
    exact Nat.and_two_pow_sub_one_of_lt_two_pow (slice_lt w 31 24)
  have hrsv' : Decode.rsv (w &&& row.mask) = Decode.rsv w := by
    rw [Decode.rsv, slice_and, ← Decode.rsv, ← Decode.rsv, hmrsv]
    exact Nat.and_two_pow_sub_one_of_lt_two_pow (slice_lt w 22 16)
  have hsel' : Decode.sel (w &&& row.mask) = 0 ↔ (Decode.sel row.mask ≠ 0 → Decode.sel w = 0) := by
    rw [Decode.sel, slice_and]
    exact and_mask_eq_zero_iff (slice_lt w 23 23) hmsel
  have harg' : Decode.arg (w &&& row.mask) = 0 ↔ (Decode.arg row.mask ≠ 0 → Decode.arg w = 0) := by
    rw [Decode.arg, slice_and]
    exact and_mask_eq_zero_iff (slice_lt w 15 0) hmarg
  rw [OpRow.selects, beq_iff_eq, ← hsel', ← harg', ← hop', ← hrsv']
  constructor
  · intro heq
    rw [heq]
    exact ⟨rfl, hrsv, hsel, harg⟩
  · rintro ⟨hop0, hrsv0, hsel0, harg0⟩
    exact word_ext hop0 (hsel0.trans hsel.symm) (hrsv0.trans hrsv.symm) (harg0.trans harg.symm)

/-- Every command has a row: its mnemonic, its `op`, and no comparison of a field the command uses. -/
theorem exists_row (i : Instr) :
    ∃ row ∈ opRows, row.mnemonic = i.mnemonic ∧ Decode.op row.matchBits = i.opcode
      ∧ (Decode.sel row.mask ≠ 0 → i.selField = 0) ∧ (Decode.arg row.mask ≠ 0 → i.argField = 0) := by
  cases i <;> simp [opRows, Instr.mnemonic, Instr.opcode, Instr.selField, Instr.argField, Decode.op, Decode.sel,
    Decode.arg, slice]

/-- Every row is that of the commands with its `op`. -/
theorem exists_reads_of_selects {row : OpRow} {w : Word} (h : row ∈ opRows) (hs : row.selects w = true) :
    ∃ i, Reads w i := by
  obtain ⟨hop, hrsv, hsel, harg⟩ := (selects_iff h w).mp hs
  simp only [opRows, List.mem_cons, List.not_mem_nil, or_false] at h
  obtain rfl | rfl | rfl | rfl | rfl | rfl | rfl | rfl | rfl | rfl | rfl | rfl := h
  · exact ⟨.bringup, hop, hsel (by decide), hrsv, harg (by decide)⟩
  · exact ⟨.teardown, hop, hsel (by decide), hrsv, harg (by decide)⟩
  · exact ⟨.acquire (Decode.arg w), hop, hsel (by decide), hrsv, rfl⟩
  · exact ⟨.release (Decode.arg w), hop, hsel (by decide), hrsv, rfl⟩
  · exact ⟨.isFull (Decode.ring w), hop, (sel_ring w).symm, hrsv, harg (by decide)⟩
  · exact ⟨.isEmpty (Decode.ring w), hop, (sel_ring w).symm, hrsv, harg (by decide)⟩
  · exact ⟨.refill, hop, hsel (by decide), hrsv, harg (by decide)⟩
  · exact ⟨.drain (Decode.arg w), hop, hsel (by decide), hrsv, rfl⟩
  · exact ⟨.submit (Decode.arg w), hop, hsel (by decide), hrsv, rfl⟩
  · exact ⟨.reclaim, hop, hsel (by decide), hrsv, harg (by decide)⟩
  · exact ⟨.irq, hop, hsel (by decide), hrsv, harg (by decide)⟩
  · exact ⟨.poll (Decode.arg w), hop, hsel (by decide), hrsv, rfl⟩

/-- A decoded word selects its command's own row. -/
theorem Reads.exists_row_selects {w : Word} {i : Instr} (h : Reads w i) :
    ∃ row ∈ opRows, row.mnemonic = i.mnemonic ∧ row.selects w = true := by
  obtain ⟨row, hrow, hname, hop, hsel, harg⟩ := exists_row i
  exact ⟨row, hrow, hname, (selects_iff hrow w).mpr ⟨h.op.trans hop.symm, h.rsv, fun hm => h.sel.trans (hsel hm),
    fun hm => h.arg.trans (harg hm)⟩⟩

/-- No two rows have one `op`. -/
theorem row_eq_of_op_eq : ∀ row ∈ opRows, ∀ row' ∈ opRows,
    Decode.op row.matchBits = Decode.op row'.matchBits → row = row' := by decide

/-- Settles O4: a row and the decoder both say which fields the word has, and `op` alone tells the rows apart. -/
theorem rowsAgreeWithDecoder : Obligations.RowsAgreeWithDecoder := by
  simp only [Obligations.RowsAgreeWithDecoder, decode_eq_ok_iff]
  refine ⟨fun w => ⟨?_, ?_⟩, fun w i h => h.exists_row_selects, ?_⟩
  · rintro ⟨i, h⟩
    obtain ⟨row, hrow, -, hs⟩ := h.exists_row_selects
    exact ⟨row, hrow, hs⟩
  · rintro ⟨row, hrow, hs⟩
    exact exists_reads_of_selects hrow hs
  · intro w row row' hrow hrow' hs hs'
    obtain ⟨hop, -⟩ := (selects_iff hrow w).mp hs
    obtain ⟨hop', -⟩ := (selects_iff hrow' w).mp hs'
    exact row_eq_of_op_eq row hrow row' hrow' (hop.symm.trans hop')

/-- Only IS_FULL and IS_EMPTY leave `sel` free, and the opcodes without an operand compare `arg`. -/
theorem compared_fields : ∀ row ∈ opRows,
    (Decode.op row.matchBits ≠ 0x20 → Decode.op row.matchBits ≠ 0x21 → Decode.sel row.mask ≠ 0)
      ∧ (Decode.op row.matchBits ∈ [0x01, 0x02, 0x20, 0x21, 0x30, 0x39, 0x40] → Decode.arg row.mask ≠ 0) := by
  decide

/-- Settles O5: in each of the three cases a field that a row with the word's `op` compares is not 0. -/
theorem reservedFieldsMatchNoRow : Obligations.ReservedFieldsMatchNoRow := by
  intro w hw row hrow
  refine Bool.eq_false_iff.mpr fun hs => ?_
  obtain ⟨hop, hrsv, hsel, harg⟩ := (selects_iff hrow w).mp hs
  obtain ⟨hcsel, hcarg⟩ := compared_fields row hrow
  rw [← hop] at hcsel hcarg
  obtain h | ⟨h1, h20, h21⟩ | ⟨h, hmem⟩ := hw
  · exact h hrsv
  · exact absurd ((hsel (hcsel h20 h21)).symm.trans h1) (by decide)
  · exact h (harg (hcarg hmem))

/-! ## The response word (R92) -/

theorem Code.num_lt (c : Code) : c.num < 2 ^ 4 := by cases c <;> decide

/-- Settles O6: the word is `code << 28 | val`, each part within its field; the numbers are a finite table. -/
theorem responseFields : Obligations.ResponseFields := by
  refine ⟨fun c n hn => ?_, by decide⟩
  have hc := c.num_lt
  simp only [slice, respWord, respVal, if_pos hn, BitVec.toNat_ofNat]
  omega

end Sys2Proof.Machine
end

section
/-! PROOF. What a port does with a word it does not run at once: illegal, on the wrong port, or busy (30_encoding R94,
R96, R97). -/

namespace Sys2Proof.Machine

/-- An idle context's turn at a word that decodes to no command takes the word and responds (R96). -/
theorem contextTurn_illegal {c : Ctx} {more : Nat} {s : State} {w : Word} {ws : List Word} {e : DecodeError}
    (hl : s.lane? c = some ⟨.idle, w :: ws⟩) (hd : decode w = .error e) :
    contextTurn c more s = .done ((s.setLane c ⟨.idle, ws⟩).respond c .illegal 0) := by
  simp only [contextTurn, hl, hd, State.setQueue]

theorem respWord_illegal : respWord .illegal 0 = 0xF0000000 := by decide

/-- Settles O8: the turn takes the word and responds, and neither sees what the other changes. -/
theorem illegalWordAnswered : Obligations.IllegalWordAnswered := by
  intro s c more rest w ws e hw hs hl hd
  have hlane : ({ s with script := rest, cur := c, slice := more } : State).lane? c = some ⟨.idle, w :: ws⟩ := by
    rw [← hl]
    cases c <;> rfl
  rw [step_of_done hw ((turn_of_script hs).trans (contextTurn_illegal hlane hd)), State.respond, respWord_illegal]
  cases c <;> rfl

/-- R94: a command of one port, met by an idle context of another. -/
theorem exec_wrong_port {i : Instr} {s : State} {p : Port} (hw : s.cfg.wf = true) (hi : s.idle s.cur = true)
    (hp : s.cur.port ≠ p) (hl : ∀ q, legalOn i q = (q == p)) : exec i s = .next (s.respond s.cur .illegal 0) := by
  rw [exec_eq_issue]
  exact issue_illegal _ hw hi ((hl _).trans (beq_false_of_ne hp))

theorem Ctx.port_ne_drv {c : Ctx} (h : c ≠ .drv) : c.port ≠ .drv := by cases c <;> simp_all [Ctx.port]
theorem Ctx.port_ne_up {c : Ctx} (h : ∀ k, c ≠ .up k) : c.port ≠ .up := by cases c <;> simp_all [Ctx.port]
theorem Ctx.port_ne_irq {c : Ctx} (h : c ≠ .irq) : c.port ≠ .irq := by cases c <;> simp_all [Ctx.port]
theorem Ctx.port_ne_poll {c : Ctx} (h : c ≠ .poll) : c.port ≠ .poll := by cases c <;> simp_all [Ctx.port]

/-- Settles O10: the port column of R93 has one port for each of these commands, and it is not the context's. -/
theorem wrongPortIsIllegal : Obligations.WrongPortIsIllegal := by
  intro s hw hi
  refine ⟨fun i hmem hne => ?_, fun n i hmem hne => ?_, fun n i hmem hne => ?_, fun hne => ?_⟩
  · refine exec_wrong_port hw hi (Ctx.port_ne_drv hne) ?_
    simp only [List.mem_cons, List.not_mem_nil, or_false] at hmem
    obtain rfl | rfl := hmem <;> exact fun _ => rfl
  · refine exec_wrong_port hw hi (Ctx.port_ne_up hne) ?_
    simp only [List.mem_cons, List.not_mem_nil, or_false] at hmem
    obtain rfl | rfl | rfl := hmem <;> exact fun _ => rfl
  · refine exec_wrong_port hw hi (Ctx.port_ne_poll hne) ?_
    simp only [List.mem_cons, List.not_mem_nil, or_false] at hmem
    obtain rfl | rfl | rfl | rfl := hmem <;> exact fun _ => rfl
  · exact exec_wrong_port hw hi (Ctx.port_ne_irq hne) fun _ => rfl

theorem State.offer_of_lane {s : State} {c : Ctx} {l : Lane} (w : Word) (h : s.lane? c = some l) :
    s.offer c w = s.setLane c { l with queue := l.queue ++ [w] } := by simp only [State.offer, h]

/-- Settles O11: a busy context's command and an offered word both go through `State.offer`. -/
theorem busyPortKeepsWord : Obligations.BusyPortKeepsWord := by
  constructor
  · intro i s k q hw hl hk
    have hbusy : s.idle s.cur = false := by
      cases k with
      | idle => exact absurd rfl hk
      | _ => simp only [State.idle, hl]
    rw [exec_eq_issue, issue_busy _ hw hbusy, State.offer_of_lane _ hl]
  · intro s c w rest k q hw hs hl
    have hlane : ({ s with script := rest } : State).lane? c = some ⟨k, q⟩ := by rw [← hl]; cases c <;> rfl
    rw [step_of_done hw (turn_of_script hs), State.offer_of_lane _ hlane]

end Sys2Proof.Machine
end

section
/-! PROOF. What a command answers when its operation ends, or stops, within its slice, and what it leaves as it was
(10_state R41, 30_encoding R97). -/

namespace Sys2Proof.Machine

/-! ## Commands that end or stop within their slice -/

theorem taskRun_of_ret {c : Ctx} {t : Task} {s u : State} {r : Resp} (n : Nat) (h : taskStep c t s = (u, .ret r)) :
    taskRun c (n + 1) t s = (u, .ret r) := by simp only [taskRun, h]

theorem taskRun_of_stop {c : Ctx} {t : Task} {s u : State} (n : Nat) (h : taskStep c t s = (u, .stop)) :
    taskRun c (n + 1) t s = (u, .stop) := by simp only [taskRun, h]

section
variable {i : Instr} {s s0 u : State} {t : Task}

theorem acceptance_start_lanes (ha : acceptance i s = .start t s0) : s0.lanes = s.lanes := by
  obtain ⟨-, b, rfl⟩ := acceptance_start ha
  rfl

/-- A command whose operation ends within the slice answers and leaves the operation's last state. -/
theorem exec_of_ret {k n : Nat} {code : Code} (h : s.Ready i) (ha : acceptance i s = .start t s0)
    (hr : taskRun s.cur k t s0 = (u, .ret (code, n))) (hk : k ≤ s.slice) :
    exec i s = .next (u.respond s.cur code n) := by
  rw [exec_eq_issue, ha]
  exact issue_ret h (acceptance_start_lanes ha) hr hk

/-- A command whose first micro-step records `F_POOL` leaves its context stopped (log entry 9). -/
theorem exec_of_stop (h : s.Ready i) (ha : acceptance i s = .start t s0) (ht : taskStep s.cur t s0 = (u, .stop))
    (hk : 1 ≤ s.slice) : exec i s = .next (u.setCont s.cur .stopped) := by
  rw [exec_eq_issue, ha, issue_start h (acceptance_start_lanes ha), ← Nat.sub_add_cancel hk, taskRun_of_stop _ ht]
  rfl

end

/-! ## What a command leaves of the other contexts -/

/-- `t` is `u` but for the events and the lanes, of which only that of the context `s` schedules is not as in `s`. -/
structure Scheduled (s u t : State) : Prop where
  frame : t = { u with hist := t.hist, lanes := t.lanes }
  others : s.keepsOthers t

section
variable {s u t : State}

theorem scheduled_setCont (hl : u.lanes = s.lanes) (k : Cont) : Scheduled s u (u.setCont s.cur k) where
  frame := by rw [State.setCont_eq_lanes]
  others c hc := by rw [u.lane?_setCont_other k hc, lane?_of_lanes_eq c hl]

theorem scheduled_offer (s : State) (w : Word) : Scheduled s s (s.offer s.cur w) where
  frame := by rw [State.offer_eq_lanes]
  others _ hc := s.lane?_offer_other w hc

theorem Scheduled.respond (h : Scheduled s u t) (c : Ctx) (k : Code) (n : Nat) : Scheduled s u (t.respond c k n) where
  frame := by rw [h.frame]; rfl
  others := h.others

theorem scheduled_respond (s : State) (c : Ctx) (k : Code) (n : Nat) : Scheduled s s (s.respond c k n) :=
  Scheduled.respond ⟨rfl, fun _ _ => rfl⟩ c k n

theorem scheduled_finish {x : State × Next Task Resp} (hl : x.1.lanes = s.lanes) :
    Scheduled s x.1 (finish s.cur x) := by
  obtain ⟨u, t' | ⟨code, n⟩ | _ | _⟩ := x
  · exact scheduled_setCont hl _
  · exact (scheduled_setCont hl _).respond ..
  · exact ⟨rfl, fun c _ => lane?_of_lanes_eq c hl⟩
  · exact scheduled_setCont hl _

/-- A command changes what its operation's slice changes, the events and its own context's lane: nothing else where
it is answered at once, is illegal on its port or has to wait. -/
theorem exec_scheduled {i : Instr} (h : exec i s = .next t) :
    ∃ u, (u = s ∨ ∃ t0 s0, acceptance i s = .start t0 s0 ∧ u = (taskRun s.cur s.slice t0 s0).1) ∧ Scheduled s u t := by
  rw [exec_eq_issue] at h
  cases hw : s.cfg.wf with
  | false => rw [issue_invalid _ hw] at h; cases h
  | true =>
    cases hi : s.idle s.cur with
    | false => rw [issue_busy _ hw hi] at h; cases h; exact ⟨s, .inl rfl, scheduled_offer ..⟩
    | true =>
      cases hlegal : legalOn i s.cur.port with
      | false => rw [issue_illegal _ hw hi hlegal] at h; cases h; exact ⟨s, .inl rfl, scheduled_respond ..⟩
      | true =>
        have hr : s.Ready i := ⟨hw, hi, hlegal⟩
        cases ha : acceptance i s with
        | reject k => rw [ha, issue_reject hr] at h; cases h; exact ⟨s, .inl rfl, scheduled_respond ..⟩
        | start t0 s0 =>
          have hl := acceptance_start_lanes ha
          rw [ha, issue_start hr hl] at h
          cases h
          exact ⟨_, .inr ⟨t0, s0, rfl, rfl⟩, scheduled_finish ((taskRun_lanes ..).trans hl)⟩

/-- A slice of an operation that has a single micro-step. -/
theorem taskRun_single {c : Ctx} {t0 : Task} (hend : ∀ t', (taskStep c t0 s).2 ≠ .goto t') (n : Nat) :
    (taskRun c n t0 s).1 = s ∨ (taskRun c n t0 s).1 = (taskStep c t0 s).1 := by
  cases n with
  | zero => exact .inl rfl
  | succ n =>
    rw [taskRun]
    split
    · rename_i hx
      exact absurd (congrArg Prod.snd hx) (hend _)
    · exact .inr (by simp only [*])
    · exact .inl rfl
    · exact .inr (by simp only [*])

/-- A command of a single micro-step changes what that micro-step changes, or nothing. -/
theorem exec_single {i : Instr} {t0 : Task} (ha : acceptance i s = .start t0 s)
    (hend : ∀ t', (taskStep s.cur t0 s).2 ≠ .goto t') (h : exec i s = .next t) :
    ∃ u, (u = s ∨ u = (taskStep s.cur t0 s).1) ∧ Scheduled s u t := by
  obtain ⟨u, rfl | ⟨t1, s1, ha1, rfl⟩, hu⟩ := exec_scheduled h
  · exact ⟨_, .inl rfl, hu⟩
  · rw [ha] at ha1
    cases ha1
    exact ⟨_, taskRun_single hend _, hu⟩

theorem State.keepsDesc_of_eq (h : t.desc = s.desc) : s.keepsDesc t := fun a => by simp only [State.descByte, h]

theorem State.keepsBuf_of_eq (h : t.buf = s.buf) : s.keepsBuf t := fun i k => by simp only [State.bufByte, h]

/-- A command that leaves the memories alone leaves every byte as it was. -/
theorem Scheduled.keeps (h : Scheduled s u t) (hd : u.desc = s.desc) (hb : u.buf = s.buf) :
    s.keepsOthers t ∧ s.keepsDesc t ∧ s.keepsBuf t :=
  ⟨h.others, State.keepsDesc_of_eq (by rw [h.frame, hd]), State.keepsBuf_of_eq (by rw [h.frame, hb])⟩

theorem Scheduled.buffer (h : Scheduled s u t) (j : Nat) : t.buffer j = u.buffer j := by rw [h.frame]; rfl

end

end Sys2Proof.Machine
end

section
/-! PROOF. ACQUIRE and RELEASE (40_buffer_pool R110 to R113), and the frame of the commands of one micro-step. -/

namespace Sys2Proof.Machine

/-! ## The words of ACQUIRE and RELEASE (R90, R93), and of their responses (R92) -/

/-- The word of a command without a ring selector has the opcode and the operand apart. -/
theorem encode_eq_or {i : Instr} {op : Nat} (ho : i.opcode = op) (hs : i.selField = 0) (hw : i.wf = true) :
    encode i = BitVec.ofNat 32 (op * 2 ^ 24) ||| BitVec.ofNat 32 i.argField := by
  have ha := Laws.Fields.argField_lt i hw
  have hor : op * 2 ^ 24 + i.argField = op * 2 ^ 24 ||| i.argField := by
    rw [Nat.mul_comm, Nat.two_pow_add_eq_or_of_lt (by omega)]
  rw [encode, ho, hs, Nat.zero_mul, Nat.add_zero, hor, BitVec.ofNat_or]

theorem respWord_ok_zero : respWord .ok 0 = 0 := by decide
theorem respWord_allocFail : respWord .allocFail 0 = 0x20000000 := by decide
theorem respWord_mapFail : respWord .mapFail 0 = 0x30000000 := by decide
theorem respWord_badHandle : respWord .badHandle 0 = 0xD0000000 := by decide

section
variable {s : State} {h size : Nat}

/-! ## The pool's operations (R110, R112) -/

theorem State.poolAcquire_of_lowestFree (o : Own) (hs : size ≤ s.cfg.bufSize) (hf : s.lowestFree = some h) :
    s.poolAcquire size o = some (h, s.setBuffer h ⟨o, BitVec.ofNat 16 size, none⟩) := by
  simp only [State.poolAcquire, State.sizeOk, hs, hf, decide_true, if_true]

theorem State.poolAcquire_eq_none {o : Own}
    (hnone : s.cfg.bufSize < size ∨ ∀ j, j < s.cfg.poolSize → (s.buffer j).own ≠ .free) :
    s.poolAcquire size o = none := by
  rw [← State.lowestFree_eq_none] at hnone
  obtain hs | hf := hnone
  · simp only [State.poolAcquire, State.sizeOk, Nat.not_le.mpr hs, decide_false, Bool.false_eq_true, if_false]
  · simp only [State.poolAcquire, hf, ite_self]

/-! ## S1 of ACQUIRE and RELEASE (R111, R113) -/

theorem acquireStep_of_some {u : State} (ha : s.poolAcquire size .up = some (h, u)) :
    acquireStep size s = (u, .ret (.ok, h)) := by simp only [acquireStep, ha]

theorem acquireStep_of_none (ha : s.poolAcquire size .up = none) :
    acquireStep size s = (s, .ret (.allocFail, 0)) := by simp only [acquireStep, ha]

theorem releaseStep_of_holds (hk : s.handleOk h = true) (hh : s.holds h) :
    releaseStep h s = (s.setBuffer h { s.buffer h with own := .free }, .ret (.ok, 0)) := by
  rw [releaseStep, if_pos hk, orPoolFault_some _ (State.poolRelease_of_holds hh)]

theorem releaseStep_of_not_holds (hk : s.handleOk h = true) (hh : ¬ s.holds h) :
    releaseStep h s = (s.raise .pool, .stop) := by
  rw [releaseStep, if_pos hk, orPoolFault_none _ (State.poolRelease_of_not_holds hh)]

theorem releaseStep_of_badHandle (hk : ¬ s.handleOk h = true) : releaseStep h s = (s, .ret (.badHandle, 0)) :=
  if_neg hk

/-- A buffer that upstream holds and that is not mapped can be released (R112). -/
theorem State.holds_of_up (hlt : h < s.cfg.poolSize) (ho : (s.buffer h).own = .up) (hm : (s.buffer h).map = none) :
    s.holds h := ⟨hlt, by simp [ho], hm⟩

end

/-- Settles O25: `poolAcquire` decides, and the lowest free handle is the one `lowestFree` answers. -/
theorem acquireAnswers : Obligations.AcquireAnswers := by
  intro s size hr hk
  refine ⟨fun h hs hlt ho hmin => ?_, fun hnone => ?_, fun hw => encode_eq_or (op := 0x10) rfl rfl (decide_eq_true hw)⟩
  · have ha := State.poolAcquire_of_lowestFree .up hs (State.lowestFree_eq_some.mpr ⟨hlt, ho, hmin⟩)
    exact exec_of_ret hr rfl (taskRun_of_ret 0 (acquireStep_of_some ha)) hk
  · rw [← respWord_allocFail]
    exact exec_of_ret hr rfl (taskRun_of_ret 0 (acquireStep_of_none (State.poolAcquire_eq_none hnone))) hk

/-- Settles O26: the handle's test decides between the release and `BAD_HANDLE`. -/
theorem releaseAnswers : Obligations.ReleaseAnswers := by
  intro s h hr hk
  refine ⟨fun hlt ho hm => ?_, fun hbad => ?_, fun hw => encode_eq_or (op := 0x13) rfl rfl (decide_eq_true hw)⟩
  · have hstep := releaseStep_of_holds (State.handleOk_iff.mpr ⟨hlt, ho⟩) (State.holds_of_up hlt ho hm)
    rw [← respWord_ok_zero]
    exact exec_of_ret hr rfl (taskRun_of_ret 0 hstep) hk
  · have hstep := releaseStep_of_badHandle (s := s) (h := h) fun hk => by
      obtain ⟨hlt, ho⟩ := State.handleOk_iff.mp hk
      exact hbad.elim (Nat.not_le.mpr hlt) (absurd ho)
    rw [← respWord_badHandle]
    exact exec_of_ret hr rfl (taskRun_of_ret 0 hstep) hk

/-- Settles O27: a mapped buffer can not be released (R112), and the operation stops in its first micro-step. -/
theorem releaseOfMappedStops : Obligations.ReleaseOfMappedStops := by
  intro s h hr hk hlt ho hm
  exact exec_of_stop hr rfl (releaseStep_of_not_holds (State.handleOk_iff.mpr ⟨hlt, ho⟩) fun hh => hm hh.2.2) hk

/-! ## The frame -/

theorem acquireStep_ne_goto (size : Nat) (s : State) (t : Task) : (acquireStep size s).2 ≠ .goto t := by
  rw [acquireStep]
  split <;> nofun

theorem releaseStep_ne_goto (h : Nat) (s : State) (t : Task) : (releaseStep h s).2 ≠ .goto t := by
  rw [releaseStep]
  split
  · cases s.poolRelease h <;> nofun
  · nofun

theorem acquireStep_state (size : Nat) (s : State) :
    (acquireStep size s).1 = s ∨ ∃ h e, (s.buffer h).own = .free ∧ (acquireStep size s).1 = s.setBuffer h e := by
  rw [acquireStep]
  split
  · rename_i h u ha
    obtain ⟨-, hf, hu⟩ := State.poolAcquire_eq_some ha
    exact .inr ⟨h, _, (State.lowestFree_eq_some.mp hf).2.1, hu⟩
  · exact .inl rfl

theorem releaseStep_state (h : Nat) (s : State) :
    (releaseStep h s).1 = s ∨ (∃ e, (releaseStep h s).1 = s.setBuffer h e) ∨ (releaseStep h s).1 = s.raise .pool := by
  by_cases hk : s.handleOk h = true
  · by_cases hh : s.holds h
    · exact .inr (.inl ⟨_, congrArg Prod.fst (releaseStep_of_holds hk hh)⟩)
    · exact .inr (.inr (congrArg Prod.fst (releaseStep_of_not_holds hk hh)))
  · exact .inl (congrArg Prod.fst (releaseStep_of_badHandle hk))

theorem query_frame {i : Instr} {r : Ring} {s t : State} (hi : i = .isFull r ∨ i = .isEmpty r)
    (hx : exec i s = .next t) : Scheduled s s t := by
  obtain rfl | rfl := hi
  · obtain ⟨u, rfl | rfl, hu⟩ := exec_single (t0 := .isFull r) rfl nofun hx <;> exact hu
  · obtain ⟨u, rfl | rfl, hu⟩ := exec_single (t0 := .isEmpty r) rfl nofun hx <;> exact hu

theorem acquire_frame {size : Nat} {s t : State} (hx : exec (.acquire size) s = .next t) :
    ∃ u, (u = s ∨ ∃ h e, (s.buffer h).own = .free ∧ u = s.setBuffer h e) ∧ Scheduled s u t := by
  obtain ⟨u, hu, hsch⟩ := exec_single (t0 := .acquire size) rfl (acquireStep_ne_goto size s) hx
  exact ⟨u, hu.elim .inl fun hu => hu ▸ acquireStep_state size s, hsch⟩

theorem release_frame {h : Nat} {s t : State} (hx : exec (.release h) s = .next t) :
    ∃ u, (u = s ∨ (∃ e, u = s.setBuffer h e) ∨ u = s.raise .pool) ∧ Scheduled s u t := by
  obtain ⟨u, hu, hsch⟩ := exec_single (t0 := .release h) rfl (releaseStep_ne_goto h s) hx
  exact ⟨u, hu.elim .inl fun hu => hu ▸ releaseStep_state h s, hsch⟩

/-- Settles O57: each of the four commands is one micro-step, and that micro-step writes at most one pool entry. -/
theorem queryAndPoolFrame : Obligations.QueryAndPoolFrame := by
  intro s t
  refine ⟨fun r i hi hx => ?_, fun size hx => ?_, fun h hx => ?_⟩
  · have hsch := query_frame hi hx
    exact ⟨hsch.frame, hsch.keeps rfl rfl⟩
  · obtain ⟨u, hu, hsch⟩ := acquire_frame hx
    obtain ⟨hframe, hbuf⟩ : u = { s with pool := u.pool } ∧ ∀ j, (s.buffer j).own ≠ .free →
        u.buffer j = s.buffer j := by
      obtain rfl | ⟨h, e, hfree, rfl⟩ := hu
      · exact ⟨rfl, fun _ _ => rfl⟩
      · exact ⟨rfl, fun j hj => s.buffer_setBuffer_other e fun he => hj (he ▸ hfree)⟩
    obtain ⟨ho, hd, hb⟩ := hsch.keeps (by rw [hframe]) (by rw [hframe])
    exact ⟨by rw [hsch.frame, hframe], ho, hd, hb, fun j hj => (hsch.buffer j).trans (hbuf j hj)⟩
  · obtain ⟨u, hu, hsch⟩ := release_frame hx
    obtain ⟨hframe, hbuf⟩ : u = { s with pool := u.pool, fault := u.fault } ∧ ∀ j, j ≠ h → u.buffer j = s.buffer j := by
      obtain rfl | ⟨e, rfl⟩ | rfl := hu
      · exact ⟨rfl, fun _ _ => rfl⟩
      · exact ⟨rfl, fun j hj => s.buffer_setBuffer_other e hj⟩
      · exact ⟨rfl, fun _ _ => by simp⟩
    obtain ⟨ho, hd, hb⟩ := hsch.keeps (by rw [hframe]) (by rw [hframe])
    exact ⟨by rw [hsch.frame, hframe], ho, hd, hb, fun j hj => (hsch.buffer j).trans (hbuf j hj)⟩

end Sys2Proof.Machine
end

section
/-! PROOF. A mapping that fails (40_buffer_pool R114, R116): REFILL and SUBMIT release the buffer again. -/

namespace Sys2Proof.Machine

/-! ## MAP and the release after it -/

/-- The draw of MAP reads and writes `draws` and `tick` only. -/
theorem State.drawMapOk_congr {s u : State} (hd : u.draws = s.draws) (ht : u.tick = s.tick) :
    u.drawMapOk = (s.drawMapOk.1, { u with draws := s.drawMapOk.2.draws, tick := s.drawMapOk.2.tick }) := by
  simp only [State.drawMapOk, hd, ht]
  cases s.draws.mapOk <;> simp only [← hd, ← ht]

section
variable {s : State} {h : Nat}

theorem State.mapBuffer_of_failure (d : Dir) (hh : s.holds h) (hd : s.drawMapOk.1 = false) :
    s.mapBuffer h d = .failure s.drawMapOk.2 := by rw [State.mapBuffer_of_holds d hh, hd]; rfl

/-- R116: a buffer whose mapping failed is released. -/
theorem State.poolRelease_drawMapOk (hh : s.holds h) :
    s.drawMapOk.2.poolRelease h = some (s.drawMapOk.2.setBuffer h { s.buffer h with own := .free }) := by
  rw [State.poolRelease_of_holds (s.drawMapOk_holds h |>.mpr hh), State.drawMapOk_buffer]

/-! ## REFILL (R140) -/

/-- F3 with a mapping that fails. -/
theorem refillStep_mapFailure (n : Nat) (hh : s.holds h) (hd : s.drawMapOk.1 = false) :
    refillStep (.f3 n h) s = (s.drawMapOk.2.setBuffer h { s.buffer h with own := .free }, .goto (.f9 n)) := by
  rw [refillStep, State.mapBuffer_of_failure _ hh hd]
  exact orPoolFault_some _ (State.poolRelease_drawMapOk hh)

theorem refillStep_acquired (n : Nat) (hf : s.lowestFree = some h) :
    refillStep (.f2 n) s = (s.setBuffer h ⟨.eng, BitVec.ofNat 16 s.cfg.bufSize, none⟩, .goto (.f3 n h)) := by
  rw [refillStep, State.poolAcquire_of_lowestFree .eng (Nat.le_refl _) hf]

theorem refillStep_room (n : Nat) (hfull : s.full .rx = false) : refillStep (.f1 n) s = (s, .goto (.f2 n)) := by
  rw [refillStep, hfull]; rfl

theorem refillTask_goto {p p' : RefillPc} {u : State} (hp : refillStep p s = (u, .goto p')) (c : Ctx) :
    taskStep c (.refill p) s = (u, .goto (.refill p')) := by simp only [taskStep, refillTask, hp]

/-- The REFILL command from F1 on, when the mapping of the first buffer fails. -/
theorem taskRun_refill_mapFailure (c : Ctx) (hlt : h < s.pool.length) (hfull : s.full .rx = false)
    (hf : s.lowestFree = some h) (hd : s.drawMapOk.1 = false) :
    taskRun c 4 (.refill (.f1 0)) s
      = ({ s.drawMapOk.2.setBuffer h ⟨.free, BitVec.ofNat 16 s.cfg.bufSize, none⟩ with pollRunning := false },
        .ret (.ok, 0)) := by
  have hsame := s.buffer_setBuffer_same ⟨.eng, BitVec.ofNat 16 s.cfg.bufSize, none⟩ hlt
  have hdraw := State.drawMapOk_congr (s := s) (u := s.setBuffer h ⟨.eng, BitVec.ofNat 16 s.cfg.bufSize, none⟩) rfl rfl
  have hh : (s.setBuffer h ⟨.eng, BitVec.ofNat 16 s.cfg.bufSize, none⟩).holds h :=
    ⟨(State.lowestFree_eq_some.mp hf).1, by simp [hsame], by rw [hsame]⟩
  have h1 := refillTask_goto (refillStep_room 0 hfull) c
  have h2 := refillTask_goto (refillStep_acquired 0 hf) c
  have h3 := refillTask_goto (refillStep_mapFailure 0 hh (by rw [hdraw]; exact hd)) c
  rw [taskRun_goto h1, taskRun_goto h2, taskRun_goto h3, taskRun_of_ret 0 rfl, hsame, hdraw, s.drawMapOk_frame]
  simp [State.setBuffer]

/-! ## SUBMIT (R155) -/

/-- SUBMIT from X1 to X5: the buffer is the engine's, and the lock is held. -/
theorem taskRun_submit_taken (c : Ctx) (n : Nat) (hlock : s.txLock = none) (hup : s.life = .up)
    (hfull : s.full .tx = false) (hok : s.handleOk h = true) :
    taskRun c (n + 4) (.submit h .x1) s
      = taskRun c n (.submit h .x5) ((s.lock c).setBuffer h { s.buffer h with own := .eng }) := by
  have h1 : taskStep c (.submit h .x1) s = (s.lock c, .goto (.submit h .x2)) := by simp [taskStep, submitTask, hlock]
  have h2 : taskStep c (.submit h .x2) (s.lock c) = (s.lock c, .goto (.submit h .x3)) := by
    simp [taskStep, submitTask, hup]
  have h3 : taskStep c (.submit h .x3) (s.lock c) = (s.lock c, .goto (.submit h .x4)) := by
    simp [taskStep, submitTask, hfull]
  have h4 : taskStep c (.submit h .x4) (s.lock c)
      = ((s.lock c).setBuffer h { s.buffer h with own := .eng }, .goto (.submit h .x5)) := by
    simp [taskStep, submitTask, hok]
  rw [taskRun_goto h1, taskRun_goto h2, taskRun_goto h3, taskRun_goto h4]

/-- X5 with a mapping that fails. -/
theorem submitTask_mapFailure (c : Ctx) (hh : s.holds h) (hd : s.drawMapOk.1 = false) :
    taskStep c (.submit h .x5) s
      = ((s.drawMapOk.2.setBuffer h { s.buffer h with own := .free }).unlock, .ret (.mapFail, 0)) := by
  simp only [taskStep, submitTask, State.mapBuffer_of_failure _ hh hd]
  exact orPoolFault_some _ (State.poolRelease_drawMapOk hh)

end

/-- Settles O33: F1, F2, F3 with a failing draw, and F9. -/
theorem refillReleasesUnmapped : Obligations.RefillReleasesUnmapped := by
  intro s h rest hr hup hp hpool hk hfull hlt ho hmin hd
  have hdraw : ({ s with pollRunning := true } : State).drawMapOk
      = (false, { s with pollRunning := true, draws := { s.draws with mapOk := rest } }) := by
    simp only [State.drawMapOk, hd]
  have hrun := taskRun_refill_mapFailure (s := { s with pollRunning := true }) (h := h) s.cur (hpool ▸ hlt) hfull
    (State.lowestFree_eq_some.mpr ⟨hlt, ho, hmin⟩) (by rw [hdraw])
  rw [exec_of_ret hr (acceptPoll_of_up _ hup hp) hrun hk, hdraw, State.respond, respWord_ok_zero]
  simp [State.setBuffer, ← hp]

/-- Settles O38: X1 to X4, then X5 with a failing draw. -/
theorem submitMapFailure : Obligations.SubmitMapFailure := by
  intro s h hr hup hlock hfull hlt hpool ho hm hd hk
  have hsame := (s.lock s.cur).buffer_setBuffer_same { s.buffer h with own := .eng } (hpool ▸ hlt)
  have hdraw := State.drawMapOk_congr (s := s) (u := (s.lock s.cur).setBuffer h { s.buffer h with own := .eng }) rfl rfl
  have hh : ((s.lock s.cur).setBuffer h { s.buffer h with own := .eng }).holds h :=
    ⟨hlt, by simp [hsame], by rw [hsame]; exact hm⟩
  have hrun := taskRun_submit_taken s.cur 1 hlock hup hfull (State.handleOk_iff.mpr ⟨hlt, ho⟩)
  rw [taskRun_of_ret 0 (submitTask_mapFailure s.cur hh (by rw [hdraw]; exact hd)), hsame, hdraw] at hrun
  rw [exec_of_ret hr rfl hrun hk, s.drawMapOk_frame, State.respond, respWord_mapFail]
  simp [State.setBuffer, State.lock, State.unlock, hlock, hm]

end Sys2Proof.Machine
end

section
/-! PROOF. IS_FULL and IS_EMPTY (41_descriptor_ring R126, R127). -/

namespace Sys2Proof.Machine

/-- `OK` with a truth value, as the queries answer it (R92). -/
theorem respWord_flag (b : Bool) : respWord .ok (flagVal b) = if b then 1 else 0 := by
  cases b <;> decide

section
variable {s : State}

/-- A ring query answers the truth value its one micro-step reads, and that is all it does. -/
theorem exec_query {i : Instr} {t : Task} {b : Bool} (h : s.Ready i) (ha : acceptance i s = .start t s)
    (ht : taskStep s.cur t s = (s, .ret (.ok, flagVal b))) (hk : 1 ≤ s.slice) :
    exec i s = .next (s.emit (.resp s.cur (if b then 1 else 0))) := by
  rw [← respWord_flag]
  exact exec_of_ret h ha (taskRun_of_ret 0 ht) hk

/-- A ring of two slots or more is never both full and empty: no index is its own successor modulo `N`. -/
theorem State.not_full_and_empty {r : Ring} (hn : 2 ≤ ringSize s.cfg r) : ¬ (s.full r = true ∧ s.empty r = true) := by
  rw [s.full_iff, s.empty_iff]
  rintro ⟨hfull, hempty⟩
  have hself : nextIndex (s.ring r).head (ringSize s.cfg r) = (s.ring r).head := hfull.trans hempty.symm
  have hlt : (s.ring r).head < ringSize s.cfg r := hself ▸ nextIndex_lt _ (by omega)
  rw [nextIndex_eq hlt] at hself
  split at hself <;> omega

end

/-- Settles O28: both queries end in their first micro-step, and a valid parameter set has rings of two slots or
more. -/
theorem ringQueriesAnswer : Obligations.RingQueriesAnswer := by
  intro s r hwf hidle hk
  refine ⟨?_, ?_, by cases r <;> rfl, by cases r <;> rfl, State.not_full_and_empty ((Config.valid hwf).size r)⟩
  · have hx := exec_query (i := .isFull r) ⟨hwf, hidle, rfl⟩ rfl rfl hk
    simpa only [s.full_iff, nextIndex] using hx
  · have hx := exec_query (i := .isEmpty r) ⟨hwf, hidle, rfl⟩ rfl rfl hk
    simpa only [s.empty_iff] using hx

end Sys2Proof.Machine
end

section
/-! PROOF. REFILL and DRAIN followed from label to label: an engine reaches a label within so many micro-steps
(42_receive_engine R140, R141), and the cases in which there is nothing to do (R143). -/

namespace Sys2Proof.Machine

/-! ## Reaching a label -/

/-- Within `k` micro-steps on context `c` the operation `t` stands, in the state `s'`, at `t'`. -/
def Reaches (c : Ctx) (k : Nat) (t : Task) (s : State) (t' : Task) (s' : State) : Prop :=
  ∃ j, j ≤ k ∧ ∀ n, taskRun c (j + n) t s = taskRun c n t' s'

section
variable {c : Ctx} {j k : Nat} {t t' t'' : Task} {s s' s'' : State}

theorem Reaches.rfl : Reaches c k t s t s := ⟨0, Nat.zero_le k, fun n => by rw [Nat.zero_add]⟩

theorem Reaches.trans (h : Reaches c j t s t' s') (g : Reaches c k t' s' t'' s'') : Reaches c (j + k) t s t'' s'' := by
  obtain ⟨a, ha, h⟩ := h
  obtain ⟨b, hb, g⟩ := g
  exact ⟨a + b, Nat.add_le_add ha hb, fun n => by rw [Nat.add_assoc, h, g]⟩

theorem Reaches.mono (h : Reaches c j t s t' s') (hk : j ≤ k) : Reaches c k t s t' s' := by
  obtain ⟨a, ha, h⟩ := h
  exact ⟨a, ha.trans hk, h⟩

/-- One micro-step, then `k` more. -/
theorem Reaches.step (h : taskStep c t s = (s', .goto t')) (g : Reaches c k t' s' t'' s'') :
    Reaches c (k + 1) t s t'' s'' := by
  obtain ⟨b, hb, g⟩ := g
  exact ⟨b + 1, by omega, fun n => by rw [Nat.add_right_comm, taskRun_goto h, g]⟩

/-- An operation that reaches its last micro-step ends with it. -/
theorem Reaches.ret {r : Resp} (h : Reaches c k t s t' s') (hr : taskStep c t' s' = (s'', .ret r)) :
    taskRun c (k + 1) t s = (s'', .ret r) := by
  obtain ⟨b, hb, h⟩ := h
  exact taskRun_ret (n := b + 1) ((h 1).trans (taskRun_of_ret 0 hr)) (by omega)

/-- Some slice of the operation leaves the state it reaches. -/
theorem Reaches.taskRun_eq (h : Reaches c k t s t' s') : ∃ n, (taskRun c n t s).1 = s' := by
  obtain ⟨b, -, h⟩ := h
  exact ⟨b, congrArg Prod.fst (h 0)⟩

end

/-! ## The engines' micro-steps in their callers -/

theorem Fills.taskStep {W : RefillPc → Task} (hW : Fills W) {p p' : RefillPc} {s u : State}
    (h : refillStep p s = (u, .goto p')) (c : Ctx) : taskStep c (W p) s = (u, .goto (W p')) := by
  cases hW <;> simp only [Machine.taskStep, refillTask, pollTask, bringupTask, h]

theorem Drains.taskStep {b : Nat} {W : DrainPc → Task} (hW : Drains b W) {p p' : DrainPc} {s u : State}
    (h : drainStep b p s = (u, .goto p')) (c : Ctx) : taskStep c (W p) s = (u, .goto (W p')) := by
  cases hW <;> simp only [Machine.taskStep, drainTask, pollTask, h]

/-! ## REFILL (R140) -/

/-- F3 with a mapping that succeeds. -/
theorem refillStep_mapped {s : State} {h : Nat} (n : Nat) (hh : s.holds h) (hd : s.drawMapOk.1 = true) :
    refillStep (.f3 n h) s = (s.drawMapOk.2.setBuffer h { s.buffer h with map := some .inbound },
      .goto (.f4 n h (xlateOf s.cfg h) .p1)) := by
  rw [refillStep, State.mapBuffer_of_holds _ hh, hd]
  rfl

/-- The state F2 leaves: the lowest free buffer is held, and the next draw is the one it was. -/
theorem State.acquired_holds {s : State} {h : Nat} (hf : s.lowestFree = some h) (hpool : s.pool.length = s.cfg.poolSize) :
    let e : PoolEntry := ⟨.eng, BitVec.ofNat 16 s.cfg.bufSize, none⟩
    (s.setBuffer h e).holds h ∧ (s.setBuffer h e).buffer h = e
      ∧ (s.setBuffer h e).drawMapOk
        = (s.drawMapOk.1, { s.setBuffer h e with draws := s.drawMapOk.2.draws, tick := s.drawMapOk.2.tick }) := by
  intro e
  have hlt := (State.lowestFree_eq_some.mp hf).1
  have hsame := s.buffer_setBuffer_same e (hpool ▸ hlt)
  exact ⟨⟨hlt, by rw [hsame]; nofun, by rw [hsame]⟩, hsame, State.drawMapOk_congr rfl rfl⟩

section
variable {W : RefillPc → Task} (hW : Fills W) (c : Ctx) (n : Nat) {s : State}
include hW

/-- F1 on a full ring. -/
theorem reaches_full (hfull : s.full .rx = true) : Reaches c 1 (W (.f1 n)) s (W (.f9 n)) s :=
  .step (hW.taskStep (by rw [refillStep, hfull]; rfl) c) .rfl

/-- F1 and F2 with an exhausted pool. -/
theorem reaches_exhausted (hfull : s.full .rx = false) (hf : s.lowestFree = none) :
    Reaches c 2 (W (.f1 n)) s (W (.f9 n)) s := by
  refine .step (hW.taskStep (refillStep_room n hfull) c) (.step (hW.taskStep ?_ c) .rfl)
  rw [refillStep, State.poolAcquire_eq_none (.inr (State.lowestFree_eq_none.mp hf))]

/-- F4 to F7: the slot at the head is armed with the mapped buffer `h`. -/
theorem reaches_armed (h : Nat) : Reaches c 7 (W (.f4 n h (xlateOf s.cfg h) .p1)) s (W (.f1 (n + 1)))
    (s.arm .rx h 0x90000000 (BitVec.ofNat 32 s.cfg.bufSize)) := by
  have hstatus : (0x90000000 : Word) = rxArmedStatus := by decide
  rw [hstatus]
  let u1 := s.descWrite64 (bufferAddr s.cfg .rx s.rx.head) (xlateOf s.cfg h)
  let u2 := u1.descWrite32 (lengthAddr s.cfg .rx s.rx.head) (BitVec.ofNat 32 s.cfg.bufSize)
  let u4 := u2.descWrite32 (statusAddr s.cfg .rx s.rx.head) rxArmedStatus
  let u5 := u4.setPending .rx s.rx.head (some (h, xlateOf s.cfg h))
  let u6 := u5.setHead .rx (nextIndex s.rx.head s.cfg.nRx)
  have h1 := hW.taskStep (p := .f4 n h (xlateOf s.cfg h) .p1) (s := s) (u := u1) rfl c
  have h2 := hW.taskStep (p := .f4 n h (xlateOf s.cfg h) (.p2 s.rx.head)) (s := u1) (u := u2) rfl c
  have h3 := hW.taskStep (p := .f4 n h (xlateOf s.cfg h) (.p3 s.rx.head)) (s := u2) (u := u2) rfl c
  have h4 := hW.taskStep (p := .f4 n h (xlateOf s.cfg h) (.p4 s.rx.head)) (s := u2) (u := u4) rfl c
  have h5 := hW.taskStep (p := .f5 n h (xlateOf s.cfg h) s.rx.head) (s := u4) (u := u5) rfl c
  have h6 := hW.taskStep (p := .f6 n s.rx.head) (s := u5) (u := u6) rfl c
  have h7 := hW.taskStep (p := .f7 n) (s := u6) (u := u6) rfl c
  exact .step h1 (.step h2 (.step h3 (.step h4 (.step h5 (.step h6 (.step h7 .rfl))))))

section
variable {h : Nat} (hfull : s.full .rx = false) (hf : s.lowestFree = some h) (hpool : s.pool.length = s.cfg.poolSize)
include hfull hf hpool

/-- F1 to F3 with a mapping that fails. -/
theorem reaches_mapFailed (hd : s.drawMapOk.1 = false) : Reaches c 3 (W (.f1 n)) s (W (.f9 n))
    (s.drawMapOk.2.setBuffer h ⟨.free, BitVec.ofNat 16 s.cfg.bufSize, none⟩) := by
  obtain ⟨hh, hsame, hdraw⟩ := State.acquired_holds hf hpool
  refine .step (hW.taskStep (refillStep_room n hfull) c) (.step (hW.taskStep (refillStep_acquired n hf) c)
    (.step (hW.taskStep ((refillStep_mapFailure n hh (by rw [hdraw]; exact hd)).trans ?_) c) .rfl))
  rw [hsame, hdraw, s.drawMapOk_frame]
  simp [State.setBuffer]

/-- F1 to F7: one slot more is armed, with the lowest free buffer. -/
theorem reaches_next (hd : s.drawMapOk.1 = true) :
    Reaches c 10 (W (.f1 n)) s (W (.f1 (n + 1))) (s.drawMapOk.2.armRx h) := by
  obtain ⟨hh, hsame, hdraw⟩ := State.acquired_holds hf hpool
  have hmapped := refillStep_mapped n hh (by rw [hdraw]; exact hd)
  have hu : (s.setBuffer h ⟨.eng, BitVec.ofNat 16 s.cfg.bufSize, none⟩).drawMapOk.2.setBuffer h
        ⟨.eng, BitVec.ofNat 16 s.cfg.bufSize, some .inbound⟩
      = s.drawMapOk.2.setBuffer h ⟨.eng, BitVec.ofNat 16 s.cfg.bufSize, some .inbound⟩ := by
    rw [hdraw, s.drawMapOk_frame]
    simp [State.setBuffer]
  rw [hsame, hu] at hmapped
  have harm := reaches_armed hW c n (s := s.drawMapOk.2.setBuffer h ⟨.eng, BitVec.ofNat 16 s.cfg.bufSize, some .inbound⟩) h
  rw [State.setBuffer_cfg, State.drawMapOk_cfg] at harm
  rw [State.armRx, State.drawMapOk_cfg]
  exact .step (hW.taskStep (refillStep_room n hfull) c) (.step (hW.taskStep (refillStep_acquired n hf) c)
    (.step (hW.taskStep hmapped c) harm))

end

end

/-! ## DRAIN (R141) -/

/-- The buffer `h` of a consumed slot `i` goes back to the pool, or with its packet to upstream (R141 G4, G5). -/
def State.handOver (s : State) (i h : Nat) : State :=
  let len := (s.descriptor .rx i).2.1
  if s.dropped i then { s.setBuffer h { s.buffer h with own := .free, map := none } with rxErr := s.rxErr + 1 }
  else (s.setBuffer h ⟨.up, len.setWidth 16, none⟩).emit (.deliver h (s.bufBytes h len.toNat))

section
variable (s : State) (i h : Nat)

@[simp] theorem State.handOver_cfg : (s.handOver i h).cfg = s.cfg := by unfold State.handOver; split <;> rfl

@[simp] theorem State.handOver_rx : (s.handOver i h).rx = s.rx := by unfold State.handOver; split <;> rfl

end

theorem State.takeRx_of_pending {s : State} {h : Nat} {a : DAddr} (hp : s.pending .rx s.rx.tail = some (h, a)) :
    s.takeRx = ((s.handOver s.rx.tail h).setPending .rx s.rx.tail none).setTail .rx (nextIndex s.rx.tail s.cfg.nRx) := by
  rw [State.takeRx, hp]
  rfl

section
variable {s : State} {b w : Nat}

theorem drainStep_spent (hb : b ≤ w) : drainStep b (.g1 w) s = (s, .goto (.g9 w)) := if_pos (decide_eq_true hb)

theorem drainStep_budget (hb : w < b) : drainStep b (.g1 w) s = (s, .goto (.g2 w .k1)) :=
  if_neg fun h => Nat.not_le.mpr hb (of_decide_eq_true h)

/-- K1 with no slot at the tail, or one that the device owns. -/
theorem drainStep_caughtUp (h : s.rx.head = s.rx.tail ∨ (s.descriptor .rx s.rx.tail).1.getLsbD 31 = true) :
    drainStep b (.g2 w .k1) s = (s, .goto (.g9 w)) := by rw [drainStep, peekStep_k1_none (r := .rx) h]

theorem drainStep_completed (hne : s.rx.head ≠ s.rx.tail) (hown : (s.descriptor .rx s.rx.tail).1.getLsbD 31 = false) :
    drainStep b (.g2 w .k1) s = (s, .goto (.g2 w (.k2 s.rx.tail (s.descriptor .rx s.rx.tail).1))) := by
  rw [drainStep, peekStep_k1_some (r := .rx) hne hown]
  rfl

theorem drainStep_entry {h : Nat} {a : DAddr} (st len : Word) (hp : s.pending .rx s.rx.tail = some (h, a)) :
    drainStep b (.g3 w st len) s = (s, .goto (.g4 w st len s.rx.tail h)) := by rw [drainStep, hp]

section
variable {h : Nat} {st len : Word} (i : Nat)

theorem drainStep_unmapped (hm : s.holdsMapped h .inbound) : drainStep b (.g4 w st len i h) s
    = (s.setBuffer h { s.buffer h with map := none }, .goto (.g5 w st len i h)) := by
  rw [drainStep, State.unmapBuffer_of_holdsMapped hm]
  rfl

theorem drainStep_dropped (hd : (errBit st || s.tooLong len) = true) (hh : s.holds h) :
    drainStep b (.g5 w st len i h) s
      = ({ s with rxErr := bump s.rxErr }.setBuffer h { s.buffer h with own := .free }, .goto (.g6 w i)) := by
  rw [drainStep, if_pos hd, State.poolRelease_of_holds (s := { s with rxErr := bump s.rxErr }) hh]
  rfl

theorem drainStep_delivered (hd : (errBit st || s.tooLong len) = false) : drainStep b (.g5 w st len i h) s
    = ((s.setBuffer h { s.buffer h with len := len.setWidth 16, own := .up }).emit
      (.deliver h (s.bufBytes h len.toNat)), .goto (.g6 w i)) := by rw [drainStep, hd]; rfl

/-- G5 once the buffer of slot `i` is unmapped. -/
theorem drainStep_handOver (hm : s.holdsMapped h .inbound) :
    drainStep b (.g5 w (s.descriptor .rx i).1 (s.descriptor .rx i).2.1 i h) (s.setBuffer h { s.buffer h with map := none })
      = (s.handOver i h, .goto (.g6 w i)) := by
  have hsame := s.buffer_setBuffer_same { s.buffer h with map := none } (State.lt_of_own hm.2.1)
  rw [State.handOver]
  cases hd : s.dropped i with
  | true =>
    rw [drainStep_dropped (s := s.setBuffer h _) i hd (State.holds_unmapped hm), hsame]
    simp [State.setBuffer, bump]
  | false =>
    rw [drainStep_delivered (s := s.setBuffer h _) i hd, hsame, State.setBuffer_setBuffer]
    rfl

end

end

section
variable {b : Nat} {W : DrainPc → Task} (hW : Drains b W) (c : Ctx) {w : Nat} {s : State}
include hW

/-- G1 with the budget spent. -/
theorem reaches_spent (hb : b ≤ w) : Reaches c 1 (W (.g1 w)) s (W (.g9 w)) s :=
  .step (hW.taskStep (drainStep_spent hb) c) .rfl

/-- G1 and K1 where there is nothing to consume. -/
theorem reaches_caughtUp (hb : w < b) (h : s.rx.head = s.rx.tail ∨ (s.descriptor .rx s.rx.tail).1.getLsbD 31 = true) :
    Reaches c 2 (W (.g1 w)) s (W (.g9 w)) s :=
  .step (hW.taskStep (drainStep_budget hb) c) (.step (hW.taskStep (drainStep_caughtUp h) c) .rfl)

/-- G1 to G8: the slot at the tail is consumed. -/
theorem reaches_taken {h : Nat} {a : DAddr} (hb : w < b) (hne : s.rx.head ≠ s.rx.tail)
    (hown : (s.descriptor .rx s.rx.tail).1.getLsbD 31 = false) (hp : s.pending .rx s.rx.tail = some (h, a))
    (hm : s.holdsMapped h .inbound) : Reaches c 9 (W (.g1 w)) s (W (.g1 (w + 1))) s.takeRx := by
  rw [State.takeRx_of_pending hp]
  have hlength : drainStep b (.g2 w (.k2 s.rx.tail (s.descriptor .rx s.rx.tail).1)) s
      = (s, .goto (.g3 w (s.descriptor .rx s.rx.tail).1 (s.descriptor .rx s.rx.tail).2.1)) := rfl
  have hcleared : drainStep b (.g6 w s.rx.tail) (s.handOver s.rx.tail h)
      = ((s.handOver s.rx.tail h).setPending .rx s.rx.tail none, .goto (.g7 w)) := rfl
  have hadvanced : drainStep b (.g7 w) ((s.handOver s.rx.tail h).setPending .rx s.rx.tail none)
      = (((s.handOver s.rx.tail h).setPending .rx s.rx.tail none).setTail .rx (nextIndex s.rx.tail s.cfg.nRx),
        .goto (.g8 w)) := by
    rw [drainStep, State.advanceTail, State.ring_setPending_same, State.setPending_cfg, State.handOver_cfg, State.ring,
      State.handOver_rx]
    rfl
  exact .step (hW.taskStep (drainStep_budget hb) c) (.step (hW.taskStep (drainStep_completed hne hown) c)
    (.step (hW.taskStep hlength c) (.step (hW.taskStep (drainStep_entry _ _ hp) c)
    (.step (hW.taskStep (drainStep_unmapped _ hm) c) (.step (hW.taskStep (drainStep_handOver _ hm) c)
    (.step (hW.taskStep hcleared c) (.step (hW.taskStep hadvanced c) (.step (hW.taskStep rfl c) .rfl))))))))

end

end Sys2Proof.Machine
end

section
/-! PROOF. REFILL and DRAIN run to their response (42_receive_engine R140, R141, R143). -/

namespace Sys2Proof.Machine

/-! ## The window's length as its ends move (10_state R24) -/

section
variable {h t n : Nat} (hh : h < n) (ht : t < n)
include hh ht

theorem subIndex_nextHead (hf : nextIndex h n ≠ t) : subIndex (nextIndex h n) t n = subIndex h t n + 1 := by
  have hn : nextIndex h n < n := nextIndex_lt h (by omega)
  rw [subIndex_eq hn ht, subIndex_eq hh ht]
  rw [nextIndex_eq hh] at hf ⊢
  split at hf <;> split_ifs <;> omega

theorem subIndex_nextTail (he : h ≠ t) : subIndex h (nextIndex t n) n + 1 = subIndex h t n := by
  have hn : nextIndex t n < n := nextIndex_lt t (by omega)
  rw [subIndex_eq hh hn, subIndex_eq hh ht, nextIndex_eq ht]
  split_ifs <;> omega

end

/-- The pool and the RX ring have the sizes of R29 and R31, and the RX indices lie in `0..N-1` (R22). -/
structure State.RxSized (s : State) : Prop where
  pool : s.pool.length = s.cfg.poolSize
  pend : s.rx.pend.length = s.cfg.nRx
  head : s.rx.head < s.cfg.nRx
  tail : s.rx.tail < s.cfg.nRx

theorem State.RxSized.of_sizesOk {s : State} (h : s.sizesOk = true) : s.RxSized := by
  simp only [State.sizesOk, Bool.and_eq_true, decide_eq_true_eq] at h
  obtain ⟨⟨⟨⟨⟨⟨hpool, hpend⟩, -⟩, hhead⟩, htail⟩, -⟩, -⟩ := h
  exact ⟨hpool, hpend, hhead, htail⟩

theorem State.count_lt {s : State} (h : s.RxSized) : s.count .rx < s.cfg.nRx :=
  Nat.mod_lt _ (Nat.lt_of_le_of_lt (Nat.zero_le _) h.head)

theorem State.freeSlots_lt {s : State} (h : s.RxSized) : s.freeSlots .rx < s.cfg.nRx := by
  have hh := h.head
  rw [State.freeSlots, ringSize]
  omega

/-! ## What REFILL's loop makes of a slot and a buffer (R140 F2 to F6) -/

section
variable (s : State) (h : Nat)

@[simp] theorem State.drawMapOk_rx : s.drawMapOk.2.rx = s.rx := by rw [State.drawMapOk_frame]

@[simp] theorem State.armRx_cfg : (s.armRx h).cfg = s.cfg := rfl

@[simp] theorem State.armRx_draws : (s.armRx h).draws = s.draws := rfl

@[simp] theorem State.armRx_tail : (s.armRx h).rx.tail = s.rx.tail := rfl

@[simp] theorem State.armRx_head : (s.armRx h).rx.head = nextIndex s.rx.head s.cfg.nRx := rfl

@[simp] theorem State.armRx_pool :
    (s.armRx h).pool = (s.setBuffer h ⟨.eng, BitVec.ofNat 16 s.cfg.bufSize, some .inbound⟩).pool := rfl

theorem State.armRx_buffer (j : Nat) : (s.armRx h).buffer j
    = (s.setBuffer h ⟨.eng, BitVec.ofNat 16 s.cfg.bufSize, some .inbound⟩).buffer j := by
  simp only [State.buffer, State.armRx_pool]

theorem State.armRx_pend :
    (s.armRx h).rx.pend = s.rx.pend.set s.rx.head (some (h, xlateOf s.cfg h)) := rfl

end

section
variable {s : State} (hs : s.RxSized) (h : Nat)
include hs

omit h in
theorem State.RxSized.drawMapOk : s.drawMapOk.2.RxSized where
  pool := by simp [hs.pool]
  pend := by simp [hs.pend]
  head := by simpa using hs.head
  tail := by simpa using hs.tail

theorem State.RxSized.armNext : (s.drawMapOk.2.armRx h).RxSized where
  pool := by simp [hs.pool]
  pend := by simp [State.armRx_pend, hs.pend]
  head := by simpa using nextIndex_lt _ (Nat.lt_of_le_of_lt (Nat.zero_le _) hs.head)
  tail := by simpa using hs.tail

theorem State.count_armNext (hfull : s.full .rx = false) : (s.drawMapOk.2.armRx h).count .rx = s.count .rx + 1 := by
  have hne : nextIndex s.rx.head s.cfg.nRx ≠ s.rx.tail := by simpa [State.full, State.ring, ringSize] using hfull
  simpa [State.count, State.ring, ringSize] using subIndex_nextHead hs.head hs.tail hne

theorem State.freeSlots_armNext (hfull : s.full .rx = false) :
    (s.drawMapOk.2.armRx h).freeSlots .rx + 1 = s.freeSlots .rx := by
  have hcount := State.count_armNext hs h hfull
  have hlt := State.count_lt (hs.armNext h)
  simp only [State.freeSlots, ringSize, hcount, State.armRx_cfg, State.drawMapOk_cfg] at hlt ⊢
  omega

end

/-! ## The loops, an equation per case -/

section
variable {s : State} (k : Nat)

theorem State.refillAll_full (hfull : s.full .rx = true) : s.refillAll (k + 1) = (s, 0) :=
  if_pos (of_decide_eq_true hfull)

theorem State.room (hfull : s.full .rx = false) : (s.rx.head + 1) % s.cfg.nRx ≠ s.rx.tail := of_decide_eq_false hfull

section
variable (hfull : s.full .rx = false)
include hfull

theorem State.refillAll_exhausted (hf : s.lowestFree = none) : s.refillAll (k + 1) = (s, 0) := by
  rw [State.refillAll, if_neg (State.room hfull), hf]

theorem State.refillAll_armed {h : Nat} (hf : s.lowestFree = some h) (hd : s.drawMapOk.1 = true) :
    s.refillAll (k + 1)
      = (((s.drawMapOk.2.armRx h).refillAll k).1, ((s.drawMapOk.2.armRx h).refillAll k).2 + 1) := by
  rw [State.refillAll, if_neg (State.room hfull), hf]
  exact if_pos hd

theorem State.refillAll_mapFailed {h : Nat} (hf : s.lowestFree = some h) (hd : s.drawMapOk.1 = false) :
    s.refillAll (k + 1) = (s.drawMapOk.2.setBuffer h ⟨.free, BitVec.ofNat 16 s.cfg.bufSize, none⟩, 0) := by
  rw [State.refillAll, if_neg (State.room hfull), hf]
  exact if_neg (Bool.not_eq_true _ ▸ hd)

end

/-- There is nothing to consume at the tail: no slot, or one that the device owns (R141 G2). -/
def State.caughtUp (s : State) : Prop := s.rx.head = s.rx.tail ∨ (s.descriptor .rx s.rx.tail).1.getLsbD 31 = true

theorem State.drainAll_caughtUp (h : s.caughtUp) : s.drainAll (k + 1) = (s, 0) := if_pos h

theorem State.drainAll_taken (h : ¬ s.caughtUp) :
    s.drainAll (k + 1) = ((s.takeRx.drainAll k).1, (s.takeRx.drainAll k).2 + 1) := if_neg h

end

/-- REFILL from F1 to F9 is its loop, for more iterations than there are free slots. -/
theorem reaches_refillAll {W : RefillPc → Task} (hW : Fills W) (c : Ctx) {s : State} (hs : s.RxSized) (k n : Nat)
    (hk : s.freeSlots .rx < k) :
    Reaches c (10 * s.freeSlots .rx + 3) (W (.f1 n)) s (W (.f9 (n + (s.refillAll k).2))) (s.refillAll k).1 := by
  fun_induction State.refillAll k s generalizing n with
  | case1 s => omega
  | case2 k s hfull => exact (reaches_full hW c n (decide_eq_true hfull)).mono (by omega)
  | case3 k s hroom hf => exact (reaches_exhausted hW c n (decide_eq_false hroom) hf).mono (by omega)
  | case4 k s hroom h hf hd r ih =>
    have hfree := State.freeSlots_armNext hs h (decide_eq_false hroom)
    have hloop := ih (hs.armNext h) (n + 1) (by omega)
    rw [Nat.add_assoc, Nat.add_comm 1] at hloop
    exact ((reaches_next hW c n (decide_eq_false hroom) hf hs.pool hd).trans hloop).mono (by omega)
  | case5 k s hroom h hf hd =>
    exact (reaches_mapFailed hW c n (decide_eq_false hroom) hf hs.pool (Bool.not_eq_true _ ▸ hd)).mono (by omega)

/-! ## `poll_running` has no part in the loops -/

/-- `poll_running <- b` (R140 F0 and F9, R141 G0 and G9). -/
def State.polling (s : State) (b : Bool) : State := { s with pollRunning := b }

theorem State.polling_self {s : State} {b : Bool} (h : s.pollRunning = b) : s.polling b = s := by
  rw [State.polling, ← h]

section
variable (s : State) (b : Bool)

theorem State.drawMapOk_polling : (s.polling b).drawMapOk = (s.drawMapOk.1, s.drawMapOk.2.polling b) := by
  simp only [State.drawMapOk, State.polling]
  split <;> rfl

theorem State.descWrite32_polling (a : Nat) (v : Word) :
    (s.polling b).descWrite32 a v = (s.descWrite32 a v).polling b := rfl

theorem State.descWrite64_polling (a : Nat) (v : DAddr) :
    (s.polling b).descWrite64 a v = (s.descWrite64 a v).polling b := rfl

theorem State.setPending_polling (r : Ring) (i : Nat) (e : Option (Nat × DAddr)) :
    (s.polling b).setPending r i e = (s.setPending r i e).polling b := by cases r <;> rfl

theorem State.setHead_polling (r : Ring) (i : Nat) : (s.polling b).setHead r i = (s.setHead r i).polling b := by
  cases r <;> rfl

theorem State.ring_polling (r : Ring) : (s.polling b).ring r = s.ring r := by cases r <;> rfl

theorem State.arm_polling (r : Ring) (h : Nat) (st len : Word) :
    (s.polling b).arm r h st len = (s.arm r h st len).polling b := by
  simp only [State.arm, State.setDescriptor, State.descWrite64_polling, State.descWrite32_polling,
    State.setPending_polling, State.setHead_polling, State.ring_polling]
  rfl

theorem State.armRx_polling (h : Nat) : (s.polling b).armRx h = (s.armRx h).polling b :=
  (s.setBuffer h ⟨.eng, BitVec.ofNat 16 s.cfg.bufSize, some .inbound⟩).arm_polling b .rx h _ _

theorem State.refillAll_polling (k : Nat) :
    State.refillAll k (s.polling b) = ((s.refillAll k).1.polling b, (s.refillAll k).2) := by
  fun_induction State.refillAll k s with
  | case1 s => rfl
  | case2 k s hfull => exact State.refillAll_full (s := s.polling b) k (decide_eq_true hfull)
  | case3 k s hroom hf => exact State.refillAll_exhausted (s := s.polling b) k (decide_eq_false hroom) hf
  | case4 k s hroom h hf hd r ih =>
    rw [State.refillAll_armed (s := s.polling b) k (decide_eq_false hroom) hf (by rw [State.drawMapOk_polling]; exact hd)]
    simp only [State.drawMapOk_polling, State.armRx_polling, ih, r]
  | case5 k s hroom h hf hd =>
    rw [State.refillAll_mapFailed (s := s.polling b) k (decide_eq_false hroom) hf
      (by rw [State.drawMapOk_polling]; exact Bool.not_eq_true _ ▸ hd), State.drawMapOk_polling]
    rfl

end

/-- An engine's command from its first label on, as its loop `f` does it: `poll_running` is set while it runs. -/
theorem exec_loop {i : Instr} {t t' : Task} {s u : State} {k n : Nat} (hr : s.Ready i)
    (ha : acceptance i s = .start t (s.polling true)) (hrun : Reaches s.cur k t (s.polling true) t' (u.polling true))
    (hret : taskStep s.cur t' (u.polling true) = (u.polling false, .ret (.ok, n))) (hp : u.pollRunning = false)
    (hk : k + 1 ≤ s.slice) : exec i s = .next (u.respond s.cur .ok n) := by
  rw [exec_of_ret hr ha (hrun.ret hret) hk, State.polling_self hp]

theorem State.refillAll_pollRunning {s : State} (h : s.pollRunning = false) (k : Nat) :
    (s.refillAll k).1.pollRunning = false := by
  have hx := s.refillAll_polling false k
  rw [State.polling_self h] at hx
  exact congrArg (·.1.pollRunning) hx

/-- Settles O31: the command runs from F1 to F9 within its slice, and arms fewer slots than the ring has. -/
theorem refillRuns : Obligations.RefillRuns := by
  intro s hr hup hp hsizes hk
  have hs := State.RxSized.of_sizesOk hsizes
  have hs' : (s.polling true).RxSized := ⟨hs.pool, hs.pend, hs.head, hs.tail⟩
  have hfree : (s.polling true).freeSlots .rx < s.cfg.nRx := State.freeSlots_lt hs'
  have hrun := reaches_refillAll .refill s.cur hs' s.cfg.nRx 0 hfree
  rw [State.refillAll_polling, Nat.zero_add] at hrun
  exact exec_loop hr (acceptPoll_of_up _ hup hp) hrun rfl (State.refillAll_pollRunning hp _) (by omega)

/-- Settles O35: G1 or K1 leads DRAIN to G9, and F1 leads REFILL to F9, in a state that is as it was. -/
theorem nothingToDo : Obligations.NothingToDo := by
  intro s hup hp hk
  refine ⟨fun b hr hnone => ?_, fun hr hfull => ?_⟩
  · rw [← respWord_ok_zero]
    refine exec_loop (t := .drain b (.g1 0)) (t' := .drain b (.g9 0)) (k := 2) hr (acceptPoll_of_up _ hup hp) ?_ rfl hp hk
    by_cases hb : b = 0
    · exact (reaches_spent (.drain b) s.cur (by omega)).mono (by omega)
    · exact reaches_caughtUp (.drain b) s.cur (by omega) ((hnone.resolve_left hb).imp_left (s.empty_iff .rx).mp)
  · rw [← respWord_ok_zero]
    exact exec_loop (k := 1) hr (acceptPoll_of_up _ hup hp) (reaches_full .refill s.cur 0 (s := s.polling true) hfull) rfl hp
      (by omega)

end Sys2Proof.Machine
end

section
/-! PROOF. The frame of REFILL, DRAIN and POLL, micro-step by micro-step (42_receive_engine R140, R141,
44_event_dispatcher R173). -/

namespace Sys2Proof.Machine

/-! ## A slice that keeps what each of its micro-steps keeps -/

/-- A micro-step leads to `I` where the operation goes on, and to `Q` where it ends. -/
def Next.Leads {π ρ : Type} (I : State → π → Prop) (Q : State → Prop) : State × Next π ρ → Prop
  | (u, .goto p) => I u p
  | (u, .ret _) => Q u
  | (_, .hold) => True
  | (u, .stop) => Q u

/-- What holds at every label of an operation holds wherever a slice leaves it. -/
theorem taskRun_leads {c : Ctx} {I : State → Task → Prop} {Q : State → Prop} (hQ : ∀ s t, I s t → Q s)
    (hstep : ∀ s t, I s t → Next.Leads I Q (taskStep c t s)) (n : Nat) :
    ∀ s t, I s t → Q (taskRun c n t s).1 := by
  induction n with
  | zero => exact hQ
  | succ n ih =>
    intro s t h
    have hs := hstep s t h
    rw [taskRun]
    rcases hx : taskStep c t s with ⟨u, t' | r | _ | _⟩ <;> rw [hx] at hs
    · exact ih u t' hs
    · exact hs
    · exact hQ s t h
    · exact hs

/-! ## REFILL -/

theorem State.inWindow_of_ring {s u : State} {r : Ring} (hc : u.cfg = s.cfg) (hr : u.ring r = s.ring r) :
    u.inWindow r = s.inWindow r := funext (State.inWindow_congr hc (by rw [hr]) (by rw [hr]))

/-- The fields REFILL writes. -/
def RefillFrame (s u : State) : Prop :=
  u = { s with
    rx := u.rx, pool := u.pool, pollRunning := u.pollRunning, fault := u.fault, desc := u.desc, draws := u.draws,
    tick := u.tick }

theorem RefillFrame.trans {s u v : State} (h : RefillFrame s u) (g : RefillFrame u v) : RefillFrame s v := by
  rw [RefillFrame] at h g ⊢
  rw [g, h]

/-- What REFILL keeps of the slots that are in the window when it starts. -/
structure RxWindowKept (s u : State) : Prop where
  head : u.rx.head < s.cfg.nRx
  slots : ∀ i, i < s.cfg.nRx → s.inWindow .rx i = true → u.inWindow .rx i = true
  pending : ∀ i, s.inWindow .rx i = true → u.pending .rx i = s.pending .rx i
  bytes : ∀ a, (∀ i, i < s.cfg.nRx → inDescriptor s.cfg .rx i a → s.inWindow .rx i = true) → u.descByte a = s.descByte a

/-- What REFILL keeps (R140). -/
structure RefillKeeps (s u : State) : Prop where
  frame : RefillFrame s u
  tail : u.rx.tail = s.rx.tail
  buffers : ∀ j, (s.buffer j).own ≠ .free → u.buffer j = s.buffer j
  window : s.rx.head < s.cfg.nRx → s.rx.tail < s.cfg.nRx → RxWindowKept s u

theorem RefillKeeps.rfl {s : State} : RefillKeeps s s :=
  ⟨by rfl, by rfl, fun _ _ => by rfl, fun hh _ => ⟨hh, fun _ _ h => h, fun _ _ => by rfl, fun _ _ => by rfl⟩⟩

section
variable {s v u : State} (h : RefillKeeps s v)
include h

theorem RefillKeeps.cfg : v.cfg = s.cfg := by rw [h.frame]

theorem RefillKeeps.buf : v.buf = s.buf := by rw [h.frame]

/-- An update of neither the RX ring, the buffers nor descriptor memory. -/
theorem RefillKeeps.update (hf : RefillFrame v u) (hrx : u.rx = v.rx)
    (hbuf : ∀ j, (s.buffer j).own ≠ .free → u.buffer j = v.buffer j) (hdesc : u.desc = v.desc) : RefillKeeps s u where
  frame := h.frame.trans hf
  tail := by rw [hrx, h.tail]
  buffers j hj := (hbuf j hj).trans (h.buffers j hj)
  window hh ht := by
    obtain ⟨hhead, hslots, hpend, hbytes⟩ := h.window hh ht
    have hcfg : u.cfg = v.cfg := by rw [hf]
    refine ⟨by rw [hrx]; exact hhead, fun i hi hw => ?_, fun i hw => ?_, fun a ha => ?_⟩
    · rw [State.inWindow_of_ring (r := .rx) hcfg hrx]
      exact hslots i hi hw
    · rw [State.pending_congr (r := .rx) hrx]
      exact hpend i hw
    · rw [← hbytes a ha]
      simp only [State.descByte, hdesc]

theorem RefillKeeps.polling (b : Bool) : RefillKeeps s (v.polling b) := h.update (by rfl) (by rfl) (fun _ _ => by rfl) (by rfl)

theorem RefillKeeps.raise : RefillKeeps s (v.raise .pool) := h.update (by rfl) (by rfl) (fun _ _ => by rfl) (by rfl)

theorem RefillKeeps.drawMapOk : RefillKeeps s v.drawMapOk.2 :=
  h.update (by rw [RefillFrame, v.drawMapOk_frame]) v.drawMapOk_rx (fun j _ => v.drawMapOk_buffer j)
    (by rw [v.drawMapOk_frame])

theorem RefillKeeps.setBuffer {k : Nat} (e : PoolEntry) (hk : (s.buffer k).own = .free) : RefillKeeps s (v.setBuffer k e) :=
  h.update (by rfl) (by rfl) (fun _ hj => v.buffer_setBuffer_other e fun he => hj (he ▸ hk)) (by rfl)

/-- The slot at the head is not one of those in the window at the start. -/
theorem RefillKeeps.head_outside (hh : s.rx.head < s.cfg.nRx) (ht : s.rx.tail < s.cfg.nRx) :
    s.inWindow .rx v.rx.head = false := by
  obtain ⟨hhead, hslots, -, -⟩ := h.window hh ht
  rw [Bool.eq_false_iff]
  intro hw
  have hw' := hslots _ hhead hw
  rw [show v.rx.head = (v.ring .rx).head from by rfl, State.inWindow_head] at hw'
  cases hw'

/-- A write inside the descriptor at the head. -/
theorem RefillKeeps.write (hf : u = { v with desc := u.desc })
    (hd : ∀ a, ¬ inDescriptor v.cfg .rx v.rx.head a → u.descByte a = v.descByte a) : RefillKeeps s u where
  frame := h.frame.trans (by rw [RefillFrame, hf])
  tail := by rw [hf]; exact h.tail
  buffers j hj := by rw [hf]; exact h.buffers j hj
  window hh ht := by
    have hout := h.head_outside hh ht
    obtain ⟨hhead, hslots, hpend, hbytes⟩ := h.window hh ht
    refine ⟨by rw [hf]; exact hhead, fun i hi hw => ?_, fun i hw => ?_, fun a ha => ?_⟩
    · rw [hf]
      exact hslots i hi hw
    · rw [hf]
      exact hpend i hw
    · rw [hd a, hbytes a ha]
      intro hin
      rw [h.cfg] at hin
      rw [ha _ hhead hin] at hout
      cases hout

theorem RefillKeeps.writeHead32 {a : Nat} (w : Word) (hlo : statusAddr v.cfg .rx v.rx.head ≤ a)
    (hhi : a + 4 ≤ statusAddr v.cfg .rx v.rx.head + 16) : RefillKeeps s (v.descWrite32 a w) :=
  h.write (by rfl) fun x hx => v.descByte_descWrite32_outside w (by
    simp only [inDescriptor, statusAddr, Config.descSize] at hx hlo hhi; omega)

theorem RefillKeeps.writeHead64 {a : Nat} (w : DAddr) (hlo : statusAddr v.cfg .rx v.rx.head ≤ a)
    (hhi : a + 8 ≤ statusAddr v.cfg .rx v.rx.head + 16) : RefillKeeps s (v.descWrite64 a w) :=
  h.write (by rfl) fun x hx => v.descByte_descWrite64_outside w (by
    simp only [inDescriptor, statusAddr, Config.descSize] at hx hlo hhi; omega)

theorem RefillKeeps.recordHead (e : Option (Nat × DAddr)) : RefillKeeps s (v.setPending .rx v.rx.head e) where
  frame := h.frame.trans (by rfl)
  tail := h.tail
  buffers j hj := h.buffers j hj
  window hh ht := by
    have hout := h.head_outside hh ht
    obtain ⟨hhead, hslots, hpend, hbytes⟩ := h.window hh ht
    refine ⟨hhead, hslots, fun i hw => ?_, hbytes⟩
    rw [State.pending_setPending, if_neg, hpend i hw]
    rintro ⟨-, rfl, -⟩
    rw [hw] at hout
    cases hout

theorem RefillKeeps.advanceHead (hfull : v.full .rx = false) :
    RefillKeeps s (v.setHead .rx (nextIndex v.rx.head v.cfg.nRx)) where
  frame := h.frame.trans (by rfl)
  tail := h.tail
  buffers j hj := h.buffers j hj
  window hh ht := by
    obtain ⟨hhead, hslots, hpend, hbytes⟩ := h.window hh ht
    have hne : nextIndex v.rx.head v.cfg.nRx ≠ v.rx.tail := State.room hfull
    rw [h.cfg] at hne ⊢
    refine ⟨nextIndex_lt _ (by omega), fun i hi hw => ?_, hpend, hbytes⟩
    have hw' := hslots i hi hw
    rw [State.inWindow_iff] at hw' ⊢
    simp only [State.count, State.ring_setHead_same, State.setHead_cfg, h.cfg] at hw' ⊢
    exact (window_nextHead hhead (h.tail ▸ ht) hi hne).mpr (.inl hw')

end

/-- REFILL stands at `p`: its buffer was free when it began, and its locals agree with the RX ring. -/
structure RefillAt (s₀ s : State) (p : RefillPc) : Prop where
  keeps : RefillKeeps s₀ s
  fresh : ∀ x ∈ p.claims, (s₀.buffer x.1).own = .free
  ok : p.ok s

theorem refillAt_micro {s₀ s u : State} {p p' : RefillPc} (h : RefillAt s₀ s p) (hm : RefillMicro s p u p') :
    RefillAt s₀ u p' := by
  obtain ⟨hk, hfresh, hok⟩ := h
  cases hm with
  | full hf => exact ⟨hk, hfresh, trivial⟩
  | room hf => exact ⟨hk, hfresh, hf⟩
  | @acquired n k hf =>
    have hfree : (s₀.buffer k).own = .free := by
      by_contra hne
      exact hne (hk.buffers k hne ▸ (State.lowestFree_eq_some.mp hf).2.1)
    exact ⟨hk.setBuffer _ hfree, by simpa [RefillPc.claims] using hfree, hok⟩
  | exhausted => exact ⟨hk, hfresh, trivial⟩
  | @mapped n k =>
    have hfree := hfresh (k, none) (List.mem_singleton.mpr rfl)
    refine ⟨hk.drawMapOk.setBuffer _ hfree, by simpa [RefillPc.claims] using hfree, ?_, ?_, rfl⟩
    · exact (State.full_congr (r := .rx) s.drawMapOk_cfg s.drawMapOk_rx).trans hok
    · exact congrArg (xlateOf · k) s.drawMapOk_cfg.symm
  | @mapFailed n k =>
    exact ⟨hk.drawMapOk.setBuffer _ (hfresh (k, none) (List.mem_singleton.mpr rfl)), nofun, trivial⟩
  | address =>
    obtain ⟨hf, ha, -⟩ := hok
    exact ⟨hk.writeHead64 _ (Nat.le_add_right ..) (Nat.le_refl _), hfresh, hf, ha, beq_self_eq_true _⟩
  | @length n k i a =>
    obtain ⟨hf, ha, hat⟩ := hok
    obtain rfl := beq_iff_eq.mp hat
    exact ⟨hk.writeHead32 _ (Nat.le_add_right ..) (by rw [lengthAddr]; omega), hfresh, hf, ha, hat⟩
  | barrier => exact ⟨hk, hfresh, hok⟩
  | @status n k i a =>
    obtain ⟨hf, ha, hat⟩ := hok
    obtain rfl := beq_iff_eq.mp hat
    exact ⟨hk.writeHead32 _ (Nat.le_refl _) (by omega), hfresh, hf, ha, rfl⟩
  | @recorded n k i a =>
    obtain ⟨hf, ha, rfl⟩ := hok
    exact ⟨hk.recordHead _, nofun, hf, rfl⟩
  | @advanced n i =>
    obtain ⟨hf, rfl⟩ := hok
    exact ⟨hk.advanceHead hf, nofun, trivial⟩
  | again => exact ⟨hk, nofun, trivial⟩

theorem refillStep_of_misuses {s : State} {p : RefillPc} (h : p.misuses s) : refillStep p s = (s.raise .pool, .stop) := by
  cases p with
  | f3 n k => rw [refillStep, State.mapBuffer_of_not_holds _ h]
  | _ => exact h.elim

theorem refillStep_leads {s₀ s : State} {p : RefillPc} (h : RefillAt s₀ s p) :
    Next.Leads (RefillAt s₀) (RefillKeeps s₀) (refillStep p s) := by
  have hm := refillStep_meets p s
  rcases hx : refillStep p s with ⟨u, p' | n | _ | _⟩ <;> rw [hx] at hm
  · exact refillAt_micro h hm
  · obtain ⟨-, rfl⟩ := hm
    exact h.keeps
  · trivial
  · obtain ⟨hmis, -⟩ := hm
    rw [refillStep_of_misuses hmis] at hx
    cases hx
    exact h.keeps.raise

/-! ## DRAIN -/

/-- The fields DRAIN writes. -/
def DrainFrame (s u : State) : Prop :=
  u = { s with
    rx := u.rx, pool := u.pool, pollRunning := u.pollRunning, rxErr := u.rxErr, fault := u.fault, hist := u.hist }

theorem DrainFrame.trans {s u v : State} (h : DrainFrame s u) (g : DrainFrame u v) : DrainFrame s v := by
  rw [DrainFrame] at h g ⊢
  rw [g, h]

/-- What DRAIN keeps (R141). -/
structure DrainKeeps (s u : State) : Prop where
  frame : DrainFrame s u
  head : u.rx.head = s.rx.head
  pending : ∀ i, u.pending .rx i = s.pending .rx i ∨ u.pending .rx i = none
  buffers : ∀ j, (∀ i a, s.pending .rx i ≠ some (j, a)) → u.buffer j = s.buffer j
  armed : s.rx.head < s.cfg.nRx → s.rx.tail < s.cfg.nRx →
    u.rx.tail < s.cfg.nRx ∧ ∀ i, i < s.cfg.nRx → s.slotState .rx i = .armed → u.inWindow .rx i = true

theorem State.slotState_armed_iff (s : State) (r : Ring) (i : Nat) : s.slotState r i = .armed
    ↔ s.inWindow r i = true ∧ ownBit (s.descRead32 (statusAddr s.cfg r i)) = true := by
  rw [State.slotState]
  split_ifs <;> simp [*]

theorem State.slotState_completed_iff (s : State) (r : Ring) (i : Nat) : s.slotState r i = .completed
    ↔ s.inWindow r i = true ∧ ownBit (s.descRead32 (statusAddr s.cfg r i)) = false := by
  rw [State.slotState]
  split_ifs <;> simp [*]

theorem State.descriptor_status (s : State) (r : Ring) (i : Nat) :
    (s.descriptor r i).1 = s.descRead32 (statusAddr s.cfg r i) := by rfl

theorem State.descriptor_congr {s u : State} (hc : u.cfg = s.cfg) (hd : u.desc = s.desc) :
    u.descriptor = s.descriptor := by
  funext r i
  rw [State.descriptor_eq_slotDesc, State.descriptor_eq_slotDesc, State.slotDesc_congr hc hd]

theorem DrainKeeps.rfl {s : State} : DrainKeeps s s :=
  ⟨by rfl, by rfl, fun _ => .inl (by rfl), fun _ _ => by rfl, fun _ ht =>
    ⟨ht, fun i _ hi => ((s.slotState_armed_iff .rx i).mp hi).1⟩⟩

section
variable {s v u : State} (h : DrainKeeps s v)
include h

theorem DrainKeeps.cfg : v.cfg = s.cfg := by rw [h.frame]

theorem DrainKeeps.buf : v.buf = s.buf := by rw [h.frame]

theorem DrainKeeps.desc : v.desc = s.desc := by rw [h.frame]

/-- An update of neither the RX ring nor a buffer that no slot has. -/
theorem DrainKeeps.update (hf : DrainFrame v u) (hrx : u.rx = v.rx)
    (hbuf : ∀ j, (∀ i a, s.pending .rx i ≠ some (j, a)) → u.buffer j = v.buffer j) : DrainKeeps s u where
  frame := h.frame.trans hf
  head := by rw [hrx, h.head]
  pending i := by rw [State.pending_congr (r := .rx) hrx]; exact h.pending i
  buffers j hj := (hbuf j hj).trans (h.buffers j hj)
  armed hh ht := by
    obtain ⟨htail, hslots⟩ := h.armed hh ht
    refine ⟨hrx ▸ htail, fun i hi ha => ?_⟩
    have hcfg : u.cfg = v.cfg := by rw [hf]
    rw [State.inWindow_of_ring (r := .rx) hcfg hrx]
    exact hslots i hi ha

theorem DrainKeeps.polling (b : Bool) : DrainKeeps s (v.polling b) := h.update (by rfl) (by rfl) (fun _ _ => by rfl)

theorem DrainKeeps.raise {f : Fault} : DrainKeeps s (v.raise f) :=
  h.update (by cases f <;> rfl) (by simp) (fun _ _ => by simp)

theorem DrainKeeps.emit (e : Event) : DrainKeeps s (v.emit e) := h.update (by rfl) (by rfl) (fun _ _ => by rfl)

theorem DrainKeeps.countError (e : Word) : DrainKeeps s { v with rxErr := e } :=
  h.update (by rfl) (by rfl) (fun _ _ => by rfl)

theorem DrainKeeps.setBuffer {k i : Nat} {a : DAddr} (e : PoolEntry) (hk : s.pending .rx i = some (k, a)) :
    DrainKeeps s (v.setBuffer k e) :=
  h.update (by rfl) (by rfl) fun _ hj => v.buffer_setBuffer_other e fun he => hj i a (he ▸ hk)

theorem DrainKeeps.clear (i : Nat) : DrainKeeps s (v.setPending .rx i none) where
  frame := h.frame.trans (by rfl)
  head := h.head
  pending j := by
    rw [State.pending_setPending]
    split
    · exact .inr (by rfl)
    · exact h.pending j
  buffers := h.buffers
  armed := h.armed

/-- The tail moves over a slot that the device does not own. -/
theorem DrainKeeps.advanceTail (hc : ¬ v.caughtUp) :
    DrainKeeps s (v.setTail .rx (nextIndex v.rx.tail v.cfg.nRx)) where
  frame := h.frame.trans (by rfl)
  head := h.head
  pending := h.pending
  buffers := h.buffers
  armed hh ht := by
    obtain ⟨htail, hslots⟩ := h.armed hh ht
    rw [h.cfg]
    refine ⟨nextIndex_lt _ (by omega), fun i hi ha => ?_⟩
    have hw := hslots i hi ha
    have hne : i ≠ v.rx.tail := by
      rintro rfl
      have hdev := ((s.slotState_armed_iff .rx v.rx.tail).mp ha).2
      rw [← s.descriptor_status, ← State.descriptor_congr h.cfg h.desc] at hdev
      exact hc (.inr hdev)
    rw [State.inWindow_iff] at hw ⊢
    simp only [State.count, State.ring_setTail_same, State.setTail_cfg, h.cfg] at hw ⊢
    exact (window_nextTail (h.head ▸ hh) htail hi (fun he => hc (.inl he))).mpr ⟨hw, hne⟩

end

/-- The buffer DRAIN is about to unmap or to hand over. -/
def DrainPc.handles : DrainPc → List Nat
  | .g4 _ _ _ _ h => [h]
  | .g5 _ _ _ _ h => [h]
  | _ => []

/-- DRAIN stands at `p`: its buffer is one that a slot had when it began, and the slot at the tail that it is consuming
is Completed. -/
structure DrainAt (s₀ s : State) (p : DrainPc) : Prop where
  keeps : DrainKeeps s₀ s
  entry : ∀ h ∈ p.handles, ∃ i a, s₀.pending .rx i = some (h, a)
  completed : p.consumes = true → ¬ s.caughtUp

theorem drainAt_micro {s₀ s u : State} {p p' : DrainPc} (h : DrainAt s₀ s p) (hm : DrainMicro s p u p') :
    DrainAt s₀ u p' := by
  obtain ⟨hk, hentry, hdone⟩ := h
  cases hm with
  | statusRead he ho =>
    refine ⟨hk, nofun, fun _ hc => hc.elim (fun he' => ?_) fun ho' => ?_⟩
    · rw [(s.empty_iff .rx).mpr he'] at he
      cases he
    · exact Bool.false_ne_true (ho.symm.trans ho')
  | @entry w k st len a hp =>
    refine ⟨hk, fun k' hk' => ?_, hdone⟩
    obtain rfl := List.mem_singleton.mp hk'
    exact ⟨s.rx.tail, a, ((hk.pending s.rx.tail).resolve_right (by rw [hp]; nofun)).symm.trans hp⟩
  | noEntry hp => exact ⟨hk.raise, nofun, nofun⟩
  | @unmapped w i k st len =>
    obtain ⟨j, a, hj⟩ := hentry k (List.mem_singleton.mpr rfl)
    exact ⟨hk.setBuffer _ hj, hentry, hdone⟩
  | @dropped w i k st len =>
    obtain ⟨j, a, hj⟩ := hentry k (List.mem_singleton.mpr rfl)
    exact ⟨(hk.countError _).setBuffer _ hj, nofun, hdone⟩
  | @delivered w i k st len hlen =>
    obtain ⟨j, a, hj⟩ := hentry k (List.mem_singleton.mpr rfl)
    exact ⟨(hk.setBuffer _ hj).emit _, nofun, hdone⟩
  | cleared => exact ⟨hk.clear _, nofun, hdone⟩
  | advanced => exact ⟨hk.advanceTail (hdone rfl), nofun, nofun⟩
  | lengthRead => exact ⟨hk, nofun, hdone⟩
  | _ => exact ⟨hk, nofun, nofun⟩

theorem drainStep_stop {b : Nat} {p : DrainPc} {s u : State} (h : drainStep b p s = (u, .stop)) :
    ∃ e, u = ({ s with rxErr := e } : State).raise .pool := by
  have hm := drainStep_meets b p s
  rw [h] at hm
  obtain ⟨hmis, -⟩ := hm
  cases p with
  | g4 w st len i k =>
    rw [drainStep, State.unmapBuffer, if_neg hmis] at h
    cases h
    exact ⟨s.rxErr, rfl⟩
  | g5 w st len i k =>
    rw [drainStep, State.poolRelease_of_not_holds (s := { s with rxErr := bump s.rxErr }) hmis] at h
    split at h <;> cases h
    exact ⟨_, rfl⟩
  | _ => exact hmis.elim

theorem drainStep_leads {s₀ s : State} {b : Nat} {p : DrainPc} (h : DrainAt s₀ s p) :
    Next.Leads (DrainAt s₀) (DrainKeeps s₀) (drainStep b p s) := by
  have hm := drainStep_meets b p s
  rcases hx : drainStep b p s with ⟨u, p' | n | _ | _⟩ <;> rw [hx] at hm
  · exact drainAt_micro h hm
  · obtain ⟨-, rfl⟩ := hm
    exact h.keeps
  · trivial
  · obtain ⟨e, rfl⟩ := drainStep_stop hx
    exact (h.keeps.countError e).raise

/-! ## The commands -/

theorem refillTask_leads {c : Ctx} {s₀ s : State} {p : RefillPc} (h : RefillAt s₀ s p) :
    Next.Leads (fun u t => ∃ p', t = .refill p' ∧ RefillAt s₀ u p') (RefillKeeps s₀) (taskStep c (.refill p) s) := by
  have hs := refillStep_leads h
  rw [taskStep, refillTask]
  rcases hx : refillStep p s with ⟨u, p' | n | _ | _⟩ <;> rw [hx] at hs
  · exact ⟨p', rfl, hs⟩
  · exact hs.polling false
  · trivial
  · exact hs

theorem drainTask_leads {c : Ctx} {s₀ s : State} {b : Nat} {p : DrainPc} (h : DrainAt s₀ s p) :
    Next.Leads (fun u t => ∃ p', t = .drain b p' ∧ DrainAt s₀ u p') (DrainKeeps s₀) (taskStep c (.drain b p) s) := by
  have hs := drainStep_leads (b := b) h
  rw [taskStep, drainTask]
  rcases hx : drainStep b p s with ⟨u, p' | n | _ | _⟩ <;> rw [hx] at hs
  · exact ⟨p', rfl, hs⟩
  · exact hs.polling false
  · trivial
  · exact hs

/-- What POLL keeps (R173). -/
structure PollKeeps (s u : State) : Prop where
  frame : u = { s with
    rx := u.rx, pool := u.pool, pollSched := u.pollSched, pollRunning := u.pollRunning, rxErr := u.rxErr,
    fault := u.fault, hist := u.hist, desc := u.desc, draws := u.draws, tick := u.tick }
  buffers : ∀ j, (s.buffer j).own ≠ .free → (∀ i a, s.pending .rx i ≠ some (j, a)) → u.buffer j = s.buffer j
  bytes : s.rx.head < s.cfg.nRx → s.rx.tail < s.cfg.nRx →
    ∀ a, (∀ i, i < s.cfg.nRx → inDescriptor s.cfg .rx i a → s.slotState .rx i = .armed) → u.descByte a = s.descByte a

/-- DRAIN and then REFILL. -/
theorem DrainKeeps.refill {s v u : State} (h : DrainKeeps s v) (g : RefillKeeps v u) : PollKeeps s u where
  frame := by
    have hf := h.frame
    have hg := g.frame
    rw [DrainFrame] at hf
    rw [RefillFrame] at hg
    rw [hg, hf]
  buffers j hj hp := by
    have hv := h.buffers j hp
    rw [g.buffers j (hv ▸ hj), hv]
  bytes hh ht a ha := by
    obtain ⟨htail, harmed⟩ := h.armed hh ht
    have hw := g.window (by rw [h.head, h.cfg]; exact hh) (by rw [h.cfg]; exact htail)
    rw [hw.bytes a, State.descByte, h.desc, ← State.descByte]
    rw [h.cfg]
    exact fun i hi hin => harmed i hi (ha i hi hin)

theorem DrainKeeps.poll {s u : State} (h : DrainKeeps s u) : PollKeeps s u := h.refill .rfl

theorem PollKeeps.rearm {s u : State} (h : PollKeeps s u) (b b' : Bool) :
    PollKeeps s { u with pollSched := b, pollRunning := b' } where
  frame := by rw [h.frame]
  buffers := h.buffers
  bytes := h.bytes

/-- POLL stands at a label of DRAIN, or of REFILL in the state that DRAIN left, or after both. -/
inductive PollAt (s₀ s : State) (b : Nat) : Task → Prop
  | drain {p : DrainPc} (h : DrainAt s₀ s p) : PollAt s₀ s b (.poll b (.l1 p))
  | refill {v : State} {w : Nat} {p : RefillPc} (hd : DrainKeeps s₀ v) (h : RefillAt v s p) :
      PollAt s₀ s b (.poll b (.l2 w p))
  | rearm {w : Nat} (h : PollKeeps s₀ s) : PollAt s₀ s b (.poll b (.l3 w))
  | last {w : Nat} (h : PollKeeps s₀ s) : PollAt s₀ s b (.poll b (.l4 w))

theorem PollAt.keeps {s₀ s : State} {b : Nat} {t : Task} (h : PollAt s₀ s b t) : PollKeeps s₀ s := by
  cases h with
  | drain h => exact h.keeps.poll
  | refill hd h => exact hd.refill h.keeps
  | rearm h => exact h
  | last h => exact h

theorem pollTask_leads {c : Ctx} {s₀ s : State} {b : Nat} {t : Task} (h : PollAt s₀ s b t) :
    Next.Leads (fun u t' => PollAt s₀ u b t') (PollKeeps s₀) (taskStep c t s) := by
  cases h with
  | @drain p h =>
    have hs := drainStep_leads (b := b) h
    rw [taskStep, pollTask]
    rcases hx : drainStep b p s with ⟨u, p' | n | _ | _⟩ <;> rw [hx] at hs
    · exact .drain hs
    · exact .refill hs ⟨.rfl, nofun, trivial⟩
    · trivial
    · exact hs.poll
  | @refill v w p hd h =>
    have hs := refillStep_leads h
    rw [taskStep, pollTask]
    rcases hx : refillStep p s with ⟨u, p' | n | _ | _⟩ <;> rw [hx] at hs
    · exact .refill hd hs
    · exact .rearm (hd.refill hs)
    · trivial
    · exact hd.refill hs
  | rearm h => exact .last (h.rearm _ _)
  | last h => exact h.rearm s.pollSched false

/-- What a command keeps, from what its operation keeps at every label. -/
theorem exec_keeps {i : Instr} {s t : State} {I : State → Task → Prop} {Q : State → Prop} (h : exec i s = .next t)
    (hs : Q s) (hstart : ∀ b, I (s.polling b) (firstTask i)) (hQ : ∀ u t', I u t' → Q u)
    (hstep : ∀ u t', I u t' → Next.Leads I Q (taskStep s.cur t' u)) :
    s.keepsOthers t ∧ ∃ u hist lanes, Q u ∧ t = { u with hist := hist, lanes := lanes } := by
  obtain ⟨u, hu, hframe, hothers⟩ := exec_scheduled h
  refine ⟨hothers, u, t.hist, t.lanes, ?_, hframe⟩
  obtain rfl | ⟨t₀, s₀, ha, rfl⟩ := hu
  · exact hs
  · obtain ⟨rfl, b, rfl⟩ := acceptance_start ha
    exact taskRun_leads hQ hstep _ _ _ (hstart b)

theorem refill_keeps {s t : State} (h : exec .refill s = .next t) :
    s.keepsOthers t ∧ ∃ u hist lanes, RefillKeeps s u ∧ t = { u with hist := hist, lanes := lanes } :=
  exec_keeps (I := fun u t => ∃ p, t = .refill p ∧ RefillAt s u p) h .rfl
    (fun b => ⟨.f1 0, rfl, RefillKeeps.rfl.polling b, nofun, trivial⟩)
    (by rintro u _ ⟨p, -, hp⟩; exact hp.keeps) (by rintro u _ ⟨p, rfl, hp⟩; exact refillTask_leads hp)

theorem drain_keeps {b : Nat} {s t : State} (h : exec (.drain b) s = .next t) :
    s.keepsOthers t ∧ ∃ u hist lanes, DrainKeeps s u ∧ t = { u with hist := hist, lanes := lanes } :=
  exec_keeps (I := fun u t => ∃ p, t = .drain b p ∧ DrainAt s u p) h .rfl
    (fun b' => ⟨.g1 0, rfl, DrainKeeps.rfl.polling b', nofun, nofun⟩)
    (by rintro u _ ⟨p, -, hp⟩; exact hp.keeps) (by rintro u _ ⟨p, rfl, hp⟩; exact drainTask_leads hp)

theorem poll_keeps {b : Nat} {s t : State} (h : exec (.poll b) s = .next t) :
    s.keepsOthers t ∧ ∃ u hist lanes, PollKeeps s u ∧ t = { u with hist := hist, lanes := lanes } :=
  exec_keeps h DrainKeeps.rfl.poll (fun b' => .drain ⟨DrainKeeps.rfl.polling b', nofun, nofun⟩) (fun _ _ => PollAt.keeps)
    (fun _ _ => pollTask_leads)

/-- Settles O58: each engine keeps its part at every label, POLL that of DRAIN and then that of REFILL. -/
theorem receiveFrame : Obligations.ReceiveFrame := by
  intro s t
  refine ⟨fun hx => ?_, fun b hx => ?_, fun b hx => ?_⟩
  · obtain ⟨ho, u, hist, lanes, hu, rfl⟩ := refill_keeps hx
    exact ⟨by rw [hu.frame], hu.tail, ho, State.keepsBuf_of_eq hu.buf, hu.buffers,
      fun hh ht => ⟨(hu.window hh ht).pending, (hu.window hh ht).bytes⟩⟩
  · obtain ⟨ho, u, hist, lanes, hu, rfl⟩ := drain_keeps hx
    exact ⟨by rw [hu.frame], hu.head, ho, State.keepsDesc_of_eq hu.desc, State.keepsBuf_of_eq hu.buf,
      hu.pending, hu.buffers⟩
  · obtain ⟨ho, u, hist, lanes, hu, rfl⟩ := poll_keeps hx
    exact ⟨by rw [hu.frame], ho, State.keepsBuf_of_eq (by rw [hu.frame]), hu.buffers, hu.bytes⟩

end Sys2Proof.Machine
end

section
/-! PROOF. What REFILL does: it arms the next free slots with the next free buffers (42_receive_engine R140, R144). -/

namespace Sys2Proof.Machine

/-! ## Slots counted from an index on -/

theorem subIndex_add {t k n : Nat} (ht : t < n) (hk : k < n) : subIndex ((t + k) % n) t n = k := by
  rw [subIndex_eq (Nat.mod_lt _ (by omega)) ht]
  rcases Nat.lt_or_ge (t + k) n with hlt | hge
  · rw [Nat.mod_eq_of_lt hlt]
    split <;> omega
  · rw [Nat.mod_eq_sub_mod hge, Nat.mod_eq_of_lt (by omega)]
    split <;> omega

theorem nextIndex_add (t k n : Nat) : (nextIndex t n + k) % n = (t + (k + 1)) % n := by
  rw [nextIndex, Nat.mod_add_mod, Nat.add_assoc, Nat.add_comm 1 k]

theorem State.freeSlots_full {s : State} (hs : s.RxSized) (hfull : s.full .rx = true) : s.freeSlots .rx = 0 := by
  have hnext : nextIndex s.rx.head s.cfg.nRx = s.rx.tail := (s.full_iff .rx).mp hfull
  have hcount : s.count .rx = subIndex s.rx.head s.rx.tail s.cfg.nRx := rfl
  have hh := hs.head
  rw [nextIndex_eq hs.head] at hnext
  rw [State.freeSlots, hcount, subIndex_eq hs.head hs.tail, ringSize]
  split at hnext <;> split <;> omega

/-! ## The free buffers, lowest first (R110) -/

/-- The handles of the free buffers, in the order REFILL takes them. -/
def State.freeHandles (s : State) : List Nat := (List.range s.cfg.poolSize).filter fun h => (s.buffer h).own == .free

theorem State.lowestFree_eq_head? (s : State) : s.lowestFree = s.freeHandles.head? := by
  rw [State.freeHandles, List.head?_filter]
  rfl

/-- A buffer that is taken leaves the others free. -/
theorem State.freeHandles_taken {s u : State} {h : Nat} (hf : s.lowestFree = some h) (hc : u.cfg = s.cfg)
    (hh : (u.buffer h).own ≠ .free) (ho : ∀ j, j ≠ h → u.buffer j = s.buffer j) :
    s.freeHandles = h :: u.freeHandles := by
  obtain ⟨l, hl⟩ := List.head?_eq_some_iff.mp (s.lowestFree_eq_head?.symm.trans hf)
  have hnodup : (h :: l).Nodup := hl ▸ List.nodup_range.filter _
  have hu : u.freeHandles = s.freeHandles.filter (· != h) := by
    rw [State.freeHandles, State.freeHandles, List.filter_filter, hc]
    refine List.filter_congr fun j _ => ?_
    by_cases hj : j = h
    · subst hj; simpa using hh
    · simp [hj, ho j hj]
  rw [hu, hl, List.filter_cons_of_neg (by simp), List.filter_eq_self.mpr]
  rintro j hj
  simpa using fun he : j = h => (List.nodup_cons.mp hnodup).1 (he ▸ hj)

/-! ## One slot armed -/

/-- Slot `i` is armed with the buffer `h`: the buffer held and mapped, the entry recorded, the descriptor written. -/
structure State.ArmedWith (t : State) (i h : Nat) : Prop where
  buffer : t.buffer h = ⟨.eng, BitVec.ofNat 16 t.cfg.bufSize, some .inbound⟩
  pending : t.pending .rx i = some (h, xlateOf t.cfg h)
  descriptor : t.descriptor .rx i = (0x90000000, BitVec.ofNat 32 t.cfg.bufSize, xlateOf t.cfg h)

theorem State.descriptor_setDescriptor (s : State) (r : Ring) (i : Nat) (st len : Word) (a : DAddr) :
    (s.setDescriptor r i st len a).descriptor r i = (st, len, a) := by
  have hlast := (s.filled r i len a).descriptor_writeStatus r i st
  rwa [State.descriptor_filled] at hlast

theorem State.descriptor_arm (s : State) (r : Ring) (h : Nat) (st len : Word) :
    (s.arm r h st len).descriptor r (s.ring r).head = (st, len, xlateOf s.cfg h) := by
  rw [State.arm, State.descriptor_congr (State.setHead_cfg ..) (State.setHead_desc ..),
    State.descriptor_congr (State.setPending_cfg ..) (State.setPending_desc ..), State.descriptor_setDescriptor]

theorem State.armedWith_armRx {s : State} {h : Nat} (hs : s.RxSized) (hh : h < s.cfg.poolSize) :
    (s.armRx h).ArmedWith s.rx.head h where
  buffer := by rw [State.armRx_buffer, s.buffer_setBuffer_same _ (hs.pool ▸ hh), State.armRx_cfg]
  pending := by
    rw [State.pending, State.ring, State.armRx_pend, List.getD_eq_getElem?_getD,
      List.getElem?_set_self (hs.pend ▸ hs.head)]
    rfl
  descriptor := State.descriptor_arm _ .rx h _ _

theorem State.descRead32_of_bytes {s u : State} {a : Nat} (h : ∀ x, a ≤ x → x < a + 4 → u.descByte x = s.descByte x) :
    u.descRead32 a = s.descRead32 a := by
  simp only [State.descRead32]
  rw [h a (by omega) (by omega), h (a + 1) (by omega) (by omega), h (a + 2) (by omega) (by omega),
    h (a + 3) (by omega) (by omega)]

theorem State.descriptor_of_bytes {s u : State} {r : Ring} {i : Nat} (hc : u.cfg = s.cfg)
    (h : ∀ x, inDescriptor s.cfg r i x → u.descByte x = s.descByte x) : u.descriptor r i = s.descriptor r i := by
  have hword (k : Nat) (hk : k + 4 ≤ 16) :
      u.descRead32 (ringBase s.cfg r + 16 * i + k) = s.descRead32 (ringBase s.cfg r + 16 * i + k) :=
    State.descRead32_of_bytes fun x _ _ => h x ⟨by omega, by omega⟩
  simp only [State.descriptor, State.descRead64, hc, hword 4 (by decide), hword 8 (by decide),
    show u.descRead32 (ringBase s.cfg r + 16 * i) = _ from hword 0 (by decide),
    show u.descRead32 (ringBase s.cfg r + 16 * i + 8 + 4) = _ from hword 12 (by decide)]
  rfl

/-- What REFILL keeps of an armed slot in the window. -/
theorem RefillKeeps.armedWith {s t : State} {i h : Nat} (hk : RefillKeeps s t) (hs : s.RxSized)
    (hw : s.inWindow .rx i = true) (ha : s.ArmedWith i h) : t.ArmedWith i h where
  buffer := by
    rw [hk.buffers h (by rw [ha.buffer]; nofun), ha.buffer, hk.cfg]
  pending := by rw [(hk.window hs.head hs.tail).pending i hw, ha.pending, hk.cfg]
  descriptor := by
    rw [State.descriptor_of_bytes hk.cfg fun x hx => (hk.window hs.head hs.tail).bytes x fun j _ hj => ?_, ha.descriptor,
      hk.cfg]
    have hij : j = i := by
      simp only [inDescriptor] at hx hj
      omega
    exact hij ▸ hw

/-! ## The loop -/

/-- What REFILL's loop keeps, it being REFILL from F1 to F9. -/
theorem State.refillAll_keeps {s : State} (hs : s.RxSized) {k : Nat} (hk : s.freeSlots .rx < k) :
    RefillKeeps s (s.refillAll k).1 := by
  obtain ⟨n, hn⟩ := (reaches_refillAll .refill .poll hs k 0 hk).taskRun_eq
  rw [← hn]
  exact taskRun_leads (I := fun u t => ∃ p, t = .refill p ∧ RefillAt s u p) (by rintro u _ ⟨p, -, hp⟩; exact hp.keeps)
    (by rintro u _ ⟨p, rfl, hp⟩; exact refillTask_leads hp) n _ _ ⟨.f1 0, rfl, .rfl, nofun, trivial⟩

/-- `t` is `s` with the `n` slots from `H[RX]` on armed with the `n` lowest free buffers (R140, R144). -/
structure Refilled (s t : State) (n : Nat) : Prop where
  slots : n ≤ s.freeSlots .rx
  buffers : n ≤ s.freeHandles.length
  head : t.rx.head = (s.rx.head + n) % s.cfg.nRx
  armed : ∀ j h, j < n → s.freeHandles[j]? = some h → t.ArmedWith ((s.rx.head + j) % s.cfg.nRx) h

theorem refilled_none {s t : State} (hs : s.RxSized) (hh : t.rx.head = s.rx.head) : Refilled s t 0 where
  slots := Nat.zero_le _
  buffers := Nat.zero_le _
  head := by rw [hh, Nat.add_zero, Nat.mod_eq_of_lt hs.head]
  armed := nofun

section
variable {s : State} {h : Nat} (hs : s.RxSized) (hfull : s.full .rx = false) (hf : s.lowestFree = some h)
include hs hf

theorem State.freeHandles_armed : s.freeHandles = h :: (s.drawMapOk.2.armRx h).freeHandles := by
  have hlt := (State.lowestFree_eq_some.mp hf).1
  refine State.freeHandles_taken hf (by simp) ?_ fun j hj => ?_
  · rw [(State.armedWith_armRx hs.drawMapOk (by simpa using hlt)).buffer]
    nofun
  · rw [State.armRx_buffer, State.buffer_setBuffer_other _ _ hj, State.drawMapOk_buffer]

include hfull in
theorem Refilled.next {t : State} {n : Nat} (hk : RefillKeeps (s.drawMapOk.2.armRx h) t)
    (hn : Refilled (s.drawMapOk.2.armRx h) t n) : Refilled s t (n + 1) where
  slots := by
    have hfree := State.freeSlots_armNext hs h hfull
    have hslots := hn.slots
    omega
  buffers := by
    rw [State.freeHandles_armed hs hf]
    exact Nat.succ_le_succ hn.buffers
  head := by
    rw [hn.head, State.armRx_head, State.armRx_cfg, State.drawMapOk_rx, State.drawMapOk_cfg, nextIndex_add]
  armed j g hj hg := by
    rw [State.freeHandles_armed hs hf] at hg
    cases j with
    | zero =>
      obtain rfl : h = g := by simpa using hg
      have hlt := (State.lowestFree_eq_some.mp hf).1
      have harmed := State.armedWith_armRx hs.drawMapOk (h := h) (by simpa using hlt)
      rw [State.drawMapOk_rx] at harmed
      have hw : (s.drawMapOk.2.armRx h).inWindow .rx s.rx.head = true := by
        rw [State.inWindow_iff, State.count_armNext hs h hfull]
        simp only [State.ring, ringSize, State.armRx_tail, State.armRx_cfg, State.drawMapOk_rx, State.drawMapOk_cfg]
        exact Nat.lt_succ_self _
      rw [Nat.add_zero, Nat.mod_eq_of_lt hs.head]
      exact hk.armedWith (hs.armNext h) hw harmed
    | succ j =>
      have hnext := hn.armed j g (Nat.lt_of_succ_lt_succ hj) hg
      rwa [State.armRx_head, State.armRx_cfg, State.drawMapOk_rx, State.drawMapOk_cfg, nextIndex_add] at hnext

end

theorem State.refillAll_refilled {s : State} (hs : s.RxSized) {k : Nat} (hk : s.freeSlots .rx < k) :
    Refilled s (s.refillAll k).1 (s.refillAll k).2 := by
  fun_induction State.refillAll k s with
  | case1 s => omega
  | case2 k s hfull => exact refilled_none hs rfl
  | case3 k s hroom hf => exact refilled_none hs rfl
  | case4 k s hroom h hf hd r ih =>
    have hfree := State.freeSlots_armNext hs h (decide_eq_false hroom)
    exact (ih (hs.armNext h) (by omega)).next hs (decide_eq_false hroom) hf
      (State.refillAll_keeps (hs.armNext h) (by omega))
  | case5 k s hroom h hf hd => exact refilled_none hs (by simp)

/-- With a mapping that succeeds for every free slot, REFILL stops at a full ring or an exhausted pool only. -/
theorem State.refillAll_mapped {s : State} (hs : s.RxSized) {k m : Nat} {rest : List Bool} (hk : s.freeSlots .rx < k)
    (hd : s.draws.mapOk = List.replicate m true ++ rest) (hm : s.freeSlots .rx ≤ m) :
    (s.refillAll k).2 = min (s.freeSlots .rx) s.freeHandles.length := by
  fun_induction State.refillAll k s generalizing m with
  | case1 s => omega
  | case2 k s hfull => rw [State.freeSlots_full hs (decide_eq_true hfull), Nat.zero_min]
  | case3 k s hroom hf =>
    rw [State.lowestFree_eq_head?, List.head?_eq_none_iff] at hf
    rw [hf, List.length_nil, Nat.min_zero]
  | case4 k s hroom h hf hdraw r ih =>
    have hfree := State.freeSlots_armNext hs h (decide_eq_false hroom)
    obtain ⟨m, rfl⟩ : ∃ m', m = m' + 1 := ⟨m - 1, by omega⟩
    have hd' : (s.drawMapOk.2.armRx h).draws.mapOk = List.replicate m true ++ rest := by
      rw [State.armRx_draws, State.drawMapOk, hd]
      rfl
    rw [State.freeHandles_armed hs hf, List.length_cons, ← hfree, Nat.add_min_add_right]
    exact congrArg (· + 1) (ih (hs.armNext h) (by omega) hd' (by omega))
  | case5 k s hroom h hf hdraw =>
    have hfree := State.freeSlots_armNext hs h (decide_eq_false hroom)
    obtain ⟨m, rfl⟩ : ∃ m', m = m' + 1 := ⟨m - 1, by omega⟩
    exact absurd (by rw [State.drawMapOk, hd]; rfl) hdraw

/-- Settles O32: the command is its loop (O31), and the loop arms one slot after the other. -/
theorem refillArmsSlots : Obligations.RefillArmsSlots := by
  intro s hr hup hp hsizes hk free
  have hs := State.RxSized.of_sizesOk hsizes
  have hfree : s.freeSlots .rx < s.cfg.nRx := s.freeSlots_lt hs
  have hkeeps := State.refillAll_keeps hs hfree
  have hdone := State.refillAll_refilled hs hfree
  refine ⟨_, _, refillRuns s hr hup hp hsizes hk, ?_, hdone.slots, hdone.buffers, hkeeps.tail, hdone.head, ?_, ?_⟩
  · rw [State.respond_hist, hkeeps.frame]
  · intro j h hj hh
    obtain ⟨hbuf, hpend, hdesc⟩ := hdone.armed j h hj hh
    rw [hkeeps.cfg] at hbuf hpend hdesc
    exact ⟨hbuf, hpend, hdesc⟩
  · intro m rest hd hm
    exact State.refillAll_mapped hs hfree hd (by omega)

end Sys2Proof.Machine
end

section
/-! PROOF. What DRAIN does: it delivers the completed descriptors from the tail on, in order, each once
(42_receive_engine R141, R145, R146, R147). -/

namespace Sys2Proof.Machine

/-! ## The RX entries -/

/-- Each slot of the RX window has an entry; an entry's buffer is mapped for the device and is no other slot's
(R30, R32). -/
structure State.RxEntries (s : State) : Prop extends s.RxSized where
  present : ∀ i, i < s.cfg.nRx → s.inWindow .rx i = true → ∃ h a, s.pending .rx i = some (h, a)
  held : ∀ i h a, s.pending .rx i = some (h, a) → s.holdsMapped h .inbound
  once : ∀ i j h a b, s.pending .rx i = some (h, a) → s.pending .rx j = some (h, b) → i = j

theorem State.RxSized.lt_of_pending {s : State} {i h : Nat} {a : DAddr} (hs : s.RxSized)
    (hp : s.pending .rx i = some (h, a)) : i < s.cfg.nRx := hs.pend ▸ State.lt_pend_of_pending hp

theorem eq_of_nodup_keys {α β : Type} {f : Nat → Option (α × β)} {n i j : Nat} {h : α} {a b : β}
    (hn : (((List.range n).filterMap f).map Prod.fst).Nodup) (hi : i < n) (hj : j < n) (ha : f i = some (h, a))
    (hb : f j = some (h, b)) : i = j := by
  by_contra hij
  rw [List.Nodup, List.pairwise_map, List.pairwise_filterMap] at hn
  have : Std.Symm fun x y => ∀ p, f x = some p → ∀ q, f y = some q → p.1 ≠ q.1 :=
    ⟨fun x y hxy p hp q hq he => hxy q hq p hp he.symm⟩
  exact hn.forall (List.mem_range.mpr hi) (List.mem_range.mpr hj) hij _ ha _ hb rfl

theorem State.RxEntries.of_ok {s : State} (hsizes : s.sizesOk = true) (he : s.entriesOk = true)
    (hw : s.windowOk .rx = true) : s.RxEntries := by
  simp only [State.entriesOk, Bool.and_eq_true, decide_eq_true_eq, List.map_append, List.all_eq_true, List.mem_range,
    Option.all_eq_true, beq_iff_eq] at he
  obtain ⟨⟨hheld, -⟩, honce⟩ := he
  simp only [State.windowOk, List.all_eq_true, List.mem_range, Bool.or_eq_true, Bool.not_eq_true'] at hw
  have hs := State.RxSized.of_sizesOk hsizes
  refine ⟨hs, fun i hi hin => ?_, fun i h a hp => ?_, fun i j h a b hp hq => ?_⟩
  · obtain ⟨⟨h, a⟩, hp⟩ := Option.isSome_iff_exists.mp ((hw i hi).resolve_left (by simp [hin]))
    exact ⟨h, a, hp⟩
  · obtain ⟨⟨hlt, hown⟩, hmap⟩ := hheld i (hs.lt_of_pending hp) (h, a) hp
    exact ⟨hlt, by rw [hown]; nofun, hmap⟩
  · exact eq_of_nodup_keys honce.of_append_left (hs.lt_of_pending hp) (hs.lt_of_pending hq) hp hq

/-! ## One slot consumed (R141 G3 to G7) -/

/-- What becomes of the buffer `h` of slot `i` (R145, R146). -/
def State.handedOver (s : State) (i h : Nat) : PoolEntry :=
  if s.dropped i then ⟨.free, (s.buffer h).len, none⟩ else ⟨.up, (s.descriptor .rx i).2.1.setWidth 16, none⟩

section
variable (s : State) (i h : Nat)

theorem State.handOver_pool : (s.handOver i h).pool = (s.setBuffer h (s.handedOver i h)).pool := by
  rw [State.handOver, State.handedOver]
  split <;> rfl

theorem State.handOver_hist {a : DAddr} (hp : s.pending .rx i = some (h, a)) :
    (s.handOver i h).hist = s.hist ++ (s.delivery i).toList := by
  rw [State.handOver, State.delivery, hp]
  cases s.dropped i with
  | true => exact (List.append_nil _).symm
  | false => rfl

theorem State.handOver_rxErr : (s.handOver i h).rxErr = s.rxErr + BitVec.ofNat 32 (if s.dropped i then 1 else 0) := by
  rw [State.handOver]
  cases s.dropped i with
  | true => rfl
  | false => exact (BitVec.add_zero _).symm

end

theorem State.slotState_tail {s : State} (hs : s.RxSized) : s.slotState .rx s.rx.tail = .completed ↔ ¬ s.caughtUp := by
  have hwin : s.inWindow .rx s.rx.tail = true ↔ s.rx.head ≠ s.rx.tail := by
    rw [State.inWindow_iff]
    refine ⟨fun hlt he => ?_, window_tail hs.head hs.tail⟩
    simp only [State.count, State.ring, he] at hlt
    exact Nat.lt_irrefl _ hlt
  rw [State.slotState_completed_iff, hwin, State.caughtUp, not_or, Bool.not_eq_true, State.descriptor_status, ownBit]

/-- What DRAIN has done by the time it stands at a label keeps what DRAIN keeps. -/
theorem DrainKeeps.of_reaches {c : Ctx} {k b w : Nat} {t : Task} {s u : State}
    (h : Reaches c k (.drain b (.g1 w)) s t u) : DrainKeeps s u := by
  obtain ⟨n, rfl⟩ := h.taskRun_eq
  exact taskRun_leads (I := fun u t => ∃ p, t = .drain b p ∧ DrainAt s u p) (by rintro u _ ⟨p, -, hp⟩; exact hp.keeps)
    (by rintro u _ ⟨p, rfl, hp⟩; exact drainTask_leads hp) n _ _ ⟨.g1 w, by rfl, .rfl, nofun, nofun⟩

section
variable {s : State} (hs : s.RxEntries) (hc : ¬ s.caughtUp)
include hs hc

theorem State.RxEntries.tail_entry : ∃ h a, s.pending .rx s.rx.tail = some (h, a) := by
  refine hs.present _ hs.tail ?_
  by_contra hw
  have hcompleted := (State.slotState_tail hs.toRxSized).mpr hc
  rw [State.slotState, if_neg hw] at hcompleted
  cases hcompleted

/-- G1 to G8 in any caller. -/
theorem reaches_takeRx {b w : Nat} {W : DrainPc → Task} (hW : Drains b W) (c : Ctx) (hb : w < b) :
    Reaches c 9 (W (.g1 w)) s (W (.g1 (w + 1))) s.takeRx := by
  obtain ⟨h, a, hp⟩ := hs.tail_entry hc
  have hown : (s.descriptor .rx s.rx.tail).1.getLsbD 31 = false := Bool.eq_false_iff.mpr fun ho => hc (.inr ho)
  exact reaches_taken hW c hb (fun he => hc (.inl he)) hown hp (hs.held _ h a hp)

theorem State.takeRx_keeps : DrainKeeps s s.takeRx :=
  .of_reaches (reaches_takeRx hs hc (.drain 1) .poll Nat.zero_lt_one)

theorem State.takeRx_cfg : s.takeRx.cfg = s.cfg := (State.takeRx_keeps hs hc).cfg

theorem State.takeRx_descriptor : s.takeRx.descriptor = s.descriptor :=
  State.descriptor_congr (State.takeRx_cfg hs hc) (State.takeRx_keeps hs hc).desc

theorem State.takeRx_dropped : s.takeRx.dropped = s.dropped := by
  funext i
  rw [State.dropped, State.dropped, State.takeRx_descriptor hs hc, State.takeRx_cfg hs hc]

theorem State.takeRx_tail : s.takeRx.rx.tail = nextIndex s.rx.tail s.cfg.nRx := by
  obtain ⟨h, a, hp⟩ := hs.tail_entry hc
  rw [State.takeRx_of_pending hp]
  rfl

theorem State.takeRx_pending (i : Nat) : s.takeRx.pending .rx i = if i = s.rx.tail then none else s.pending .rx i := by
  obtain ⟨h, a, hp⟩ := hs.tail_entry hc
  have hhand : (s.handOver s.rx.tail h).ring .rx = s.ring .rx := s.handOver_rx _ h
  rw [State.takeRx_of_pending hp, State.pending_setTail, State.pending_setPending, hhand,
    State.pending_congr (r := .rx) hhand]
  simp [State.ring, hs.pend, hs.tail]

theorem State.takeRx_hist : s.takeRx.hist = s.hist ++ (s.delivery s.rx.tail).toList := by
  obtain ⟨h, a, hp⟩ := hs.tail_entry hc
  rw [State.takeRx_of_pending hp, State.setTail_hist, State.setPending_hist, s.handOver_hist _ h hp]

theorem State.takeRx_rxErr :
    s.takeRx.rxErr = s.rxErr + BitVec.ofNat 32 (if s.dropped s.rx.tail then 1 else 0) := by
  obtain ⟨h, a, hp⟩ := hs.tail_entry hc
  rw [State.takeRx_of_pending hp, State.setTail_rxErr, State.setPending_rxErr, s.handOver_rxErr _ h]

theorem State.count_takeRx : s.takeRx.count .rx + 1 = s.count .rx := by
  simp only [State.count, State.ring, ringSize, State.takeRx_tail hs hc, (State.takeRx_keeps hs hc).head,
    State.takeRx_cfg hs hc]
  exact subIndex_nextTail hs.head hs.tail fun he => hc (.inl he)

theorem State.inWindow_takeRx {i : Nat} (hi : i < s.cfg.nRx) :
    s.takeRx.inWindow .rx i = true ↔ s.inWindow .rx i = true ∧ i ≠ s.rx.tail := by
  simp only [State.inWindow_iff, State.count, State.ring, ringSize, State.takeRx_tail hs hc,
    (State.takeRx_keeps hs hc).head, State.takeRx_cfg hs hc]
  exact window_nextTail hs.head hs.tail hi fun he => hc (.inl he)

section
variable {h : Nat} {a : DAddr} (hp : s.pending .rx s.rx.tail = some (h, a))
include hp

omit hs hc in
theorem State.takeRx_pool : s.takeRx.pool = (s.setBuffer h (s.handedOver s.rx.tail h)).pool := by
  rw [State.takeRx_of_pending hp, State.setTail_pool, State.setPending_pool, State.handOver_pool]

omit hs hc in
theorem State.takeRx_buffer (j : Nat) :
    s.takeRx.buffer j = (s.setBuffer h (s.handedOver s.rx.tail h)).buffer j := by
  rw [State.buffer, State.takeRx_pool hp, ← State.buffer]

omit hc in
/-- The buffer of another slot is left as it is. -/
theorem State.takeRx_buffer_other {i g : Nat} {a' : DAddr} (hne : i ≠ s.rx.tail)
    (hg : s.pending .rx i = some (g, a')) : s.takeRx.buffer g = s.buffer g := by
  rw [State.takeRx_buffer hp, State.buffer_setBuffer_other]
  rintro rfl
  exact hne (hs.once _ _ _ _ _ hg hp)

end

theorem State.RxEntries.takeRx : s.takeRx.RxEntries := by
  have hcfg := State.takeRx_cfg hs hc
  have hpend (i h a) : s.takeRx.pending .rx i = some (h, a) ↔ i ≠ s.rx.tail ∧ s.pending .rx i = some (h, a) := by
    rw [State.takeRx_pending hs hc]
    split_ifs <;> simp [*]
  obtain ⟨h₀, a₀, hp₀⟩ := hs.tail_entry hc
  refine ⟨⟨?_, ?_, ?_, ?_⟩, fun i hi hw => ?_, fun i h a hp => ?_, fun i j h a b hp hq => ?_⟩
  · rw [State.takeRx_pool hp₀, hcfg, State.pool_length_setBuffer, hs.pool]
  · rw [hcfg, State.takeRx_of_pending hp₀]
    exact (List.length_set ..).trans (by rw [State.ring, State.handOver_rx, hs.pend])
  · rw [hcfg, (State.takeRx_keeps hs hc).head]
    exact hs.head
  · rw [hcfg, State.takeRx_tail hs hc]
    exact nextIndex_lt _ (Nat.lt_of_le_of_lt (Nat.zero_le _) hs.tail)
  · rw [hcfg] at hi
    obtain ⟨hin, hne⟩ := (State.inWindow_takeRx hs hc hi).mp hw
    obtain ⟨h, a, hp⟩ := hs.present i hi hin
    exact ⟨h, a, (hpend i h a).mpr ⟨hne, hp⟩⟩
  · obtain ⟨hne, hp⟩ := (hpend i h a).mp hp
    rw [State.holdsMapped, hcfg, State.takeRx_buffer_other hs hp₀ hne hp]
    exact hs.held i h a hp
  · exact hs.once i j h a b ((hpend i h a).mp hp).2 ((hpend j h b).mp hq).2

theorem State.slotState_takeRx {i : Nat} (hi : i < s.cfg.nRx) (hne : i ≠ s.rx.tail) :
    s.takeRx.slotState .rx i = s.slotState .rx i := by
  have hw : s.takeRx.inWindow .rx i = s.inWindow .rx i := by
    rw [Bool.eq_iff_iff, State.inWindow_takeRx hs hc hi, and_iff_left hne]
  rw [State.slotState, State.slotState, hw, ← State.descriptor_status, ← State.descriptor_status,
    State.takeRx_descriptor hs hc]

theorem State.delivery_takeRx {i : Nat} (hne : i ≠ s.rx.tail) : s.takeRx.delivery i = s.delivery i := by
  have hbytes : s.takeRx.bufBytes = s.bufBytes := by
    funext h n
    simp only [State.bufBytes]
    refine List.map_congr_left fun k _ => ?_
    rw [State.bufByte, State.bufByte, (State.takeRx_keeps hs hc).buf]
  rw [State.delivery, State.delivery, State.takeRx_pending hs hc, if_neg hne, State.takeRx_dropped hs hc,
    State.takeRx_descriptor hs hc, hbytes]

end

/-! ## The loop -/

/-- DRAIN from G1 to G9 is its loop, for what is left of the budget. -/
theorem reaches_drainAll {b : Nat} {W : DrainPc → Task} (hW : Drains b W) (c : Ctx) {s : State} (hs : s.RxEntries)
    (k w : Nat) (hk : w + k = b) :
    Reaches c (9 * s.count .rx + 2) (W (.g1 w)) s (W (.g9 (w + (s.drainAll k).2))) (s.drainAll k).1 := by
  fun_induction State.drainAll k s generalizing w with
  | case1 s => exact (reaches_spent hW c (by omega)).mono (by omega)
  | case2 k s hc => exact (reaches_caughtUp hW c (by omega) hc).mono (by omega)
  | case3 k s hc r ih =>
    have hcount := State.count_takeRx hs hc
    have hloop := ih (hs.takeRx hc) (w + 1) (by omega)
    rw [Nat.add_assoc, Nat.add_comm 1] at hloop
    exact ((reaches_takeRx hs hc hW c (by omega)).trans hloop).mono (by omega)

theorem State.drainAll_keeps {s : State} (hs : s.RxEntries) (b : Nat) : DrainKeeps s (s.drainAll b).1 :=
  .of_reaches (reaches_drainAll (.drain b) .poll hs b 0 (Nat.zero_add b))

theorem State.takeRx_of_vacant {s : State} (hp : s.pending .rx s.rx.tail = none) : s.takeRx = s := by
  rw [State.takeRx, hp]

theorem State.handOver_polling (s : State) (b : Bool) (i h : Nat) :
    (s.polling b).handOver i h = (s.handOver i h).polling b := by
  have hd : (s.polling b).dropped i = s.dropped i := rfl
  rw [State.handOver, State.handOver, hd]
  split <;> rfl

theorem State.takeRx_polling (s : State) (b : Bool) : (s.polling b).takeRx = s.takeRx.polling b := by
  cases hp : s.pending .rx s.rx.tail with
  | none => rw [State.takeRx_of_vacant hp, State.takeRx_of_vacant (s := s.polling b) hp]
  | some e =>
    have hp' : (s.polling b).pending .rx (s.polling b).rx.tail = some (e.1, e.2) := hp
    rw [State.takeRx_of_pending (h := e.1) (a := e.2) hp, State.takeRx_of_pending hp', State.handOver_polling]
    rfl

theorem State.drainAll_polling (s : State) (b : Bool) (k : Nat) :
    State.drainAll k (s.polling b) = ((s.drainAll k).1.polling b, (s.drainAll k).2) := by
  fun_induction State.drainAll k s with
  | case1 s => rfl
  | case2 k s hc => exact State.drainAll_caughtUp (s := s.polling b) k hc
  | case3 k s hc r ih =>
    rw [State.drainAll_taken (s := s.polling b) k hc, State.takeRx_polling, ih]

theorem State.drainAll_pollRunning {s : State} (h : s.pollRunning = false) (k : Nat) :
    (s.drainAll k).1.pollRunning = false := by
  have hx := s.drainAll_polling false k
  rw [State.polling_self h] at hx
  exact congrArg (·.1.pollRunning) hx

/-- DRAIN runs to its response within nine micro-steps a slot. -/
theorem exec_drain {s : State} {b : Nat} (hr : s.Ready (.drain b)) (hup : s.life = .up) (hp : s.pollRunning = false)
    (hs : s.RxEntries) (hk : 9 * s.cfg.nRx ≤ s.slice) :
    exec (.drain b) s = .next ((s.drainAll b).1.respond s.cur .ok (s.drainAll b).2) := by
  have hs' : (s.polling true).RxEntries := ⟨⟨hs.pool, hs.pend, hs.head, hs.tail⟩, hs.present, hs.held, hs.once⟩
  have hcount : (s.polling true).count .rx < s.cfg.nRx := State.count_lt hs'.toRxSized
  have hrun := reaches_drainAll (.drain b) s.cur hs' b 0 (Nat.zero_add b)
  rw [State.drainAll_polling, Nat.zero_add] at hrun
  exact exec_loop hr (acceptPoll_of_up _ hup hp) hrun rfl (State.drainAll_pollRunning hp b) (by omega)

/-- The `k`-th RX slot from the tail on. -/
def State.tailSlot (s : State) (k : Nat) : Nat := (s.rx.tail + k) % s.cfg.nRx

theorem State.tailSlot_zero {s : State} (hs : s.RxSized) : s.tailSlot 0 = s.rx.tail := Nat.mod_eq_of_lt hs.tail

theorem State.tailSlot_lt {s : State} (hs : s.RxSized) (k : Nat) : s.tailSlot k < s.cfg.nRx :=
  Nat.mod_lt _ (Nat.lt_of_le_of_lt (Nat.zero_le _) hs.tail)

theorem State.tailSlot_succ_ne {s : State} (hs : s.RxSized) {k : Nat} (hk : k + 1 < s.cfg.nRx) :
    s.tailSlot (k + 1) ≠ s.rx.tail := by
  intro he
  have hdist : subIndex (s.tailSlot (k + 1)) s.rx.tail s.cfg.nRx = k + 1 := subIndex_add hs.tail hk
  rw [he, subIndex_eq hs.tail hs.tail] at hdist
  simp at hdist

theorem State.tailSlot_takeRx {s : State} (hs : s.RxEntries) (hc : ¬ s.caughtUp) (k : Nat) :
    s.takeRx.tailSlot k = s.tailSlot (k + 1) := by
  rw [State.tailSlot, State.takeRx_tail hs hc, State.takeRx_cfg hs hc, nextIndex_add, State.tailSlot]

/-- `t` is `s` with the `w` slots from `T[RX]` on consumed, of a budget `b` (R141, R145 to R147). -/
structure Drained (s t : State) (b w : Nat) : Prop where
  budget : w ≤ b
  count : w ≤ s.count .rx
  tail : t.rx.tail = s.tailSlot w
  completed : ∀ k, k < w → s.slotState .rx (s.tailSlot k) = .completed
  last : w = b ∨ s.slotState .rx (s.tailSlot w) ≠ .completed
  hist : t.hist = s.hist ++ (List.range w).filterMap fun k => s.delivery (s.tailSlot k)
  rxErr : t.rxErr = s.rxErr + BitVec.ofNat 32 ((List.range w).countP fun k => s.dropped (s.tailSlot k))
  consumed : ∀ k h a, k < w → s.pending .rx (s.tailSlot k) = some (h, a) →
    t.pending .rx (s.tailSlot k) = none ∧ t.buffer h = s.handedOver (s.tailSlot k) h

theorem drained_none {s : State} (hs : s.RxSized) {b : Nat} (hlast : b = 0 ∨ s.caughtUp) : Drained s s b 0 where
  budget := Nat.zero_le _
  count := Nat.zero_le _
  tail := (State.tailSlot_zero hs).symm
  completed := nofun
  last := by
    rw [State.tailSlot_zero hs, ne_eq, State.slotState_tail hs, not_not]
    exact hlast.imp_left Eq.symm
  hist := (List.append_nil _).symm
  rxErr := (BitVec.add_zero _).symm
  consumed := nofun

/-- The buffer and the entry of the slot at the tail stay as consuming it leaves them. -/
theorem DrainKeeps.consumed_tail {s t : State} (hs : s.RxEntries) (hc : ¬ s.caughtUp) (hk : DrainKeeps s.takeRx t)
    {h : Nat} {a : DAddr} (hp : s.pending .rx s.rx.tail = some (h, a)) :
    t.pending .rx s.rx.tail = none ∧ t.buffer h = s.handedOver s.rx.tail h := by
  have hcleared : s.takeRx.pending .rx s.rx.tail = none := by rw [State.takeRx_pending hs hc, if_pos (by rfl)]
  have hnot (i a') : s.takeRx.pending .rx i ≠ some (h, a') := by
    rw [State.takeRx_pending hs hc]
    split
    · nofun
    · next hne => exact fun hi => hne (hs.once _ _ _ _ _ hi hp)
  refine ⟨(hk.pending _).elim (·.trans hcleared) id, ?_⟩
  rw [hk.buffers h hnot, State.takeRx_buffer hp, State.buffer_setBuffer_same]
  exact hs.pool ▸ (hs.held _ _ _ hp).1

theorem Drained.next {s t : State} (hs : s.RxEntries) (hc : ¬ s.caughtUp) {b w : Nat} (hk : DrainKeeps s.takeRx t)
    (hd : Drained s.takeRx t b w) : Drained s t (b + 1) (w + 1) := by
  obtain ⟨hbudget, hcount, htail, hcompleted, hlast, hhist, hrxErr, hconsumed⟩ := hd
  have hcount' := State.count_takeRx hs hc
  have hlt := State.count_lt hs.toRxSized
  have hzero := State.tailSlot_zero hs.toRxSized
  have hslot (k) := State.tailSlot_lt hs.toRxSized k
  have hne (k) (hk : k ≤ w) : s.tailSlot (k + 1) ≠ s.rx.tail := State.tailSlot_succ_ne hs.toRxSized (by omega)
  simp only [State.tailSlot_takeRx hs hc, State.takeRx_dropped hs hc] at htail hcompleted hlast hhist hrxErr hconsumed
  refine ⟨by omega, by omega, htail, ?_, ?_, ?_, ?_, ?_⟩
  · rintro (_ | k) hkw
    · rw [hzero]
      exact (State.slotState_tail hs.toRxSized).mpr hc
    · rw [← State.slotState_takeRx hs hc (hslot _) (hne k (by omega))]
      exact hcompleted k (by omega)
  · rw [State.slotState_takeRx hs hc (hslot _) (hne w (Nat.le_refl w))] at hlast
    exact hlast.imp_left (congrArg (· + 1))
  · have hrest : (List.range w).filterMap (fun k => s.takeRx.delivery (s.tailSlot (k + 1)))
        = (List.range w).filterMap fun k => s.delivery (s.tailSlot (k + 1)) :=
      List.filterMap_congr fun k hk => State.delivery_takeRx hs hc (hne k (List.mem_range.mp hk).le)
    rw [hhist, hrest, State.takeRx_hist hs hc, List.range_succ_eq_map, List.filterMap_cons, List.filterMap_map, hzero,
      List.append_assoc]
    cases s.delivery s.rx.tail <;> rfl
  · rw [hrxErr, State.takeRx_rxErr hs hc, List.range_succ_eq_map, List.countP_cons, List.countP_map, hzero,
      BitVec.add_assoc, ← BitVec.ofNat_add, Nat.add_comm]
    rfl
  · rintro (_ | k) h a hkw hp
    · rw [hzero] at hp ⊢
      exact hk.consumed_tail hs hc hp
    · obtain ⟨h₀, a₀, hp₀⟩ := hs.tail_entry hc
      have hne' := hne k (by omega)
      have hp' : s.takeRx.pending .rx (s.tailSlot (k + 1)) = some (h, a) := by
        rw [State.takeRx_pending hs hc, if_neg hne', hp]
      rw [State.handedOver, ← State.takeRx_buffer_other hs hp₀ hne' hp, ← State.takeRx_dropped hs hc,
        ← State.takeRx_descriptor hs hc]
      exact hconsumed k h a (by omega) hp'

theorem State.drainAll_drained {s : State} (hs : s.RxEntries) (b : Nat) :
    Drained s (s.drainAll b).1 b (s.drainAll b).2 := by
  fun_induction State.drainAll b s with
  | case1 s => exact drained_none hs.toRxSized (.inl rfl)
  | case2 b s hc => exact drained_none hs.toRxSized (.inr hc)
  | case3 b s hc r ih => exact (ih (hs.takeRx hc)).next hs hc (State.drainAll_keeps (hs.takeRx hc) b)

/-- Settles O34: the command is its loop, and the loop consumes one slot after the other. -/
theorem drainDeliversInOrder : Obligations.DrainDeliversInOrder := by
  intro s b hr hup hp hsizes he hw hk slot
  have hs := State.RxEntries.of_ok hsizes he hw
  obtain ⟨hbudget, hcount, htail, hcompleted, hlast, hhist, hrxErr, hconsumed⟩ := State.drainAll_drained hs b
  refine ⟨_, _, exec_drain hr hup hp hs hk, hbudget, hcount, (State.drainAll_keeps hs b).head, htail, hcompleted, hlast,
    ?_, hrxErr, hconsumed⟩
  rw [State.respond_hist, hhist]
  rfl

end Sys2Proof.Machine
end

section
/-! PROOF. SUBMIT on a ring with room, on a full ring, and of a handle upstream does not hold (43_transmit_engine R155,
R158, R160, 60_exceptions R220). -/

namespace Sys2Proof.Machine

theorem respWord_busy : respWord .busy 0 = 0x10000000 := by decide

/-! ## The lock (20_memory R76) -/

/-- A lock that was free, taken and released again. -/
theorem State.unlock_lock {s : State} (hlock : s.txLock = none) (c : Ctx) : (s.lock c).unlock = s := by
  rw [State.lock, State.unlock, ← hlock]

/-! ## SUBMIT that is turned away (R155 X3, X4) -/

section
variable {s : State} {h : Nat} (c : Ctx)

/-- X1 and X2 with the lock free and `life` `UP`. -/
theorem taskRun_submit_locked (n : Nat) (hlock : s.txLock = none) (hup : s.life = .up) :
    taskRun c (n + 2) (.submit h .x1) s = taskRun c n (.submit h .x3) (s.lock c) := by
  have h1 : taskStep c (.submit h .x1) s = (s.lock c, .goto (.submit h .x2)) := by simp [taskStep, submitTask, hlock]
  have h2 : taskStep c (.submit h .x2) (s.lock c) = (s.lock c, .goto (.submit h .x3)) := by
    simp [taskStep, submitTask, hup]
  rw [taskRun_goto h1, taskRun_goto h2]

theorem submitTask_busy (hfull : s.full .tx = true) :
    taskStep c (.submit h .x3) s = ({ s with txStopped := true }.unlock, .ret (.busy, 0)) := if_pos hfull

theorem submitTask_room (hfull : s.full .tx = false) :
    taskStep c (.submit h .x3) s = (s, .goto (.submit h .x4)) := if_neg (Bool.eq_false_iff.mp hfull)

theorem submitTask_badHandle (hbad : ¬ s.handleOk h = true) :
    taskStep c (.submit h .x4) s = (s.unlock, .ret (.badHandle, 0)) := if_neg hbad

/-! ## SUBMIT that queues its packet (R155 X5 to X10) -/

/-- X5 with a mapping that succeeds. -/
theorem submitTask_mapped (hh : s.holds h) (hd : s.drawMapOk.1 = true) :
    taskStep c (.submit h .x5) s = (s.drawMapOk.2.setBuffer h { s.buffer h with map := some .outbound },
      .goto (.submit h (.x6 (xlateOf s.cfg h) .p1))) := by
  simp only [taskStep, submitTask, State.mapBuffer_of_holds _ hh, hd, if_true]

/-- X6 to X9: the slot at the head is armed with the mapped buffer `h`, and the device is told. -/
theorem reaches_kicked : Reaches c 7 (.submit h (.x6 (xlateOf s.cfg h) .p1)) s (.submit h .x10)
    ((s.arm .tx h 0xF0000000 ((s.buffer h).len.setWidth 32)).emit .kick) := by
  have hstatus : (0xF0000000 : Word) = txArmedStatus := by decide
  rw [hstatus]
  let a := xlateOf s.cfg h
  let i := s.tx.head
  let u1 := s.descWrite64 (bufferAddr s.cfg .tx i) a
  let u2 := u1.descWrite32 (lengthAddr s.cfg .tx i) ((s.buffer h).len.setWidth 32)
  let u4 := u2.descWrite32 (statusAddr s.cfg .tx i) txArmedStatus
  let u7 := u4.setPending .tx i (some (h, a))
  let u8 := u7.setHead .tx (nextIndex i s.cfg.nTx)
  have h1 : taskStep c (.submit h (.x6 a .p1)) s = (u1, .goto (.submit h (.x6 a (.p2 i)))) := rfl
  have h2 : taskStep c (.submit h (.x6 a (.p2 i))) u1 = (u2, .goto (.submit h (.x6 a (.p3 i)))) := rfl
  have h3 : taskStep c (.submit h (.x6 a (.p3 i))) u2 = (u2, .goto (.submit h (.x6 a (.p4 i)))) := rfl
  have h4 : taskStep c (.submit h (.x6 a (.p4 i))) u2 = (u4, .goto (.submit h (.x7 a i))) := rfl
  have h7 : taskStep c (.submit h (.x7 a i)) u4 = (u7, .goto (.submit h (.x8 i))) := rfl
  have h8 : taskStep c (.submit h (.x8 i)) u7 = (u8, .goto (.submit h .x9)) := rfl
  have h9 : taskStep c (.submit h .x9) u8 = (u8.emit .kick, .goto (.submit h .x10)) := rfl
  exact .step h1 (.step h2 (.step h3 (.step h4 (.step h7 (.step h8 (.step h9 .rfl))))))

theorem submitTask_done : taskStep c (.submit h .x10) s = (s.unlock, .ret (.ok, 0)) := rfl

/-- X6 to X10, the lock taken in a state in which it was free. -/
theorem taskRun_submit_kicked (hlock : s.txLock = none) :
    taskRun c 8 (.submit h (.x6 (xlateOf s.cfg h) .p1)) (s.lock c)
      = ((s.arm .tx h 0xF0000000 ((s.buffer h).len.setWidth 32)).emit .kick, .ret (.ok, 0)) := by
  have hunlock : (((s.lock c).arm .tx h 0xF0000000 ((s.buffer h).len.setWidth 32)).emit .kick).unlock
      = (((s.lock c).unlock).arm .tx h 0xF0000000 ((s.buffer h).len.setWidth 32)).emit .kick := rfl
  rw [State.unlock_lock hlock] at hunlock
  rw [← hunlock]
  exact (reaches_kicked (s := s.lock c) c).ret (submitTask_done c)

/-- X5 in the state X4 leaves: the next draw is the one it was, and the buffer is upstream's no more. -/
theorem submitTask_takenMapped (hlt : h < s.cfg.poolSize) (hpool : s.pool.length = s.cfg.poolSize)
    (hm : (s.buffer h).map = none) (hd : s.drawMapOk.1 = true) :
    taskStep c (.submit h .x5) ((s.lock c).setBuffer h { s.buffer h with own := .eng })
      = ((s.drawMapOk.2.setBuffer h ⟨.eng, (s.buffer h).len, some .outbound⟩).lock c,
        .goto (.submit h (.x6 (xlateOf s.cfg h) .p1))) := by
  have hsame := (s.lock c).buffer_setBuffer_same { s.buffer h with own := .eng } (hpool ▸ hlt)
  have hdraw := State.drawMapOk_congr (s := s) (u := (s.lock c).setBuffer h { s.buffer h with own := .eng }) rfl rfl
  have hh : ((s.lock c).setBuffer h { s.buffer h with own := .eng }).holds h :=
    ⟨hlt, by simp [hsame], by rw [hsame]; exact hm⟩
  rw [submitTask_mapped c hh (by rw [hdraw]; exact hd), hsame, hdraw, s.drawMapOk_frame]
  simp [State.setBuffer, State.lock]

end

/-- Settles O37: X1 and X2 take the lock, and X3 or X4 turns the command away and releases it. -/
theorem submitBusyOrBadHandle : Obligations.SubmitBusyOrBadHandle := by
  intro s h hr hup hlock hk
  refine ⟨fun hfull => ?_, fun hfull hbad => ?_⟩
  · have hrun := taskRun_submit_locked (h := h) s.cur 1 hlock hup
    rw [taskRun_of_ret 0 (submitTask_busy (s := s.lock s.cur) s.cur hfull)] at hrun
    have hunlock : ({ s.lock s.cur with txStopped := true } : State).unlock = { s with txStopped := true } :=
      State.unlock_lock (s := { s with txStopped := true }) hlock s.cur
    rw [exec_of_ret hr rfl hrun (by omega), hunlock, State.respond, respWord_busy]
  · have hbad' : ¬ s.handleOk h = true := by
      rw [State.handleOk_iff]
      exact fun hok => hbad.elim (Nat.not_le.mpr hok.1) (· hok.2)
    have hrun := taskRun_submit_locked (h := h) s.cur 2 hlock hup
    rw [taskRun_goto (submitTask_room (s := s.lock s.cur) s.cur hfull),
      taskRun_of_ret 0 (submitTask_badHandle (s := s.lock s.cur) s.cur hbad')] at hrun
    rw [exec_of_ret hr rfl hrun hk, State.unlock_lock hlock, State.respond, respWord_badHandle]

/-- Settles O36: X1 to X4 take the lock and the buffer, X5 maps it, X6 to X9 arm the slot and kick, X10 unlocks. -/
theorem submitQueuesPacket : Obligations.SubmitQueuesPacket := by
  intro s h hr hup hlock hfull hlt hpool ho hm hd hk
  have hrun := taskRun_submit_taken s.cur 9 hlock hup hfull (State.handleOk_iff.mpr ⟨hlt, ho⟩)
  rw [taskRun_goto (submitTask_takenMapped s.cur hlt hpool hm hd)] at hrun
  have hfree : (s.drawMapOk.2.setBuffer h ⟨.eng, (s.buffer h).len, some .outbound⟩).txLock = none := by
    rw [State.setBuffer_txLock, s.drawMapOk_frame, hlock]
  have hlen : ((s.drawMapOk.2.setBuffer h ⟨.eng, (s.buffer h).len, some .outbound⟩).buffer h).len
      = (s.buffer h).len := by
    rw [State.buffer_setBuffer_same _ _ (by simpa [hpool] using hlt)]
  have hkicked := taskRun_submit_kicked (h := h) s.cur hfree
  rw [hlen, State.setBuffer_cfg, State.drawMapOk_cfg] at hkicked
  rw [exec_of_ret hr rfl (hrun.trans hkicked) hk, State.respond, respWord_ok_zero]

end Sys2Proof.Machine
end

section
/-! PROOF. The frame of SUBMIT, RECLAIM and IRQ, micro-step by micro-step (43_transmit_engine R155, R156,
44_event_dispatcher R170). -/

namespace Sys2Proof.Machine

/-- What a command keeps, from what its operation keeps at every label it reaches from its acceptance. -/
theorem exec_leads {i : Instr} {s t : State} {I : State → Task → Prop} {Q : State → Prop} (h : exec i s = .next t)
    (hs : Q s) (hstart : ∀ t₀ s₀, acceptance i s = .start t₀ s₀ → I s₀ t₀) (hQ : ∀ u t', I u t' → Q u)
    (hstep : ∀ u t', I u t' → Next.Leads I Q (taskStep s.cur t' u)) :
    s.keepsOthers t ∧ ∃ u hist lanes, Q u ∧ t = { u with hist := hist, lanes := lanes } := by
  obtain ⟨u, rfl | ⟨t₀, s₀, ha, rfl⟩, hframe, hothers⟩ := exec_scheduled h
  · exact ⟨hothers, u, t.hist, t.lanes, hs, hframe⟩
  · exact ⟨hothers, _, t.hist, t.lanes, taskRun_leads hQ hstep _ _ _ (hstart t₀ s₀ ha), hframe⟩

/-! ## SUBMIT -/

/-- The fields SUBMIT writes. -/
def SubmitFrame (s u : State) : Prop :=
  u = { s with
    tx := u.tx, pool := u.pool, txStopped := u.txStopped, txLock := u.txLock, fault := u.fault, hist := u.hist,
    desc := u.desc, draws := u.draws, tick := u.tick }

theorem SubmitFrame.trans {s u v : State} (h : SubmitFrame s u) (g : SubmitFrame u v) : SubmitFrame s v := by
  rw [SubmitFrame] at h g ⊢
  rw [g, h]

/-- What SUBMIT of the buffer `k` keeps (R155). -/
structure SubmitKeeps (s : State) (k : Nat) (u : State) : Prop where
  frame : SubmitFrame s u
  tail : u.tx.tail = s.tx.tail
  pending : ∀ i, i ≠ s.tx.head → u.pending .tx i = s.pending .tx i
  buffers : ∀ j, j ≠ k → u.buffer j = s.buffer j
  bytes : ∀ a, ¬ inDescriptor s.cfg .tx s.tx.head a → u.descByte a = s.descByte a

theorem SubmitKeeps.rfl {s : State} {k : Nat} : SubmitKeeps s k s :=
  ⟨by rfl, by rfl, fun _ _ => by rfl, fun _ _ => by rfl, fun _ _ => by rfl⟩

section
variable {s v u : State} {k : Nat} (h : SubmitKeeps s k v)
include h

theorem SubmitKeeps.cfg : v.cfg = s.cfg := by rw [h.frame]

theorem SubmitKeeps.buf : v.buf = s.buf := by rw [h.frame]

/-- An update of neither the TX ring, another buffer nor descriptor memory. -/
theorem SubmitKeeps.update (hf : SubmitFrame v u) (htx : u.tx = v.tx) (hbuf : ∀ j, j ≠ k → u.buffer j = v.buffer j)
    (hdesc : u.desc = v.desc) : SubmitKeeps s k u where
  frame := h.frame.trans hf
  tail := by rw [htx, h.tail]
  pending i hi := by rw [State.pending_congr (r := .tx) htx, h.pending i hi]
  buffers j hj := (hbuf j hj).trans (h.buffers j hj)
  bytes a ha := by rw [← h.bytes a ha, State.descByte, hdesc, ← State.descByte]

theorem SubmitKeeps.lock (c : Ctx) : SubmitKeeps s k (v.lock c) :=
  h.update (by rfl) (by rfl) (fun _ _ => by rfl) (by rfl)

theorem SubmitKeeps.unlock : SubmitKeeps s k v.unlock := h.update (by rfl) (by rfl) (fun _ _ => by rfl) (by rfl)

theorem SubmitKeeps.stopQueue : SubmitKeeps s k { v with txStopped := true } :=
  h.update (by rfl) (by rfl) (fun _ _ => by rfl) (by rfl)

theorem SubmitKeeps.raise : SubmitKeeps s k (v.raise .pool) :=
  h.update (by rfl) (by rfl) (fun _ _ => by rfl) (by rfl)

theorem SubmitKeeps.kick : SubmitKeeps s k v.kickTransmit :=
  h.update (by rfl) (by rfl) (fun _ _ => by rfl) (by rfl)

theorem SubmitKeeps.drawMapOk : SubmitKeeps s k v.drawMapOk.2 :=
  h.update (by rw [SubmitFrame, v.drawMapOk_frame]) (by rw [v.drawMapOk_frame]) (fun j _ => v.drawMapOk_buffer j)
    (by rw [v.drawMapOk_frame])

theorem SubmitKeeps.setBuffer (e : PoolEntry) : SubmitKeeps s k (v.setBuffer k e) :=
  h.update (by rfl) (by rfl) (fun _ hj => v.buffer_setBuffer_other e hj) (by rfl)

/-- A write inside the descriptor that stood at the head. -/
theorem SubmitKeeps.write (hf : u = { v with desc := u.desc })
    (hd : ∀ a, ¬ inDescriptor v.cfg .tx s.tx.head a → u.descByte a = v.descByte a) : SubmitKeeps s k u where
  frame := h.frame.trans (by rw [SubmitFrame, hf])
  tail := by rw [hf]; exact h.tail
  pending i hi := by rw [hf]; exact h.pending i hi
  buffers j hj := by rw [hf]; exact h.buffers j hj
  bytes a ha := (hd a (h.cfg ▸ ha)).trans (h.bytes a ha)

theorem SubmitKeeps.write32 {a : Nat} (w : Word) (hlo : statusAddr v.cfg .tx s.tx.head ≤ a)
    (hhi : a + 4 ≤ statusAddr v.cfg .tx s.tx.head + 16) : SubmitKeeps s k (v.descWrite32 a w) :=
  h.write (by rfl) fun x hx => v.descByte_descWrite32_outside w (by
    simp only [inDescriptor, statusAddr, Config.descSize] at hx hlo hhi; omega)

theorem SubmitKeeps.write64 {a : Nat} (w : DAddr) (hlo : statusAddr v.cfg .tx s.tx.head ≤ a)
    (hhi : a + 8 ≤ statusAddr v.cfg .tx s.tx.head + 16) : SubmitKeeps s k (v.descWrite64 a w) :=
  h.write (by rfl) fun x hx => v.descByte_descWrite64_outside w (by
    simp only [inDescriptor, statusAddr, Config.descSize] at hx hlo hhi; omega)

theorem SubmitKeeps.record (e : Option (Nat × DAddr)) : SubmitKeeps s k (v.setPending .tx s.tx.head e) where
  frame := h.frame.trans (by rfl)
  tail := h.tail
  pending i hi := by rw [State.pending_setPending, if_neg (fun hc => hi hc.2.1), h.pending i hi]
  buffers := h.buffers
  bytes := h.bytes

theorem SubmitKeeps.advanceHead (i : Nat) : SubmitKeeps s k (v.produceCommit .tx i) :=
  ⟨h.frame.trans (by rfl), h.tail, h.pending, h.buffers, h.bytes⟩

end

/-- SUBMIT, up to X8, has not moved the head, and works on the slot there (R155, R128). -/
def SubmitPc.worksAt (s : State) (j : Nat) : SubmitPc → Prop
  | .x6 _ q => s.tx.head = j ∧ q.at j = true
  | .x7 _ i => s.tx.head = j ∧ i = j
  | .x8 i => s.tx.head = j ∧ i = j
  | .x9 => True
  | .x10 => True
  | _ => s.tx.head = j

/-- SUBMIT stands at `p`, working on the slot that was at the head when it began. -/
structure SubmitAt (s₀ : State) (k : Nat) (s : State) (p : SubmitPc) : Prop where
  keeps : SubmitKeeps s₀ k s
  slot : p.worksAt s s₀.tx.head

theorem submitTask_leads {c : Ctx} {s₀ s : State} {k : Nat} {p : SubmitPc} (h : SubmitAt s₀ k s p) :
    Next.Leads (fun u t => ∃ p', t = .submit k p' ∧ SubmitAt s₀ k u p') (SubmitKeeps s₀ k)
      (taskStep c (.submit k p) s) := by
  obtain ⟨hk, hslot⟩ := h
  cases p with
  | x1 =>
    rw [taskStep, submitTask]
    split
    · exact ⟨.x2, rfl, hk.lock c, hslot⟩
    · trivial
  | x2 =>
    rw [taskStep, submitTask]
    split
    · exact ⟨.x3, rfl, hk, hslot⟩
    · exact hk.unlock
  | x3 =>
    rw [taskStep, submitTask]
    split
    · exact hk.stopQueue.unlock
    · exact ⟨.x4, rfl, hk, hslot⟩
  | x4 =>
    rw [taskStep, submitTask]
    split
    · exact ⟨.x5, rfl, hk.setBuffer _, hslot⟩
    · exact hk.unlock
  | x5 =>
    by_cases hh : s.holds k
    · cases hd : s.drawMapOk.1 with
      | true =>
        rw [submitTask_mapped c hh hd]
        refine ⟨_, rfl, hk.drawMapOk.setBuffer _, ?_, rfl⟩
        rw [State.setBuffer_tx, s.drawMapOk_frame]
        exact hslot
      | false =>
        rw [submitTask_mapFailure c hh hd]
        exact (hk.drawMapOk.setBuffer _).unlock
    · rw [taskStep, submitTask, State.mapBuffer_of_not_holds _ hh]
      exact hk.raise
  | x6 a q =>
    obtain ⟨hhead, hat⟩ := hslot
    cases q with
    | p1 => exact ⟨_, rfl, hk.write64 _ (by rw [← hhead]; exact Nat.le_add_right ..)
        (by rw [← hhead]; exact Nat.le_refl _), hhead, beq_iff_eq.mpr hhead⟩
    | p2 i =>
      obtain rfl := beq_iff_eq.mp hat
      exact ⟨_, rfl, hk.write32 _ (Nat.le_add_right ..) (by rw [lengthAddr]; omega), hhead, hat⟩
    | p3 i => exact ⟨_, rfl, hk, hhead, hat⟩
    | p4 i =>
      obtain rfl := beq_iff_eq.mp hat
      exact ⟨_, rfl, hk.write32 _ (Nat.le_refl _) (by omega), hhead, rfl⟩
  | x7 a i =>
    obtain ⟨hhead, rfl⟩ := hslot
    exact ⟨_, rfl, hk.record _, hhead, rfl⟩
  | x8 i => exact ⟨_, rfl, hk.advanceHead i, trivial⟩
  | x9 => exact ⟨_, rfl, hk.kick, trivial⟩
  | x10 => exact hk.unlock

/-! ## RECLAIM -/

/-- Y8 in one piece (R159). -/
theorem State.wakeIf_eq (s : State) (f : Bool) (n : Nat) : s.wakeIf f n = { s with
    hist := s.hist ++ if 1 ≤ n ∧ f = true then [.wake] else []
    txStopped := s.txStopped && !(decide (1 ≤ n) && f) } := by
  rw [State.wakeIf]
  split
  · next hw =>
    obtain ⟨hn, rfl⟩ := hw
    simp [State.emit, hn]
  · next hw =>
    have hno : (decide (1 ≤ n) && f) = false := by
      rw [Bool.eq_false_iff]
      simpa using hw
    rw [hno, List.append_nil, Bool.not_false, Bool.and_true]

/-- The fields RECLAIM writes. -/
def ReclaimFrame (s u : State) : Prop :=
  u = { s with
    tx := u.tx, pool := u.pool, txStopped := u.txStopped, txLock := u.txLock, txErr := u.txErr, fault := u.fault,
    hist := u.hist }

theorem ReclaimFrame.trans {s u v : State} (h : ReclaimFrame s u) (g : ReclaimFrame u v) : ReclaimFrame s v := by
  rw [ReclaimFrame] at h g ⊢
  rw [g, h]

/-- What RECLAIM keeps (R156). -/
structure ReclaimKeeps (s u : State) : Prop where
  frame : ReclaimFrame s u
  head : u.tx.head = s.tx.head
  pending : ∀ i, u.pending .tx i = s.pending .tx i ∨ u.pending .tx i = none
  buffers : ∀ j, (∀ i a, s.pending .tx i ≠ some (j, a)) → u.buffer j = s.buffer j

theorem ReclaimKeeps.rfl {s : State} : ReclaimKeeps s s := ⟨by rfl, by rfl, fun _ => .inl (by rfl), fun _ _ => by rfl⟩

section
variable {s v u : State} (h : ReclaimKeeps s v)
include h

theorem ReclaimKeeps.desc : v.desc = s.desc := by rw [h.frame]

theorem ReclaimKeeps.buf : v.buf = s.buf := by rw [h.frame]

/-- An entry that still stands stood there at the start. -/
theorem ReclaimKeeps.entry {i : Nat} {e : Nat × DAddr} (hp : v.pending .tx i = some e) : s.pending .tx i = some e :=
  ((h.pending i).resolve_right (by rw [hp]; nofun)).symm.trans hp

theorem ReclaimKeeps.trans (g : ReclaimKeeps v u) : ReclaimKeeps s u where
  frame := h.frame.trans g.frame
  head := g.head.trans h.head
  pending i := (g.pending i).elim (fun hi => hi ▸ h.pending i) .inr
  buffers j hj := (g.buffers j fun i a hp => hj i a (h.entry hp)).trans (h.buffers j hj)

/-- An update of neither the TX ring nor a buffer that no slot has. -/
theorem ReclaimKeeps.update (hf : ReclaimFrame v u) (htx : u.tx = v.tx)
    (hbuf : ∀ j, (∀ i a, s.pending .tx i ≠ some (j, a)) → u.buffer j = v.buffer j) : ReclaimKeeps s u where
  frame := h.frame.trans hf
  head := by rw [htx, h.head]
  pending i := by rw [State.pending_congr (r := .tx) htx]; exact h.pending i
  buffers j hj := (hbuf j hj).trans (h.buffers j hj)

theorem ReclaimKeeps.lock (c : Ctx) : ReclaimKeeps s (v.lock c) := h.update (by rfl) (by rfl) (fun _ _ => by rfl)

theorem ReclaimKeeps.unlock : ReclaimKeeps s v.unlock := h.update (by rfl) (by rfl) (fun _ _ => by rfl)

theorem ReclaimKeeps.raise {f : Fault} : ReclaimKeeps s (v.raise f) :=
  h.update (by cases f <;> rfl) (by simp) (fun _ _ => by simp)

theorem ReclaimKeeps.emit (e : Event) : ReclaimKeeps s (v.emit e) := h.update (by rfl) (by rfl) (fun _ _ => by rfl)

theorem ReclaimKeeps.wakeIf (f : Bool) (n : Nat) : ReclaimKeeps s (v.wakeIf f n) := by
  rw [State.wakeIf_eq]
  exact h.update (by rfl) (by rfl) (fun _ _ => by rfl)

theorem ReclaimKeeps.countError (e : Word) : ReclaimKeeps s { v with txErr := e } :=
  h.update (by rfl) (by rfl) (fun _ _ => by rfl)

theorem ReclaimKeeps.setBuffer {k i : Nat} {a : DAddr} (e : PoolEntry) (hk : s.pending .tx i = some (k, a)) :
    ReclaimKeeps s (v.setBuffer k e) :=
  h.update (by rfl) (by rfl) fun _ hj => v.buffer_setBuffer_other e fun he => hj i a (he ▸ hk)

theorem ReclaimKeeps.clear (i : Nat) : ReclaimKeeps s (v.setPending .tx i none) where
  frame := h.frame.trans (by rfl)
  head := h.head
  pending j := by
    rw [State.pending_setPending]
    split
    · exact .inr (by rfl)
    · exact h.pending j
  buffers := h.buffers

theorem ReclaimKeeps.setTail (i : Nat) : ReclaimKeeps s (v.setTail .tx i) :=
  ⟨h.frame.trans (by rfl), h.head, h.pending, h.buffers⟩

end

/-- The buffer RECLAIM is about to unmap and release. -/
def ReclaimPc.handles : ReclaimPc → List Nat
  | .y5 _ _ _ _ h => [h]
  | _ => []

/-- RECLAIM stands at `p`: its buffer is one that a slot had when it began. -/
structure ReclaimAt (s₀ s : State) (p : ReclaimPc) : Prop where
  keeps : ReclaimKeeps s₀ s
  entry : ∀ h ∈ p.handles, ∃ i a, s₀.pending .tx i = some (h, a)

theorem reclaimAt_micro {c : Ctx} {s₀ s u : State} {p p' : ReclaimPc} (h : ReclaimAt s₀ s p)
    (hm : ReclaimMicro c s p u p') : ReclaimAt s₀ u p' := by
  obtain ⟨hk, hentry⟩ := h
  cases hm with
  | locked hl => exact ⟨hk.lock c, nofun⟩
  | @entry f n k st a hp =>
    refine ⟨hk, fun k' hk' => ?_⟩
    obtain rfl := List.mem_singleton.mp hk'
    exact ⟨s.tx.tail, a, hk.entry hp⟩
  | noEntry hp => exact ⟨hk.raise, nofun⟩
  | @freed f n i k st e =>
    obtain ⟨j, a, hj⟩ := hentry k (List.mem_singleton.mpr rfl)
    exact ⟨(hk.countError e).setBuffer _ hj, nofun⟩
  | cleared => exact ⟨hk.clear _, nofun⟩
  | advanced => exact ⟨hk.setTail _, nofun⟩
  | woken => exact ⟨hk.wakeIf .., nofun⟩
  | _ => exact ⟨hk, nofun⟩

/-- Y5 that stops has touched its own buffer at most (R112, R115). -/
theorem State.reclaimBuffer_stop {s u : State} {st : Word} {h : Nat} {p : ReclaimPc}
    (hx : s.reclaimBuffer st h (fun u => (u, .goto p)) = (u, .stop)) :
    u = s.raise .pool ∨ ∃ x e, u = ({ s.setBuffer h x with txErr := e } : State).raise .pool := by
  rw [State.reclaimBuffer] at hx
  cases hu : s.unmapBuffer h .outbound with
  | none =>
    rw [orPoolFault_none _ hu] at hx
    cases hx
    exact .inl rfl
  | some v =>
    obtain ⟨-, -, rfl⟩ := State.unmapBuffer_eq_some hu
    rw [orPoolFault_some _ hu] at hx
    simp only [orPoolFault] at hx
    split at hx
    · cases hx
    · cases hx
      refine .inr ⟨{ s.buffer h with map := none }, if errBit st then bump s.txErr else s.txErr, ?_⟩
      cases errBit st <;> rfl

theorem reclaimStep_leads {c : Ctx} {s₀ s : State} {p : ReclaimPc} (h : ReclaimAt s₀ s p) :
    Next.Leads (ReclaimAt s₀) (ReclaimKeeps s₀) (reclaimStep c p s) := by
  have hm := reclaimStep_meets c p s
  rcases hx : reclaimStep c p s with ⟨u, p' | n | _ | _⟩ <;> rw [hx] at hm
  · exact reclaimAt_micro h hm
  · obtain ⟨rfl, -⟩ := hm
    exact h.keeps.unlock
  · trivial
  · obtain ⟨hmis, -⟩ := hm
    cases p with
    | y5 f n st i k =>
      obtain ⟨j, a, hj⟩ := h.entry k (List.mem_singleton.mpr rfl)
      obtain rfl | ⟨x, e, rfl⟩ := State.reclaimBuffer_stop hx
      · exact h.keeps.raise
      · exact ((h.keeps.setBuffer x hj).countError e).raise
    | _ => exact hmis.elim

theorem reclaimTask_leads {c : Ctx} {s₀ s : State} {p : ReclaimPc} (h : ReclaimAt s₀ s p) :
    Next.Leads (fun u t => ∃ p', t = .reclaim p' ∧ ReclaimAt s₀ u p') (ReclaimKeeps s₀) (taskStep c (.reclaim p) s) := by
  have hs := reclaimStep_leads (c := c) h
  rw [taskStep, reclaimTask]
  rcases hx : reclaimStep c p s with ⟨u, p' | (_ | n) | _ | _⟩ <;> rw [hx] at hs
  · exact ⟨p', rfl, hs⟩
  · exact hs
  · exact hs
  · trivial
  · exact hs

/-! ## IRQ -/

/-- The state with other values of the registers that IRQ writes and RECLAIM does not (R170 I1, I3, I7). -/
def State.irqRegs (s : State) (latch : Word) (sched : Bool) (isr : Word) : State :=
  { s with isrLatch := latch, pollSched := sched, isr := isr }

theorem ReclaimKeeps.irqRegs {s u : State} (h : ReclaimKeeps s u) (latch : Word) (sched : Bool) (isr : Word) :
    ReclaimKeeps (s.irqRegs latch sched isr) (u.irqRegs latch sched isr) where
  frame := by
    have hf := h.frame
    rw [ReclaimFrame] at hf ⊢
    rw [hf]
    rfl
  head := h.head
  pending := h.pending
  buffers := h.buffers

/-- What IRQ keeps (R170): but for those registers, what RECLAIM keeps. -/
def IrqKeeps (s u : State) : Prop := ∃ latch sched isr, ReclaimKeeps (s.irqRegs latch sched isr) u

theorem IrqKeeps.rfl {s : State} : IrqKeeps s s := ⟨s.isrLatch, s.pollSched, s.isr, .rfl⟩

section
variable {s v : State} (h : IrqKeeps s v)
include h

theorem IrqKeeps.irqRegs (latch : Word) (sched : Bool) (isr : Word) : IrqKeeps s (v.irqRegs latch sched isr) := by
  obtain ⟨_, _, _, hk⟩ := h
  exact ⟨latch, sched, isr, hk.irqRegs latch sched isr⟩

theorem IrqKeeps.schedulePoll (w : Word) : IrqKeeps s (v.schedulePoll w) := by
  rw [State.schedulePoll]
  split
  · exact h.irqRegs v.isrLatch true v.isr
  · exact h

theorem IrqKeeps.reportIf (b : Bool) (k : Cause) : IrqKeeps s (v.reportIf b k) := by
  obtain ⟨latch, sched, isr, hk⟩ := h
  rw [State.reportIf]
  split
  · exact ⟨latch, sched, isr, hk.emit _⟩
  · exact ⟨latch, sched, isr, hk⟩

end

/-- The buffer IRQ's RECLAIM is about to unmap and release. -/
def IrqPc.handles : IrqPc → List Nat
  | .i4r _ p => p.handles
  | _ => []

/-- IRQ stands at `p`: its buffer is one that a slot had when it began. -/
structure IrqAt (s₀ s : State) (p : IrqPc) : Prop where
  keeps : IrqKeeps s₀ s
  entry : ∀ h ∈ p.handles, ∃ i a, s₀.pending .tx i = some (h, a)

theorem irqTask_leads {c : Ctx} {s₀ s : State} {p : IrqPc} (h : IrqAt s₀ s p) :
    Next.Leads (fun u t => ∃ p', t = .irq p' ∧ IrqAt s₀ u p') (IrqKeeps s₀) (taskStep c (.irq p) s) := by
  obtain ⟨hk, hentry⟩ := h
  rw [taskStep]
  cases p with
  | i1 => exact ⟨_, rfl, hk.irqRegs _ s.pollSched s.isr, nofun⟩
  | i2 v =>
    rw [irqTask]
    split
    · exact hk
    · exact ⟨_, rfl, hk, nofun⟩
  | i3 v => exact ⟨_, rfl, hk.schedulePoll v, nofun⟩
  | i4 v =>
    rw [irqTask]
    split
    · exact ⟨_, rfl, hk, nofun⟩
    · exact ⟨_, rfl, hk, nofun⟩
  | i4r v q =>
    obtain ⟨latch, sched, isr, hk⟩ := hk
    have hs := reclaimStep_leads (c := c) (s₀ := s₀.irqRegs latch sched isr) ⟨hk, hentry⟩
    rw [irqTask]
    rcases hx : reclaimStep c q s with ⟨u, q' | _ | _ | _⟩ <;> rw [hx] at hs
    · exact ⟨_, rfl, ⟨latch, sched, isr, hs.keeps⟩, hs.entry⟩
    · exact ⟨_, rfl, ⟨latch, sched, isr, hs⟩, nofun⟩
    · trivial
    · exact ⟨latch, sched, isr, hs⟩
  | i5 v => exact ⟨_, rfl, hk.reportIf .., nofun⟩
  | i6 v => exact ⟨_, rfl, hk.reportIf .., nofun⟩
  | i7 v => exact ⟨_, rfl, hk.irqRegs s.isrLatch s.pollSched _, nofun⟩
  | i8 => exact hk

/-! ## The commands -/

theorem submit_keeps {k : Nat} {s t : State} (h : exec (.submit k) s = .next t) :
    s.keepsOthers t ∧ ∃ u hist lanes, SubmitKeeps s k u ∧ t = { u with hist := hist, lanes := lanes } :=
  exec_leads (I := fun u t => ∃ p, t = .submit k p ∧ SubmitAt s k u p) h .rfl
    (by rintro _ _ ⟨⟩; exact ⟨.x1, rfl, .rfl, rfl⟩)
    (by rintro u _ ⟨p, -, hp⟩; exact hp.keeps) (by rintro u _ ⟨p, rfl, hp⟩; exact submitTask_leads hp)

theorem reclaim_keeps {s t : State} (h : exec .reclaim s = .next t) :
    s.keepsOthers t ∧ ∃ u hist lanes, ReclaimKeeps s u ∧ t = { u with hist := hist, lanes := lanes } :=
  exec_leads (I := fun u t => ∃ p, t = .reclaim p ∧ ReclaimAt s u p) h .rfl
    (by rintro _ _ ⟨⟩; exact ⟨.y1, rfl, .rfl, nofun⟩)
    (by rintro u _ ⟨p, -, hp⟩; exact hp.keeps) (by rintro u _ ⟨p, rfl, hp⟩; exact reclaimTask_leads hp)

theorem irq_keeps {s t : State} (h : exec .irq s = .next t) :
    s.keepsOthers t ∧ ∃ u hist lanes, IrqKeeps s u ∧ t = { u with hist := hist, lanes := lanes } :=
  exec_leads (I := fun u t => ∃ p, t = .irq p ∧ IrqAt s u p) h .rfl
    (by
      intro t₀ s₀ ha
      rw [acceptance] at ha
      split at ha <;> cases ha
      exact ⟨.i1, rfl, .rfl, nofun⟩)
    (by rintro u _ ⟨p, -, hp⟩; exact hp.keeps) (by rintro u _ ⟨p, rfl, hp⟩; exact irqTask_leads hp)

/-- Settles O59: SUBMIT keeps its part at every label, RECLAIM its own, and IRQ that of RECLAIM but for its registers. -/
theorem transmitFrame : Obligations.TransmitFrame := by
  intro s t
  refine ⟨fun k hx => ?_, fun hx => ?_, fun hx => ?_⟩
  · obtain ⟨ho, u, hist, lanes, hu, rfl⟩ := submit_keeps hx
    exact ⟨by rw [hu.frame], hu.tail, ho, State.keepsBuf_of_eq hu.buf, hu.pending, hu.buffers, hu.bytes⟩
  · obtain ⟨ho, u, hist, lanes, hu, rfl⟩ := reclaim_keeps hx
    exact ⟨by rw [hu.frame], hu.head, ho, State.keepsDesc_of_eq hu.desc, State.keepsBuf_of_eq hu.buf, hu.pending,
      hu.buffers⟩
  · obtain ⟨ho, u, hist, lanes, ⟨latch, sched, isr, hu⟩, rfl⟩ := irq_keeps hx
    exact ⟨by rw [hu.frame]; rfl, hu.head, ho, State.keepsDesc_of_eq hu.desc, State.keepsBuf_of_eq hu.buf, hu.pending,
      hu.buffers⟩

end Sys2Proof.Machine
end

section
/-! PROOF. What RECLAIM does: it frees the completed slots from the tail on, in order, and wakes a queue it found full
(43_transmit_engine R156, R159, R161, 60_exceptions R214). -/

namespace Sys2Proof.Machine

/-! ## The TX entries -/

/-- The pool and the TX ring have the sizes of R29 and R31, and the TX indices lie in `0..N-1` (R22). -/
structure State.TxSized (s : State) : Prop where
  pool : s.pool.length = s.cfg.poolSize
  pend : s.tx.pend.length = s.cfg.nTx
  head : s.tx.head < s.cfg.nTx
  tail : s.tx.tail < s.cfg.nTx

theorem State.TxSized.of_sizesOk {s : State} (h : s.sizesOk = true) : s.TxSized := by
  simp only [State.sizesOk, Bool.and_eq_true, decide_eq_true_eq] at h
  obtain ⟨⟨⟨⟨⟨⟨hpool, -⟩, hpend⟩, -⟩, -⟩, hhead⟩, htail⟩ := h
  exact ⟨hpool, hpend, hhead, htail⟩

theorem State.TxSized.count_lt {s : State} (hs : s.TxSized) : s.count .tx < s.cfg.nTx :=
  Nat.mod_lt _ (Nat.lt_of_le_of_lt (Nat.zero_le _) hs.head)

/-- Each slot of the TX window has an entry; an entry's buffer is mapped for the device and is no other slot's
(R30, R32). -/
structure State.TxEntries (s : State) : Prop extends s.TxSized where
  present : ∀ i, i < s.cfg.nTx → s.inWindow .tx i = true → ∃ h a, s.pending .tx i = some (h, a)
  held : ∀ i h a, s.pending .tx i = some (h, a) → s.holdsMapped h .outbound
  once : ∀ i j h a b, s.pending .tx i = some (h, a) → s.pending .tx j = some (h, b) → i = j

theorem State.TxEntries.of_ok {s : State} (hsizes : s.sizesOk = true) (he : s.entriesOk = true)
    (hw : s.windowOk .tx = true) : s.TxEntries := by
  simp only [State.entriesOk, Bool.and_eq_true, decide_eq_true_eq, List.map_append, List.all_eq_true, List.mem_range,
    Option.all_eq_true, beq_iff_eq] at he
  obtain ⟨⟨-, hheld⟩, honce⟩ := he
  simp only [State.windowOk, List.all_eq_true, List.mem_range, Bool.or_eq_true, Bool.not_eq_true'] at hw
  have hs := State.TxSized.of_sizesOk hsizes
  have hlt {i : Nat} {e : Nat × DAddr} (hp : s.pending .tx i = some e) : i < s.cfg.nTx :=
    hs.pend ▸ State.lt_pend_of_pending (r := .tx) hp
  refine ⟨hs, fun i hi hin => ?_, fun i h a hp => ?_, fun i j h a b hp hq => ?_⟩
  · obtain ⟨⟨h, a⟩, hp⟩ := Option.isSome_iff_exists.mp ((hw i hi).resolve_left (by simp [hin]))
    exact ⟨h, a, hp⟩
  · obtain ⟨⟨hpool, hown⟩, hmap⟩ := hheld i (hlt hp) (h, a) hp
    exact ⟨hpool, by rw [hown]; nofun, hmap⟩
  · exact eq_of_nodup_keys honce.of_append_right (hlt hp) (hlt hq) hp hq

/-! ## One slot freed (R156 Y3 to Y7) -/

/-- The device reported an error on TX slot `i` (R161). -/
def State.txFailed (s : State) (i : Nat) : Bool := (s.descriptor .tx i).1.getLsbD 27

/-- Y5: the buffer `h` of slot `i` goes back to the pool, and an error is counted. -/
def State.freeTx (s : State) (i h : Nat) : State :=
  { s.setBuffer h { s.buffer h with own := .free, map := none } with
    txErr := s.txErr + BitVec.ofNat 32 (if s.txFailed i then 1 else 0) }

/-- There is nothing to free at the tail: no slot, or one that the device owns (R156 Y3). -/
def State.txCaughtUp (s : State) : Prop :=
  s.tx.head = s.tx.tail ∨ (s.descriptor .tx s.tx.tail).1.getLsbD 31 = true

theorem txErr_counted (e : Word) (b : Bool) : (if b then bump e else e) = e + BitVec.ofNat 32 (if b then 1 else 0) := by
  cases b with
  | true => rfl
  | false => exact (BitVec.add_zero e).symm

theorem State.freeTx_eq (s : State) (i h : Nat) : s.freeTx i h =
    if s.txFailed i then { s.setBuffer h { s.buffer h with own := .free, map := none } with txErr := s.txErr + 1 }
    else s.setBuffer h { s.buffer h with own := .free, map := none } := by
  rw [State.freeTx, ← txErr_counted]
  split <;> rfl

theorem State.takeTx_of_pending {s : State} {h : Nat} {a : DAddr} (hp : s.pending .tx s.tx.tail = some (h, a)) :
    s.takeTx = ((s.freeTx s.tx.tail h).setPending .tx s.tx.tail none).setTail .tx (nextIndex s.tx.tail s.cfg.nTx) := by
  rw [State.takeTx, hp, State.freeTx_eq]
  rfl

theorem Reclaims.taskStep {W : ReclaimPc → Task} (hW : Reclaims W) {c : Ctx} {p p' : ReclaimPc} {s u : State}
    (h : reclaimStep c p s = (u, .goto p')) : taskStep c (W p) s = (u, .goto (W p')) := by
  cases hW <;> simp only [Machine.taskStep, reclaimTask, irqTask, h]

section
variable {c : Ctx} {s : State} {f : Bool} {n : Nat}

theorem reclaimStep_locked (hlock : s.txLock = none) : reclaimStep c .y1 s = (s.lock c, .goto .y2) := by
  rw [reclaimStep, hlock]
  rfl

theorem reclaimStep_up (hup : s.life = .up) : reclaimStep c .y2 s = (s, .goto (.y3 (s.full .tx) 0 .k1)) := if_pos hup

theorem reclaimStep_caughtUp (hc : s.txCaughtUp) : reclaimStep c (.y3 f n .k1) s = (s, .goto (.y8 f n)) := by
  rw [reclaimStep, peekStep_k1_none (r := .tx) hc]

theorem reclaimStep_completed (hc : ¬ s.txCaughtUp) : reclaimStep c (.y3 f n .k1) s
    = (s, .goto (.y3 f n (.k2 s.tx.tail (s.descriptor .tx s.tx.tail).1))) := by
  obtain ⟨hne, hown⟩ := not_or.mp hc
  rw [reclaimStep, peekStep_k1_some (r := .tx) hne (Bool.eq_false_iff.mpr hown)]
  rfl

theorem reclaimStep_entry {h : Nat} {a : DAddr} (st : Word) (hp : s.pending .tx s.tx.tail = some (h, a)) :
    reclaimStep c (.y4 f n st) s = (s, .goto (.y5 f n st s.tx.tail h)) := by rw [reclaimStep, hp]

theorem reclaimStep_freed {h : Nat} (i : Nat) (hm : s.holdsMapped h .outbound) :
    reclaimStep c (.y5 f n (s.descriptor .tx i).1 i h) s = (s.freeTx i h, .goto (.y6 f n i)) := by
  have hcount (u : State) : (if errBit (s.descriptor .tx i).1 then { u with txErr := bump u.txErr } else u)
      = { u with txErr := u.txErr + BitVec.ofNat 32 (if s.txFailed i then 1 else 0) } := by
    have hfailed : errBit (s.descriptor .tx i).1 = s.txFailed i := rfl
    rw [← txErr_counted, hfailed]
    split <;> rfl
  simp only [reclaimStep, State.reclaimBuffer, State.unmapBuffer_of_holdsMapped hm, hcount]
  exact orPoolFault_some _ (State.release_unmapped
    (s := { s with txErr := s.txErr + BitVec.ofNat 32 (if s.txFailed i then 1 else 0) }) hm)

end

/-- Y3 to Y7: the slot at the tail is freed. -/
theorem reaches_freed {W : ReclaimPc → Task} (hW : Reclaims W) (c : Ctx) {s : State} (f : Bool) (n : Nat) {h : Nat}
    {a : DAddr} (hc : ¬ s.txCaughtUp) (hp : s.pending .tx s.tx.tail = some (h, a)) (hm : s.holdsMapped h .outbound) :
    Reaches c 6 (W (.y3 f n .k1)) s (W (.y3 f (n + 1) .k1)) s.takeTx := by
  rw [State.takeTx_of_pending hp]
  have hlength : reclaimStep c (.y3 f n (.k2 s.tx.tail (s.descriptor .tx s.tx.tail).1)) s
      = (s, .goto (.y4 f n (s.descriptor .tx s.tx.tail).1)) := rfl
  have hcleared : reclaimStep c (.y6 f n s.tx.tail) (s.freeTx s.tx.tail h)
      = ((s.freeTx s.tx.tail h).setPending .tx s.tx.tail none, .goto (.y7 f n)) := rfl
  have hadvanced : reclaimStep c (.y7 f n) ((s.freeTx s.tx.tail h).setPending .tx s.tx.tail none)
      = (((s.freeTx s.tx.tail h).setPending .tx s.tx.tail none).setTail .tx (nextIndex s.tx.tail s.cfg.nTx),
        .goto (.y3 f (n + 1) .k1)) := rfl
  exact .step (hW.taskStep (reclaimStep_completed hc)) (.step (hW.taskStep hlength)
    (.step (hW.taskStep (reclaimStep_entry _ hp)) (.step (hW.taskStep (reclaimStep_freed _ hm))
    (.step (hW.taskStep hcleared) (.step (hW.taskStep hadvanced) .rfl)))))

theorem State.takeAllTx_freed {s : State} (k : Nat) (hc : ¬ s.txCaughtUp) :
    s.takeAllTx (k + 1) = ((s.takeTx.takeAllTx k).1, (s.takeTx.takeAllTx k).2 + 1) := if_neg hc

theorem State.takeTx_frame (s : State) :
    s.takeTx = { s with tx := s.takeTx.tx, pool := s.takeTx.pool, txErr := s.takeTx.txErr } := by
  cases hp : s.pending .tx s.tx.tail with
  | none => simp only [State.takeTx, hp]
  | some e => rw [State.takeTx_of_pending (h := e.1) (a := e.2) hp]; rfl

@[simp] theorem State.takeTx_cfg (s : State) : s.takeTx.cfg = s.cfg := by rw [State.takeTx_frame]

@[simp] theorem State.takeTx_descriptor (s : State) : s.takeTx.descriptor = s.descriptor :=
  State.descriptor_congr s.takeTx_cfg (by rw [State.takeTx_frame])

theorem State.slotState_txTail {s : State} (hs : s.TxSized) :
    s.slotState .tx s.tx.tail = .completed ↔ ¬ s.txCaughtUp := by
  have hwin : s.inWindow .tx s.tx.tail = true ↔ s.tx.head ≠ s.tx.tail := by
    rw [State.inWindow_iff]
    refine ⟨fun hlt he => ?_, window_tail hs.head hs.tail⟩
    simp only [State.count, State.ring, he] at hlt
    exact Nat.lt_irrefl _ hlt
  rw [State.slotState_completed_iff, hwin, State.txCaughtUp, not_or, Bool.not_eq_true, State.descriptor_status, ownBit]

section
variable {s : State} {h : Nat} {a : DAddr} (hp : s.pending .tx s.tx.tail = some (h, a))
include hp

theorem State.takeTx_keeps : ReclaimKeeps s s.takeTx := by
  rw [State.takeTx_of_pending hp]
  exact (((ReclaimKeeps.rfl.setBuffer _ hp).countError _).clear _).setTail _

theorem State.takeTx_tail : s.takeTx.tx.tail = nextIndex s.tx.tail s.cfg.nTx := by
  rw [State.takeTx_of_pending hp]
  rfl

theorem State.takeTx_txErr :
    s.takeTx.txErr = s.txErr + BitVec.ofNat 32 (if s.txFailed s.tx.tail then 1 else 0) := by
  rw [State.takeTx_of_pending hp]
  rfl

theorem State.takeTx_pool :
    s.takeTx.pool = (s.setBuffer h { s.buffer h with own := .free, map := none }).pool := by
  rw [State.takeTx_of_pending hp]
  rfl

theorem State.takeTx_pending (hs : s.TxSized) (i : Nat) :
    s.takeTx.pending .tx i = if i = s.tx.tail then none else s.pending .tx i := by
  have hring : (s.freeTx s.tx.tail h).ring .tx = s.ring .tx := rfl
  rw [State.takeTx_of_pending hp, State.pending_setTail, State.pending_setPending, hring,
    State.pending_congr (r := .tx) hring]
  simp [State.ring, hs.pend, hs.tail]

theorem State.takeTx_buffer (j : Nat) :
    s.takeTx.buffer j = (s.setBuffer h { s.buffer h with own := .free, map := none }).buffer j := by
  rw [State.buffer, State.takeTx_pool hp, ← State.buffer]

/-- The buffer of another slot is left as it is. -/
theorem State.takeTx_buffer_other (hs : s.TxEntries) {i g : Nat} {a' : DAddr} (hne : i ≠ s.tx.tail)
    (hg : s.pending .tx i = some (g, a')) : s.takeTx.buffer g = s.buffer g := by
  rw [State.takeTx_buffer hp, State.buffer_setBuffer_other]
  rintro rfl
  exact hne (hs.once _ _ _ _ _ hg hp)

end

section
variable {s : State} (hs : s.TxEntries) (hc : ¬ s.txCaughtUp)
include hs hc

theorem State.TxEntries.tail_entry : ∃ h a, s.pending .tx s.tx.tail = some (h, a) :=
  hs.present _ hs.tail ((s.slotState_completed_iff ..).mp ((State.slotState_txTail hs.toTxSized).mpr hc)).1

theorem State.inWindow_takeTx {i : Nat} (hi : i < s.cfg.nTx) :
    s.takeTx.inWindow .tx i = true ↔ s.inWindow .tx i = true ∧ i ≠ s.tx.tail := by
  obtain ⟨h, a, hp⟩ := hs.tail_entry hc
  simp only [State.inWindow_iff, State.count, State.ring, ringSize, State.takeTx_tail hp, (State.takeTx_keeps hp).head,
    State.takeTx_cfg]
  exact window_nextTail hs.head hs.tail hi fun he => hc (.inl he)

theorem State.count_takeTx : s.takeTx.count .tx + 1 = s.count .tx := by
  obtain ⟨h, a, hp⟩ := hs.tail_entry hc
  simp only [State.count, State.ring, ringSize, State.takeTx_tail hp, (State.takeTx_keeps hp).head, State.takeTx_cfg]
  exact subIndex_nextTail hs.head hs.tail fun he => hc (.inl he)

theorem State.slotState_takeTx {i : Nat} (hi : i < s.cfg.nTx) (hne : i ≠ s.tx.tail) :
    s.takeTx.slotState .tx i = s.slotState .tx i := by
  have hw : s.takeTx.inWindow .tx i = s.inWindow .tx i := by
    rw [Bool.eq_iff_iff, State.inWindow_takeTx hs hc hi, and_iff_left hne]
  rw [State.slotState, State.slotState, hw, ← State.descriptor_status, ← State.descriptor_status,
    State.takeTx_descriptor]

theorem State.TxEntries.takeTx : s.takeTx.TxEntries := by
  obtain ⟨h₀, a₀, hp₀⟩ := hs.tail_entry hc
  have hpend (i h a) : s.takeTx.pending .tx i = some (h, a) ↔ i ≠ s.tx.tail ∧ s.pending .tx i = some (h, a) := by
    rw [State.takeTx_pending hp₀ hs.toTxSized]
    split_ifs <;> simp [*]
  refine ⟨⟨?_, ?_, ?_, ?_⟩, fun i hi hw => ?_, fun i h a hp => ?_, fun i j h a b hp hq => ?_⟩
  · rw [State.takeTx_pool hp₀, State.takeTx_cfg, State.pool_length_setBuffer, hs.pool]
  · rw [State.takeTx_cfg, State.takeTx_of_pending hp₀]
    exact (List.length_set ..).trans hs.pend
  · rw [State.takeTx_cfg, (State.takeTx_keeps hp₀).head]
    exact hs.head
  · rw [State.takeTx_cfg, State.takeTx_tail hp₀]
    exact nextIndex_lt _ (Nat.lt_of_le_of_lt (Nat.zero_le _) hs.tail)
  · rw [State.takeTx_cfg] at hi
    obtain ⟨hin, hne⟩ := (State.inWindow_takeTx hs hc hi).mp hw
    obtain ⟨h, a, hp⟩ := hs.present i hi hin
    exact ⟨h, a, (hpend i h a).mpr ⟨hne, hp⟩⟩
  · obtain ⟨hne, hp⟩ := (hpend i h a).mp hp
    rw [State.holdsMapped, State.takeTx_cfg, State.takeTx_buffer_other hp₀ hs hne hp]
    exact hs.held i h a hp
  · exact hs.once i j h a b ((hpend i h a).mp hp).2 ((hpend j h b).mp hq).2

end

/-! ## The loop -/

/-- RECLAIM from Y3 to Y8 is its loop, for more iterations than the window has slots. -/
theorem reaches_takeAllTx {W : ReclaimPc → Task} (hW : Reclaims W) (c : Ctx) {s : State} (hs : s.TxEntries) (f : Bool)
    (k n : Nat) (hk : s.count .tx < k) :
    Reaches c (6 * s.count .tx + 1) (W (.y3 f n .k1)) s (W (.y8 f (n + (s.takeAllTx k).2))) (s.takeAllTx k).1 := by
  fun_induction State.takeAllTx k s generalizing n with
  | case1 s => omega
  | case2 k s hc => exact Reaches.mono (.step (hW.taskStep (reclaimStep_caughtUp hc)) (.rfl (k := 0))) (by omega)
  | case3 k s hc r ih =>
    obtain ⟨h, a, hp⟩ := hs.tail_entry hc
    have hcount := State.count_takeTx hs hc
    have hloop := ih (hs.takeTx hc) (n + 1) (by omega)
    rw [Nat.add_assoc, Nat.add_comm 1] at hloop
    exact ((reaches_freed hW c f n hc hp (hs.held _ h a hp)).trans hloop).mono (by omega)

/-- The `k`-th TX slot from the tail on. -/
def State.txSlot (s : State) (k : Nat) : Nat := (s.tx.tail + k) % s.cfg.nTx

section
variable {s : State} (hs : s.TxSized)
include hs

theorem State.txSlot_zero : s.txSlot 0 = s.tx.tail := Nat.mod_eq_of_lt hs.tail

theorem State.txSlot_lt (k : Nat) : s.txSlot k < s.cfg.nTx := Nat.mod_lt _ (Nat.lt_of_le_of_lt (Nat.zero_le _) hs.tail)

theorem State.txSlot_succ_ne {k : Nat} (hk : k + 1 < s.cfg.nTx) : s.txSlot (k + 1) ≠ s.tx.tail := by
  intro he
  have hdist : subIndex (s.txSlot (k + 1)) s.tx.tail s.cfg.nTx = k + 1 := subIndex_add hs.tail hk
  rw [he, subIndex_eq hs.tail hs.tail] at hdist
  simp at hdist

end

/-- `t` is `s` with the `n` slots from `T[TX]` on freed, all that were Completed (R156, R161). -/
structure Reclaimed (s t : State) (n : Nat) : Prop where
  keeps : ReclaimKeeps s t
  count : n ≤ s.count .tx
  tail : t.tx.tail = s.txSlot n
  completed : ∀ k, k < n → s.slotState .tx (s.txSlot k) = .completed
  last : s.slotState .tx (s.txSlot n) ≠ .completed
  txErr : t.txErr = s.txErr + BitVec.ofNat 32 ((List.range n).countP fun k => s.txFailed (s.txSlot k))
  freed : ∀ k h a, k < n → s.pending .tx (s.txSlot k) = some (h, a) →
    t.pending .tx (s.txSlot k) = none ∧ t.buffer h = ⟨.free, (s.buffer h).len, none⟩

theorem reclaimed_none {s : State} (hs : s.TxSized) (hc : s.txCaughtUp) : Reclaimed s s 0 where
  keeps := .rfl
  count := Nat.zero_le _
  tail := (State.txSlot_zero hs).symm
  completed := nofun
  last := by
    rw [State.txSlot_zero hs, ne_eq, State.slotState_txTail hs, not_not]
    exact hc
  txErr := (BitVec.add_zero _).symm
  freed := nofun

/-- The buffer and the entry of the slot at the tail stay as freeing it leaves them. -/
theorem ReclaimKeeps.freed_tail {s t : State} (hs : s.TxEntries) (hk : ReclaimKeeps s.takeTx t) {h : Nat} {a : DAddr}
    (hp : s.pending .tx s.tx.tail = some (h, a)) :
    t.pending .tx s.tx.tail = none ∧ t.buffer h = ⟨.free, (s.buffer h).len, none⟩ := by
  have hpend := State.takeTx_pending hp hs.toTxSized
  have hnot (i a') : s.takeTx.pending .tx i ≠ some (h, a') := by
    rw [hpend]
    split
    · nofun
    · next hne => exact fun hi => hne (hs.once _ _ _ _ _ hi hp)
  refine ⟨(hk.pending _).elim (·.trans ((hpend _).trans (if_pos (by rfl)))) id, ?_⟩
  rw [hk.buffers h hnot, State.takeTx_buffer hp, State.buffer_setBuffer_same]
  exact hs.pool ▸ (hs.held _ _ _ hp).1

theorem Reclaimed.next {s t : State} (hs : s.TxEntries) (hc : ¬ s.txCaughtUp) {n : Nat} (hd : Reclaimed s.takeTx t n) :
    Reclaimed s t (n + 1) := by
  obtain ⟨h₀, a₀, hp₀⟩ := hs.tail_entry hc
  obtain ⟨hkeeps, hcount, htail, hcompleted, hlast, htxErr, hfreed⟩ := hd
  have hcount' := State.count_takeTx hs hc
  have hlt := hs.count_lt
  have hzero := State.txSlot_zero hs.toTxSized
  have hslot (k) := State.txSlot_lt hs.toTxSized k
  have hne (k) (hk : k ≤ n) : s.txSlot (k + 1) ≠ s.tx.tail := State.txSlot_succ_ne hs.toTxSized (by omega)
  have hnext (k) : s.takeTx.txSlot k = s.txSlot (k + 1) := by
    rw [State.txSlot, State.takeTx_tail hp₀, State.takeTx_cfg, nextIndex_add, State.txSlot]
  simp only [hnext, State.txFailed, State.takeTx_descriptor] at htail hcompleted hlast htxErr hfreed
  refine ⟨(State.takeTx_keeps hp₀).trans hkeeps, by omega, htail, ?_, ?_, ?_, ?_⟩
  · rintro (_ | k) hkn
    · rw [hzero]
      exact (State.slotState_txTail hs.toTxSized).mpr hc
    · rw [← State.slotState_takeTx hs hc (hslot _) (hne k (by omega))]
      exact hcompleted k (by omega)
  · rwa [State.slotState_takeTx hs hc (hslot _) (hne n (Nat.le_refl n))] at hlast
  · rw [htxErr, State.takeTx_txErr hp₀, List.range_succ_eq_map, List.countP_cons, List.countP_map, hzero,
      BitVec.add_assoc, ← BitVec.ofNat_add, Nat.add_comm]
    rfl
  · rintro (_ | k) h a hkn hp
    · rw [hzero] at hp ⊢
      exact hkeeps.freed_tail hs hp
    · have hne' := hne k (by omega)
      have hp' : s.takeTx.pending .tx (s.txSlot (k + 1)) = some (h, a) := by
        rw [State.takeTx_pending hp₀ hs.toTxSized, if_neg hne', hp]
      rw [← State.takeTx_buffer_other hp₀ hs hne' hp]
      exact hfreed k h a (by omega) hp'

theorem State.takeAllTx_reclaimed {s : State} (hs : s.TxEntries) {k : Nat} (hk : s.count .tx < k) :
    Reclaimed s (s.takeAllTx k).1 (s.takeAllTx k).2 := by
  fun_induction State.takeAllTx k s with
  | case1 s => omega
  | case2 k s hc => exact reclaimed_none hs.toTxSized hc
  | case3 k s hc r ih =>
    have hcount := State.count_takeTx hs hc
    exact (ih (hs.takeTx hc) (by omega)).next hs hc

theorem State.takeAllTx_frame (s : State) (k : Nat) : (s.takeAllTx k).1 = { s with
    tx := (s.takeAllTx k).1.tx, pool := (s.takeAllTx k).1.pool, txErr := (s.takeAllTx k).1.txErr } := by
  fun_induction State.takeAllTx k s with
  | case1 s => rfl
  | case2 k s hc => rfl
  | case3 k s hc r ih => rw [ih, State.takeTx_frame]

/-! ## The command -/

section
variable (s : State) (c : Ctx)

theorem State.takeTx_lock : (s.lock c).takeTx = s.takeTx.lock c := by
  cases hp : s.pending .tx s.tx.tail with
  | none =>
    have hp' : (s.lock c).pending .tx (s.lock c).tx.tail = none := hp
    simp only [State.takeTx, hp, hp']
  | some e =>
    have hp' : (s.lock c).pending .tx (s.lock c).tx.tail = some (e.1, e.2) := hp
    rw [State.takeTx_of_pending (h := e.1) (a := e.2) hp, State.takeTx_of_pending hp']
    rfl

theorem State.takeAllTx_lock (k : Nat) :
    State.takeAllTx k (s.lock c) = ((s.takeAllTx k).1.lock c, (s.takeAllTx k).2) := by
  fun_induction State.takeAllTx k s with
  | case1 s => rfl
  | case2 k s hc => exact if_pos hc
  | case3 k s hc r ih =>
    rw [State.takeAllTx_freed (s := s.lock c) k hc, State.takeTx_lock, ih]

theorem State.wakeIf_lock (f : Bool) (n : Nat) : (s.lock c).wakeIf f n = (s.wakeIf f n).lock c := by
  rw [State.wakeIf_eq, State.wakeIf_eq]
  rfl

/-- RECLAIM between its lock and its unlock: the loop, and then Y8. -/
theorem State.reclaimAll_eq : s.reclaimAll
    = ((s.takeAllTx s.cfg.nTx).1.wakeIf (s.full .tx) (s.takeAllTx s.cfg.nTx).2, (s.takeAllTx s.cfg.nTx).2) := by
  have hfull : (s.tx.head + 1) % s.cfg.nTx = s.tx.tail ↔ s.full .tx = true := (s.full_iff .tx).symm
  simp only [State.reclaimAll, State.wakeIf, hfull]

end

/-- RECLAIM from Y1 to Y9 is `reclaimAll` under the lock. -/
theorem reaches_reclaimAll {W : ReclaimPc → Task} (hW : Reclaims W) (c : Ctx) {s : State} (hs : s.TxEntries)
    (hlock : s.txLock = none) (hup : s.life = .up) :
    Reaches c (6 * s.count .tx + 4) (W .y1) s (W (.y9 s.reclaimAll.2)) (s.reclaimAll.1.lock c) := by
  have hs' : (s.lock c).TxEntries := ⟨⟨hs.pool, hs.pend, hs.head, hs.tail⟩, hs.present, hs.held, hs.once⟩
  have hloop := reaches_takeAllTx hW c hs' (s.full .tx) s.cfg.nTx 0 hs.count_lt
  rw [State.takeAllTx_lock, Nat.zero_add] at hloop
  have hwoken : reclaimStep c (.y8 (s.full .tx) (s.takeAllTx s.cfg.nTx).2) ((s.takeAllTx s.cfg.nTx).1.lock c)
      = (((s.takeAllTx s.cfg.nTx).1.wakeIf (s.full .tx) (s.takeAllTx s.cfg.nTx).2).lock c,
        .goto (.y9 (s.takeAllTx s.cfg.nTx).2)) := by
    rw [reclaimStep, State.wakeIf_lock]
  rw [State.reclaimAll_eq]
  exact Reaches.step (hW.taskStep (reclaimStep_locked hlock)) (.step (hW.taskStep (reclaimStep_up hup))
    (hloop.trans (.step (hW.taskStep hwoken) (.rfl (k := 0)))))

theorem State.reclaimAll_txLock (s : State) : s.reclaimAll.1.txLock = s.txLock := by
  rw [State.reclaimAll_eq, State.wakeIf_eq, State.takeAllTx_frame]

/-- RECLAIM runs to its response within six micro-steps a slot. -/
theorem exec_reclaim {s : State} (hr : s.Ready .reclaim) (hup : s.life = .up) (hlock : s.txLock = none)
    (hs : s.TxEntries) (hk : 6 * s.cfg.nTx ≤ s.slice) :
    exec .reclaim s = .next (s.reclaimAll.1.respond s.cur .ok s.reclaimAll.2) := by
  have hcount := hs.count_lt
  have hlast : taskStep s.cur (.reclaim (.y9 s.reclaimAll.2)) (s.reclaimAll.1.lock s.cur)
      = (s.reclaimAll.1, .ret (.ok, s.reclaimAll.2)) :=
    congrArg (·, Next.ret (Code.ok, s.reclaimAll.2)) (State.unlock_lock (s.reclaimAll_txLock.trans hlock) s.cur)
  exact exec_of_ret hr rfl ((reaches_reclaimAll .reclaim s.cur hs hlock hup).ret hlast) (by omega)

/-- Settles O40: the command is its loop, which frees one slot after the other, and then Y8. -/
theorem reclaimFreesAndWakes : Obligations.ReclaimFreesAndWakes := by
  intro s hr hup hlock hsizes he hw hk slot
  have hs := State.TxEntries.of_ok hsizes he hw
  obtain ⟨hkeeps, hcount, htail, hcompleted, hlast, htxErr, hfreed⟩ := State.takeAllTx_reclaimed hs hs.count_lt
  have hframe := s.takeAllTx_frame s.cfg.nTx
  refine ⟨s.reclaimAll.2, _, exec_reclaim hr hup hlock hs hk, ?_⟩
  rw [State.reclaimAll_eq, State.wakeIf_eq]
  refine ⟨hcount, hkeeps.head, htail, hcompleted, hlast, ?_, ?_, htxErr, hfreed, ?_⟩
  · rw [State.respond_hist, hframe]
  · rw [State.respond_txStopped, hframe]
  · rw [State.respond_txLock, hframe, hlock]

end Sys2Proof.Machine
end

section
/-! PROOF. The commands that `life` or `poll_running` turns away (44_event_dispatcher R173, R175, 45_lifecycle R190,
60_exceptions R216). -/

namespace Sys2Proof.Machine

theorem respWord_badState : respWord .badState 0 = 0xE0000000 := by decide

section
variable {s : State}

/-- A command that its acceptance turns away answers the code, and that is all it does. -/
theorem exec_reject {i : Instr} {code : Code} (h : s.Ready i) (ha : acceptance i s = .reject code) :
    exec i s = .next (s.respond s.cur code 0) := by
  rw [exec_eq_issue, ha, issue_reject h]

theorem exec_badState {i : Instr} (h : s.Ready i) (ha : acceptance i s = .reject .badState) :
    exec i s = .next (s.emit (.resp s.cur 0xE0000000)) := by
  rw [exec_reject h ha, State.respond, respWord_badState]

theorem acceptPoll_reject (t : Task) (h : s.life = .down ∨ s.pollRunning = true) :
    acceptPoll s t = .reject .badState := by
  refine if_neg fun hok => ?_
  obtain hd | hp := h
  · exact absurd (hd.symm.trans hok.1) (by decide)
  · exact hok.2 hp

/-- The first two micro-steps of a command that finds `life` `DOWN` under the lock (R155 X2, R156 Y2). -/
theorem exec_lockedDown {i : Instr} {t t' : Task} (h : s.Ready i) (ha : acceptance i s = .start t s)
    (hlock : s.txLock = none) (htake : taskStep s.cur t s = (s.lock s.cur, .goto t'))
    (hdown : taskStep s.cur t' (s.lock s.cur) = ((s.lock s.cur).unlock, .ret (.badState, 0))) (hk : 2 ≤ s.slice) :
    exec i s = .next (s.emit (.resp s.cur 0xE0000000)) := by
  rw [State.unlock_lock hlock] at hdown
  have hrun : taskRun s.cur 2 t s = (s, .ret (.badState, 0)) := (taskRun_goto htake).trans (taskRun_of_ret 0 hdown)
  rw [exec_of_ret h ha hrun hk, State.respond, respWord_badState]

end

/-- Settles O46: the acceptance turns a command away, or X2, Y2 does under the lock; T1 ends a TEARDOWN while `DOWN`. -/
theorem turnedAway : Obligations.TurnedAway := by
  intro s
  have hnotUp (hd : s.life = .down) : s.life ≠ .up := by rw [hd]; nofun
  refine ⟨fun i b hi hr h => ?_, fun hr hd => ?_, fun hr hup => ?_, fun i h hi hr hd hlock hk => ?_, fun hr hd hk => ?_⟩
  · obtain rfl | rfl | rfl := hi <;> exact exec_badState hr (acceptPoll_reject _ h)
  · exact exec_badState hr (if_neg (hnotUp hd))
  · exact exec_badState hr (if_neg (by rw [hup]; nofun))
  · obtain rfl | rfl := hi
    · have htake : taskStep s.cur (.submit h .x1) s = (s.lock s.cur, .goto (.submit h .x2)) := by
        simp [taskStep, submitTask, hlock]
      exact exec_lockedDown hr rfl hlock htake (if_neg (hnotUp hd)) hk
    · refine exec_lockedDown hr rfl hlock (Reclaims.reclaim.taskStep (reclaimStep_locked hlock)) ?_ hk
      simp [taskStep, reclaimTask, reclaimStep, hd]
  · rw [exec_of_ret hr rfl (taskRun_of_ret 0 (if_pos hd)) hk, State.respond, respWord_ok_zero]

end Sys2Proof.Machine
end

section
/-! PROOF. IRQ followed from I1 to I8: the one read of the causes, their handling and the acknowledge
(44_event_dispatcher R170 to R172, R176). -/

namespace Sys2Proof.Machine

theorem respWord_notMine : respWord .notMine 0 = 0x40000000 := by decide

/-! ## The stages of IRQ on a recognized cause (R170) -/

/-- I1 and I3: the one value read is latched, and RX_DONE schedules a poll. -/
def State.latchCauses (s : State) : State :=
  { s with isrLatch := s.observed, pollSched := s.pollSched || s.observed.getLsbD s.cfg.isrRxDone }

/-- I4: RECLAIM, when TX_DONE was read. -/
def State.reclaimIf (s : State) (b : Bool) : State := if b then s.reclaimAll.1 else s

/-- I5 to I7: LINK and ERR are reported, in this order, and the observed value `v` is acknowledged. -/
def State.reportAndAck (s : State) (v : Word) : State :=
  ((s.reportIf (v.getLsbD s.cfg.isrLink) .link).reportIf (v.getLsbD s.cfg.isrErr) .err).regWrite32 .isr v

section
variable (s : State)

theorem State.reclaimAll_cfg : s.reclaimAll.1.cfg = s.cfg := by
  rw [State.reclaimAll_eq, State.wakeIf_eq, State.takeAllTx_frame]

theorem State.reclaimIf_cfg (b : Bool) : (s.reclaimIf b).cfg = s.cfg := by
  cases b with
  | false => rfl
  | true => exact s.reclaimAll_cfg

theorem State.reportIf_cfg (b : Bool) (k : Cause) : (s.reportIf b k).cfg = s.cfg := by cases b <;> rfl

/-- IRQ on a recognized cause is its three stages. -/
theorem State.handleIrq_eq : s.handleIrq
    = (s.latchCauses.reclaimIf (s.observed.getLsbD s.cfg.isrTxDone)).reportAndAck s.observed := by
  rw [State.reportAndAck, State.reclaimIf_cfg]
  rfl

/-- What IRQ reads is made of recognized bits alone (R38). -/
theorem State.observed_and_recognized : s.observed &&& recognized s.cfg = s.observed := by
  rw [State.observed, BitVec.and_assoc, BitVec.and_self]

end

/-! ## The labels -/

section
variable (c : Ctx) {s : State}

theorem irqTask_read : taskStep c (.irq .i1) s
    = ({ s with isrLatch := s.observed }, .goto (.irq (.i2 s.observed))) := rfl

theorem irqTask_notMine {v : Word} (hv : v &&& recognized s.cfg = 0) :
    taskStep c (.irq (.i2 v)) s = (s, .ret (.notMine, 0)) := if_pos hv

theorem irqTask_mine {v : Word} (hv : v &&& recognized s.cfg ≠ 0) :
    taskStep c (.irq (.i2 v)) s = (s, .goto (.irq (.i3 v))) := if_neg hv

/-- I3 in one piece: a poll that is scheduled already stays so (R171). -/
theorem State.schedulePoll_of_up (v : Word) (hup : s.life = .up) :
    s.schedulePoll v = { s with pollSched := s.pollSched || v.getLsbD s.cfg.isrRxDone } := by
  rw [State.schedulePoll]
  split
  · next h => rw [h.1, Bool.or_true]
  · next h =>
    have hsame : (s.pollSched || v.getLsbD s.cfg.isrRxDone) = s.pollSched := by
      rw [Bool.or_eq_left_iff_imp]
      exact fun hv => by_contra fun hp => h ⟨hv, hup, hp⟩
    rw [hsame]

/-- I1 to I3 on a recognized cause. -/
theorem reaches_latched (hup : s.life = .up) (hv : s.observed ≠ 0) :
    Reaches c 3 (.irq .i1) s (.irq (.i4 s.observed)) s.latchCauses := by
  have hmine : s.observed &&& recognized s.cfg ≠ 0 := by rwa [State.observed_and_recognized]
  have hscheduled : taskStep c (.irq (.i3 s.observed)) { s with isrLatch := s.observed }
      = (s.latchCauses, .goto (.irq (.i4 s.observed))) :=
    congrArg (·, Next.goto (Task.irq (.i4 s.observed)))
      (State.schedulePoll_of_up (s := { s with isrLatch := s.observed }) s.observed hup)
  exact .step (irqTask_read c) (.step (irqTask_mine (s := { s with isrLatch := s.observed }) c hmine)
    (.step hscheduled .rfl))

/-- I4 in both cases, with the whole of RECLAIM inside. -/
theorem reaches_reclaimIf (v : Word) (hup : s.life = .up)
    (htx : v.getLsbD s.cfg.isrTxDone = true → s.txLock = none ∧ s.TxEntries) :
    Reaches c (6 * s.cfg.nTx + 1) (.irq (.i4 v)) s (.irq (.i5 v)) (s.reclaimIf (v.getLsbD s.cfg.isrTxDone)) := by
  cases hb : v.getLsbD s.cfg.isrTxDone with
  | false => exact Reaches.mono (.step (if_neg (Bool.eq_false_iff.mp hb)) (.rfl (k := 0))) (by omega)
  | true =>
    obtain ⟨hlock, hs⟩ := htx hb
    have hcount := hs.count_lt
    have hunlocked : taskStep c (.irq (.i4r v (.y9 s.reclaimAll.2))) (s.reclaimAll.1.lock c)
        = (s.reclaimAll.1, .goto (.irq (.i5 v))) :=
      congrArg (·, Next.goto (Task.irq (.i5 v))) (State.unlock_lock (s.reclaimAll_txLock.trans hlock) c)
    have hreclaim : taskStep c (.irq (.i4 v)) s = (s, .goto (.irq (.i4r v .y1))) := if_pos hb
    exact (Reaches.step hreclaim ((reaches_reclaimAll (.irq v) c hs hlock hup).trans
      (.step hunlocked (.rfl (k := 0))))).mono (by omega)

/-- I5 to I7. -/
theorem reaches_acknowledged (v : Word) : Reaches c 3 (.irq (.i5 v)) s (.irq .i8) (s.reportAndAck v) := by
  let u := s.reportIf (v.getLsbD s.cfg.isrLink) .link
  have herr : taskStep c (.irq (.i6 v)) u = (u.reportIf (v.getLsbD s.cfg.isrErr) .err, .goto (.irq (.i7 v))) := by
    rw [← s.reportIf_cfg (v.getLsbD s.cfg.isrLink) .link]
    rfl
  exact .step rfl (.step herr (.step rfl .rfl))

/-- I1 to I7 on a recognized cause. -/
theorem reaches_handleIrq (hup : s.life = .up) (hv : s.observed ≠ 0)
    (htx : s.observed.getLsbD s.cfg.isrTxDone = true → s.txLock = none ∧ s.TxEntries) :
    Reaches c (6 * s.cfg.nTx + 7) (.irq .i1) s (.irq .i8) s.handleIrq := by
  have htx' (hb : s.observed.getLsbD s.cfg.isrTxDone = true) : s.latchCauses.txLock = none ∧ s.latchCauses.TxEntries := by
    obtain ⟨hlock, hs⟩ := htx hb
    exact ⟨hlock, ⟨hs.pool, hs.pend, hs.head, hs.tail⟩, hs.present, hs.held, hs.once⟩
  rw [State.handleIrq_eq]
  have hreclaim : Reaches c (6 * s.cfg.nTx + 1) _ _ _ _ :=
    reaches_reclaimIf (s := s.latchCauses) c s.observed hup htx'
  exact ((reaches_latched c hup hv).trans (hreclaim.trans (reaches_acknowledged c s.observed))).mono (by omega)

end

/-- Settles O41: I1 to I3 latch and schedule, I4 runs RECLAIM, I5 to I7 report and acknowledge, I8 answers. -/
theorem irqHandlesCauses : Obligations.IrqHandlesCauses := by
  intro s hr hup hv hk htx
  have hrun := reaches_handleIrq s.cur hup hv fun hb => by
    obtain ⟨hlock, hsizes, he, hw⟩ := htx hb
    exact ⟨hlock, .of_ok hsizes he hw⟩
  rw [exec_of_ret hr (if_pos hup) (hrun.ret rfl) hk, State.respond, respWord_ok_zero]

/-- Settles O42: I1 latches the 0 it read, and I2 answers. -/
theorem irqNotMine : Obligations.IrqNotMine := by
  intro s hr hup hv hk
  have hnone : s.observed &&& recognized s.cfg = 0 := by rw [State.observed_and_recognized, hv]
  have hrun : taskRun s.cur 2 (.irq .i1) s = ({ s with isrLatch := s.observed }, .ret (.notMine, 0)) :=
    (taskRun_goto (irqTask_read s.cur)).trans
      (taskRun_of_ret 0 (irqTask_notMine (s := { s with isrLatch := s.observed }) s.cur hnone))
  rw [exec_of_ret hr (if_pos hup) hrun hk, hv, State.respond, respWord_notMine]

end Sys2Proof.Machine
end

section
/-! PROOF. POLL is DRAIN, then REFILL, then the re-arm decision (44_event_dispatcher R173, R174, 70_reset R249). -/

namespace Sys2Proof.Machine

/-- DRAIN leaves the RX entries as it needs them. -/
theorem State.RxEntries.drainAll {s : State} (hs : s.RxEntries) (b : Nat) : (s.drainAll b).1.RxEntries := by
  fun_induction State.drainAll b s with
  | case1 s => exact hs
  | case2 b s hc => exact hs
  | case3 b s hc r ih => exact ih (hs.takeRx hc)

/-- `w < b` decides the re-arming, and no more than the budget was consumed (R173 L3). -/
theorem rearm_eq {w b : Nat} (h : w ≤ b) : (!decide (w < b)) = decide (w = b) := by
  rw [← decide_not, decide_eq_decide]
  omega

/-- L1 to L3, within nineteen micro-steps a slot: nine to consume it, ten to arm it again. -/
theorem reaches_pollAll {s : State} (hs : s.RxEntries) (c : Ctx) (b : Nat) :
    Reaches c (19 * s.cfg.nRx - 1) (.poll b (.l1 (.g1 0))) s (.poll b (.l4 (s.pollAll b).2)) (s.pollAll b).1 := by
  have hcount := State.count_lt hs.toRxSized
  have hfree := State.freeSlots_lt (hs.drainAll b).toRxSized
  rw [(State.drainAll_keeps hs b).cfg] at hfree
  have hdrain := reaches_drainAll (.poll b) c hs b 0 (Nat.zero_add b)
  have hrefill := reaches_refillAll (.poll b (s.drainAll b).2) c (hs.drainAll b).toRxSized s.cfg.nRx 0 hfree
  rw [Nat.zero_add] at hdrain
  have hrearm : taskStep c (.poll b (.l3 (s.drainAll b).2)) (State.refillAll s.cfg.nRx (s.drainAll b).1).1
      = ((s.pollAll b).1, .goto (.poll b (.l4 (s.drainAll b).2))) := by
    rw [State.pollAll, ← rearm_eq (State.drainAll_drained hs b).budget]
    rfl
  exact (hdrain.trans (.step rfl (hrefill.trans (.step rfl (.step hrearm (.rfl (k := 0))))))).mono (by omega)

theorem State.pollAll_polling (s : State) (p : Bool) (b : Nat) :
    (s.polling p).pollAll b = ((s.pollAll b).1.polling p, (s.pollAll b).2) := by
  rw [State.pollAll, State.drainAll_polling, State.refillAll_polling]
  rfl

theorem State.pollAll_pollRunning {s : State} (h : s.pollRunning = false) (b : Nat) :
    (s.pollAll b).1.pollRunning = false :=
  State.refillAll_pollRunning (State.drainAll_pollRunning h b) s.cfg.nRx

/-- Settles O45: the command runs from L1 to L4 within its slice, with `poll_running` set. -/
theorem pollRuns : Obligations.PollRuns := by
  intro s b hr hup hp hsizes he hw hk
  have hs : (s.polling true).RxEntries := .of_ok hsizes he hw
  have hsize : 0 < s.cfg.nRx := Nat.lt_of_le_of_lt (Nat.zero_le _) hs.head
  have hrun := reaches_pollAll hs s.cur b
  rw [State.pollAll_polling] at hrun
  refine exec_loop hr (acceptPoll_of_up _ hup hp) hrun rfl (State.pollAll_pollRunning hp b) ?_
  simp only [State.polling]
  omega

end Sys2Proof.Machine
end

section
/-! PROOF. BRINGUP's reset handshake (45_lifecycle R186, 46_device R199): the reads of `RESET` until the device
acknowledges, and the timeout. -/

namespace Sys2Proof.Machine

/-! ## The device's answers to a read of `RESET` -/

section
variable {s : State}

/-- An answer touches the device's side and the draws only. -/
theorem State.answerReset_frame (s : State) : s.answerReset = { s with
    isr := s.answerReset.isr, rst := s.answerReset.rst, dev := s.answerReset.dev, draws := s.answerReset.draws,
    tick := s.answerReset.tick } := by
  obtain ⟨d, n, hs | ⟨v, hs⟩⟩ := s.answerReset_cases <;> rw [hs]
  unfold State.devResetAck
  split <;> rfl

@[simp] theorem State.answerReset_cfg : s.answerReset.cfg = s.cfg := by rw [State.answerReset_frame]

theorem State.answerReset_refused {rest : List Bool} (hr : s.rst.getLsbD 0 = true)
    (hd : s.draws.rstAck = false :: rest) : s.answerReset = { s with draws := { s.draws with rstAck := rest } } := by
  simp [State.answerReset, State.drawRstAck, hr, hd]

/-- The device acknowledges: it clears the request, leaves `v` in `ISR` and forgets what it was using (R199);
`d` and `n` stand for the draws that are left. -/
def State.acked (s : State) (v : Word) (d : Draws) (n : Nat) : State :=
  { s with rst := 0, isr := v, dev := [], draws := d, tick := n }

theorem State.answerReset_acked {rest : List Bool} (hr : s.rst = 1) (hd : s.draws.rstAck = true :: rest) :
    ∃ v d n, d.mapOk = s.draws.mapOk ∧ s.answerReset = s.acked v d n := by
  have hw : s.drawRstAck = (true, { s with draws := { s.draws with rstAck := rest } }) := by
    rw [State.drawRstAck, hd]
  have hack (u : State) (v : Word) (hu : u.rst = 1) :
      u.devResetAck v = { u with rst := 0, isr := v &&& recognized u.cfg, dev := [] } := by
    simp [State.devResetAck, hu]
  have hbit : s.rst.getLsbD 0 = true := by rw [hr]; decide
  simp only [State.answerReset, hw, hbit, if_true, State.drawAckIsr]
  cases s.draws.ackIsr with
  | nil => exact ⟨_, _, _, by rfl, hack _ _ hr⟩
  | cons w ws => exact ⟨_, { s.draws with rstAck := rest, ackIsr := ws }, s.tick, by rfl, hack _ _ hr⟩

/-! ## The reads -/

@[simp] theorem State.handshake_cfg (k : Nat) (s : State) : (s.handshake k).1.cfg = s.cfg := by
  fun_induction State.handshake k s with
  | case1 s => rfl
  | case2 k s hr ih => rw [ih, State.answerReset_cfg]
  | case3 k s hr => exact State.answerReset_cfg

theorem State.handshake_frame (k : Nat) (s : State) : (s.handshake k).1 = { s with
    isr := (s.handshake k).1.isr, rst := (s.handshake k).1.rst, dev := (s.handshake k).1.dev,
    draws := (s.handshake k).1.draws, tick := (s.handshake k).1.tick } := by
  fun_induction State.handshake k s with
  | case1 s => rfl
  | case2 k s hr ih => rw [ih, State.answerReset_frame]
  | case3 k s hr => exact s.answerReset_frame

theorem State.handshake_refused {k : Nat} {rest : List Bool} (hr : s.rst.getLsbD 0 = true)
    (hd : s.draws.rstAck = List.replicate k false ++ rest) :
    s.handshake k = ({ s with draws := { s.draws with rstAck := rest } }, false) := by
  induction k generalizing s with
  | zero =>
    obtain rfl : s.draws.rstAck = rest := hd
    rfl
  | succ k ih =>
    have ha := State.answerReset_refused hr hd
    rw [State.handshake, ha, if_pos hr]
    exact ih (s := { s with draws := { s.draws with rstAck := List.replicate k false ++ rest } }) hr rfl

theorem State.handshake_acked {j k : Nat} {rest : List Bool} (hr : s.rst = 1)
    (hd : s.draws.rstAck = List.replicate j false ++ true :: rest) (hj : j < k) :
    ∃ v d n, d.mapOk = s.draws.mapOk ∧ s.handshake k = (s.acked v d n, true) := by
  have hbit : s.rst.getLsbD 0 = true := by rw [hr]; decide
  obtain ⟨k, rfl⟩ : ∃ m, k = m + 1 := ⟨k - 1, by omega⟩
  induction j generalizing s k with
  | zero =>
    obtain ⟨v, d, n, hmap, ha⟩ := State.answerReset_acked hr hd
    refine ⟨v, d, n, hmap, ?_⟩
    rw [State.handshake, ha, if_neg (by simp [State.acked])]
  | succ j ih =>
    obtain ⟨k, rfl⟩ : ∃ m, k = m + 1 := ⟨k - 1, by omega⟩
    have ha := State.answerReset_refused hbit hd
    rw [State.handshake, ha, if_pos hbit]
    exact ih (s := { s with draws := { s.draws with rstAck := List.replicate j false ++ true :: rest } }) hr rfl hbit k
      (by omega)

end

/-! ## The labels H1 to H3 -/

section
variable (c : Ctx) {k n : Nat} {s : State}

/-- H1: the request. -/
theorem bringup_asks (s : State) :
    taskStep c (.bringup .h1) s = ({ s with rst := 1 }, .goto (.bringup (.h3 0))) := rfl

theorem bringup_pending (hr : s.answerReset.rst.getLsbD 0 = true) (hn : n + 1 < s.cfg.resetBound) :
    taskStep c (.bringup (.h3 n)) s = (s.answerReset, .goto (.bringup (.h3 (n + 1)))) :=
  (if_pos hr).trans (if_neg (Nat.not_le.mpr hn))

theorem bringup_timesOut (hr : s.answerReset.rst.getLsbD 0 = true) (hn : s.cfg.resetBound ≤ n + 1) :
    taskStep c (.bringup (.h3 n)) s = (s.answerReset, .ret (.resetTimeout, 0)) := (if_pos hr).trans (if_pos hn)

theorem bringup_acked (hr : ¬ s.answerReset.rst.getLsbD 0 = true) :
    taskStep c (.bringup (.h3 n)) s = (s.answerReset, .goto (.bringup (.b2 .rx 0 .addr))) := if_neg hr

/-- H3 until the device has acknowledged. -/
theorem reaches_acked (hk : n + k = s.cfg.resetBound) (hack : (s.handshake k).2 = true) :
    Reaches c k (.bringup (.h3 n)) s (.bringup (.b2 .rx 0 .addr)) (s.handshake k).1 := by
  fun_induction State.handshake k s generalizing n with
  | case1 s => cases hack
  | case2 k s hr ih =>
    have hpos : 0 < k := by
      by_contra h0
      obtain rfl : k = 0 := by omega
      cases hack
    exact .step (bringup_pending c hr (by omega)) (ih (by rw [State.answerReset_cfg]; omega) hack)
  | case3 k s hr => exact .step (bringup_acked c hr) .rfl

/-- H3 until the bound on the reads is met. -/
theorem taskRun_timedOut (hk : n + k = s.cfg.resetBound) (hpos : 0 < k) (hack : (s.handshake k).2 = false) :
    taskRun c k (.bringup (.h3 n)) s = ((s.handshake k).1, .ret (.resetTimeout, 0)) := by
  fun_induction State.handshake k s generalizing n with
  | case1 s => cases hpos
  | case2 k s hr ih =>
    cases k with
    | zero => exact taskRun_of_ret 0 (bringup_timesOut c hr (by omega))
    | succ k =>
      rw [taskRun_goto (bringup_pending c hr (by omega))]
      exact ih (by rw [State.answerReset_cfg]; omega) (Nat.succ_pos k) hack
  | case3 k s hr => cases hack

end

theorem Config.resetBound_pos {c : Config} (h : c.wf = true) : 0 < c.resetBound := by
  simp only [Config.wf, Config.regsOk, Bool.and_eq_true, decide_eq_true_eq] at h
  exact h.2.2

/-- The whole handshake, from the request on, and whether the device acknowledged (R186). -/
def State.askReset (s : State) : State × Bool := State.handshake s.cfg.resetBound { s with rst := 1 }

@[simp] theorem State.askReset_cfg (s : State) : s.askReset.1.cfg = s.cfg := State.handshake_cfg ..

/-- The handshake touches the device's side and the draws only. -/
theorem State.askReset_frame (s : State) : s.askReset.1 = { s with
    isr := s.askReset.1.isr, rst := s.askReset.1.rst, dev := s.askReset.1.dev, draws := s.askReset.1.draws,
    tick := s.askReset.1.tick } := State.handshake_frame s.cfg.resetBound { s with rst := 1 }

/-- A BRINGUP whose request is not acknowledged within the bound (R185 B1, R215). -/
theorem exec_bringup_timedOut {s : State} (h : s.Ready .bringup) (hd : s.life = .down) (hack : s.askReset.2 = false)
    (hk : 1 + s.cfg.resetBound ≤ s.slice) :
    exec .bringup s = .next (s.askReset.1.respond s.cur .resetTimeout 0) := by
  have hrun := taskRun_timedOut s.cur (s := { s with rst := 1 }) (Nat.zero_add _) (Config.resetBound_pos h.wf) hack
  exact exec_of_ret h (if_pos hd) ((taskRun_goto (bringup_asks s.cur s)).trans hrun) (Nat.add_comm 1 _ ▸ hk)

/-- Settles O47: no draw within the bound acknowledges, so the reads change the draws only. -/
theorem bringupTimesOut : Obligations.BringupTimesOut := by
  intro s rest hr hd hdraws hk
  have hbit : (1 : Word).getLsbD 0 = true := by decide
  have hword : respWord .resetTimeout 0 = 0x50000000 := by decide
  have hask : s.askReset = ({ s with rst := 1, draws := { s.draws with rstAck := rest } }, false) :=
    State.handshake_refused (s := { s with rst := 1 }) hbit hdraws
  rw [exec_bringup_timedOut hr hd (by rw [hask]) hk, hask, State.respond, hword]

end Sys2Proof.Machine
end

section
/-! PROOF. BRINGUP followed from label to label: the handshake, the zeroing of the rings, and REFILL (45_lifecycle
R185). -/

namespace Sys2Proof.Machine

/-! ## Ring allocation (R185 B2) -/

/-- Where B2 stands when the slots of ring `r` below `i` are zeroed. -/
def clearLabel (c : Config) (r : Ring) (i : Nat) : BringupPc :=
  if i < ringSize c r then .b2 r i .addr
  else match r with
    | .rx => .b2 .tx 0 .addr
    | .tx => .b3

section
variable {c : Config} {r : Ring} {i : Nat}

theorem clearLabel_of_lt (h : i < ringSize c r) : clearLabel c r i = .b2 r i .addr := if_pos h

theorem clearLabel_rx : clearLabel c .rx c.nRx = .b2 .tx 0 .addr := if_neg (Nat.lt_irrefl _)

theorem clearLabel_tx : clearLabel c .tx c.nTx = .b3 := if_neg (Nat.lt_irrefl _)

end

/-- The slots of ring `r` below `n` are zeroed. -/
def State.zeroSlots (r : Ring) (n : Nat) (s : State) : State := (List.range n).foldl (State.zeroSlot r) s

theorem State.zeroSlots_succ (r : Ring) (n : Nat) (s : State) :
    s.zeroSlots r (n + 1) = State.zeroSlot r (s.zeroSlots r n) n := by
  rw [State.zeroSlots, List.range_succ, List.foldl_append]
  rfl

@[simp] theorem State.setDescriptor_cfg (s : State) (r : Ring) (i : Nat) (st len : Word) (a : DAddr) :
    (s.setDescriptor r i st len a).cfg = s.cfg := by simp [State.setDescriptor]

@[simp] theorem State.zeroSlot_cfg (r : Ring) (s : State) (i : Nat) : (State.zeroSlot r s i).cfg = s.cfg := by
  rw [State.zeroSlot, State.setPending_cfg, State.setDescriptor_cfg]

@[simp] theorem State.zeroSlots_cfg (r : Ring) (n : Nat) (s : State) : (s.zeroSlots r n).cfg = s.cfg := by
  induction n with
  | zero => rfl
  | succ n ih => rw [State.zeroSlots_succ, State.zeroSlot_cfg, ih]

theorem State.setDescriptor_eq_filled (s : State) (r : Ring) (i : Nat) (st len : Word) (a : DAddr) :
    s.setDescriptor r i st len a = (s.filled r i len a).descWrite32 (statusAddr s.cfg r i) st := by
  simp only [State.setDescriptor, State.filled, bufferAddr, lengthAddr, statusAddr, Config.descSize]

/-- B2's three writes of one descriptor. -/
theorem reaches_slotZeroed (c : Ctx) (r : Ring) (i : Nat) (s : State) : Reaches c 3 (.bringup (.b2 r i .addr)) s
    (.bringup (clearLabel s.cfg r (i + 1))) (State.zeroSlot r s i) := by
  have h3 : taskStep c (.bringup (.b2 r i .status)) (s.filled r i 0 0)
      = (State.zeroSlot r s i, .goto (.bringup (clearLabel s.cfg r (i + 1)))) := by
    rw [State.zeroSlot, State.setDescriptor_eq_filled, taskStep, bringupTask, State.clearSlot, State.filled_cfg]
    rfl
  exact .step rfl (.step rfl (.step h3 .rfl))

theorem reaches_slotsZeroed (c : Ctx) (r : Ring) (s : State) {n : Nat} (hn : n ≤ ringSize s.cfg r) :
    Reaches c (3 * n) (.bringup (clearLabel s.cfg r 0)) s (.bringup (clearLabel s.cfg r n)) (s.zeroSlots r n) := by
  induction n with
  | zero => exact .rfl
  | succ n ih =>
    have hslot := reaches_slotZeroed c r n (s.zeroSlots r n)
    rw [← State.zeroSlots_succ, State.zeroSlots_cfg, ← clearLabel_of_lt hn] at hslot
    exact (ih (by omega)).trans hslot

/-- A ring's slots, all of them, from the ring's first label. -/
theorem reaches_ringZeroed (c : Ctx) (r : Ring) (s : State) (hpos : 0 < ringSize s.cfg r) :
    Reaches c (3 * ringSize s.cfg r) (.bringup (.b2 r 0 .addr)) s (.bringup (clearLabel s.cfg r (ringSize s.cfg r)))
      (s.zeroSlots r (ringSize s.cfg r)) := by
  have h := reaches_slotsZeroed c r s (Nat.le_refl _)
  rwa [clearLabel_of_lt hpos] at h

theorem State.clearLatches_eq (s : State) : s.clearLatches = { s with
    rx := ⟨0, 0, s.rx.pend⟩, tx := ⟨0, 0, s.tx.pend⟩, pollSched := false, txStopped := false, isrLatch := 0, rxErr := 0,
    txErr := 0 } := rfl

theorem State.zeroRings_eq (s : State) :
    s.zeroRings = ((s.zeroSlots .rx s.cfg.nRx).zeroSlots .tx s.cfg.nTx).clearLatches := by
  rw [State.clearLatches_eq, State.zeroRings]
  rfl

@[simp] theorem State.zeroRings_cfg (s : State) : s.zeroRings.cfg = s.cfg := by
  rw [State.zeroRings_eq, State.clearLatches_eq, State.zeroSlots_cfg, State.zeroSlots_cfg]

/-- B2 and B3. -/
theorem reaches_zeroRings (c : Ctx) (s : State) (hpos : ∀ r, 0 < ringSize s.cfg r) :
    Reaches c (3 * s.cfg.nRx + 3 * s.cfg.nTx + 1) (.bringup (.b2 .rx 0 .addr)) s (.bringup (.b4 (.f1 0)))
      s.zeroRings := by
  have hrx := reaches_ringZeroed c .rx s (hpos .rx)
  have htx := reaches_ringZeroed c .tx (s.zeroSlots .rx s.cfg.nRx) (by rw [State.zeroSlots_cfg]; exact hpos .tx)
  rw [ringSize, clearLabel_rx] at hrx
  rw [State.zeroSlots_cfg, ringSize, clearLabel_tx] at htx
  rw [State.zeroRings_eq]
  exact (hrx.trans htx).trans (.step rfl (.rfl (k := 0)))

/-! ## What the zeroing leaves (R185 B2, B3) -/

/-- What slot `i` of ring `r` holds: its descriptor (R25) and its pending entry (R29). -/
def State.slot (s : State) (r : Ring) (i : Nat) : (Word × Word × DAddr) × Option (Nat × DAddr) :=
  (s.descriptor r i, s.pending r i)

theorem inDescriptor_unique {c : Config} (hv : ValidConfig c) {r q : Ring} {i j x : Nat} (hi : i < ringSize c r)
    (hj : j < ringSize c q) (hx : inDescriptor c r i x) (hy : inDescriptor c q j x) : (r, i) = (q, j) := by
  by_contra hne
  have h := statusAddr_apart hv hi hj hne
  simp only [statusAddr, Config.descSize, inDescriptor] at h hx hy
  omega

theorem State.descByte_setDescriptor_outside {s : State} {r : Ring} {i x : Nat} (st len : Word) (a : DAddr)
    (hx : ¬ inDescriptor s.cfg r i x) : (s.setDescriptor r i st len a).descByte x = s.descByte x :=
  descByte_produce_outside st len a hx

@[simp] theorem State.setDescriptor_pending (s : State) (r q : Ring) (i j : Nat) (st len : Word) (a : DAddr) :
    (s.setDescriptor r i st len a).pending q j = s.pending q j := by simp [State.setDescriptor]

theorem State.descriptor_setDescriptor_other {s : State} (hv : ValidConfig s.cfg) {r q : Ring} {i j : Nat}
    (hi : i < ringSize s.cfg r) (hj : j < ringSize s.cfg q) (hne : (r, i) ≠ (q, j)) (st len : Word) (a : DAddr) :
    (s.setDescriptor q j st len a).descriptor r i = s.descriptor r i :=
  State.descriptor_of_bytes (State.setDescriptor_cfg ..) fun _ hx =>
    State.descByte_setDescriptor_outside st len a fun hy => hne (inDescriptor_unique hv hi hj hx hy)

theorem State.setDescriptor_frame (s : State) (r : Ring) (i : Nat) (st len : Word) (a : DAddr) :
    s.setDescriptor r i st len a = { s with desc := (s.setDescriptor r i st len a).desc } := by
  rw [State.setDescriptor_eq_filled, State.filled_writeStatus_frame]

theorem State.setPending_frame (s : State) (r : Ring) (i : Nat) (e : Option (Nat × DAddr)) :
    s.setPending r i e = { s with rx := (s.setPending r i e).rx, tx := (s.setPending r i e).tx } := by cases r <;> rfl

theorem State.zeroSlot_frame (r : Ring) (s : State) (i : Nat) : State.zeroSlot r s i = { s with
    rx := (State.zeroSlot r s i).rx, tx := (State.zeroSlot r s i).tx, desc := (State.zeroSlot r s i).desc } := by
  rw [State.zeroSlot, State.setPending_frame, State.setDescriptor_frame]

/-- A slot whose entry is cleared has none, and the others keep theirs. -/
theorem State.pending_cleared (s : State) (r q : Ring) (i j : Nat) :
    (s.setPending r i none).pending q j = if (q, j) = (r, i) then none else s.pending q j := by
  rw [State.pending_setPending]
  by_cases hs : (q, j) = (r, i)
  · cases hs
    rw [if_pos rfl, ite_eq_left_iff]
    intro hlen
    by_contra hn
    obtain ⟨⟨k, a⟩, hp⟩ := Option.ne_none_iff_exists'.mp hn
    exact hlen ⟨rfl, rfl, State.lt_pend_of_pending hp⟩
  · rw [if_neg hs, if_neg fun h => hs (Prod.ext h.1 h.2.1)]

/-- The slots of the two rings, RX before TX (R185 B2, R187 T4). -/
def ringSlots (c : Config) : List (Ring × Nat) :=
  (List.range c.nRx).map (Ring.rx, ·) ++ (List.range c.nTx).map (Ring.tx, ·)

theorem mem_ringSlots {c : Config} {r : Ring} {i : Nat} : (r, i) ∈ ringSlots c ↔ i < ringSize c r := by
  cases r <;> simp [ringSlots, ringSize]

/-- From `s` to `u` only ring slots were written, and those in `l` are zero and have no pending entry. -/
structure Zeroed (s u : State) (l : List (Ring × Nat)) : Prop where
  frame : u = { s with rx := u.rx, tx := u.tx, desc := u.desc }
  pend : ∀ r, (u.ring r).pend.length = (s.ring r).pend.length
  slots : ∀ r i, (r, i) ∈ l → i < ringSize s.cfg r → u.slot r i = ((0, 0, 0), none)

theorem zeroed_nil (s : State) : Zeroed s s [] := ⟨rfl, fun _ => rfl, nofun⟩

section
variable {s u : State} {l : List (Ring × Nat)} (hv : ValidConfig s.cfg)
include hv

theorem Zeroed.next (h : Zeroed s u l) {r : Ring} {i : Nat} (hi : i < ringSize s.cfg r) :
    Zeroed s (State.zeroSlot r u i) (l ++ [(r, i)]) := by
  have hcfg : u.cfg = s.cfg := by rw [h.frame]
  have hdesc (q : Ring) (j : Nat) :
      (State.zeroSlot r u i).descriptor q j = (u.setDescriptor r i 0 0 0).descriptor q j :=
    congrFun (congrFun (State.descriptor_congr (State.setPending_cfg ..) (State.setPending_desc ..)) q) j
  have hpend (q : Ring) (j : Nat) :
      (State.zeroSlot r u i).pending q j = if (q, j) = (r, i) then none else u.pending q j := by
    rw [State.zeroSlot, State.pending_cleared, State.setDescriptor_pending]
  refine ⟨(State.zeroSlot_frame r u i).trans ?_, fun q => ?_, fun q j hj hlt => ?_⟩
  · rw [h.frame]
  · rw [← h.pend q]
    cases r <;> cases q <;> simp [State.zeroSlot, State.setPending, State.setRing, State.ring] <;> rfl
  · rw [State.slot, hdesc, hpend]
    by_cases hs : (q, j) = (r, i)
    · cases hs
      rw [State.descriptor_setDescriptor, if_pos rfl]
    · have hj : (q, j) ∈ l := by simpa [hs] using hj
      rw [State.descriptor_setDescriptor_other (hcfg ▸ hv) (hcfg ▸ hlt) (hcfg ▸ hi) hs, if_neg hs]
      exact h.slots q j hj hlt

theorem Zeroed.ring (h : Zeroed s u l) (r : Ring) {n : Nat} (hn : n ≤ ringSize s.cfg r) :
    Zeroed s (u.zeroSlots r n) (l ++ (List.range n).map (r, ·)) := by
  induction n with
  | zero => simpa [State.zeroSlots] using h
  | succ n ih =>
    rw [State.zeroSlots_succ, List.range_succ, List.map_append, ← List.append_assoc]
    exact (ih (by omega)).next hv hn

theorem zeroed_zeroSlots : Zeroed s ((s.zeroSlots .rx s.cfg.nRx).zeroSlots .tx s.cfg.nTx) (ringSlots s.cfg) :=
  ((zeroed_nil s).ring hv .rx (Nat.le_refl _)).ring hv .tx (Nat.le_refl _)

/-- What B2 and B3 leave of a slot. -/
theorem State.zeroRings_slot {r : Ring} {i : Nat} (hi : i < ringSize s.cfg r) :
    s.zeroRings.slot r i = ((0, 0, 0), none) := by
  rw [← (zeroed_zeroSlots hv).slots r i (mem_ringSlots.mpr hi) hi]
  cases r <;> rfl

/-- What B2 and B3 leave of the other state. -/
theorem State.zeroRings_frame : s.zeroRings = { s with
    rx := ⟨0, 0, s.zeroRings.rx.pend⟩, tx := ⟨0, 0, s.zeroRings.tx.pend⟩, desc := s.zeroRings.desc, pollSched := false,
    txStopped := false, isrLatch := 0, rxErr := 0, txErr := 0 } := by
  have hf := (zeroed_zeroSlots hv).frame
  rw [State.zeroRings_eq]
  generalize (s.zeroSlots .rx s.cfg.nRx).zeroSlots .tx s.cfg.nTx = u at hf
  rw [State.clearLatches_eq, hf]

theorem State.RxSized.zeroRings (hs : s.RxSized) : s.zeroRings.RxSized := by
  have hpos := hv.size .rx
  have hf := State.zeroRings_frame hv
  refine ⟨?_, ?_, ?_, ?_⟩
  · rw [hf]
    exact hs.pool
  · rw [State.zeroRings_cfg, ← hs.pend]
    exact (zeroed_zeroSlots hv).pend .rx
  · rw [hf]
    exact Nat.zero_lt_of_lt hpos
  · rw [hf]
    exact Nat.zero_lt_of_lt hpos

end

/-! ## The command -/

/-- B2 to B4: three micro-steps a slot to zero it, ten to arm one of the RX ring. -/
theorem reaches_prefilled (c : Ctx) {s : State} (hv : ValidConfig s.cfg) (hs : s.RxSized) :
    Reaches c (13 * s.cfg.nRx + 3 * s.cfg.nTx - 5) (.bringup (.b2 .rx 0 .addr)) s
      (.bringup (.b5 (s.zeroRings.refillAll s.cfg.nRx).2)) (s.zeroRings.refillAll s.cfg.nRx).1 := by
  have hpos (r : Ring) : 0 < ringSize s.cfg r := Nat.zero_lt_of_lt (hv.size r)
  have hz := hs.zeroRings hv
  have hfree := State.freeSlots_lt hz
  rw [State.zeroRings_cfg] at hfree
  have hfill := reaches_refillAll .bringup c hz s.cfg.nRx 0 hfree
  rw [Nat.zero_add] at hfill
  have hret : taskStep c (.bringup (.b4 (.f9 (s.zeroRings.refillAll s.cfg.nRx).2))) (s.zeroRings.refillAll s.cfg.nRx).1
      = ((s.zeroRings.refillAll s.cfg.nRx).1, .goto (.bringup (.b5 (s.zeroRings.refillAll s.cfg.nRx).2))) := rfl
  exact ((reaches_zeroRings c s hpos).trans (hfill.trans (.step hret (.rfl (k := 0))))).mono (by omega)

theorem State.bringupAll_acked {s : State} (hack : s.askReset.2 = true) : s.bringupAll
    = ({ (s.askReset.1.zeroRings.refillAll s.cfg.nRx).1 with life := .up }, .ok,
      (s.askReset.1.zeroRings.refillAll s.cfg.nRx).2) := if_pos hack

theorem State.bringupAll_timedOut {s : State} (hack : s.askReset.2 = false) :
    s.bringupAll = (s.askReset.1, .resetTimeout, 0) := if_neg (Bool.eq_false_iff.mp hack)

/-- Settles O48: the handshake takes a micro-step a read, and the rest (B2 to B4) follows an acknowledged one. -/
theorem bringupRuns : Obligations.BringupRuns := by
  intro s hr hd hsizes hk
  have hv := Config.valid hr.wf
  have hsize := hv.size .rx
  rw [ringSize] at hsize
  cases hack : s.askReset.2 with
  | false =>
    rw [State.bringupAll_timedOut hack]
    exact exec_bringup_timedOut hr hd hack (by omega)
  | true =>
    have hs := State.RxSized.of_sizesOk hsizes
    have hsh : s.askReset.1.RxSized := by
      rw [s.askReset_frame]
      exact ⟨hs.pool, hs.pend, hs.head, hs.tail⟩
    have hfill := reaches_prefilled s.cur (s.askReset_cfg ▸ hv) hsh
    have hshake := reaches_acked s.cur (k := s.cfg.resetBound) (s := { s with rst := 1 }) (Nat.zero_add _) hack
    rw [s.askReset_cfg] at hfill
    rw [State.bringupAll_acked hack]
    exact exec_of_ret hr (if_pos hd) ((Reaches.step (bringup_asks s.cur s) (hshake.trans hfill)).ret rfl) (by omega)

end Sys2Proof.Machine
end

section
/-! PROOF. What a successful BRINGUP leaves: the RX ring armed from slot 0 on, everything else empty and zero
(45_lifecycle R185, R186, 46_device R199, 70_reset R241). -/

namespace Sys2Proof.Machine

/-! ## Slots that REFILL does not arm -/

theorem State.slot_congr {s u : State} (hc : u.cfg = s.cfg) (hd : u.desc = s.desc) (hp : u.pending = s.pending) :
    u.slot = s.slot := by
  funext r i
  rw [State.slot, State.descriptor_congr hc hd, hp, State.slot]

theorem State.slot_drawMapOk (s : State) : s.drawMapOk.2.slot = s.slot := by
  rw [State.drawMapOk_frame]
  exact State.slot_congr rfl rfl rfl

theorem State.slot_setBuffer (s : State) (h : Nat) (e : PoolEntry) : (s.setBuffer h e).slot = s.slot :=
  State.slot_congr rfl rfl rfl

section
variable {s : State} (hv : ValidConfig s.cfg)
include hv

/-- Arming the slot at the head of a ring leaves every other slot alone. -/
theorem State.slot_arm_other {r q : Ring} {i : Nat} (hi : i < ringSize s.cfg r)
    (hh : (s.ring q).head < ringSize s.cfg q) (hne : (r, i) ≠ (q, (s.ring q).head)) (h : Nat) (st len : Word) :
    (s.arm q h st len).slot r i = s.slot r i := by
  rw [State.arm, State.slot, State.descriptor_congr (State.setHead_cfg ..) (State.setHead_desc ..),
    State.descriptor_congr (State.setPending_cfg ..) (State.setPending_desc ..),
    State.descriptor_setDescriptor_other hv hi hh hne, State.pending_setHead, State.pending_setPending,
    if_neg fun he => hne (Prod.ext he.1 he.2.1), State.setDescriptor_pending, State.slot]

theorem State.slot_armNext_other {r : Ring} {i : Nat} (hi : i < ringSize s.cfg r) (hh : s.rx.head < s.cfg.nRx)
    (hne : (r, i) ≠ (.rx, s.rx.head)) (h : Nat) : (s.drawMapOk.2.armRx h).slot r i = s.slot r i := by
  have hd := s.drawMapOk_frame
  rw [State.armRx, State.slot_arm_other (by rw [hd]; exact hv) (by rw [hd]; exact hi) (by rw [hd]; exact hh)
    (by rw [hd]; exact hne), State.slot_setBuffer, State.slot_drawMapOk]

/-- REFILL's loop leaves every slot that it does not arm as it was. -/
theorem State.refillAll_slot_other (hs : s.RxSized) {k : Nat} {r : Ring} {i : Nat} (hi : i < ringSize s.cfg r)
    (hout : ∀ j, j < (s.refillAll k).2 → (r, i) ≠ (.rx, (s.rx.head + j) % s.cfg.nRx)) :
    (s.refillAll k).1.slot r i = s.slot r i := by
  fun_induction State.refillAll k s with
  | case1 s => rfl
  | case2 k s hfull => rfl
  | case3 k s hroom hf => rfl
  | case4 k s hroom h hf hd t ih =>
    have hhead : (r, i) ≠ (.rx, s.rx.head) := by
      have h0 := hout 0 (Nat.zero_lt_succ _)
      rwa [Nat.add_zero, Nat.mod_eq_of_lt hs.head] at h0
    rw [← State.slot_armNext_other hv hi hs.head hhead h]
    refine ih (by simpa using hv) (hs.armNext h) (by simpa using hi) fun j hj => ?_
    rw [State.armRx_head, State.armRx_cfg, State.drawMapOk_rx, State.drawMapOk_cfg, nextIndex_add]
    exact hout (j + 1) (Nat.succ_lt_succ hj)
  | case5 k s hroom h hf hd => rw [State.slot_setBuffer, State.slot_drawMapOk]

end

/-! ## The pre-population (R185 B2 to B4) -/

/-- `t` is `s` after B2 to B4 with `n` slots armed. -/
structure Prefilled (s t : State) (n : Nat) : Prop where
  keeps : RefillKeeps s.zeroRings t
  head : t.rx.head = n
  armed : ∀ i h, i < n → s.freeHandles[i]? = some h → t.ArmedWith i h
  blank : ∀ r i, i < ringSize s.cfg r → (r = .rx → n ≤ i) → t.slot r i = ((0, 0, 0), none)

/-- With mappings that succeed, REFILL arms the RX ring from slot 0 on until it is full or no buffer is free. -/
theorem prefilled_refillAll {s : State} (hv : ValidConfig s.cfg) (hs : s.RxSized) {k : Nat} {rest : List Bool}
    (hmap : s.draws.mapOk = List.replicate k true ++ rest) (hk : s.cfg.nRx ≤ k) :
    (s.zeroRings.refillAll s.cfg.nRx).2 = min (s.cfg.nRx - 1) s.freeHandles.length
      ∧ Prefilled s (s.zeroRings.refillAll s.cfg.nRx).1 (min (s.cfg.nRx - 1) s.freeHandles.length) := by
  have hz := hs.zeroRings hv
  have hframe := State.zeroRings_frame hv
  have hhead : s.zeroRings.rx.head = 0 := by rw [hframe]
  have hhandles : s.zeroRings.freeHandles = s.freeHandles := by rw [hframe]; rfl
  have hfree : s.zeroRings.freeSlots .rx = s.cfg.nRx - 1 := by
    rw [hframe]
    simp [State.freeSlots, State.count, State.ring, ringSize, subIndex]
  have hlt : s.zeroRings.freeSlots .rx < s.cfg.nRx := by
    have := hs.head
    omega
  have hcount := State.refillAll_mapped hz hlt (rest := rest) (m := k) (by rw [hframe]; exact hmap) (by omega)
  have hdone := State.refillAll_refilled hz hlt
  have hmod (i : Nat) (hi : i < min (s.cfg.nRx - 1) s.freeHandles.length + 1) : (0 + i) % s.cfg.nRx = i := by
    rw [Nat.zero_add, Nat.mod_eq_of_lt]
    have := hs.head
    omega
  rw [hfree, hhandles] at hcount
  rw [hcount] at hdone
  refine ⟨hcount, State.refillAll_keeps hz hlt, ?_, fun i h hi hh => ?_, fun r i hi hn => ?_⟩
  · rw [hdone.head, hhead, State.zeroRings_cfg, hmod _ (Nat.lt_succ_self _)]
  · have harmed := hdone.armed i h hi (hhandles ▸ hh)
    rwa [hhead, State.zeroRings_cfg, hmod i (by omega)] at harmed
  · rw [State.refillAll_slot_other (by simpa using hv) hz (by simpa using hi), State.zeroRings_slot hv hi]
    intro j hj he
    rw [hcount] at hj
    rw [hhead, State.zeroRings_cfg, hmod j (by omega)] at he
    cases he
    exact Nat.not_lt.mpr (hn rfl) hj

section
variable {s t : State} {n : Nat} (hv : ValidConfig s.cfg) (h : Prefilled s t n)
include hv h

theorem Prefilled.tail : t.rx.tail = 0 := by rw [h.keeps.tail, State.zeroRings_frame hv]

theorem Prefilled.frame : t = { s with
    rx := t.rx, tx := ⟨0, 0, t.tx.pend⟩, pool := t.pool, desc := t.desc, pollSched := false, txStopped := false,
    isrLatch := 0, rxErr := 0, txErr := 0, pollRunning := t.pollRunning, fault := t.fault, draws := t.draws,
    tick := t.tick } := by
  have hf := h.keeps.frame
  rw [RefillFrame, State.zeroRings_frame hv] at hf
  rw [hf]

end

/-- Settles O49: the command is its whole operation (O48), an acknowledged handshake and the pre-population. -/
theorem bringupArmsRx : Obligations.BringupArmsRx := by
  intro s j k rest rest' hr hd hsizes hack hj hmap hk hslice free n
  have hv := Config.valid hr.wf
  have hs := State.RxSized.of_sizesOk hsizes
  have hrun := bringupRuns s hr hd hsizes hslice
  obtain ⟨v, d, m, hdraws, hask⟩ : ∃ v d m, d.mapOk = s.draws.mapOk ∧ s.askReset = (s.acked v d m, true) :=
    State.handshake_acked (s := { s with rst := 1 }) rfl hack hj
  obtain ⟨hn, hfill⟩ : ((s.acked v d m).zeroRings.refillAll s.cfg.nRx).2 = n
      ∧ Prefilled (s.acked v d m) ((s.acked v d m).zeroRings.refillAll s.cfg.nRx).1 n :=
    prefilled_refillAll (s := s.acked v d m) hv ⟨hs.pool, hs.pend, hs.head, hs.tail⟩ (hdraws.trans hmap) hk
  rw [State.bringupAll_acked (by rw [hask]), hask, hn] at hrun
  generalize (State.refillAll _ _).1 = t at hrun hfill
  have hf := hfill.frame (s := s.acked v d m) hv
  have hcfg : t.cfg = s.cfg := by rw [hf]; rfl
  have htail : t.rx.tail = 0 := hfill.tail (s := s.acked v d m) hv
  have hslot {r : Ring} {i : Nat} (hi : i < ringSize s.cfg r) (hni : r = .rx → n ≤ i) :
      t.descriptor r i = (0, 0, 0) ∧ t.pending r i = none := Prod.ext_iff.mp (hfill.blank r i hi hni)
  have harmed (i h : Nat) (hi : i < n) (hh : free[i]? = some h) :
      t.descriptor .rx i = (0x90000000, BitVec.ofNat 32 s.cfg.bufSize, xlateOf s.cfg h)
        ∧ t.pending .rx i = some (h, xlateOf s.cfg h)
        ∧ t.buffer h = ⟨.eng, BitVec.ofNat 16 s.cfg.bufSize, some .inbound⟩ := by
    obtain ⟨hbuf, hpend, hdesc⟩ := hfill.armed i h hi hh
    rw [hcfg] at hbuf hpend hdesc
    exact ⟨hdesc, hpend, hbuf⟩
  refine ⟨_, hrun, rfl, ?_, ?_, ?_, hfill.head, htail, ?_, ?_, ?_, ?_, ?_, ?_, ?_, fun i hi => hslot hi nofun,
    fun i hni hi => hslot hi fun _ => hni, harmed⟩
  all_goals rw [hf]; rfl

end Sys2Proof.Machine
end

section
/-! PROOF. What TEARDOWN does: it unmaps and frees every buffer that the two rings hold, whatever their descriptors say
(45_lifecycle R187, R188, 70_reset R242). -/

namespace Sys2Proof.Machine

/-! ## The entries of the two rings -/

/-- Each entry's buffer is mapped for its ring, and is no other slot's (R30, R32). -/
structure State.Entries (s : State) : Prop where
  held : ∀ r i h a, s.pending r i = some (h, a) → s.holdsMapped h (ringDir r)
  once : ∀ r q i j h a b, s.pending r i = some (h, a) → s.pending q j = some (h, b) → (r, i) = (q, j)

theorem State.Entries.of_ok {s : State} (hsizes : s.sizesOk = true) (he : s.entriesOk = true) : s.Entries := by
  simp only [State.entriesOk, Bool.and_eq_true, decide_eq_true_eq, List.map_append, List.all_eq_true, List.mem_range,
    Option.all_eq_true, beq_iff_eq] at he
  obtain ⟨⟨hrx, htx⟩, honce⟩ := he
  have hlt {r : Ring} {i h : Nat} {a : DAddr} (hp : s.pending r i = some (h, a)) : i < ringSize s.cfg r := by
    have hl := State.lt_pend_of_pending hp
    cases r
    · exact hl.trans_eq (State.RxSized.of_sizesOk hsizes).pend
    · exact hl.trans_eq (State.TxSized.of_sizesOk hsizes).pend
  have hkey {r : Ring} {i h : Nat} {a : DAddr} (hp : s.pending r i = some (h, a)) :
      h ∈ ((List.range (ringSize s.cfg r)).filterMap (s.pending r)).map Prod.fst :=
    List.mem_map.mpr ⟨(h, a), List.mem_filterMap.mpr ⟨i, List.mem_range.mpr (hlt hp), hp⟩, rfl⟩
  have hapart {i j h : Nat} {a b : DAddr} (hp : s.pending .rx i = some (h, a)) : s.pending .tx j ≠ some (h, b) :=
    fun hq => List.disjoint_of_nodup_append honce (hkey hp) (hkey hq)
  refine ⟨fun r i h a hp => ?_, fun r q i j h a b hp hq => ?_⟩
  · cases r
    · obtain ⟨⟨hpool, hown⟩, hmap⟩ := hrx i (hlt hp) (h, a) hp
      exact ⟨hpool, by rw [hown]; nofun, hmap⟩
    · obtain ⟨⟨hpool, hown⟩, hmap⟩ := htx i (hlt hp) (h, a) hp
      exact ⟨hpool, by rw [hown]; nofun, hmap⟩
  · cases r <;> cases q
    · rw [eq_of_nodup_keys honce.of_append_left (hlt hp) (hlt hq) hp hq]
    · exact absurd hq (hapart hp)
    · exact absurd hp (hapart hq)
    · rw [eq_of_nodup_keys honce.of_append_right (hlt hp) (hlt hq) hp hq]

/-! ## One slot swept (R187 T4) -/

/-- Where T4 stands when the slots of ring `r` below `i` are swept and `k` buffers released. -/
def sweepLabel (c : Config) (r : Ring) (i k : Nat) : TeardownPc :=
  if i < ringSize c r then .t4 r i k
  else match r with
    | .rx => .t4 .tx 0 k
    | .tx => .t5 k

section
variable {cfg : Config} {r : Ring} {i k : Nat}

theorem sweepLabel_of_lt (h : i < ringSize cfg r) : sweepLabel cfg r i k = .t4 r i k := if_pos h

theorem sweepLabel_rx : sweepLabel cfg .rx cfg.nRx k = .t4 .tx 0 k := if_neg (Nat.lt_irrefl _)

theorem sweepLabel_tx : sweepLabel cfg .tx cfg.nTx k = .t5 k := if_neg (Nat.lt_irrefl _)

end

section
variable (c : Ctx) {s : State} {r : Ring} {i : Nat} (k : Nat)

theorem teardown_slotEmpty (hp : s.pending r i = none) : taskStep c (.teardown (.t4 r i k)) s
    = (s, .goto (.teardown (sweepLabel s.cfg r (i + 1) k))) := by
  rw [taskStep, teardownTask, teardownSlot, hp]
  rfl

theorem teardown_slotFreed {h : Nat} {a : DAddr} (hp : s.pending r i = some (h, a)) (hm : s.holdsMapped h (ringDir r)) :
    taskStep c (.teardown (.t4 r i k)) s
      = ((s.setBuffer h { s.buffer h with own := .free, map := none }).setPending r i none,
        .goto (.teardown (sweepLabel s.cfg r (i + 1) (k + 1)))) := by
  rw [taskStep, teardownTask, teardownSlot, hp]
  simp only
  rw [orPoolFault_some _ (State.unmapBuffer_of_holdsMapped hm), orPoolFault_some _ (State.release_unmapped hm)]
  rfl

end

/-- `u` is `s` with the slots in `l` swept, which has released `k` buffers. -/
structure Swept (s u : State) (l : List (Ring × Nat)) (k : Nat) : Prop where
  frame : u = { s with rx := { s.rx with pend := u.rx.pend }, tx := { s.tx with pend := u.tx.pend }, pool := u.pool }
  pending : ∀ r i, u.pending r i = if (r, i) ∈ l then none else s.pending r i
  freed : ∀ r i h a, (r, i) ∈ l → s.pending r i = some (h, a) → u.buffer h = ⟨.free, (s.buffer h).len, none⟩
  kept : ∀ h, (∀ r i a, (r, i) ∈ l → s.pending r i ≠ some (h, a)) → u.buffer h = s.buffer h
  count : k = l.countP fun x => (s.pending x.1 x.2).isSome

theorem swept_nil (s : State) : Swept s s [] 0 := ⟨rfl, fun _ _ => rfl, nofun, fun _ _ => rfl, rfl⟩

section
variable {s u : State} {l : List (Ring × Nat)} {k : Nat} (h : Swept s u l k)
include h

theorem Swept.cfg : u.cfg = s.cfg := by rw [h.frame]

/-- A slot without an entry has nothing to release. -/
theorem Swept.empty {r : Ring} {i : Nat} (hp : s.pending r i = none) : Swept s u (l ++ [(r, i)]) k where
  frame := h.frame
  pending q j := by
    rw [h.pending]
    by_cases hs : (q, j) = (r, i)
    · cases hs
      simp [hp]
    · simp [hs]
  freed q j x a hj hx := by
    obtain hj | hj := List.mem_append.mp hj
    · exact h.freed q j x a hj hx
    · cases List.mem_singleton.mp hj
      cases hp.symm.trans hx
  kept x hx := h.kept x fun q j a hj => hx q j a (List.mem_append_left _ hj)
  count := by
    rw [List.countP_append, ← h.count, List.countP_singleton, hp]
    rfl

section
variable (he : s.Entries) {r : Ring} {i x : Nat} {a : DAddr} (hn : (r, i) ∉ l) (hp : s.pending r i = some (x, a))
include he hn hp

/-- The buffer of a slot that is not yet swept is as it was. -/
theorem Swept.buffer_later : u.buffer x = s.buffer x :=
  h.kept x fun q j b hj hq => hn (he.once r q i j x a b hp hq ▸ hj)

theorem Swept.release : Swept s ((u.setBuffer x { u.buffer x with own := .free, map := none }).setPending r i none)
    (l ++ [(r, i)]) (k + 1) := by
  have hx := h.buffer_later he hn hp
  have hlen : x < u.pool.length := State.lt_of_own (by rw [hx]; exact (he.held r i x a hp).2.1)
  have hbuf (y : Nat) : ((u.setBuffer x { u.buffer x with own := .free, map := none }).setPending r i none).buffer y
      = if y = x then ⟨.free, (s.buffer x).len, none⟩ else u.buffer y := by
    rw [State.setPending_buffer, State.buffer_setBuffer, hx]
    simp [hlen]
  refine ⟨?_, fun q j => ?_, fun q j y b hj hy => ?_, fun y hy => ?_, ?_⟩
  · rw [h.frame]
    cases r <;> rfl
  · rw [State.pending_cleared, State.setBuffer_pending, h.pending]
    by_cases hs : (q, j) = (r, i)
    · simp [hs]
    · simp [hs]
  · rw [hbuf]
    by_cases hyx : y = x
    · rw [if_pos hyx, hyx]
    · rw [if_neg hyx]
      refine h.freed q j y b ((List.mem_append.mp hj).resolve_right fun hs => hyx ?_) hy
      cases List.mem_singleton.mp hs
      cases hp.symm.trans hy
      rfl
  · have hyx : y ≠ x := fun hyx => hy r i a (by simp) (hyx ▸ hp)
    rw [hbuf, if_neg hyx]
    exact h.kept y fun q j b hj => hy q j b (List.mem_append_left _ hj)
  · rw [List.countP_append, ← h.count, List.countP_singleton, hp]
    rfl

end

/-- T4 on a slot that is not yet swept. -/
theorem Swept.next (he : s.Entries) (c : Ctx) {r : Ring} {i : Nat} (hn : (r, i) ∉ l) :
    ∃ u' k', taskStep c (.teardown (.t4 r i k)) u = (u', .goto (.teardown (sweepLabel s.cfg r (i + 1) k')))
      ∧ Swept s u' (l ++ [(r, i)]) k' := by
  have hpend := h.pending r i
  rw [if_neg hn] at hpend
  rw [← h.cfg]
  cases hp : s.pending r i with
  | none => exact ⟨u, k, teardown_slotEmpty c k (hpend.trans hp), h.empty hp⟩
  | some e =>
    obtain ⟨x, a⟩ := e
    have hm : u.holdsMapped x (ringDir r) := by
      rw [State.holdsMapped, h.buffer_later he hn hp, h.cfg]
      exact he.held r i x a hp
    exact ⟨_, k + 1, teardown_slotFreed c k (hpend.trans hp) hm, h.release he hn hp⟩

/-! ## The rings swept -/

/-- T4 on the slots of one ring. -/
theorem Swept.ring (he : s.Entries) (c : Ctx) {r : Ring} (hl : ∀ i, (r, i) ∉ l) {n : Nat} (hn : n ≤ ringSize s.cfg r) :
    ∃ u' k', Reaches c n (.teardown (sweepLabel s.cfg r 0 k)) u (.teardown (sweepLabel s.cfg r n k')) u'
      ∧ Swept s u' (l ++ (List.range n).map (r, ·)) k' := by
  induction n with
  | zero => exact ⟨u, k, .rfl, by simpa using h⟩
  | succ n ih =>
    obtain ⟨v, m, hrun, hv⟩ := ih (by omega)
    obtain ⟨w, p, hstep, hw⟩ := hv.next he c (r := r) (i := n) (by simp [hl])
    rw [sweepLabel_of_lt hn] at hrun
    refine ⟨w, p, hrun.trans (.step hstep (.rfl (k := 0))), ?_⟩
    rwa [List.range_succ, List.map_append, ← List.append_assoc]

end

/-- T4 on every slot. -/
theorem reaches_swept {s : State} (he : s.Entries) (c : Ctx) (hpos : ∀ r, 0 < ringSize s.cfg r) :
    ∃ u k, Reaches c (s.cfg.nRx + s.cfg.nTx) (.teardown (.t4 .rx 0 0)) s (.teardown (.t5 k)) u
      ∧ Swept s u (ringSlots s.cfg) k := by
  obtain ⟨v, m, hrx, hv⟩ := (swept_nil s).ring he c (r := .rx) nofun (Nat.le_refl _)
  obtain ⟨u, k, htx, hu⟩ := hv.ring he c (r := .tx) (by simp) (Nat.le_refl _)
  rw [sweepLabel_of_lt (hpos .rx), ringSize, sweepLabel_rx] at hrx
  rw [sweepLabel_of_lt (hpos .tx), ringSize, sweepLabel_tx] at htx
  exact ⟨u, k, hrx.trans htx, hu⟩

/-! ## The command -/

/-- The state in which TEARDOWN begins to sweep: the lock taken, no poll in progress or scheduled (R187 T3). -/
def State.closing (s : State) (c : Ctx) : State := { s.lock c with life := .down, pollSched := false }

/-- T1 to T3, the lock and the poll path being free. -/
theorem reaches_closing (c : Ctx) {s : State} (hup : s.life = .up) (hlock : s.txLock = none)
    (hpoll : s.pollRunning = false) :
    Reaches c 3 (.teardown .t1) s (.teardown (.t4 .rx 0 0)) (s.closing c) := by
  have h1 : taskStep c (.teardown .t1) s = (s, .goto (.teardown .t2)) := if_neg (by rw [hup]; nofun)
  have h2 : taskStep c (.teardown .t2) s = (s.lock c, .goto (.teardown .t3)) := if_pos (by rw [hlock]; rfl)
  have h3 : taskStep c (.teardown .t3) (s.lock c) = (s.closing c, .goto (.teardown (.t4 .rx 0 0))) :=
    if_neg (by rw [State.lock, hpoll]; nofun)
  exact .step h1 (.step h2 (.step h3 .rfl))

/-- Settles O50: T1 to T3 close the block, T4 sweeps every slot, and T5 and T6 leave the rings empty and unlocked. -/
theorem teardownReleasesAll : Obligations.TeardownReleasesAll := by
  intro s hr hup hlock hpoll hsizes hok hk
  have hv := Config.valid hr.wf
  have he := State.Entries.of_ok hsizes hok
  obtain ⟨u, k, hrun, hu⟩ := reaches_swept (s := s.closing s.cur) ⟨he.held, he.once⟩ s.cur
    fun r => Nat.zero_lt_of_lt (hv.size r)
  have hlast : taskStep s.cur (.teardown (.t5 k)) u
      = ({ u.zeroIndices with txStopped := false }, .goto (.teardown (.t6 k))) := rfl
  have hall := ((reaches_closing s.cur hup hlock hpoll).trans (hrun.trans (.step hlast (.rfl (k := 0))))).ret rfl
  have hcount : k = ((List.range s.cfg.nRx).countP fun i => (s.pending .rx i).isSome)
      + (List.range s.cfg.nTx).countP fun i => (s.pending .tx i).isSome := by
    rw [hu.count, ringSlots, List.countP_append, List.countP_map, List.countP_map]
    rfl
  rw [← hcount]
  have hslice : 3 + (s.cfg.nRx + s.cfg.nTx + (0 + 1)) + 1 ≤ s.slice := by omega
  have hnone (r : Ring) (i : Nat) (hi : i < ringSize s.cfg r) : u.pending r i = none :=
    (hu.pending r i).trans (if_pos (mem_ringSlots.mpr hi))
  refine ⟨_, exec_of_ret hr rfl hall hslice, ?_, ?_, rfl, rfl, rfl, rfl, rfl, rfl,
    fun r i hi => (congrFun (congrFun u.pending_zeroed r) i).trans (hnone r i hi),
    fun r i h a hi => hu.freed r i h a (mem_ringSlots.mpr hi),
    fun h hh => hu.kept h fun r i a hi => hh r i a (mem_ringSlots.mp hi), ?_, fun x => ?_⟩
  all_goals rw [hu.frame]; rfl

end Sys2Proof.Machine
end

section
/-! PROOF. The frame of BRINGUP and TEARDOWN, micro-step by micro-step (45_lifecycle R185, R187). -/

namespace Sys2Proof.Machine

/-! ## BRINGUP -/

/-- The fields BRINGUP writes. -/
def BringupFrame (s u : State) : Prop :=
  u = { s with
    life := u.life, rx := u.rx, tx := u.tx, pool := u.pool, isrLatch := u.isrLatch, pollSched := u.pollSched,
    txStopped := u.txStopped, rxErr := u.rxErr, txErr := u.txErr, fault := u.fault, desc := u.desc, isr := u.isr,
    rst := u.rst, dev := u.dev, draws := u.draws, tick := u.tick }

theorem BringupFrame.trans {s u v : State} (h : BringupFrame s u) (g : BringupFrame u v) : BringupFrame s v := by
  rw [BringupFrame] at h g ⊢
  rw [g, h]

/-- What BRINGUP keeps (R185). -/
structure BringupKeeps (s u : State) : Prop where
  frame : BringupFrame s u
  buffers : ∀ j, (s.buffer j).own ≠ .free → u.buffer j = s.buffer j
  bytes : ∀ a, (∀ r i, i < ringSize s.cfg r → ¬ inDescriptor s.cfg r i a) → u.descByte a = s.descByte a

theorem BringupKeeps.rfl {s : State} : BringupKeeps s s := ⟨by rfl, fun _ _ => by rfl, fun _ _ => by rfl⟩

theorem State.descByte_clearSlot_outside {s : State} {r : Ring} {i a : Nat} (q : ClearPc)
    (ha : ¬ inDescriptor s.cfg r i a) : (s.clearSlot r i q).descByte a = s.descByte a := by
  have hat : ringBase s.cfg r + 16 * i = statusAddr s.cfg r i := by rfl
  rw [inDescriptor, hat] at ha
  cases q with
  | addr => exact s.descByte_descWrite64_outside 0 (by rw [bufferAddr]; omega)
  | len => exact s.descByte_descWrite32_outside 0 (by rw [lengthAddr]; omega)
  | status =>
    rw [State.clearSlot, State.setPending_descByte]
    exact s.descByte_descWrite32_outside 0 (by omega)

section
variable {s v u : State} (h : BringupKeeps s v)
include h

theorem BringupKeeps.cfg : v.cfg = s.cfg := by rw [h.frame]

/-- An update of neither the buffers nor descriptor memory. -/
theorem BringupKeeps.update (hf : BringupFrame v u) (hpool : u.pool = v.pool) (hdesc : u.desc = v.desc) :
    BringupKeeps s u where
  frame := h.frame.trans hf
  buffers j hj := by rw [← h.buffers j hj, State.buffer, hpool, State.buffer]
  bytes a ha := by rw [← h.bytes a ha, State.descByte, hdesc, State.descByte]

theorem BringupKeeps.answerReset : BringupKeeps s v.answerReset :=
  h.update (by rw [BringupFrame, v.answerReset_frame]) (by rw [v.answerReset_frame]) (by rw [v.answerReset_frame])

theorem BringupKeeps.clearSlot {r : Ring} {i : Nat} (hi : i < ringSize s.cfg r) (q : ClearPc) :
    BringupKeeps s (v.clearSlot r i q) where
  frame := h.frame.trans (by cases q <;> cases r <;> rfl)
  buffers j hj := by
    rw [← h.buffers j hj]
    cases q <;> cases r <;> rfl
  bytes a ha := by
    rw [← h.bytes a ha, State.descByte_clearSlot_outside q]
    rw [h.cfg]
    exact ha r i hi

theorem BringupKeeps.clearLatches : BringupKeeps s v.clearLatches := h.update (by rfl) (by rfl) (by rfl)

theorem BringupKeeps.up : BringupKeeps s { v with life := .up } := h.update (by rfl) (by rfl) (by rfl)

/-- B4 on empty rings: REFILL writes RX descriptors only. -/
theorem BringupKeeps.refill (g : RefillKeeps v u) (hp : u.pollRunning = v.pollRunning) (hh : v.rx.head < v.cfg.nRx)
    (ht : v.rx.tail < v.cfg.nRx) : BringupKeeps s u where
  frame := h.frame.trans (by
    have hf := g.frame
    rw [RefillFrame, hp] at hf
    rw [BringupFrame]
    rw [hf])
  buffers j hj := (g.buffers j (by rwa [h.buffers j hj])).trans (h.buffers j hj)
  bytes a ha := by
    rw [← h.bytes a ha]
    refine (g.window hh ht).bytes a fun i hi hin => absurd hin ?_
    rw [h.cfg]
    exact ha .rx i (h.cfg ▸ hi)

end

/-- BRINGUP stands at a label, with what it has kept; B4 began, in the state `v`, with the RX indices in range. -/
inductive BringupAt (s u : State) : Task → Prop
  | request (h : BringupKeeps s u) : BringupAt s u (.bringup .h1)
  | reading {k : Nat} (h : BringupKeeps s u) : BringupAt s u (.bringup (.h3 k))
  | clearing {r : Ring} {i : Nat} {q : ClearPc} (h : BringupKeeps s u) (hi : i < ringSize s.cfg r) :
      BringupAt s u (.bringup (.b2 r i q))
  | cleared (h : BringupKeeps s u) : BringupAt s u (.bringup .b3)
  | filling {v : State} {p : RefillPc} (h : BringupKeeps s v) (hh : v.rx.head < v.cfg.nRx)
      (ht : v.rx.tail < v.cfg.nRx) (g : RefillAt v u p) (hp : u.pollRunning = v.pollRunning) :
      BringupAt s u (.bringup (.b4 p))
  | filled {n : Nat} (h : BringupKeeps s u) : BringupAt s u (.bringup (.b5 n))

theorem BringupAt.keeps {s u : State} {t : Task} (h : BringupAt s u t) : BringupKeeps s u := by
  cases h with
  | filling h hh ht g hp => exact h.refill g.keeps hp hh ht
  | _ => assumption

theorem bringupAt_clearNext {s u : State} (hpos : ∀ r, 0 < ringSize s.cfg r) (h : BringupKeeps s u) {r : Ring} {i : Nat}
    (hi : i < ringSize s.cfg r) (q : ClearPc) : BringupAt s u (.bringup (clearNext s.cfg r i q)) := by
  cases q with
  | addr => exact .clearing h hi
  | len => exact .clearing h hi
  | status =>
    simp only [clearNext]
    split
    · exact .clearing h ‹_›
    · cases r
      · exact .clearing h (hpos .tx)
      · exact .cleared h

theorem refillStep_pollRunning (p : RefillPc) (s : State) : (refillStep p s).1.pollRunning = s.pollRunning := by
  have hm := refillStep_meets p s
  rcases hx : refillStep p s with ⟨u, p' | n | _ | _⟩ <;> rw [hx] at hm
  · exact congrArg (·.2.1) (refill_resources hm)
  · rw [hm.2]
  · exact hm.elim
  · exact congrArg (·.2.1) hm.2.resources

theorem bringupTask_leads {c : Ctx} {s u : State} {t : Task} (hpos : ∀ r, 0 < ringSize s.cfg r) (h : BringupAt s u t) :
    Next.Leads (BringupAt s) (BringupKeeps s) (taskStep c t u) := by
  cases h with
  | request h => exact .reading (h.update (by rfl) (by rfl) (by rfl))
  | reading h =>
    rw [taskStep, bringupTask]
    split <;> [split; skip]
    · exact h.answerReset
    · exact .reading h.answerReset
    · exact .clearing h.answerReset (hpos .rx)
  | @clearing r i q h hi =>
    have hnext := bringupAt_clearNext hpos (h.clearSlot hi q) hi q
    rw [← h.cfg] at hnext
    exact hnext
  | cleared h =>
    have hrx : 0 < u.clearLatches.cfg.nRx := h.cfg ▸ hpos .rx
    exact .filling h.clearLatches hrx hrx ⟨.rfl, nofun, trivial⟩ (by rfl)
  | @filling v p h hh ht g hp =>
    have hs := refillStep_leads g
    have hrun := (refillStep_pollRunning p u).trans hp
    rw [taskStep, bringupTask]
    rcases hx : refillStep p u with ⟨w, p' | n | _ | _⟩ <;> rw [hx] at hs hrun
    · exact .filling h hh ht hs hrun
    · exact .filled (h.refill hs hrun hh ht)
    · trivial
    · exact h.refill hs hrun hh ht
  | filled h => exact h.up

theorem wf_of_exec {i : Instr} {s t : State} (h : exec i s = .next t) : s.cfg.wf = true := by
  by_contra hw
  rw [exec_eq_issue, issue_invalid _ (Bool.eq_false_iff.mpr hw)] at h
  cases h

theorem bringup_keeps {s t : State} (h : exec .bringup s = .next t) :
    s.keepsOthers t ∧ ∃ u hist lanes, BringupKeeps s u ∧ t = { u with hist := hist, lanes := lanes } := by
  have hpos (r : Ring) : 0 < ringSize s.cfg r := Nat.zero_lt_of_lt ((Config.valid (wf_of_exec h)).size r)
  refine exec_leads h .rfl (fun t₀ s₀ ha => ?_) (fun _ _ => BringupAt.keeps) fun _ _ => bringupTask_leads hpos
  rw [acceptance] at ha
  split at ha <;> cases ha
  exact .request .rfl

/-! ## TEARDOWN -/

/-- The fields TEARDOWN writes. -/
def TeardownFrame (s u : State) : Prop :=
  u = { s with
    life := u.life, rx := u.rx, tx := u.tx, pool := u.pool, pollSched := u.pollSched, txStopped := u.txStopped,
    txLock := u.txLock, fault := u.fault }

theorem TeardownFrame.trans {s u v : State} (h : TeardownFrame s u) (g : TeardownFrame u v) : TeardownFrame s v := by
  rw [TeardownFrame] at h g ⊢
  rw [g, h]

/-- What TEARDOWN keeps (R187). -/
structure TeardownKeeps (s u : State) : Prop where
  frame : TeardownFrame s u
  pending : ∀ r i, u.pending r i = s.pending r i ∨ u.pending r i = none
  buffers : ∀ j, (∀ r i a, s.pending r i ≠ some (j, a)) → u.buffer j = s.buffer j

theorem TeardownKeeps.rfl {s : State} : TeardownKeeps s s := ⟨by rfl, fun _ _ => .inl (by rfl), fun _ _ => by rfl⟩

section
variable {s v u : State} (h : TeardownKeeps s v)
include h

/-- An entry that still stands stood there at the start. -/
theorem TeardownKeeps.entry {r : Ring} {i : Nat} {e : Nat × DAddr} (hp : v.pending r i = some e) :
    s.pending r i = some e :=
  ((h.pending r i).resolve_right (by rw [hp]; nofun)).symm.trans hp

/-- An update of neither the pending entries nor the buffers. -/
theorem TeardownKeeps.update (hf : TeardownFrame v u) (hp : u.pending = v.pending) (hpool : u.pool = v.pool) :
    TeardownKeeps s u where
  frame := h.frame.trans hf
  pending r i := by rw [hp]; exact h.pending r i
  buffers j hj := by rw [← h.buffers j hj, State.buffer, hpool, State.buffer]

theorem TeardownKeeps.raise (f : Fault) : TeardownKeeps s (v.raise f) :=
  h.update (by cases f <;> rfl) (by funext r i; simp) (by simp)

theorem TeardownKeeps.setBuffer {r : Ring} {i x : Nat} {a : DAddr} (e : PoolEntry) (hx : s.pending r i = some (x, a)) :
    TeardownKeeps s (v.setBuffer x e) where
  frame := h.frame.trans (by rfl)
  pending := h.pending
  buffers j hj := by
    have hjx : j ≠ x := fun he => hj r i a (he ▸ hx)
    rw [v.buffer_setBuffer_other e hjx, h.buffers j hj]

theorem TeardownKeeps.clear (r : Ring) (i : Nat) : TeardownKeeps s (v.setPending r i none) where
  frame := h.frame.trans (by cases r <;> rfl)
  pending q j := by
    rw [State.pending_cleared]
    split
    · exact .inr (by rfl)
    · exact h.pending q j
  buffers j hj := by
    rw [State.setPending_buffer]
    exact h.buffers j hj

/-- T4, which at most touches the buffer of its slot before it stops (R112, R115). -/
theorem TeardownKeeps.slot (r : Ring) (i k : Nat) :
    Next.Leads (fun u t => ∃ p, t = .teardown p ∧ TeardownKeeps s u) (TeardownKeeps s) (teardownSlot r i k v) := by
  rw [teardownSlot]
  cases hp : v.pending r i with
  | none => exact ⟨_, by rfl, h⟩
  | some e =>
    obtain ⟨x, a⟩ := e
    have hx := h.entry hp
    simp only
    cases hu : v.unmapBuffer x (ringDir r) with
    | none => exact h.raise .pool
    | some w =>
      obtain ⟨-, -, rfl⟩ := State.unmapBuffer_eq_some hu
      have hw := h.setBuffer { v.buffer x with map := none } hx
      rw [orPoolFault]
      cases hr : (v.setBuffer x { v.buffer x with map := none }).poolRelease x with
      | none => exact hw.raise .pool
      | some y =>
        obtain ⟨-, -, -, rfl⟩ := State.poolRelease_eq_some hr
        exact ⟨_, by rfl, (hw.setBuffer _ hx).clear r i⟩

theorem teardownTask_leads {c : Ctx} (p : TeardownPc) :
    Next.Leads (fun u t => ∃ p', t = .teardown p' ∧ TeardownKeeps s u) (TeardownKeeps s)
      (taskStep c (.teardown p) v) := by
  rw [taskStep]
  cases p with
  | t1 =>
    rw [teardownTask]
    split
    · exact h
    · exact ⟨_, by rfl, h⟩
  | t2 =>
    rw [teardownTask]
    split
    · exact ⟨_, by rfl, h.update (by rfl) (by rfl) (by rfl)⟩
    · trivial
  | t3 =>
    rw [teardownTask]
    split
    · trivial
    · exact ⟨_, by rfl, h.update (by rfl) (by rfl) (by rfl)⟩
  | t4 r i k => exact h.slot r i k
  | t5 k => exact ⟨_, by rfl, h.update (by rfl) v.pending_zeroed (by rfl)⟩
  | t6 k => exact h.update (by rfl) (by rfl) (by rfl)

end

theorem teardown_keeps {s t : State} (h : exec .teardown s = .next t) :
    s.keepsOthers t ∧ ∃ u hist lanes, TeardownKeeps s u ∧ t = { u with hist := hist, lanes := lanes } :=
  exec_leads (I := fun u t => ∃ p, t = .teardown p ∧ TeardownKeeps s u) h .rfl (by rintro _ _ ⟨⟩; exact ⟨_, rfl, .rfl⟩)
    (by rintro u _ ⟨p, -, hp⟩; exact hp) (by rintro u _ ⟨p, rfl, hp⟩; exact teardownTask_leads hp p)

/-- Settles O60: BRINGUP keeps its part at every label, B4 that of REFILL on an empty ring, and TEARDOWN its own. -/
theorem lifecycleFrame : Obligations.LifecycleFrame := by
  intro s t
  refine ⟨fun hx => ?_, fun hx => ?_⟩
  · obtain ⟨ho, u, hist, lanes, hu, rfl⟩ := bringup_keeps hx
    exact ⟨by rw [hu.frame], ho, State.keepsBuf_of_eq (by rw [hu.frame]), hu.buffers, hu.bytes⟩
  · obtain ⟨ho, u, hist, lanes, hu, rfl⟩ := teardown_keeps hx
    exact ⟨by rw [hu.frame], ho, State.keepsDesc_of_eq (by rw [hu.frame]), State.keepsBuf_of_eq (by rw [hu.frame]),
      hu.pending, hu.buffers⟩

end Sys2Proof.Machine
end

section
/-! PROOF. A TX completion of the device, access by access: two reads of the descriptor, the buffer's bytes, `TXED`,
then the status (46_device_and_environment R197). -/

namespace Sys2Proof.Machine

/-! ## The buffer's bytes -/

theorem State.length_bufBytes (s : State) (h n : Nat) : (s.bufBytes h n).length = n := by
  simp [State.bufBytes]

theorem State.bufBytes_succ (s : State) (h n : Nat) : s.bufBytes h (n + 1) = s.bufBytes h n ++ [s.bufByte h n] := by
  simp [State.bufBytes, List.range_succ]

/-! ## The accesses of a TX completion -/

theorem devOpStep_tx {i : Nat} {err : Bool} {p : TxPc} {s u : State} {x : Option TxPc}
    (h : devTxStep i err p s = (u, x)) : devOpStep (.tx i err p) s = (u, x.map (.tx i err)) := by
  rw [devOpStep, h]

theorem txDoneStatus_eq (st : Word) (err : Bool) :
    txDoneStatus st err = (st &&& ~~~0x80000000) ||| if err then 0x08000000 else 0 := rfl

/-- The `j`-th completion in progress is a TX completion just begun (R197): it will read the `n` bytes that its
descriptor gives the mapped buffer `h`. -/
structure BegunTx (s : State) (j i h n : Nat) (st : Word) (err : Bool) : Prop where
  valid : ValidConfig s.cfg
  up : s.life = .up
  op : s.dev[j]? = some (.tx i err (.w1len st))
  handle : h < s.cfg.poolSize
  mapped : (s.buffer h).map = some .outbound
  address : (s.descriptor .tx i).2.2 = xlateOf s.cfg h
  fits : (s.descriptor .tx i).2.1.toNat ≤ s.cfg.bufSize
  count : n = (s.descriptor .tx i).2.1.toNat

section
variable {s : State} {j i h n : Nat} {st : Word} {err : Bool} (hb : BegunTx s j i h n st err)
include hb

theorem BegunTx.lt : j < s.dev.length := (List.getElem?_eq_some_iff.mp hb.op).1

/-- The bytes lie in the buffer, so each read gets the buffer's byte (R68). -/
theorem BegunTx.devMemRead {k : Nat} (hk : k < n) (o : DevOp) :
    (s.withOp j o).devMemRead ((xlateOf s.cfg h).toNat + k) = some (s.bufByte h k) :=
  State.devMemRead_outbound (s := s.withOp j o) hb.valid hb.handle ((hb.count ▸ hk).trans_le hb.fits) hb.mapped

/-- After W1's read of `length`. -/
theorem BegunTx.devRun_lengthRead (m : Nat) :
    devRun j (m + 1) s = devRun j m (s.withOp j (.tx i err (.w1addr st (s.descriptor .tx i).2.1))) := by
  have hturn := devRun_goesOn (o := .tx i err (.w1len st)) (m := m) hb.up hb.lt (by rfl) (by rfl)
  rwa [State.withOp_self hb.op] at hturn

/-- After W1's read of `buffer_address`. -/
theorem BegunTx.devRun_addressRead (m : Nat) :
    devRun j (m + 2) s
      = devRun j m (s.withOp j (.tx i err (.w2 st (s.descriptor .tx i).2.1 (xlateOf s.cfg h) []))) := by
  rw [hb.devRun_lengthRead (m + 1), ← hb.address]
  exact devRun_goesOn hb.up hb.lt (by rfl) (by rfl)

/-- After the reads of the buffer's first `k` bytes (W2). -/
theorem BegunTx.devRun_bytesRead {k : Nat} (hk : k ≤ n) (m : Nat) :
    devRun j (k + 2 + m) s = devRun j m
      (s.withOp j (.tx i err (.w2 st (s.descriptor .tx i).2.1 (xlateOf s.cfg h) (s.bufBytes h k)))) := by
  induction k generalizing m with
  | zero =>
    rw [Nat.zero_add, Nat.add_comm]
    exact hb.devRun_addressRead m
  | succ k ih =>
    have hlt : k < n := Nat.lt_of_succ_le hk
    rw [show k + 1 + 2 + m = k + 2 + (m + 1) by omega, ih hlt.le, State.bufBytes_succ]
    refine devRun_goesOn hb.up hb.lt (by rfl) (devOpStep_tx (x := some _) ?_)
    rw [devTxStep, State.length_bufBytes, ← hb.count, if_pos hlt, hb.devMemRead hlt]

/-- After `TXED` (log entry 20). -/
theorem BegunTx.devRun_emitted (m : Nat) :
    devRun j (n + 3 + m) s = devRun j m ((s.emit (.txed i (s.bufBytes h n))).withOp j (.tx i err (.w3 st))) := by
  rw [show n + 3 + m = n + 2 + (m + 1) by omega, hb.devRun_bytesRead (Nat.le_refl n)]
  refine devRun_goesOn (u := s.emit (.txed i (s.bufBytes h n))) hb.up hb.lt (by rfl) (devOpStep_tx (x := some _) ?_)
  rw [devTxStep, State.length_bufBytes, ← hb.count, if_neg (Nat.lt_irrefl n)]
  rfl

/-- After W3's write of `status` the completion is done. -/
theorem BegunTx.devRun_handedBack {k : Nat} (hk : n + 4 ≤ k) :
    devRun j k s = { (s.emit (.txed i (s.bufBytes h n))).descWrite32 (statusAddr s.cfg .tx i) (txDoneStatus st err) with
      dev := s.dev.eraseIdx j } := by
  obtain ⟨m, rfl⟩ := Nat.exists_eq_add_of_le hk
  rw [show n + 4 + m = n + 3 + (m + 1) by omega, hb.devRun_emitted]
  exact devRun_done (s := s.emit (.txed i (s.bufBytes h n))) hb.up hb.lt (by rfl) (by rfl)

end

/-- Settles O52: every byte is read from the buffer, `TXED` carries them, and the one write hands the slot back. -/
theorem deviceCompletesTx : Obligations.DeviceCompletesTx := by
  intro s rest j more i h st err hwf hup hs hop _ hh hmap haddr hfits hmore
  have hb : BegunTx { s with script := rest } j i h _ st err :=
    ⟨Config.valid hwf, hup, hop, hh, hmap, haddr, hfits, rfl⟩
  have hdone := hb.devRun_handedBack hmore
  rw [txDoneStatus_eq] at hdone
  exact (step_of_done hwf (turn_of_script hs)).trans (congrArg Host.Outcome.next hdone)

end Sys2Proof.Machine
end

section
/-! PROOF. What begins a completion of the device, and the device's moves on `ISR` and `RESET`
(46_device_and_environment R195 to R199). -/

namespace Sys2Proof.Machine

/-! ## Completions begin (R195, R196 V1, R197 W1) -/

section
variable {s : State} {r : Ring} {i : Nat}

theorem State.mayComplete_of_grounds (hup : s.life = .up) (hi : i < ringSize s.cfg r)
    (hown : (s.descriptor r i).1.getLsbD 31 = true) (hno : ∀ o ∈ s.dev, o.slot ≠ (r, i)) : s.mayComplete r i = true := by
  rw [State.descriptor_status] at hown
  simp only [State.mayComplete, ownBit, Bool.and_eq_true, beq_iff_eq, decide_eq_true_eq, Bool.not_eq_true',
    List.any_eq_false]
  exact ⟨⟨⟨hup, hi⟩, hown⟩, hno⟩

theorem State.mayComplete_eq_false (hno : s.life = .down ∨ ringSize s.cfg r ≤ i
    ∨ (s.descriptor r i).1.getLsbD 31 = false ∨ ∃ o ∈ s.dev, o.slot = (r, i)) : s.mayComplete r i = false := by
  rw [Bool.eq_false_iff]
  intro hm
  obtain ⟨hup, hi, hown, hfree⟩ := State.mayComplete_iff hm
  obtain hdown | hout | hclear | ⟨o, ho, hslot⟩ := hno
  · exact absurd (hdown.symm.trans hup) (by decide)
  · exact absurd hi hout.not_gt
  · exact absurd (hclear.symm.trans hown) (by decide)
  · exact hfree o ho hslot

theorem State.devRxStart_begins (hm : s.mayComplete .rx i = true) (len : Word) (err : Bool) (bytes : List Byte) :
    s.devRxStart i len err bytes = { s with
      tick := s.tick + 1
      dev := s.dev ++ [.rx i len err bytes s.tick (.v1len (s.descriptor .rx i).1)] } :=
  if_pos hm

theorem State.devRxStart_none (hm : s.mayComplete .rx i = false) (len : Word) (err : Bool) (bytes : List Byte) :
    s.devRxStart i len err bytes = s :=
  if_neg (Bool.eq_false_iff.mp hm)

theorem State.devTxStart_begins (hm : s.mayComplete .tx i = true) (err : Bool) :
    s.devTxStart i err = { s with dev := s.dev ++ [.tx i err (.w1len (s.descriptor .tx i).1)] } :=
  if_pos hm

theorem State.devTxStart_none (hm : s.mayComplete .tx i = false) (err : Bool) : s.devTxStart i err = s :=
  if_neg (Bool.eq_false_iff.mp hm)

end

/-- Settles O53: the grounds on which no completion begins are those that deny what lets one begin. -/
theorem deviceBeginsCompletion : Obligations.DeviceBeginsCompletion := by
  intro s rest i err hwf
  refine ⟨fun len bytes hs => ?_, fun hs => ?_⟩ <;> rw [step_of_done hwf (turn_of_script hs)]
  · refine ⟨fun hup hi hown hno => ?_, fun hno => ?_⟩
    · rw [State.devRxStart_begins (s := { s with script := rest }) (State.mayComplete_of_grounds hup hi hown hno)]
      rfl
    · rw [State.devRxStart_none (s := { s with script := rest }) (State.mayComplete_eq_false hno)]
  · refine ⟨fun hup hi hown hno => ?_, fun hno => ?_⟩
    · rw [State.devTxStart_begins (s := { s with script := rest }) (State.mayComplete_of_grounds hup hi hown hno)]
      rfl
    · rw [State.devTxStart_none (s := { s with script := rest }) (State.mayComplete_eq_false hno)]

/-! ## The causes and the acknowledge (R198, R199) -/

theorem State.devResetAck_requested {s : State} (hr : s.rst.getLsbD 0 = true) (v : Word) :
    s.devResetAck v = { s with rst := s.rst &&& 0xFFFFFFFE, dev := [], isr := v &&& recognized s.cfg } :=
  if_pos hr

theorem State.devResetAck_none {s : State} (hr : s.rst.getLsbD 0 = false) (v : Word) : s.devResetAck v = s :=
  if_neg (Bool.eq_false_iff.mp hr)

/-- Settles O54: `RESET[0]` decides what an acknowledge does, and a raise needs nothing. -/
theorem deviceRaisesAndAcknowledges : Obligations.DeviceRaisesAndAcknowledges := by
  intro s rest v hwf
  refine ⟨fun hs => ?_, fun hs hr => ?_, fun hs hr => ?_⟩ <;> rw [step_of_done hwf (turn_of_script hs)]
  · rfl
  · rw [State.devResetAck_requested (s := { s with script := rest }) hr]
  · rw [State.devResetAck_none (s := { s with script := rest }) hr]

end Sys2Proof.Machine
end

section
/-! PROOF. The level-sensitive interrupt line through an IRQ that handles its causes, and at a later raise
(60_exceptions R219, R222). -/

namespace Sys2Proof.Machine

/-! ## What IRQ does to the line's inputs (R170) -/

section
variable (s : State)

theorem State.reclaimIf_frame (b : Bool) : ReclaimFrame s (s.reclaimIf b) := by
  cases b with
  | false => rfl
  | true => rw [State.reclaimIf, if_pos rfl, State.reclaimAll_eq, State.wakeIf_eq, State.takeAllTx_frame, ReclaimFrame]

theorem State.reportIf_frame (b : Bool) (k : Cause) : ReclaimFrame s (s.reportIf b k) := by cases b <;> rfl

/-- Besides what RECLAIM writes, IRQ writes three registers (R170 I1, I3, I7). -/
theorem State.handleIrq_frame : ReclaimFrame
    (s.irqRegs s.observed (s.pollSched || s.observed.getLsbD s.cfg.isrRxDone) (s.isr &&& ~~~s.observed))
    s.handleIrq := by
  let reclaimed := s.latchCauses.reclaimIf (s.observed.getLsbD s.cfg.isrTxDone)
  let reported := reclaimed.reportIf (s.observed.getLsbD reclaimed.cfg.isrLink) .link
  have hreported : ReclaimFrame s.latchCauses (reported.reportIf (s.observed.getLsbD reclaimed.cfg.isrErr) .err) :=
    ((s.latchCauses.reclaimIf_frame _).trans (reclaimed.reportIf_frame _ _)).trans (reported.reportIf_frame _ _)
  rw [State.handleIrq_eq, State.reportAndAck, hreported]
  rfl

theorem State.handleIrq_cfg : s.handleIrq.cfg = s.cfg := by
  rw [s.handleIrq_frame]
  rfl

theorem State.handleIrq_lineEn : s.handleIrq.lineEn = s.lineEn := by
  rw [s.handleIrq_frame]
  rfl

theorem State.handleIrq_isr : s.handleIrq.isr = s.isr &&& ~~~s.observed := by
  rw [s.handleIrq_frame]
  rfl

/-- IRQ acknowledges every recognized cause that was pending. -/
theorem State.observed_handleIrq : s.handleIrq.observed = 0 := by
  rw [State.observed, State.handleIrq_isr, State.handleIrq_cfg, BitVec.and_assoc,
    BitVec.and_comm (~~~s.observed), ← BitVec.and_assoc, ← State.observed, BitVec.and_not_self]

end

/-! ## The line as a function of the observed causes (R219) -/

section
variable {s : State}

theorem State.lineAsserted_eq : s.lineAsserted = (s.lineEn && s.observed != 0) := rfl

theorem State.lineAsserted_of_observed (hen : s.lineEn = true) (hv : s.observed ≠ 0) : s.lineAsserted = true := by
  rw [State.lineAsserted_eq, hen, Bool.true_and, bne_iff_ne]
  exact hv

theorem State.lineAsserted_of_no_cause (h : s.observed = 0) : s.lineAsserted = false := by
  rw [State.lineAsserted_eq, h, bne_self_eq_false, Bool.and_false]

/-- A raise adds the recognized ones of its causes to those that are pending (R198). -/
theorem State.observed_devRaise (v : Word) : (s.devRaise v).observed = s.observed ||| v &&& recognized s.cfg := by
  have hsame : v &&& recognized s.cfg &&& recognized s.cfg = v &&& recognized s.cfg := by
    rw [BitVec.and_assoc, BitVec.and_self]
  calc (s.isr ||| v &&& recognized s.cfg) &&& recognized s.cfg
    _ = s.observed ||| v &&& recognized s.cfg &&& recognized s.cfg := BitVec.and_or_distrib_right
    _ = s.observed ||| v &&& recognized s.cfg := by rw [hsame]

/-- With no cause pending, the line answers to the raise alone. -/
theorem State.lineAsserted_devRaise (h : s.observed = 0) (v : Word) :
    (s.devRaise v).lineAsserted = (s.lineEn && v &&& recognized s.cfg != 0) := by
  rw [State.lineAsserted_eq, State.observed_devRaise, h, BitVec.ofNat_eq_ofNat, BitVec.zero_or]
  rfl

end

/-- Settles O44: IRQ leaves no recognized cause pending, so the line is deasserted and waits for the next one. -/
theorem lineFollowsCauses : Obligations.LineFollowsCauses := by
  intro s hr hup hv hk htx
  have hnone : (s.handleIrq.emit (.resp s.cur 0)).observed = 0 := s.observed_handleIrq
  refine ⟨fun hen => State.lineAsserted_of_observed hen hv, _, irqHandlesCauses s hr hup hv hk htx,
    s.handleIrq_lineEn, State.lineAsserted_of_no_cause hnone, fun v => ?_⟩
  rw [State.lineAsserted_devRaise hnone, State.emit_lineEn, State.emit_cfg, s.handleIrq_lineEn, s.handleIrq_cfg]

end Sys2Proof.Machine
end
